-- ==== Sys2Proof/Word.lean ====
section
/-!
DEFINITION. The word types of the descriptor ring engine (00_scope.md R7, R9; 30_encoding.md R100, R117).
-/

namespace Sys2Proof

/-- A 32-bit word: operation and argument words, buffer pointers (`PTR_W`), counters (`CNT_W`), CSRs. -/
abbrev Word := BitVec 32

/-- A 16-bit quantity: slot lengths (`LEN_W`) and MDIO data. -/
abbrev Half := BitVec 16

/-- One byte of main memory or of a frame. -/
abbrev Byte := BitVec 8

/-- A MAC address as the 48-bit number of 30_encoding.md R117: octet a0 is the low byte. -/
abbrev Mac := BitVec 48

end Sys2Proof
end

