-- ==== Sys2Proof/Syntax.lean ====
section
/-!
DEFINITION. The syntax: one constructor of `Instr` for each of the 41 rows of spec/opcode_table.json
(30_encoding.md R119 host operations, R120 backend primitives, R121 agent steps), with the operands of its format,
and the tuple of words an operation is presented as (R100).
-/

namespace Sys2Proof

/-- The operand `RING` of format X: 0 the Tx ring, 1 the Rx ring (30_encoding.md R111). -/
inductive Ring where
  | tx | rx
deriving DecidableEq, Repr

/-- The words of an operation, less its port (30_encoding.md R100). -/
structure OpTuple where
  opw : Word
  arg0 : Word
  arg1 : Word
  arg2 : Word
deriving DecidableEq, Repr

/-- The 41 transitions of 50_semantics_summary.md R280. Operand widths are those of the formats R104 to R116. -/
inductive Instr where
  -- host operations (R119)
  | init
  | deinit
  | enable (speed duplex : BitVec 2)
  | disable
  | txEnqueue (first last : Bool) (buf : Word) (len : Half)
  | txReclaim
  | rxPrime (buf : Word)
  | rxPoll
  | setOwnAddr (addr : Mac)
  | addMcast (addr : Mac)
  | clearMcast
  | setPam (v : Bool)
  | setPromisc (v : Bool)
  | mdioRead (dev reg : BitVec 5)
  | mdioWrite (dev reg : BitVec 5) (val : Half)
  | isrDispatch (line : Bool)
  -- backend primitives (R120)
  | startDma (ring : Ring)
  | stopDma (ring : Ring)
  | isSlotOwnedByDma (ring : Ring) (idx : Word)
  | writeTxDesc (first last : Bool) (idx buf : Word) (len : Half)
  | writeRxDesc (idx buf : Word)
  | isFirstFragment (ring : Ring) (idx : Word)
  | isLastFragment (ring : Ring) (idx : Word)
  | isErrorFragment (ring : Ring) (idx : Word)
  | totalFrameLength (ring : Ring) (idx idx2 : Word)
  | isBufferDmaReadable (ptr : Word) (len : Half)
  | writeUnicastAddr (addr : Mac)
  | writeMcastAddr (slot : BitVec 5) (valid : Bool) (addr : Mac)
  | setLinkConfig (en : Bool) (speed duplex : BitVec 2)
  | mdioTransaction (wr : Bool) (dev reg : BitVec 5) (val : Half)
  | writeFilterFlags (effPam effPau : Bool)
  -- steps of the hardware agents (R121)
  | txdmaFetch
  | txdmaComplete
  | txdmaSuspend
  | txdmaBusError
  | rxFrameArrive
  | rxdmaWrite
  | rxdmaSuspend
  | rxdmaBusError
  | statusEvent (kind : BitVec 8)
  | mdioDone
deriving DecidableEq, Repr

end Sys2Proof
end

