-- ==== Sys2Proof/Config.lean ====
section
/-!
DEFINITION. The implementation parameters (00_scope.md R5 to R8), held in State as plain data so that every statement
over states is a statement over every backend (log 1), and the free values: opaque constants with no body, applied to
the counter of draws (00_scope.md R16, 10_state.md R62; log 4, log 7).
-/

namespace Sys2Proof

/-- The error verdicts of the MAC datapath on a frame, a subset of Crc, TooLong, Align (10_state.md R36). -/
structure ErrSet where
  crc : Bool
  tooLong : Bool
  align : Bool
deriving DecidableEq, Repr, Inhabited

/-- The parameters RX_FRAME_ARRIVE draws from the wire (44_dma_agents.md R235). -/
structure Frame where
  data : List Byte
  errs : ErrSet
  midErr : Option Nat
deriving DecidableEq, Repr, Inhabited

/-- The oracle `RxAlloc` at the n-th draw (00_scope.md R16): `none` is an empty pool. -/
opaque Config.rxAlloc : Nat → Option Word

/-- The frame the wire delivers at the n-th draw (44_dma_agents.md R235). -/
opaque Config.wireFrame : Nat → Frame

/-- The oracle `PhyRead(dev, reg)` at the n-th draw (00_scope.md R16). -/
opaque Config.phyRead : Nat → BitVec 5 → BitVec 5 → Half

/-- What an unspecified bit reads as at the n-th draw (10_state.md R62, 93_implementation_defined.md V1). -/
opaque Config.unspecifiedBits : Nat → Word

/-- Which of the values a race allows the `k`-th byte of a buffer has, at the n-th draw (20_memory.md R89, "any mix of
old and new values"; log 13). -/
opaque Config.raceChoice : Nat → Nat → Nat

/-- The platform's `DmaReadable(ptr, len)` (00_scope.md R8), any total function of its operands; the first argument
names the platform. -/
opaque Config.dmaReadable : Nat → Word → Half → Bool

/-- The parameter `DmaReadable` as plain data: two forms the vectors use, and the free function of a platform. -/
inductive DmaRule where
  /-- True everywhere: the convention of 95_test_vectors.md. -/
  | everywhere
  /-- True when the fragment lies in one of the windows `[lo, hi)` (95_test_vectors.md T5). -/
  | windows (ws : List (Nat × Nat))
  /-- The opaque function `Config.dmaReadable n`. -/
  | platform (n : Nat)
deriving DecidableEq, Repr

/-- `IRQ_LINES` (00_scope.md R6): one line, or one per direction. -/
inductive IrqLines where
  | one | perDirection
deriving DecidableEq, Repr

/-- The parameters of 00_scope.md R5 to R8. `PORT_BINDING` has no field: the list `env.inputs` stands for it (log 2). -/
structure Params where
  /-- `D_TX` -/
  dTx : Nat
  /-- `D_RX` -/
  dRx : Nat
  /-- `MCAST_CAP` -/
  mcastCap : Nat
  /-- `CHAINED` -/
  chained : Bool
  /-- `IRQ_LINES` -/
  irqLines : IrqLines
  /-- `RX_BUF_SIZE` -/
  rxBufSize : Nat
  /-- `TX_DESC_BASE` -/
  txDescBase : Word
  /-- `RX_DESC_BASE` -/
  rxDescBase : Word
  /-- `CSR_BASE`, if the platform maps the CSRs into memory -/
  csrBase : Option Word
  /-- `DmaReadable` -/
  dmaReadable : DmaRule
  /-- `ACCEPT_BROADCAST` -/
  acceptBroadcast : Bool
  /-- `FAIR`: read by no step, only by the liveness predicate of Safety.lean -/
  fair : Bool
deriving DecidableEq, Repr

/-- Two address ranges that wrap modulo 2^32 (20_memory.md R71) share an address. -/
def rangesMeet (a : Word) (n : Nat) (b : Word) (m : Nat) : Bool :=
  0 < n && 0 < m && ((b - a).toNat < n || (a - b).toNat < m)

/-- The ranges of 92_eei_decisions.md section 2, and the placement rule 20_memory.md R78. -/
def Params.wf (c : Params) : Bool :=
  1 ≤ c.dTx && c.dTx ≤ 65535 && 1 ≤ c.dRx && c.dRx ≤ 65535 && c.mcastCap ≤ 31
    && 1 ≤ c.rxBufSize && c.rxBufSize ≤ 65535
    && c.txDescBase.toNat % 16 == 0 && c.rxDescBase.toNat % 16 == 0
    && (match c.csrBase with | none => true | some b => b.toNat % 4 == 0)
    && !rangesMeet c.txDescBase (16 * c.dTx) c.rxDescBase (16 * c.dRx)

/-- The conventions of 95_test_vectors.md, with descriptor arrays and CSRs placed by this model. DESIGN CHOICE, log 1. -/
def Params.vectors : Params where
  dTx := 4
  dRx := 4
  mcastCap := 14
  chained := false
  irqLines := .perDirection
  rxBufSize := 2048
  txDescBase := 0x40000000#32
  rxDescBase := 0x40100000#32
  csrBase := some 0x40200000#32
  dmaReadable := .everywhere
  acceptBroadcast := true
  fair := false

end Sys2Proof
end

