-- ==== Sys2Proof/Machine/State.lean ====
section
/-!
DEFINITION. The state of the block (10_state.md R20 to R49), the words of its ports (30_encoding.md R100, R101), the
model's own fields (parameters, what happens next, oracle answers; log 1, 2, 4), the faults, the refusals, and the
power-on state (R63).
-/

namespace Sys2Proof.Machine

/-- The ownership flag of a slot (10_state.md R22, R23). -/
inductive Owner where
  | software | dma
deriving DecidableEq, Repr

/-- One slot of a ring (10_state.md R22). -/
structure Slot where
  own : Owner
  buf : Word
  len : Half
  first : Bool
  last : Bool
  err : Bool
deriving DecidableEq, Repr

/-- The slot DEINIT leaves (10_state.md R25): (software, 0, 0, 0, 0, 0). -/
def Slot.empty : Slot := ⟨.software, 0#32, 0#16, false, false, false⟩

/-- The lifecycle state (10_state.md R21). -/
inductive Life where
  | uninitialized | initialized | enabled | disabled | deinitialized
deriving DecidableEq, Repr

/-- The run state of a DMA engine (10_state.md R34). -/
inductive DmaState where
  | stopped | idle | active
deriving DecidableEq, Repr

/-- The two fatal kinds (10_state.md R39, 60_exceptions.md R294). -/
inductive FatalKind where
  | txBusError | rxBusError
deriving DecidableEq, Repr

/-- `speed` (10_state.md R42). -/
inductive Speed where
  | s10 | s100
deriving DecidableEq, Repr

/-- `duplex` (10_state.md R42). -/
inductive Duplex where
  | half | full
deriving DecidableEq, Repr

/-- The Tx ring: slot array, book, indices, engine state (10_state.md R22, R26, R29 to R31, R34, R35). -/
structure TxRing where
  /-- `txSlot` -/
  slots : List Slot
  /-- `txBook` -/
  book : List (Option Word)
  /-- `txCursor` -/
  cursor : Nat
  /-- `txHead` -/
  head : Nat
  /-- `txFree` -/
  free : Nat
  /-- `txOpen` -/
  openFrame : Bool
  /-- `txHw` -/
  hw : Nat
  /-- `txDma` -/
  dma : DmaState
  /-- `txInflight` -/
  inflight : Option Nat
  /-- `txAccum` -/
  accum : List Byte
deriving DecidableEq, Repr

/-- `rxPending` when it is `some` (10_state.md R36). -/
structure RxFrame where
  data : List Byte
  off : Nat
  errs : ErrSet
  midErr : Option Nat
deriving DecidableEq, Repr

/-- The Rx ring: slot array, book, indices, engine state (10_state.md R22, R26, R32, R34, R36). -/
structure RxRing where
  /-- `rxSlot` -/
  slots : List Slot
  /-- `rxBook` -/
  book : List (Option Word)
  /-- `rxCursor` -/
  cursor : Nat
  /-- `rxPrime` -/
  prime : Nat
  /-- `rxUnprimed` -/
  unprimed : Nat
  /-- `rxHw` -/
  hw : Nat
  /-- `rxDma` -/
  dma : DmaState
  /-- `rxPending` -/
  pending : Option RxFrame
deriving DecidableEq, Repr

/-- The MAC driver's state (10_state.md R40 to R45). -/
structure MacState where
  pam : Bool
  promisc : Bool
  effPam : Bool
  effPau : Bool
  macEn : Bool
  speed : Speed
  duplex : Duplex
  ucast : Option Mac
  mcast : List Mac
  addrTab : List (Option Mac)
deriving DecidableEq, Repr

/-- `mdioReq` (10_state.md R46). -/
structure MdioReq where
  wr : Bool
  dev : BitVec 5
  reg : BitVec 5
  val : Half
deriving DecidableEq, Repr

/-- The MDIO engine's state (10_state.md R46). -/
structure MdioState where
  /-- `mdioBusy` -/
  busy : Bool
  /-- `mdioReq` -/
  req : MdioReq
  /-- `mdioData` -/
  data : Half
deriving DecidableEq, Repr

/-- The interrupt unit (10_state.md R37, R38). -/
structure IrqState where
  /-- `irqStatus` -/
  status : BitVec 10
  /-- `irqEnable` -/
  enable : BitVec 10
  /-- `irqGlobal` -/
  globalOn : Bool
deriving DecidableEq, Repr

/-- The seven statistics counters (10_state.md R47). -/
structure Counters where
  rxError : Word
  rxOverrun : Word
  crcError : Word
  txUnderrun : Word
  frameTooLong : Word
  lateCollision : Word
  alignError : Word
deriving DecidableEq, Repr

/-- The notifications (60_exceptions.md R298). -/
inductive Notification where
  | frameReceived (bufs : List Word) (len : Word)
  | frameTransmitted (token : Word)
  | linkFault (kind : FatalKind)
  | bufferReleased (ptr : Word)
deriving DecidableEq, Repr

/-- The output lists (10_state.md R48). -/
structure Outputs where
  notify : List Notification
  txWire : List (List Byte)
  mdioOut : List (BitVec 5 × BitVec 5 × Half)
deriving DecidableEq, Repr

/-- What a port holds (70_reset_and_hazards.md R351): one of the four operations that hold, or an MDIO operation whose
MDIO_DONE has come, with the `RET0` of the answer that is due (log 24). -/
inductive Held where
  | disable | deinit | mdioRead | mdioWrite
  | mdioOver (ret : Word)
deriving DecidableEq, Repr

/-- Where a port stands (00_scope.md R11; log 11): nothing presented yet; presented and not answered (after
`raise Fatal` it stays so, 60_exceptions.md R296); answered; the operation has begun and holds. -/
inductive Phase where
  | idle
  | unanswered
  | answered
  | held (h : Held)
deriving DecidableEq, Repr

/-- The words of one port (30_encoding.md R100, R101), and what that context's last CsrRead or load returned. -/
structure PortRegs where
  opw : Word
  arg0 : Word
  arg1 : Word
  arg2 : Word
  result : Word
  ret0 : Word
  phase : Phase
  rdata : Word
deriving DecidableEq, Repr

/-- A port nothing was presented on. -/
def PortRegs.clear : PortRegs := ⟨0#32, 0#32, 0#32, 0#32, 0#32, 0#32, .idle, 0#32⟩

/-- The four ports (30_encoding.md R101). -/
structure Ports where
  fg : PortRegs
  txi : PortRegs
  rxi : PortRegs
  be : PortRegs
deriving DecidableEq, Repr

/-- Who makes a transition: a port, or the hardware agents, which have none (30_encoding.md R101). -/
inductive Issuer where
  | fg | txi | rxi | be | hw
deriving DecidableEq, Repr

/-- What happens next at the block (log 2): the choice 00_scope.md R12 leaves open. -/
inductive Stim where
  /-- A tuple presented on a port, or (`hw`) the step of a hardware agent, named by its trace tag. -/
  | present (p : Issuer) (t : OpTuple)
  /-- The end of the operation held on a port (00_scope.md R11 d). -/
  | complete (p : Issuer)
  /-- `CsrRead(n)` by a host context (10_state.md R50). -/
  | csrRead (p : Issuer) (n : Nat)
  /-- A byte load of the host over the platform's address map (20_memory.md R70, R77, R84). -/
  | load (p : Issuer) (addr : Word)
  /-- A 32-bit load of the host over the address map: a slot word or a CSR whole (20_memory.md R80, R81). -/
  | loadWord (p : Issuer) (addr : Word)
  /-- A byte store of the host to main memory (20_memory.md R70). -/
  | store (p : Issuer) (addr : Word) (val : Byte)
  /-- Power-on reset (70_reset_and_hazards.md R330). -/
  | powerOn
deriving DecidableEq, Repr

/-- A store to a byte of a buffer whose slot a DMA engine owns: a race (20_memory.md R89, 93_implementation_defined.md
U5). The engine, when it moves the byte at `addr` of that slot's buffer, may use `val` instead of what it would find:
on Tx the old value of the byte, on Rx the stored one (log 13). -/
structure Race where
  ring : Ring
  slot : Nat
  addr : Word
  val : Byte
deriving DecidableEq, Repr

/-- The model's own record of the environment: what happens next, who is making the running transition, the oracle
answers chosen ahead, the counter of free draws (log 2, log 4), the stores that race with a DMA engine (log 13), and the
port whose held operation waits for the MDIO transaction that runs (log 24). -/
structure Env where
  inputs : List Stim
  issuer : Issuer
  alloc : List (Option Word)
  wire : List Frame
  phy : List Half
  drawn : Nat
  races : List Race
  mdioFor : Option Issuer
deriving DecidableEq, Repr

/-- The state of the block: 10_state.md R21 to R49 by family (43_engine.md R205), the ports, the parameters and the
environment. -/
structure State where
  cfg : Params
  life : Life
  fatal : Option FatalKind
  tx : TxRing
  rx : RxRing
  mac : MacState
  mdio : MdioState
  irq : IrqState
  cnt : Counters
  out : Outputs
  mem : List Host.Cell
  ports : Ports
  env : Env
deriving DecidableEq, Repr

/-- Why the machine stops: there is no transition. Each is SAFE: the model stops where the spec gives no step (log 9). -/
inductive Fault where
  /-- Raised by every legal host operation, primitive, agent step and end of a hold while the fatal latch is set: "no
  host operation and no hardware agent step of this spec has a step; the block is dead until power-on reset"
  (43_engine.md R206). Safe. -/
  | fatalLatched
  /-- Raised by ISR_DISPATCH while `irqGlobal` is false: "no step" (60_exceptions.md R308 line 3). Safe. -/
  | interruptsOff
  /-- Raised by an agent step, or the end of a hold, whose precondition is false (44_dma_agents.md R230, 00_scope.md
  R11 d), by a host operation or a primitive named as an agent step, and by a primitive on `be` outside a host
  operation: "A primitive is not a step of its own" (45_backend_primitives.md R260, R276; log 10). Safe. -/
  | stepNotEnabled
deriving DecidableEq, Repr

/-- Why the run has no meaning (00_scope.md R11 b). Each is SAFE: nothing is claimed of the run from there on. -/
inductive Refusal where
  /-- Raised by an arm of `exec` whose instruction has no meaning yet. Safe. -/
  | notModelled (mnemonic : String)
  /-- Raised by TX_ENQUEUE with `LEN` = 0 (40_tx_ring.md R131 line 4). Safe. -/
  | zeroLengthFragment
  /-- Raised by TX_ENQUEUE of a fragment on an unchained backend (R131 line 5). Safe. -/
  | fragmentOnUnchainedBackend
  /-- Raised by TX_ENQUEUE with `FIRST` = `txOpen` (R131 line 6, R135). Safe. -/
  | fragmentSequence
  /-- Raised by TX_ENQUEUE of a buffer the Tx engine cannot read (R131 line 7). Safe. -/
  | bufferNotDmaReadable
  /-- Raised by RX_PRIME with no unprimed slot (41_rx_ring.md R151 line 4). Safe. -/
  | noUnprimedSlot
  /-- Raised by RX_PRIME of a buffer already in `rxBook` (R151 line 5). Safe. -/
  | bufferAlreadyAttached
  /-- Raised by RX_POLL and ISR_DISPATCH on a malformed run (41_rx_ring.md R153, R154). Safe. -/
  | ringDesync
  /-- Raised by SET_OWN_ADDR while `Enabled` (42_mac_driver.md R173 line 4). Safe. -/
  | setOwnAddrWhileEnabled
  /-- Raised by ENABLE while `Enabled` (R178 line 5). Safe. -/
  | enableWhileEnabled
  /-- Raised by ENABLE with no own address (R178 line 6). Safe. -/
  | enableWithoutOwnAddress
  /-- Raised by MDIO_READ and MDIO_WRITE while a transaction runs (R180 line 4, R181 line 4). Safe. -/
  | mdioWhileBusy
  /-- Raised when a tuple is presented on a port whose operation holds: "until then the issuing context issues nothing
  else" (00_scope.md R11 d). Safe (log 11). -/
  | portHeld
  /-- Raised by a primitive with an index, slot or code outside its range: "the spec gives it no meaning"
  (45_backend_primitives.md R260, 93_implementation_defined.md E9). Safe (log 10). -/
  | primitiveOutOfRange
  /-- Raised by a primitive whose precondition is false (R264, R265, R274). Safe (log 10). -/
  | primitivePrecondition
  /-- Raised when the `be` port carries anything but a legal primitive (R276). Safe (log 10). -/
  | illegalPrimitive
  /-- Raised by INIT under parameters out of their ranges, wherever a buffer that overlaps a descriptor array would be
  attached to a slot (TX_ENQUEUE, RX_PRIME, INIT, RX_POLL, ISR_DISPATCH), and by a DMA step on one (20_memory.md R78,
  93_implementation_defined.md P1). Safe (log 8, log 14). -/
  | platformOutsideSpec
  /-- Raised by RX_FRAME_ARRIVE with the gate on before INIT (93_implementation_defined.md U1). Safe (log 19). -/
  | unprimedRing
  /-- Raised by RX_POLL and ISR_DISPATCH in a state that breaks 10_state.md R33: a filled slot with no book entry. Safe
  (log 12). -/
  | ringInvariantBroken
  /-- Raised by a host store to a CSR or to a slot image, which the spec gives no effect (10_state.md R50, R24). Safe
  (log 21). -/
  | storeToBlock
deriving DecidableEq, Repr

/-- The outcome of a meaning. -/
abbrev Result := Host.Outcome State Fault Refusal

/-- Power-on state of the block for given parameters (10_state.md R63). Elements the rule leaves unspecified hold the
values of log 5, memory that of log 6, ports those of log 16. -/
def State.resetWith (c : Params) : State where
  cfg := c
  life := .uninitialized
  fatal := none
  tx :=
    { slots := List.replicate c.dTx Slot.empty, book := List.replicate c.dTx none, cursor := 0, head := 0, free := 0,
      openFrame := false, hw := 0, dma := .stopped, inflight := none, accum := [] }
  rx :=
    { slots := List.replicate c.dRx Slot.empty, book := List.replicate c.dRx none, cursor := 0, prime := 0,
      unprimed := 0, hw := 0, dma := .stopped, pending := none }
  mac :=
    { pam := false, promisc := false, effPam := false, effPau := false, macEn := false, speed := .s10, duplex := .half,
      ucast := none, mcast := [], addrTab := List.replicate (c.mcastCap + 1) none }
  mdio := { busy := false, req := ⟨false, 0#5, 0#5, 0#16⟩, data := 0#16 }
  irq := { status := 0#10, enable := 0#10, globalOn := false }
  cnt := ⟨0#32, 0#32, 0#32, 0#32, 0#32, 0#32, 0#32⟩
  out := ⟨[], [], []⟩
  mem := []
  ports := ⟨PortRegs.clear, PortRegs.clear, PortRegs.clear, PortRegs.clear⟩
  env := { inputs := [], issuer := .hw, alloc := [], wire := [], phy := [], drawn := 0, races := [], mdioFor := none }

/-- The machine right after power-on reset (10_state.md R63), with the parameters of log 1. -/
def State.reset : State := State.resetWith Params.vectors

end Sys2Proof.Machine
end

