-- ==== Sys2Proof/Machine/Memory.lean ====
section
/-!
DEFINITION. Main memory (10_state.md R49, 20_memory.md R71, R72): a list of address and byte pairs in one canonical
form, and the byte lists the DMA engines move.
-/

namespace Sys2Proof.Machine

/-- What a byte that nothing has written reads as. DESIGN CHOICE, log 6: the spec leaves `Mem` unspecified (R63). -/
def unwrittenByte : Byte := 0#8

/-- The byte at an address. -/
def memRead : List Host.Cell → Nat → Byte
  | [], _ => unwrittenByte
  | c :: m, a => if c.1 = a then c.2 else memRead m a

/-- Store one byte, keeping addresses rising and listing no byte equal to `unwrittenByte`. -/
def memWrite : List Host.Cell → Nat → Byte → List Host.Cell
  | [], a, v => if v = unwrittenByte then [] else [(a, v)]
  | c :: m, a, v =>
    if a < c.1 then (if v = unwrittenByte then c :: m else (a, v) :: c :: m)
    else if a = c.1 then (if v = unwrittenByte then m else (a, v) :: m)
    else c :: memWrite m a v

/-- The canonical form: addresses strictly rising and below 2^32, no entry equal to what an unlisted address reads as. -/
abbrev Memory.wf (m : List Host.Cell) : Prop :=
  m.Pairwise (fun x y => x.1 < y.1) ∧ ∀ c ∈ m, c.1 < 2 ^ 32 ∧ c.2 ≠ unwrittenByte

/-- `MemRead(addr, n)` (00_scope.md R10): the bytes at `addr`, `addr + 1`, ..., modulo 2^32. -/
def readBytes (m : List Host.Cell) (addr : Word) : Nat → List Byte
  | 0 => []
  | n + 1 => memRead m addr.toNat :: readBytes m (addr + 1#32) n

/-- `MemWrite(addr, n, v)` (00_scope.md R10), with `n` the length of `v`. -/
def writeBytes (m : List Host.Cell) (addr : Word) : List Byte → List Host.Cell
  | [] => m
  | v :: vs => writeBytes (memWrite m addr.toNat v) (addr + 1#32) vs

end Sys2Proof.Machine
end

