-- ==== Sys2Proof/Machine/Ops.lean ====
section
/-!
DEFINITION. The named operations over the state: ports and answers (30_encoding.md R100, R101, R103), the slot arrays
(10_state.md R22), the fifteen backend primitives (45_backend_primitives.md R261 to R275), the oracles (00_scope.md
R16), the outputs (10_state.md R48), the fatal path (60_exceptions.md R296), and the outcome of what is illegal
(30_encoding.md R122).
-/

namespace Sys2Proof.Machine

/-! Ports and answers. -/

/-- `RESULT` = `OK` (60_exceptions.md R290). -/
def rcOk : Word := 0#32

/-- `RESULT` = `OUT_OF_MEMORY` (60_exceptions.md R290). -/
def rcOutOfMemory : Word := 1#32

/-- `RESULT` = `CONFIG_ERROR` (60_exceptions.md R290). -/
def rcConfigError : Word := 2#32

/-- The words of a port; the hardware agents have none and read as a clear one. -/
def State.port (s : State) : Issuer → PortRegs
  | .fg => s.ports.fg
  | .txi => s.ports.txi
  | .rxi => s.ports.rxi
  | .be => s.ports.be
  | .hw => PortRegs.clear

/-- Replace the words of a port; the hardware agents have none. -/
def State.setPort (s : State) (p : Issuer) (r : PortRegs) : State :=
  match p with
  | .fg => { s with ports := { s.ports with fg := r } }
  | .txi => { s with ports := { s.ports with txi := r } }
  | .rxi => { s with ports := { s.ports with rxi := r } }
  | .be => { s with ports := { s.ports with be := r } }
  | .hw => s

/-- `return (res, val)`: the operation that is running ends with an answer on its port (00_scope.md R10). -/
def State.answer (s : State) (res val : Word) : State :=
  s.setPort s.env.issuer { s.port s.env.issuer with result := res, ret0 := val, phase := .answered }

/-- `hold until`: the operation that is running has begun and gives no answer yet (00_scope.md R11 d). -/
def State.hold (s : State) (h : Held) : State :=
  s.setPort s.env.issuer { s.port s.env.issuer with phase := .held h }

/-- A tuple presented on a port (30_encoding.md R100), or the tag of an agent step: the words are latched and `p` is
the one whose transition runs. -/
def State.latch (s : State) (p : Issuer) (t : OpTuple) : State :=
  let s1 := s.setPort p
    { s.port p with opw := t.opw, arg0 := t.arg0, arg1 := t.arg1, arg2 := t.arg2, phase := .unanswered }
  { s1 with env := { s1.env with issuer := p } }

/-- A tuple or tag that is illegal where it stands: on a host port it answers `CONFIG_ERROR` and changes nothing else
(30_encoding.md R122), on `be` it has no meaning (R276), and no hardware agent takes such a step. -/
def illegal (s : State) : Result :=
  match s.env.issuer with
  | .fg | .txi | .rxi => .next (s.answer rcConfigError 0#32)
  | .be => .refused .illegalPrimitive
  | .hw => .fault .stepNotEnabled

/-! The slot arrays. -/

/-- The depth of a ring (00_scope.md R5). -/
def depth (c : Params) : Ring → Nat
  | .tx => c.dTx
  | .rx => c.dRx

/-- `(i + 1) mod D` (00_scope.md R13). -/
def nextIdx (d i : Nat) : Nat := (i + 1) % d

/-- The `n` slots from `a` in ring order (00_scope.md R15). -/
def ringSlots (d a n : Nat) : List Nat := (List.range n).map fun k => (a + k) % d

/-- `txSlot[i]`. -/
def State.txSlot (s : State) (i : Nat) : Slot := s.tx.slots.getD i Slot.empty

/-- `rxSlot[i]`. -/
def State.rxSlot (s : State) (i : Nat) : Slot := s.rx.slots.getD i Slot.empty

/-- The slot of a ring. -/
def State.slot (s : State) : Ring → Nat → Slot
  | .tx, i => s.txSlot i
  | .rx, i => s.rxSlot i

/-- `txSlot[i] <- x`. -/
def State.setTxSlot (s : State) (i : Nat) (x : Slot) : State :=
  { s with tx := { s.tx with slots := s.tx.slots.set i x } }

/-- `rxSlot[i] <- x`. -/
def State.setRxSlot (s : State) (i : Nat) (x : Slot) : State :=
  { s with rx := { s.rx with slots := s.rx.slots.set i x } }

/-- `txBook[i]`. -/
def State.txTok (s : State) (i : Nat) : Option Word := s.tx.book.getD i none

/-- `rxBook[i]`. -/
def State.rxTok (s : State) (i : Nat) : Option Word := s.rx.book.getD i none

/-- The DMA engine owns the slot, and its buffer holds the byte at `a` (20_memory.md R72). -/
def slotHolds (s : State) (r : Ring) (i : Nat) (a : Word) : Bool :=
  let n := match r with
    | .tx => (s.slot r i).len.toNat
    | .rx => s.cfg.rxBufSize
  (s.slot r i).own == .dma && (a - (s.slot r i).buf).toNat < n

/-! Stores, and the races they start with a DMA engine (20_memory.md R89, 93_implementation_defined.md U5; log 13). -/

/-- The races a store of `v` at `a` starts, one for each slot whose engine may be moving that byte. -/
def racesAt (s : State) (a : Word) (v : Byte) : List Race :=
  ((List.range s.cfg.dTx).filter fun i => slotHolds s .tx i a).map (⟨.tx, ·, a, memRead s.mem a.toNat⟩)
    ++ ((List.range s.cfg.dRx).filter fun i => slotHolds s .rx i a).map (⟨.rx, ·, a, v⟩)

/-- The races the stores of a list of bytes start. -/
def racesAlong (s : State) : Word → List Byte → List Race
  | _, [] => []
  | a, v :: vs => racesAt s a v ++ racesAlong s (a + 1#32) vs

/-- `MemWrite(addr, n, v)` (00_scope.md R10), with `n` the length of `v`. -/
def State.storeBytes (s : State) (a : Word) (vs : List Byte) : State :=
  { s with mem := writeBytes s.mem a vs, env := { s.env with races := s.env.races ++ racesAlong s a vs } }

/-- The other values the engine of a slot may use for the byte at `a`. -/
def raceVals (s : State) (r : Ring) (i : Nat) (a : Word) : List Byte :=
  (s.env.races.filter fun x => x.ring == r && x.slot == i && x.addr == a).map Race.val

/-- The byte at `a` is in the buffer of a filled Rx slot (10_state.md R27): written, and not handed up yet. -/
def filledHolds (s : State) (a : Word) : Bool :=
  (List.range s.cfg.dRx).any fun i =>
    (s.rxSlot i).own == .software
      && match s.rxTok i with
        | some p => (a - p).toNat < s.cfg.rxBufSize
        | none => false

/-- The value a store to a byte may leave in place: of a filled buffer the stack gets the old byte or the new one. -/
def filledVals (s : State) (a : Word) : List Byte := if filledHolds s a then [memRead s.mem a.toNat] else []

/-- `b`, or with other values a free one of `b` and them: the choice number `k` of the next draw. -/
def anyOf (s : State) (k : Nat) (b : Byte) (others : List Byte) : Byte :=
  match others with
  | [] => b
  | v :: vs => (b :: v :: vs).getD (Config.raceChoice s.env.drawn k % (vs.length + 2)) b

/-- The other values the byte at `a` may take when the engine of a slot moves it. -/
def otherVals (s : State) (r : Ring) (i : Nat) (a : Word) : List Byte :=
  match r with
  | .tx => raceVals s .tx i a
  | .rx => raceVals s .rx i a ++ filledVals s a

/-- What the engine of a slot moves for its `k`-th byte, at `a`: `b` without a race, else a free one of the values. -/
def settled (s : State) (r : Ring) (i k : Nat) (a : Word) (b : Byte) : Byte := anyOf s k b (otherVals s r i a)

/-- The bytes the engine of a slot moves, from the `k`-th on, at `a`. -/
def settledBytes (s : State) (r : Ring) (i : Nat) : Nat → Word → List Byte → List Byte
  | _, _, [] => []
  | k, a, b :: bs => settled s r i k a b :: settledBytes s r i (k + 1) (a + 1#32) bs

/-- The engine is through with a slot: its races are over, and if there were any, a draw was made. -/
def State.endRaces (s : State) (r : Ring) (i : Nat) : State :=
  let ended := fun x : Race => x.ring == r && x.slot == i
  { s with env :=
      { s.env with
        drawn := if s.env.races.any ended then s.env.drawn + 1 else s.env.drawn
        races := s.env.races.filter fun x => !ended x } }

/-- A draw was made, if `b`. -/
def State.drewIf (s : State) (b : Bool) : State :=
  { s with env := { s.env with drawn := if b then s.env.drawn + 1 else s.env.drawn } }

/-! The backend primitives (45_backend_primitives.md). -/

/-- `startDMA(ring)` (R261). -/
def startDMA (r : Ring) (s : State) : State :=
  match r with
  | .tx => { s with tx := { s.tx with dma := .active } }
  | .rx => { s with rx := { s.rx with dma := .active } }

/-- `stopDMA(ring)` (R262). -/
def stopDMA (r : Ring) (s : State) : State :=
  match r with
  | .tx => { s with tx := { s.tx with dma := .stopped } }
  | .rx => { s with rx := { s.rx with dma := .stopped } }

/-- `isSlotOwnedByDma(ring, idx)` (R263). -/
def ownedByDma (s : State) (r : Ring) (i : Nat) : Bool := (s.slot r i).own == .dma

/-- `isFirstFragment(ring, idx)` (R266). -/
def isFirst (s : State) (r : Ring) (i : Nat) : Bool := (s.slot r i).first

/-- `isLastFragment(ring, idx)` (R267). -/
def isLast (s : State) (r : Ring) (i : Nat) : Bool := (s.slot r i).last

/-- `isErrorFragment(ring, idx)` (R268). -/
def isError (s : State) (r : Ring) (i : Nat) : Bool := (s.slot r i).err

/-- `writeTxDescriptor(idx, buffer, length, isFirst, isLast)` (R264). -/
def writeTxDescriptor (i : Nat) (buf : Word) (len : Half) (first last : Bool) (s : State) : State :=
  s.setTxSlot i { own := .dma, buf := buf, len := len, first := first, last := last, err := false }

/-- `writeRxDescriptor(idx, buffer)` (R265). -/
def writeRxDescriptor (i : Nat) (buf : Word) (s : State) : State :=
  s.setRxSlot i { own := .dma, buf := buf, len := 0#16, first := false, last := false, err := false }

/-- `totalFrameLength(firstIdx, lastIdx)` (R269): the sum of `len` over `((last - first) mod D) + 1` slots. -/
def totalLength (s : State) (r : Ring) (i j : Nat) : Nat :=
  let d := depth s.cfg r
  ((ringSlots d i ((j + d - i) % d + 1)).map fun k => (s.slot r k).len.toNat).sum

/-- `isBufferDmaReadable(ptr, len)` (R270): the parameter `DmaReadable`. -/
def bufferDmaReadable (c : Params) (ptr : Word) (len : Half) : Bool :=
  match c.dmaReadable with
  | .everywhere => true
  | .windows ws => ws.any fun w => w.1 ≤ ptr.toNat && ptr.toNat + len.toNat ≤ w.2
  | .platform n => Config.dmaReadable n ptr len

/-- `writeUnicastAddress(addr)` (R271). -/
def writeUnicastAddress (a : Mac) (s : State) : State :=
  { s with mac := { s.mac with addrTab := s.mac.addrTab.set 0 (some a) } }

/-- `writeMulticastAddress(slot, a)` (R272). -/
def writeMulticastAddress (k : Nat) (a : Option Mac) (s : State) : State :=
  { s with mac := { s.mac with addrTab := s.mac.addrTab.set k a } }

/-- `setLinkConfig(en, speed, duplex)` (R273). -/
def writeLinkConfig (en : Bool) (sp : Speed) (du : Duplex) (s : State) : State :=
  { s with mac := { s.mac with macEn := en, speed := sp, duplex := du } }

/-- `mdioTransaction(wr, dev, reg, val)` (R274). -/
def startMdio (wr : Bool) (dev reg : BitVec 5) (val : Half) (s : State) : State :=
  { s with mdio := { s.mdio with busy := true, req := ⟨wr, dev, reg, val⟩ } }

/-- `writeFilterFlags(effPam, effPau)` (R275). -/
def writeEffFlags (effPam effPau : Bool) (s : State) : State :=
  { s with mac := { s.mac with effPam := effPam, effPau := effPau } }

/-! Outputs and interrupt sources. -/

/-- `notify(e)` (00_scope.md R10). -/
def State.tell (s : State) (e : Notification) : State :=
  { s with out := { s.out with notify := s.out.notify ++ [e] } }

/-- `BufferReleased` for each buffer, in order (60_exceptions.md R298). -/
def State.release (s : State) (bufs : List Word) : State :=
  { s with out := { s.out with notify := s.out.notify ++ bufs.map .bufferReleased } }

/-- Set bits of `irqStatus`: they are sticky (60_exceptions.md R302). -/
def State.raiseIrq (s : State) (m : BitVec 10) : State :=
  { s with irq := { s.irq with status := s.irq.status ||| m } }

/-- `raise Fatal(kind)` (60_exceptions.md R296): the latch, then the notification; the operation gives no answer. -/
def raiseFatal (k : FatalKind) (s : State) : State :=
  ({ s with fatal := some k }).tell (.linkFault k)

/-! The oracles (00_scope.md R16): an answer chosen ahead in `env`, else the free value of the next draw (log 4). -/

/-- The next answer of `RxAlloc`, before the constraint that the pointer is attached to no slot. -/
def drawAllocRaw (s : State) : Option Word × State :=
  match s.env.alloc with
  | a :: rest => (a, { s with env := { s.env with alloc := rest } })
  | [] => (Config.rxAlloc s.env.drawn, { s with env := { s.env with drawn := s.env.drawn + 1 } })

/-- A pointer that is attached is no answer of `RxAlloc` (00_scope.md R16): it counts as an empty pool (log 4). -/
def unlessAttached (attached : Word → Bool) : Option Word → Option Word
  | none => none
  | some p => if attached p then none else some p

/-- The pointer is in some slot's book. -/
def attachedIn (s : State) (p : Word) : Bool := s.rx.book.contains (some p) || s.tx.book.contains (some p)

/-- `draw RxAlloc`. -/
def drawAlloc (s : State) : Option Word × State :=
  let d := drawAllocRaw s
  (unlessAttached (attachedIn s) d.1, d.2)

/-- The draw of `PhyRead(dev, reg)`. -/
def drawPhy (dev reg : BitVec 5) (s : State) : Half × State :=
  match s.env.phy with
  | v :: rest => (v, { s with env := { s.env with phy := rest } })
  | [] => (Config.phyRead s.env.drawn dev reg, { s with env := { s.env with drawn := s.env.drawn + 1 } })

/-- The frame the wire delivers: at most 2^32 - 1 bytes (44_dma_agents.md R235; log 23). -/
def drawFrame (s : State) : Frame × State :=
  let d : Frame × State :=
    match s.env.wire with
    | f :: rest => (f, { s with env := { s.env with wire := rest } })
    | [] => (Config.wireFrame s.env.drawn, { s with env := { s.env with drawn := s.env.drawn + 1 } })
  (if d.1.data.length < 2 ^ 32 then d.1 else { d.1 with data := d.1.data.take (2 ^ 32 - 1) }, d.2)

/-! The common part of every operation. -/

/-- Entry of the table of admission (43_engine.md R201); its `refuse` is left to the operation's own rule. -/
inductive Cell where
  | run | ce | ok
deriving DecidableEq, Repr

/-- The checks every host operation begins with, in the order of 43_engine.md R202: the port and the encoding, the
fatal latch, the lifecycle; then the operation's own lines. -/
def hostOp (legal : Bool) (cell : Life → Cell) (s : State) (body : Result) : Result :=
  if legal then
    if s.fatal.isSome then .fault .fatalLatched
    else
      match cell s.life with
      | .run => body
      | .ce => .next (s.answer rcConfigError 0#32)
      | .ok => .next (s.answer rcOk 0#32)
  else illegal s

/-- A tuple was presented on the port and has no answer yet. -/
def isUnanswered (r : PortRegs) : Bool :=
  match r.phase with
  | .unanswered => true
  | .idle | .answered | .held _ => false

/-- The sequencer is inside a host operation, between its tuple and its answer: the only time primitives are issued on
`be` (45_backend_primitives.md R276). Each operation runs its primitives inside its own step, so no run shows such a
state while the latch is clear (log 10). -/
def sequencing (s : State) : Bool :=
  isUnanswered s.ports.fg || isUnanswered s.ports.txi || isUnanswered s.ports.rxi

/-- A primitive on `be` (45_backend_primitives.md R260, R276): none once the fatal latch is set (43_engine.md R206), none
outside a host operation; its operands in range, its precondition, then its effect and the answer `OK` with its value.
-/
def primitive (s : State) (inRange pre : Bool) (eff : State) (val : Word) : Result :=
  match s.env.issuer with
  | .be =>
    if s.fatal.isSome then .fault .fatalLatched
    else if !sequencing s then .fault .stepNotEnabled
    else if inRange then (if pre then .next (eff.answer rcOk val) else .refused .primitivePrecondition)
    else .refused .primitiveOutOfRange
  | .fg | .txi | .rxi | .hw => illegal s

/-- A step of a hardware agent (44_dma_agents.md R230): only the hardware takes it, no step once the fatal latch is
set, and only when it is enabled. -/
def agentStep (s : State) (enabled : Bool) (body : Result) : Result :=
  match s.env.issuer with
  | .hw =>
    if s.fatal.isSome then .fault .fatalLatched
    else if enabled then body
    else .fault .stepNotEnabled
  | .fg | .txi | .rxi | .be => illegal s

end Sys2Proof.Machine
end

