-- ==== Sys2Proof/Machine/Flags.lean ====
section
/-!
DEFINITION. Every flag computation: the interrupt sources and lines (60_exceptions.md R300 to R304), the statistics
counters they feed (R321), and the effective filter bits (10_state.md R41, 42_mac_driver.md R172).
-/

namespace Sys2Proof.Machine

/-! Interrupt sources (60_exceptions.md R300), as masks of `irqStatus`. -/

/-- Bit 0, `TX_COMPLETE`. -/
def irqTxComplete : BitVec 10 := 0x001#10

/-- Bit 1, `RX_FRAME`. -/
def irqRxFrame : BitVec 10 := 0x002#10

/-- Bit 2, `TX_BUS_ERR`. -/
def irqTxBusErr : BitVec 10 := 0x004#10

/-- Bit 3, `RX_BUS_ERR`. -/
def irqRxBusErr : BitVec 10 := 0x008#10

/-- Bit 4, `CRC_ERR`. -/
def irqCrcErr : BitVec 10 := 0x010#10

/-- Bit 5, `RX_OVERRUN`. -/
def irqRxOverrun : BitVec 10 := 0x020#10

/-- Bit 6, `FRAME_TOO_LONG`. -/
def irqFrameTooLong : BitVec 10 := 0x040#10

/-- Bit 7, `LATE_COLLISION`. -/
def irqLateCollision : BitVec 10 := 0x080#10

/-- Bit 8, `ALIGN_ERR`. -/
def irqAlignErr : BitVec 10 := 0x100#10

/-- Bit 9, `TX_UNDERRUN`. -/
def irqTxUnderrun : BitVec 10 := 0x200#10

/-- The source of a mask is in the set. -/
def hasIrq (s m : BitVec 10) : Bool := s &&& m != 0#10

/-- The mask when the condition holds, else nothing. -/
def irqIf (b : Bool) (m : BitVec 10) : BitVec 10 := if b then m else 0#10

/-- `lineMask(k)` (60_exceptions.md R303); with one line there is no line 1. -/
def lineMask (l : IrqLines) (line : Bool) : BitVec 10 :=
  match l, line with
  | .one, false => 0x3FF#10
  | .one, true => 0x000#10
  | .perDirection, false => 0x285#10
  | .perDirection, true => 0x17A#10

/-- The sources pending on a line: `irqStatus & irqEnable & lineMask(LINE)` (R308 line 4). -/
def pendingOn (s : State) (line : Bool) : BitVec 10 :=
  s.irq.status &&& s.irq.enable &&& lineMask s.cfg.irqLines line

/-- The level of a line (R304). -/
def lineAsserted (s : State) (line : Bool) : Bool := s.irq.globalOn && pendingOn s line != 0#10

/-- `irqStatus <- irqStatus & ~s` (R308 line 8, R309). -/
def acknowledge (p : BitVec 10) (s : State) : State :=
  { s with irq := { s.irq with status := s.irq.status &&& ~~~p } }

/-- A counter adds 1 modulo 2^32 when its source is served (R320, R321). -/
def countIf (b : Bool) (c : Word) : Word := if b then c + 1#32 else c

/-- The statistics services (R308 lines 11 to 16, R310). -/
def countStatistics (p : BitVec 10) (s : State) : State :=
  { s with
    cnt :=
      { s.cnt with
        crcError := countIf (hasIrq p irqCrcErr) s.cnt.crcError
        rxOverrun := countIf (hasIrq p irqRxOverrun) s.cnt.rxOverrun
        frameTooLong := countIf (hasIrq p irqFrameTooLong) s.cnt.frameTooLong
        lateCollision := countIf (hasIrq p irqLateCollision) s.cnt.lateCollision
        alignError := countIf (hasIrq p irqAlignErr) s.cnt.alignError
        txUnderrun := countIf (hasIrq p irqTxUnderrun) s.cnt.txUnderrun } }

/-- `Recompute()` (42_mac_driver.md R172), by the primitive `writeFilterFlags`. -/
def recompute (s : State) : State := writeEffFlags (s.mac.pam || s.mac.promisc) s.mac.promisc s

end Sys2Proof.Machine
end

