-- ==== Sys2Proof/Machine/Operands.lean ====
section
/-!
DEFINITION. What depends on the operands and on where an operation is issued: the ports each operation is accepted on
(60_exceptions.md R316), the columns of the admission table (43_engine.md R201), the codes of speed and duplex
(30_encoding.md R109, R118), and the destination address of a frame (42_mac_driver.md R171).
-/

namespace Sys2Proof.Machine

/-! Ports (60_exceptions.md R316). -/

/-- INIT, DEINIT, ENABLE, DISABLE, TX_ENQUEUE and the filter operations: the foreground only. -/
def foregroundOnly : Issuer → Bool
  | .fg => true
  | .txi | .rxi | .be | .hw => false

/-- TX_RECLAIM: the foreground and the Tx ISR. -/
def reclaimPorts : Issuer → Bool
  | .fg | .txi => true
  | .rxi | .be | .hw => false

/-- RX_PRIME and RX_POLL: the foreground, the Rx ISR, and the Tx ISR when it serves the one line. -/
def rxRingPorts (c : Params) : Issuer → Bool
  | .fg | .rxi => true
  | .txi => c.irqLines == .one
  | .be | .hw => false

/-- MDIO_READ and MDIO_WRITE: every host port (R319). -/
def mdioPorts : Issuer → Bool
  | .fg | .txi | .rxi => true
  | .be | .hw => false

/-- ISR_DISPATCH: `LINE` = 1 needs two lines (30_encoding.md R122 e); `txi` has line 0, `rxi` line 1, `fg` either. -/
def isrPorts (c : Params) (line : Bool) (p : Issuer) : Bool :=
  let lineExists := !line || c.irqLines == .perDirection
  match p with
  | .fg => lineExists
  | .txi => !line
  | .rxi => line && lineExists
  | .be | .hw => false

/-! Columns of the admission table (43_engine.md R201). -/

/-- INIT. -/
def colInit : Life → Cell
  | .uninitialized | .deinitialized => .run
  | .initialized | .enabled | .disabled => .ce

/-- Every operation admitted in `Initialized`, `Enabled` and `Disabled`; ENABLE and SET_OWN_ADDR refuse in `Enabled`
by their own lines. -/
def colLive : Life → Cell
  | .uninitialized | .deinitialized => .ce
  | .initialized | .enabled | .disabled => .run

/-- DISABLE: `OK` with no change outside `Enabled`. -/
def colDisable : Life → Cell
  | .enabled => .run
  | .uninitialized | .initialized | .disabled | .deinitialized => .ok

/-- TX_ENQUEUE: `Enabled` only. -/
def colEnqueue : Life → Cell
  | .enabled => .run
  | .uninitialized | .initialized | .disabled | .deinitialized => .ce

/-- ISR_DISPATCH: the lifecycle is not looked at (60_exceptions.md R308), its own line 3 is. -/
def colAny : Life → Cell
  | .uninitialized | .initialized | .enabled | .disabled | .deinitialized => .run

/-! Codes. -/

/-- `SPEED`: 0 is 10 Mbit, 1 is 100 Mbit, 2 and 3 are invalid (30_encoding.md R109). -/
def speedOf (code : BitVec 2) : Option Speed :=
  if code = 0#2 then some .s10 else if code = 1#2 then some .s100 else none

/-- `DUPLEX`: 0 is half, 1 is full, 2 and 3 are invalid (30_encoding.md R109). -/
def duplexOf (code : BitVec 2) : Option Duplex :=
  if code = 0#2 then some .half else if code = 1#2 then some .full else none

/-- A valid pair of codes. -/
def linkOf (speed duplex : BitVec 2) : Option (Speed × Duplex) :=
  match speedOf speed, duplexOf duplex with
  | some a, some b => some (a, b)
  | some _, none => none
  | none, _ => none

/-- A Boolean in `RET0` (30_encoding.md R103). -/
def boolWord (b : Bool) : Word := if b then 1#32 else 0#32

/-! Frames. -/

/-- The destination address: the first six bytes, the first one lowest (42_mac_driver.md R171); none in a frame shorter
than six bytes. -/
def destination : List Byte → Option Mac
  | a0 :: a1 :: a2 :: a3 :: a4 :: a5 :: _ => some (a5 ++ a4 ++ a3 ++ a2 ++ a1 ++ a0)
  | _ => none

/-- The broadcast address (30_encoding.md R117). -/
def broadcast : Mac := 0xFFFFFFFFFFFF#48

/-- The address is a multicast address: a0[0] = 1 (30_encoding.md R117). -/
def isMulticast (a : Mac) : Bool := a.getLsbD 0

/-- `FilterAccept(dst)` (42_mac_driver.md R171). -/
def filterAccept (s : State) (dst : Mac) : Bool :=
  s.mac.addrTab.contains (some dst)
    || (isMulticast dst && s.mac.effPam)
    || (!isMulticast dst && s.mac.effPau)
    || (dst == broadcast && s.cfg.acceptBroadcast)

/-- The frame passes the filter; one shorter than six bytes does not (R171). -/
def frameAccepted (s : State) (data : List Byte) : Bool :=
  match destination data with
  | some dst => filterAccept s dst
  | none => false

/-! Buffers and descriptor arrays. -/

/-- The range of `n` bytes at `buf` meets a descriptor array (20_memory.md R78). -/
def meetsDescriptors (c : Params) (buf : Word) (n : Nat) : Bool :=
  rangesMeet buf n c.txDescBase (16 * c.dTx) || rangesMeet buf n c.rxDescBase (16 * c.dRx)

end Sys2Proof.Machine
end

