-- ==== Sys2Proof/WellFormed.lean ====
section
/-!
DEFINITION. Well-formed instructions: the operand values the formats of 30_encoding.md give a meaning, where the
field is wider than they are.
-/

namespace Sys2Proof

/-- The kinds of STATUS_EVENT are the bit numbers 4 to 9 (30_encoding.md R116, 44_dma_agents.md R239). -/
def statusKindOk (kind : BitVec 8) : Bool :=
  4 ≤ kind.toNat && kind.toNat ≤ 9

/-- `SPEED` and `DUPLEX` of format G have the codes 0 and 1 (30_encoding.md R114). -/
def linkCodeOk (code : BitVec 2) : Bool :=
  code.toNat < 2

/-- Format T (30_encoding.md R113): `SLOT` is at least 1, and the address is 0 when `VALID` is 0. -/
def mcastSlotOk (slot : BitVec 5) (valid : Bool) (addr : Mac) : Bool :=
  slot != 0 && (valid || addr == 0)

/-- Format M (30_encoding.md R110): `VAL` is 0 in a read transaction. -/
def mdioValOk (wr : Bool) (val : Half) : Bool :=
  wr || val == 0

/-- The operand checks of every row; ENABLE's codes 2 and 3 are well formed (30_encoding.md R109). -/
def Instr.wellFormed : Instr → Bool
  | .writeMcastAddr slot valid addr => mcastSlotOk slot valid addr
  | .setLinkConfig _ speed duplex => linkCodeOk speed && linkCodeOk duplex
  | .mdioTransaction wr _ _ val => mdioValOk wr val
  | .statusEvent kind => statusKindOk kind
  | .init | .deinit | .enable _ _ | .disable | .txEnqueue _ _ _ _ | .txReclaim | .rxPrime _ | .rxPoll
  | .setOwnAddr _ | .addMcast _ | .clearMcast | .setPam _ | .setPromisc _ | .mdioRead _ _ | .mdioWrite _ _ _
  | .isrDispatch _ => true
  | .startDma _ | .stopDma _ | .isSlotOwnedByDma _ _ | .writeTxDesc _ _ _ _ _ | .writeRxDesc _ _
  | .isFirstFragment _ _ | .isLastFragment _ _ | .isErrorFragment _ _ | .totalFrameLength _ _ _
  | .isBufferDmaReadable _ _ | .writeUnicastAddr _ | .writeFilterFlags _ _ => true
  | .txdmaFetch | .txdmaComplete | .txdmaSuspend | .txdmaBusError | .rxFrameArrive | .rxdmaWrite | .rxdmaSuspend
  | .rxdmaBusError | .mdioDone => true

end Sys2Proof
end

