-- ==== Sys2Proof/Machine/Agents.lean ====
section
/-!
DEFINITION. The ten steps of the hardware agents (44_dma_agents.md R230 to R240). Each has its precondition as a
definition of its own, `can…`, and its effect.
-/

namespace Sys2Proof.Machine

/-! The Tx DMA engine. -/

/-- TXDMA_FETCH is enabled (R231). -/
def canTxFetch (s : State) : Bool :=
  s.tx.dma == .active && s.mac.macEn && s.tx.inflight.isNone && ownedByDma s .tx s.tx.hw

/-- TXDMA_FETCH (R231). -/
def execTxdmaFetch (s : State) : Result :=
  agentStep s (canTxFetch s) (.next { s with tx := { s.tx with inflight := some s.tx.hw } })

/-- The frame assembled once slot `i` is read (R232): a first fragment starts it afresh. A byte the host wrote while the
slot was queued is the old value or a new one (20_memory.md R89; log 13). -/
def txAssembled (s : State) (i : Nat) : List Byte :=
  let x := s.txSlot i
  (if x.first then [] else s.tx.accum) ++ settledBytes s .tx i 0 x.buf (readBytes s.mem x.buf x.len.toNat)

/-- The effect of TXDMA_COMPLETE on slot `i` (R232). -/
def completeTx (i : Nat) (s : State) : State :=
  let x := s.txSlot i
  let frame := txAssembled s i
  let s1 := s.setTxSlot i { x with own := .software }
  (({ s1 with
      tx :=
        { s1.tx with
          accum := if x.last then [] else frame, hw := nextIdx s.cfg.dTx i, inflight := none }
      out := { s1.out with txWire := if x.last then s1.out.txWire ++ [frame] else s1.out.txWire } }).raiseIrq
    irqTxComplete).endRaces .tx i

/-- TXDMA_COMPLETE (R232), enabled by `txInflight` = `some i`. A buffer on a descriptor array has no meaning
(20_memory.md R78; log 8). -/
def execTxdmaComplete (s : State) : Result :=
  agentStep s s.tx.inflight.isSome <|
    let i := s.tx.inflight.getD 0
    if meetsDescriptors s.cfg (s.txSlot i).buf (s.txSlot i).len.toNat then .refused .platformOutsideSpec
    else .next (completeTx i s)

/-- TXDMA_SUSPEND is enabled (R233). -/
def canTxSuspend (s : State) : Bool :=
  s.tx.dma == .active && s.tx.inflight.isNone && !ownedByDma s .tx s.tx.hw

/-- TXDMA_SUSPEND (R233). -/
def execTxdmaSuspend (s : State) : Result :=
  agentStep s (canTxSuspend s) (.next { s with tx := { s.tx with dma := .idle } })

/-- TXDMA_BUS_ERROR is enabled (R234). -/
def canTxBusError (s : State) : Bool := s.tx.inflight.isSome || (s.tx.dma == .active && s.mac.macEn)

/-- TXDMA_BUS_ERROR (R234). -/
def execTxdmaBusError (s : State) : Result :=
  agentStep s (canTxBusError s)
    (.next (({ s with tx := { s.tx with dma := .stopped, inflight := none } }).raiseIrq irqTxBusErr))

/-! The wire and the Rx DMA engine. -/

/-- RX_FRAME_ARRIVE is enabled (R235). -/
def canRxArrive (s : State) : Bool := s.mac.macEn && s.rx.pending.isNone

/-- What a frame on the wire does (R235). -/
def frameArrives (f : Frame) (s : State) : State :=
  if !frameAccepted s f.data then s
  else if s.rx.dma ≠ .active then s.raiseIrq irqRxOverrun
  else if !ownedByDma s .rx s.rx.hw then
    ({ s with rx := { s.rx with dma := .idle } }).raiseIrq irqRxOverrun
  else { s with rx := { s.rx with pending := some ⟨f.data, 0, f.errs, f.midErr⟩ } }

/-- RX_FRAME_ARRIVE (R235), with the frame the wire draws. With the gate on before INIT the ring was never primed:
undefined behaviour of the hardware (93_implementation_defined.md U1; log 19). -/
def execRxFrameArrive (s : State) : Result :=
  agentStep s (canRxArrive s) <|
    if s.life = .uninitialized then .refused .unprimedRing
    else .next (frameArrives (drawFrame s).1 (drawFrame s).2)

/-- The three cases of RXDMA_WRITE (R236). -/
inductive WriteCase where
  /-- (a) the frame ends in this slot. -/
  | ends
  /-- (b) the frame goes on in the next slot. -/
  | goesOn
  /-- (c) the frame is cut here. -/
  | cut
deriving DecidableEq, Repr

/-- The bytes RXDMA_WRITE moves: `min(RX_BUF_SIZE, L - off)` from `off` on (R236). -/
def rxChunk (c : Params) (f : RxFrame) : List Byte := (f.data.drop f.off).take c.rxBufSize

/-- The next slot can take the rest of the frame (R236 `nextAvail`). -/
def nextSlotArmed (s : State) : Bool :=
  1 < s.cfg.dRx && ownedByDma s .rx (nextIdx s.cfg.dRx s.rx.hw)

/-- Which case of RXDMA_WRITE applies (R236). -/
def writeCase (f : RxFrame) (s : State) : WriteCase :=
  if f.data.length - f.off - (rxChunk s.cfg f).length = 0 then .ends
  else if s.cfg.chained && nextSlotArmed s then .goesOn
  else .cut

/-- `err` of the slot RXDMA_WRITE fills (R236). -/
def writeErr (f : RxFrame) (w : WriteCase) (c : Params) : Bool :=
  let mid := f.midErr == some (f.off / c.rxBufSize)
  match w with
  | .ends => f.errs.crc || f.errs.tooLong || f.errs.align || mid
  | .goesOn => mid
  | .cut => true

/-- The sources RXDMA_WRITE raises (R236): of the cut, and of the end of a frame. -/
def writeIrq (f : RxFrame) (w : WriteCase) (c : Params) : BitVec 10 :=
  let atEnd :=
    irqRxFrame ||| irqIf f.errs.crc irqCrcErr ||| irqIf f.errs.tooLong irqFrameTooLong
      ||| irqIf f.errs.align irqAlignErr
  match w with
  | .ends => atEnd
  | .goesOn => 0#10
  | .cut => (if c.chained then irqRxOverrun else irqFrameTooLong) ||| atEnd

/-- The effect of RXDMA_WRITE for the frame `f` in flight (R236). A byte the host wrote while the slot was armed is the
frame's or the host's, and one that another filled buffer holds is the frame's or what it was (20_memory.md R89; log 13).
-/
def writeRx (f : RxFrame) (s : State) : State :=
  let w := writeCase f s
  let x := s.rxSlot s.rx.hw
  let chunk := rxChunk s.cfg f
  let slot : Slot :=
    { x with
      len := BitVec.ofNat 16 chunk.length
      first := f.off == 0
      last := w != WriteCase.goesOn
      err := writeErr f w s.cfg
      own := .software }
  let s1 := s.setRxSlot s.rx.hw slot
  let s2 :=
    ({ s1 with
      rx :=
        { s1.rx with
          hw := nextIdx s.cfg.dRx s.rx.hw
          pending := if w == WriteCase.goesOn then some { f with off := f.off + chunk.length } else none
          dma := if w == WriteCase.cut && s.cfg.chained && s.rx.dma == DmaState.active then .idle else s.rx.dma } }
      ).raiseIrq (writeIrq f w s.cfg)
  let filled := (List.range chunk.length).any fun k => filledHolds s (x.buf + BitVec.ofNat 32 k)
  ((s2.endRaces .rx s.rx.hw).drewIf filled).storeBytes x.buf (settledBytes s .rx s.rx.hw 0 x.buf chunk)

/-- RXDMA_WRITE (R236), enabled by `rxPending` = `some f`. A buffer on a descriptor array has no meaning (20_memory.md
R78; log 8). -/
def execRxdmaWrite (s : State) : Result :=
  agentStep s s.rx.pending.isSome <|
    if meetsDescriptors s.cfg (s.rxSlot s.rx.hw).buf s.cfg.rxBufSize then .refused .platformOutsideSpec
    else
      match s.rx.pending with
      | some f => .next (writeRx f s)
      | none => .fault .stepNotEnabled

/-- RXDMA_SUSPEND is enabled (R237). -/
def canRxSuspend (s : State) : Bool :=
  s.rx.dma == .active && s.rx.pending.isNone && !ownedByDma s .rx s.rx.hw

/-- RXDMA_SUSPEND (R237). -/
def execRxdmaSuspend (s : State) : Result :=
  agentStep s (canRxSuspend s) (.next { s with rx := { s.rx with dma := .idle } })

/-- RXDMA_BUS_ERROR is enabled (R238). -/
def canRxBusError (s : State) : Bool := s.rx.pending.isSome || (s.rx.dma == .active && s.mac.macEn)

/-- RXDMA_BUS_ERROR (R238). -/
def execRxdmaBusError (s : State) : Result :=
  agentStep s (canRxBusError s)
    (.next (({ s with rx := { s.rx with dma := .stopped, pending := none } }).raiseIrq irqRxBusErr))

/-- STATUS_EVENT (R239): one statistics source; a kind outside 4..9 is no step (log 18). -/
def execStatusEvent (kind : BitVec 8) (s : State) : Result :=
  agentStep s (s.mac.macEn && statusKindOk kind) (.next (s.raiseIrq (1#10 <<< kind.toNat)))

/-! The MDIO engine. -/

/-- The transaction itself ends (R240): a write goes out, a read draws the PHY's value. -/
def endTransaction (s : State) : State :=
  let r := s.mdio.req
  if r.wr then
    { s with out := { s.out with mdioOut := s.out.mdioOut ++ [(r.dev, r.reg, r.val)] }
             mdio := { s.mdio with busy := false } }
  else
    let d := drawPhy r.dev r.reg s
    { d.2 with mdio := { s.mdio with data := d.1, busy := false } }

/-- The answer that is due on a port once the transaction its operation waits for is over: `mdioData` for a read, 0 for a
write (42_mac_driver.md R180 line 7, R181 line 7; log 24). -/
def mdioPhase (data : Half) : Phase → Phase
  | .held .mdioRead => .held (.mdioOver (data.setWidth 32))
  | .held .mdioWrite => .held (.mdioOver 0#32)
  | .held .disable => .held .disable
  | .held .deinit => .held .deinit
  | .held (.mdioOver ret) => .held (.mdioOver ret)
  | .idle => .idle
  | .unanswered => .unanswered
  | .answered => .answered

/-- The hold of the operation that waits for the transaction is over (R240, "the completion the held MDIO_READ or
MDIO_WRITE waits for"); with no such operation nothing waits. -/
def State.endMdioHold (s : State) : State :=
  let s1 := { s with env := { s.env with mdioFor := none } }
  match s.env.mdioFor with
  | some p => s1.setPort p { s1.port p with phase := mdioPhase s.mdio.data (s1.port p).phase }
  | none => s1

/-- The effect of MDIO_DONE (R240). -/
def finishMdio (s : State) : State := (endTransaction s).endMdioHold

/-- MDIO_DONE (R240). -/
def execMdioDone (s : State) : Result :=
  agentStep s s.mdio.busy (.next (finishMdio s))

end Sys2Proof.Machine
end

