-- ==== Sys2Proof/Machine/MacOps.lean ====
section
/-!
DEFINITION. The MAC driver operations: the filter (42_mac_driver.md R173 to R177), ENABLE (R178), DISABLE (R179),
MDIO_READ (R180), MDIO_WRITE (R181).
-/

namespace Sys2Proof.Machine

/-- SET_OWN_ADDR (R173). -/
def execSetOwnAddr (addr : Mac) (s : State) : Result :=
  hostOp (foregroundOnly s.env.issuer) colLive s <|
    if s.life = .enabled then .refused .setOwnAddrWhileEnabled
    else
      let s1 := { s with mac := { s.mac with ucast := some addr } }
      .next ((writeUnicastAddress addr s1).answer rcOk 0#32)

/-- ADD_MCAST (R174). -/
def execAddMcast (addr : Mac) (s : State) : Result :=
  hostOp (foregroundOnly s.env.issuer) colLive s <|
    if s.mac.mcast.length = s.cfg.mcastCap then .next (s.answer rcOutOfMemory 0#32)
    else
      let s1 := { s with mac := { s.mac with mcast := s.mac.mcast ++ [addr] } }
      .next ((writeMulticastAddress s1.mac.mcast.length (some addr) s1).answer rcOk 0#32)

/-- CLEAR_MCAST line 4 (R175): `addrTab[k] <- none` for `k` in 1..`n`. -/
def clearMcastSlots : Nat → State → State
  | 0, s => s
  | n + 1, s => writeMulticastAddress (n + 1) none (clearMcastSlots n s)

/-- CLEAR_MCAST (R175). -/
def execClearMcast (s : State) : Result :=
  hostOp (foregroundOnly s.env.issuer) colLive s <|
    let s1 := clearMcastSlots s.mac.mcast.length s
    .next (({ s1 with mac := { s1.mac with mcast := [] } }).answer rcOk 0#32)

/-- SET_PAM (R176). -/
def execSetPam (v : Bool) (s : State) : Result :=
  hostOp (foregroundOnly s.env.issuer) colLive s <|
    .next ((recompute { s with mac := { s.mac with pam := v } }).answer rcOk 0#32)

/-- SET_PROMISC (R177). -/
def execSetPromisc (v : Bool) (s : State) : Result :=
  hostOp (foregroundOnly s.env.issuer) colLive s <|
    .next ((recompute { s with mac := { s.mac with promisc := v } }).answer rcOk 0#32)

/-- ENABLE lines 7 to 13 (R178): both engines are started, then the gate opens. -/
def openGate (sp : Speed) (du : Duplex) (s : State) : State :=
  let s1 := startDMA .tx (startDMA .rx s)
  { writeLinkConfig true sp du s1 with life := .enabled }

/-- ENABLE (R178). -/
def execEnable (speed duplex : BitVec 2) (s : State) : Result :=
  hostOp (foregroundOnly s.env.issuer) colLive s <|
    match linkOf speed duplex with
    | none => .next (s.answer rcConfigError 0#32)
    | some (sp, du) =>
      if s.life = .enabled then .refused .enableWhileEnabled
      else if s.mac.ucast.isNone then .refused .enableWithoutOwnAddress
      else .next ((openGate sp du s).answer rcOk 0#32)

/-- The gate closes, speed and duplex kept (R179 lines 4 and 5). -/
def closeGate (s : State) : State := writeLinkConfig false s.mac.speed s.mac.duplex s

/-- Both engines stop (R179 lines 6 and 7). -/
def stopBoth (s : State) : State := stopDMA .rx (stopDMA .tx s)

/-- Nothing is in flight: `txInflight` = none and `rxPending` = none (R179 line 8, 43_engine.md R204 line 8). -/
def quiet (s : State) : Bool := s.tx.inflight.isNone && s.rx.pending.isNone

/-- DISABLE lines 9 and 10 (R179), for the port that issued it. -/
def finishDisable (s : State) : State := ({ s with life := .disabled }).answer rcOk 0#32

/-- DISABLE (R179): one step when nothing is in flight, else it holds. -/
def execDisable (s : State) : Result :=
  hostOp (foregroundOnly s.env.issuer) colDisable s <|
    let s1 := stopBoth (closeGate s)
    .next (if quiet s1 then finishDisable s1 else s1.hold .disable)

/-- MDIO_READ and MDIO_WRITE lines 5 and 6 (R180, R181): the transaction starts, and the operation holds until its
MDIO_DONE (70_reset_and_hazards.md R351; log 24). -/
def holdForMdio (wr : Bool) (dev reg : BitVec 5) (val : Half) (h : Held) (s : State) : State :=
  let s1 := (startMdio wr dev reg val s).hold h
  { s1 with env := { s1.env with mdioFor := some s.env.issuer } }

/-- MDIO_READ (R180): it holds until MDIO_DONE. -/
def execMdioRead (dev reg : BitVec 5) (s : State) : Result :=
  hostOp (mdioPorts s.env.issuer) colLive s <|
    if s.mdio.busy then .refused .mdioWhileBusy
    else .next (holdForMdio false dev reg 0#16 .mdioRead s)

/-- MDIO_WRITE (R181): it holds until MDIO_DONE. -/
def execMdioWrite (dev reg : BitVec 5) (val : Half) (s : State) : Result :=
  hostOp (mdioPorts s.env.issuer) colLive s <|
    if s.mdio.busy then .refused .mdioWhileBusy
    else .next (holdForMdio true dev reg val .mdioWrite s)

end Sys2Proof.Machine
end

