-- ==== Sys2Proof/Machine/RxOps.lean ====
section
/-!
DEFINITION. The Rx ring operations: the prime procedure (41_rx_ring.md R152), RX_PRIME (R151), RX_POLL (R153 to R156).
-/

namespace Sys2Proof.Machine

/-- `PrimeSlot(b)` (R152). -/
def primeSlot (b : Word) (s : State) : State :=
  let p := s.rx.prime
  let s1 := writeRxDescriptor p b s
  let s2 :=
    { s1 with
      rx :=
        { s1.rx with
          book := s1.rx.book.set p (some b), prime := nextIdx s.cfg.dRx p, unprimed := s1.rx.unprimed - 1 } }
  if s2.rx.dma = .idle then startDMA .rx s2 else s2

/-- RX_PRIME (R151); a buffer on a descriptor array is never attached (20_memory.md R78; log 8). One that is queued on
Tx, or overlaps another, is attached all the same, and its bytes are then any mix (R89; log 13). -/
def execRxPrime (buf : Word) (s : State) : Result :=
  hostOp (rxRingPorts s.cfg s.env.issuer) colLive s <|
    if s.rx.unprimed = 0 then .refused .noUnprimedSlot
    else if s.rx.book.contains (some buf) then .refused .bufferAlreadyAttached
    else if meetsDescriptors s.cfg buf s.cfg.rxBufSize then .refused .platformOutsideSpec
    else .next ((primeSlot buf s).answer rcOk 0#32)

/-- What the search for the end of a run finds (R154). -/
inductive RunScan where
  /-- A complete run of `k` slots. -/
  | complete (k : Nat)
  /-- No `last` slot yet: the frame is still arriving. -/
  | incomplete
  /-- A second `first` before a `last`. -/
  | desync
deriving DecidableEq, Repr

/-- The `while` of `Poll()` (R153) at slot `j`, the `k`-th of the run, with `fuel` slots left to look at. -/
def scanRun (s : State) : Nat → Nat → Nat → RunScan
  | fuel, j, k =>
    if isLast s .rx j then .complete k
    else
      match fuel with
      | 0 => .incomplete
      | fuel + 1 =>
        let j2 := nextIdx s.cfg.dRx j
        if ownedByDma s .rx j2 then .incomplete
        else if isFirst s .rx j2 then .desync
        else scanRun s fuel j2 (k + 1)

/-- The buffers of the slots of a run, in order; none when a slot has no book entry (log 12). -/
def runBuffers (s : State) : List Nat → Option (List Word)
  | [] => some []
  | i :: rest =>
    match s.rxTok i, runBuffers s rest with
    | some p, some ps => some (p :: ps)
    | some _, none => none
    | none, _ => none

/-- Take a slot out of the ring: the cursor passes it, it is unprimed (R153). -/
def consumeSlot (i : Nat) (s : State) : State :=
  { s with
    rx :=
      { s.rx with
        book := s.rx.book.set i none, unprimed := s.rx.unprimed + 1, cursor := nextIdx s.cfg.dRx i } }

/-- Consume the slots of a run and re-prime at once (R153): with the slot's own buffer when the frame is dropped
(R155), else with a buffer of the pool, if there is one (R156). A buffer on a descriptor array is never attached
(20_memory.md R78; log 8). -/
def consumeRun (bad : Bool) : List (Nat × Word) → State → Except Refusal State
  | [], s => .ok s
  | (i, p) :: rest, s =>
    let s1 := consumeSlot i s
    if bad then consumeRun bad rest (primeSlot p s1)
    else
      match drawAlloc s1 with
      | (some b, s2) =>
        if meetsDescriptors s.cfg b s.cfg.rxBufSize then .error .platformOutsideSpec
        else consumeRun bad rest (primeSlot b s2)
      | (none, s2) => consumeRun bad rest s2

/-- Count the drop or deliver the frame (R153, R155). -/
def reportRun (bad : Bool) (bufs : List Word) (total : Nat) (s : State) : State :=
  if bad then { s with cnt := { s.cnt with rxError := s.cnt.rxError + 1#32 } }
  else s.tell (.frameReceived bufs (BitVec.ofNat 32 total))

/-- A complete run of the slots `run` with the buffers `bufs`: consume it, then count the drop or deliver the frame
(R153). -/
def finishRun (run : List Nat) (bufs : List Word) (total : Nat) (s : State) : Except Refusal State :=
  let bad := run.any fun i => isError s .rx i
  match consumeRun bad (run.zip bufs) s with
  | .ok s1 => .ok (reportRun bad bufs total s1)
  | .error r => .error r

/-- `Poll()` (R153) with at most `fuel` turns; `n` frames delivered so far. -/
def pollLoop : Nat → State → Nat → Except Refusal (State × Nat)
  | 0, _, _ => .error .ringInvariantBroken
  | fuel + 1, s, n =>
    let c := s.rx.cursor
    if s.rx.unprimed = s.cfg.dRx then .ok (s, n)
    else if ownedByDma s .rx c then .ok (s, n)
    else if !isFirst s .rx c then .error .ringDesync
    else
      match scanRun s (s.cfg.dRx - s.rx.unprimed - 1) c 1 with
      | .incomplete => .ok (s, n)
      | .desync => .error .ringDesync
      | .complete k =>
        let run := ringSlots s.cfg.dRx c k
        match runBuffers s run with
        | none => .error .ringInvariantBroken
        | some bufs =>
          let total := totalLength s .rx c ((c + k - 1) % s.cfg.dRx)
          let bad := run.any fun i => isError s .rx i
          match finishRun run bufs total s with
          | .ok s1 => pollLoop fuel s1 (if bad then n else n + 1)
          | .error r => .error r

/-- `Poll()` (R153): the loop ends after at most `D_RX` slots, so after at most `D_RX + 1` turns. -/
def poll (s : State) : Except Refusal (State × Nat) := pollLoop (s.cfg.dRx + 1) s 0

/-- RX_POLL (R153). -/
def execRxPoll (s : State) : Result :=
  hostOp (rxRingPorts s.cfg s.env.issuer) colLive s <|
    match poll s with
    | .ok (s1, n) => .next (s1.answer rcOk (BitVec.ofNat 32 n))
    | .error r => .refused r

end Sys2Proof.Machine
end

