-- ==== Sys2Proof/Machine/EngineOps.lean ====
section
/-!
DEFINITION. The composite engine: INIT (43_engine.md R203, 10_state.md R64), DEINIT (R204), and the end of a held
operation (00_scope.md R11 d).
-/

namespace Sys2Proof.Machine

/-- INIT lines 4 to 10 (R203): `n` draws of the pool, none a pointer already taken. The Boolean says that no draw was
empty; the list is what was taken. -/
def drawPool : Nat → List Word → State → Bool × List Word × State
  | 0, bufs, s => (true, bufs, s)
  | n + 1, bufs, s =>
    let d := drawAllocRaw s
    match unlessAttached bufs.contains d.1 with
    | some p => drawPool n (bufs ++ [p]) d.2
    | none => (false, bufs, d.2)

/-- The Tx ring after INIT (R64). -/
def clearTx (c : Params) : TxRing where
  slots := List.replicate c.dTx Slot.empty
  book := List.replicate c.dTx none
  cursor := 0
  head := 0
  free := c.dTx
  openFrame := false
  hw := 0
  dma := .stopped
  inflight := none
  accum := []

/-- The Rx ring before INIT primes it (R203 line 11). -/
def clearRx (c : Params) : RxRing where
  slots := List.replicate c.dRx Slot.empty
  book := List.replicate c.dRx none
  cursor := 0
  prime := 0
  unprimed := c.dRx
  hw := 0
  dma := .stopped
  pending := none

/-- The MAC driver after INIT (R64). -/
def clearMac (c : Params) : MacState where
  pam := false
  promisc := false
  effPam := false
  effPau := false
  macEn := false
  speed := .s10
  duplex := .half
  ucast := none
  mcast := []
  addrTab := List.replicate (c.mcastCap + 1) none

/-- INIT line 11 (R203): the peripheral is reset. `mdioReq` keeps its value (log 15). A transaction that runs is gone, and
an operation that waits for it hangs (70_reset_and_hazards.md R351; log 24). -/
def resetPeripheral (s : State) : State :=
  { s with
    tx := clearTx s.cfg
    rx := clearRx s.cfg
    mac := clearMac s.cfg
    mdio := { s.mdio with busy := false, data := 0#16 }
    cnt := ⟨0#32, 0#32, 0#32, 0#32, 0#32, 0#32, 0#32⟩
    env := { s.env with races := [], mdioFor := none } }

/-- `PrimeSlot` for each buffer in order (R203 line 12). -/
def primeAll : List Word → State → State
  | [], s => s
  | b :: bs, s => primeAll bs (primeSlot b s)

/-- INIT lines 11 to 14 (R203): reset, prime, wire the interrupts. -/
def initialise (bufs : List Word) (s : State) : State :=
  let s1 := primeAll bufs (resetPeripheral s)
  { s1 with irq := { status := 0#10, enable := 0x3FF#10, globalOn := true }, life := .initialized }

/-- INIT lines 4 to 15 (R203). A buffer on a descriptor array is never attached (20_memory.md R78; log 8). -/
def runInit (s : State) : Result :=
  match drawPool s.cfg.dRx [] s with
  | (true, bufs, s1) =>
    if bufs.any fun b => meetsDescriptors s.cfg b s.cfg.rxBufSize then .refused .platformOutsideSpec
    else .next ((initialise bufs s1).answer rcOk 0#32)
  | (false, bufs, s1) => .next ((s1.release bufs).answer rcOutOfMemory 0#32)

/-- INIT (R203); parameters out of their ranges are refused here (93_implementation_defined.md P1; log 14). -/
def execInit (s : State) : Result :=
  hostOp (foregroundOnly s.env.issuer) colInit s <|
    if s.cfg.wf then runInit s else .refused .platformOutsideSpec

/-- The buffers DEINIT releases from a ring (R204 lines 9 to 12): the books of `n` slots from `c`, in ring order. -/
def booked (book : List (Option Word)) (d c n : Nat) : List Word :=
  (ringSlots d c n).filterMap fun i => book.getD i none

/-- DEINIT lines 9 to 18 (R204). -/
def tearDown (s : State) : State :=
  let s1 := s.release (booked s.tx.book s.cfg.dTx s.tx.cursor (s.cfg.dTx - s.tx.free))
  let s2 := s1.release (booked s.rx.book s.cfg.dRx s.rx.cursor (s.cfg.dRx - s.rx.unprimed))
  { s2 with
    tx := { clearTx s.cfg with dma := s.tx.dma, inflight := s.tx.inflight }
    rx := { clearRx s.cfg with dma := s.rx.dma, pending := s.rx.pending }
    irq := { s.irq with status := 0#10 }
    life := .deinitialized
    env := { s.env with races := [] } }

/-- DEINIT line 19 (R204). -/
def finishDeinit (s : State) : State := (tearDown s).answer rcOk 0#32

/-- DEINIT lines 4 to 7 (R204): interrupts off, the gate closed if it was open, the engines stopped. -/
def beginDeinit (s : State) : State :=
  let s1 := { s with irq := { s.irq with enable := 0#10, globalOn := false } }
  stopBoth (if s.life = .enabled then closeGate s1 else s1)

/-- DEINIT (R204): one step when nothing is in flight, else it holds. -/
def execDeinit (s : State) : Result :=
  hostOp (foregroundOnly s.env.issuer) colLive s <|
    let s1 := beginDeinit s
    .next (if quiet s1 then finishDeinit s1 else s1.hold .deinit)

/-- The end of a held operation, answering on the port it was issued on, if it can end now: DISABLE and DEINIT once
nothing is in flight (42_mac_driver.md R179 line 8, R204 line 8), MDIO_READ and MDIO_WRITE once MDIO_DONE has come for
their own transaction (R180 line 6, R181 line 6; 70_reset_and_hazards.md R351 "until a hardware step ends the hold"; log
24). -/
def finishHeld (h : Held) (s : State) : Option State :=
  match h with
  | .disable => if quiet s then some (finishDisable s) else none
  | .deinit => if quiet s then some (finishDeinit s) else none
  | .mdioRead | .mdioWrite => none
  | .mdioOver ret => some (s.answer rcOk ret)

/-- The end of the operation held on port `p` (00_scope.md R11 d): only when its condition holds, and never once the
fatal latch is set (43_engine.md R206). -/
def completeHeld (p : Issuer) (s : State) : Result :=
  match (s.port p).phase with
  | .held h =>
    if s.fatal.isSome then .fault .fatalLatched
    else
      match finishHeld h { s with env := { s.env with issuer := p } } with
      | some t => .next t
      | none => .fault .stepNotEnabled
  | .idle | .unanswered | .answered => .fault .stepNotEnabled

end Sys2Proof.Machine
end

