-- ==== Sys2Proof/Machine/TxOps.lean ====
section
/-!
DEFINITION. The Tx ring operations: TX_ENQUEUE (40_tx_ring.md R131) and TX_RECLAIM (R132).
-/

namespace Sys2Proof.Machine

/-- TX_ENQUEUE lines 9 to 15 (R131): fill the slot at `txHead`, hand it over, restart an idle engine. -/
def enqueueSlot (first last : Bool) (buf : Word) (len : Half) (s : State) : State :=
  let s1 := writeTxDescriptor s.tx.head buf len first last s
  let s2 :=
    { s1 with
      tx :=
        { s1.tx with
          book := s1.tx.book.set s.tx.head (some buf)
          head := nextIdx s.cfg.dTx s.tx.head
          free := s.tx.free - 1
          openFrame := !last } }
  if s2.tx.dma = .idle then startDMA .tx s2 else s2

/-- TX_ENQUEUE (R131); a buffer on a descriptor array is never attached (20_memory.md R78; log 8). One that is armed on
Rx, or overlaps another, is attached all the same, and its bytes are then any mix (R89; log 13). -/
def execTxEnqueue (first last : Bool) (buf : Word) (len : Half) (s : State) : Result :=
  hostOp (foregroundOnly s.env.issuer) colEnqueue s <|
    if len = 0#16 then .refused .zeroLengthFragment
    else if !s.cfg.chained && !(first && last) then .refused .fragmentOnUnchainedBackend
    else if first = s.tx.openFrame then .refused .fragmentSequence
    else if !bufferDmaReadable s.cfg buf len then .refused .bufferNotDmaReadable
    else if s.tx.free = 0 then .next (s.answer rcOutOfMemory 0#32)
    else if meetsDescriptors s.cfg buf len.toNat then .refused .platformOutsideSpec
    else .next ((enqueueSlot first last buf len s).answer rcOk 0#32)

/-- One turn of `Reclaim()` (R132): the slot at the cursor is reclaimed and its token notified. A completed slot with
no token, which 10_state.md R33 excludes, notifies nothing (log 12). -/
def reclaimSlot (s : State) : State :=
  let c := s.tx.cursor
  let s1 :=
    match s.txTok c with
    | some t => s.tell (.frameTransmitted t)
    | none => s
  { s1 with
    tx :=
      { s1.tx with
        book := s1.tx.book.set c none, cursor := nextIdx s.cfg.dTx c, free := s1.tx.free + 1 } }

/-- `Reclaim()` (R132) with at most `fuel` turns; the second component counts the slots reclaimed. -/
def reclaimLoop : Nat → State → Nat → State × Nat
  | 0, s, n => (s, n)
  | fuel + 1, s, n =>
    if s.tx.free < s.cfg.dTx && !ownedByDma s .tx s.tx.cursor then reclaimLoop fuel (reclaimSlot s) (n + 1)
    else (s, n)

/-- `Reclaim()` (R132): every turn frees a slot, so `D_TX - txFree` turns are enough. -/
def reclaim (s : State) : State × Nat := reclaimLoop (s.cfg.dTx - s.tx.free) s 0

/-- TX_RECLAIM (R132). -/
def execTxReclaim (s : State) : Result :=
  hostOp (reclaimPorts s.env.issuer) colLive s <|
    .next ((reclaim s).1.answer rcOk (BitVec.ofNat 32 (reclaim s).2))

end Sys2Proof.Machine
end

