-- ==== Sys2Proof/Machine/IrqOps.lean ====
section
/-!
DEFINITION. ISR_DISPATCH (60_exceptions.md R308 to R311).
-/

namespace Sys2Proof.Machine

/-- ISR_DISPATCH line 9 (R308, R310): the Tx-complete service. -/
def serveTx (p : BitVec 10) (s : State) : State :=
  if hasIrq p irqTxComplete then (reclaim s).1 else s

/-- ISR_DISPATCH line 10 (R308, R310): the Rx-frame service; `RingDesync` is passed up (R315). -/
def serveRx (p : BitVec 10) (s : State) : Except Refusal State :=
  if hasIrq p irqRxFrame then
    match poll s with
    | .ok (s1, _) => .ok s1
    | .error r => .error r
  else .ok s

/-- ISR_DISPATCH lines 8 to 16 (R308): acknowledge, then the services in the order of R306. -/
def serve (p : BitVec 10) (s : State) : Except Refusal State :=
  match serveRx p (serveTx p (acknowledge p s)) with
  | .ok s1 => .ok (countStatistics p s1)
  | .error r => .error r

/-- ISR_DISPATCH (R308). -/
def execIsrDispatch (line : Bool) (s : State) : Result :=
  hostOp (isrPorts s.cfg line s.env.issuer) colAny s <|
    if !s.irq.globalOn then .fault .interruptsOff
    else
      let p := pendingOn s line
      if p = 0#10 then .next (s.answer rcOk 0#32)
      else if hasIrq p irqTxBusErr then .next (raiseFatal .txBusError s)
      else if hasIrq p irqRxBusErr then .next (raiseFatal .rxBusError s)
      else
        match serve p s with
        | .ok s1 => .next (s1.answer rcOk (p.setWidth 32))
        | .error r => .refused r

end Sys2Proof.Machine
end

