-- ==== Sys2Proof/Machine/Primitives.lean ====
section
/-!
DEFINITION. The fifteen backend primitives on the `be` port (45_backend_primitives.md R261 to R275), each one line over
the operation of Machine/Ops.lean that the host operations call. Ranges: R260, 93_implementation_defined.md E9.
-/

namespace Sys2Proof.Machine

/-- The index is below the ring's depth (30_encoding.md R111). -/
def idxOk (c : Params) (r : Ring) (i : Word) : Bool := i.toNat < depth c r

/-- START_DMA (R261). -/
def execStartDma (ring : Ring) (s : State) : Result :=
  primitive s true true (startDMA ring s) 0#32

/-- STOP_DMA (R262). -/
def execStopDma (ring : Ring) (s : State) : Result :=
  primitive s true true (stopDMA ring s) 0#32

/-- IS_SLOT_OWNED_BY_DMA (R263). -/
def execIsSlotOwnedByDma (ring : Ring) (idx : Word) (s : State) : Result :=
  primitive s (idxOk s.cfg ring idx) true s (boolWord (ownedByDma s ring idx.toNat))

/-- WRITE_TX_DESC (R264): the slot must be software's. -/
def execWriteTxDesc (first last : Bool) (idx buf : Word) (len : Half) (s : State) : Result :=
  primitive s (idxOk s.cfg .tx idx) (!ownedByDma s .tx idx.toNat)
    (writeTxDescriptor idx.toNat buf len first last s) 0#32

/-- WRITE_RX_DESC (R265): the slot must be software's. -/
def execWriteRxDesc (idx buf : Word) (s : State) : Result :=
  primitive s (idxOk s.cfg .rx idx) (!ownedByDma s .rx idx.toNat) (writeRxDescriptor idx.toNat buf s) 0#32

/-- IS_FIRST_FRAGMENT (R266). -/
def execIsFirstFragment (ring : Ring) (idx : Word) (s : State) : Result :=
  primitive s (idxOk s.cfg ring idx) true s (boolWord (isFirst s ring idx.toNat))

/-- IS_LAST_FRAGMENT (R267). -/
def execIsLastFragment (ring : Ring) (idx : Word) (s : State) : Result :=
  primitive s (idxOk s.cfg ring idx) true s (boolWord (isLast s ring idx.toNat))

/-- IS_ERROR_FRAGMENT (R268). -/
def execIsErrorFragment (ring : Ring) (idx : Word) (s : State) : Result :=
  primitive s (idxOk s.cfg ring idx) true s (boolWord (isError s ring idx.toNat))

/-- TOTAL_FRAME_LENGTH (R269). -/
def execTotalFrameLength (ring : Ring) (idx idx2 : Word) (s : State) : Result :=
  primitive s (idxOk s.cfg ring idx && idxOk s.cfg ring idx2) true s
    (BitVec.ofNat 32 (totalLength s ring idx.toNat idx2.toNat))

/-- IS_BUFFER_DMA_READABLE (R270). -/
def execIsBufferDmaReadable (ptr : Word) (len : Half) (s : State) : Result :=
  primitive s true true s (boolWord (bufferDmaReadable s.cfg ptr len))

/-- WRITE_UNICAST_ADDR (R271). -/
def execWriteUnicastAddr (addr : Mac) (s : State) : Result :=
  primitive s true true (writeUnicastAddress addr s) 0#32

/-- WRITE_MCAST_ADDR (R272): `SLOT` in 1..`MCAST_CAP`; `VALID` = 0 clears the slot. -/
def execWriteMcastAddr (slot : BitVec 5) (valid : Bool) (addr : Mac) (s : State) : Result :=
  primitive s (1 ≤ slot.toNat && slot.toNat ≤ s.cfg.mcastCap) true
    (writeMulticastAddress slot.toNat (if valid then some addr else none) s) 0#32

/-- SET_LINK_CONFIG (R273): the codes 2 and 3 have no meaning here (30_encoding.md R114; log 18). -/
def execSetLinkConfig (en : Bool) (speed duplex : BitVec 2) (s : State) : Result :=
  let l := linkOf speed duplex
  primitive s l.isSome true
    (match l with
      | some (sp, du) => writeLinkConfig en sp du s
      | none => s) 0#32

/-- MDIO_TRANSACTION (R274): no transaction may be running. -/
def execMdioTransaction (wr : Bool) (dev reg : BitVec 5) (val : Half) (s : State) : Result :=
  primitive s true (!s.mdio.busy) (startMdio wr dev reg val s) 0#32

/-- WRITE_FILTER_FLAGS (R275). -/
def execWriteFilterFlags (effPam effPau : Bool) (s : State) : Result :=
  primitive s true true (writeEffFlags effPam effPau s) 0#32

end Sys2Proof.Machine
end

