-- ==== Sys2Proof/Machine/Dispatch.lean ====
section
/-!
DEFINITION. The dispatch: one arm for each of the 41 rows of spec/opcode_table.json, each one call of the row's meaning.
-/

namespace Sys2Proof.Machine

def exec (i : Instr) (s : State) : Host.Outcome State Fault Refusal :=
  match i with
  | .init => Sys2Proof.Machine.execInit s
  | .deinit => Sys2Proof.Machine.execDeinit s
  | .enable speed duplex => Sys2Proof.Machine.execEnable speed duplex s
  | .disable => Sys2Proof.Machine.execDisable s
  | .txEnqueue first last buf len => Sys2Proof.Machine.execTxEnqueue first last buf len s
  | .txReclaim => Sys2Proof.Machine.execTxReclaim s
  | .rxPrime buf => Sys2Proof.Machine.execRxPrime buf s
  | .rxPoll => Sys2Proof.Machine.execRxPoll s
  | .setOwnAddr addr => Sys2Proof.Machine.execSetOwnAddr addr s
  | .addMcast addr => Sys2Proof.Machine.execAddMcast addr s
  | .clearMcast => Sys2Proof.Machine.execClearMcast s
  | .setPam v => Sys2Proof.Machine.execSetPam v s
  | .setPromisc v => Sys2Proof.Machine.execSetPromisc v s
  | .mdioRead dev reg => Sys2Proof.Machine.execMdioRead dev reg s
  | .mdioWrite dev reg val => Sys2Proof.Machine.execMdioWrite dev reg val s
  | .isrDispatch line => Sys2Proof.Machine.execIsrDispatch line s
  | .startDma ring => Sys2Proof.Machine.execStartDma ring s
  | .stopDma ring => Sys2Proof.Machine.execStopDma ring s
  | .isSlotOwnedByDma ring idx => Sys2Proof.Machine.execIsSlotOwnedByDma ring idx s
  | .writeTxDesc first last idx buf len => Sys2Proof.Machine.execWriteTxDesc first last idx buf len s
  | .writeRxDesc idx buf => Sys2Proof.Machine.execWriteRxDesc idx buf s
  | .isFirstFragment ring idx => Sys2Proof.Machine.execIsFirstFragment ring idx s
  | .isLastFragment ring idx => Sys2Proof.Machine.execIsLastFragment ring idx s
  | .isErrorFragment ring idx => Sys2Proof.Machine.execIsErrorFragment ring idx s
  | .totalFrameLength ring idx idx2 => Sys2Proof.Machine.execTotalFrameLength ring idx idx2 s
  | .isBufferDmaReadable ptr len => Sys2Proof.Machine.execIsBufferDmaReadable ptr len s
  | .writeUnicastAddr addr => Sys2Proof.Machine.execWriteUnicastAddr addr s
  | .writeMcastAddr slot valid addr => Sys2Proof.Machine.execWriteMcastAddr slot valid addr s
  | .setLinkConfig en speed duplex => Sys2Proof.Machine.execSetLinkConfig en speed duplex s
  | .mdioTransaction wr dev reg val => Sys2Proof.Machine.execMdioTransaction wr dev reg val s
  | .writeFilterFlags effPam effPau => Sys2Proof.Machine.execWriteFilterFlags effPam effPau s
  | .txdmaFetch => Sys2Proof.Machine.execTxdmaFetch s
  | .txdmaComplete => Sys2Proof.Machine.execTxdmaComplete s
  | .txdmaSuspend => Sys2Proof.Machine.execTxdmaSuspend s
  | .txdmaBusError => Sys2Proof.Machine.execTxdmaBusError s
  | .rxFrameArrive => Sys2Proof.Machine.execRxFrameArrive s
  | .rxdmaWrite => Sys2Proof.Machine.execRxdmaWrite s
  | .rxdmaSuspend => Sys2Proof.Machine.execRxdmaSuspend s
  | .rxdmaBusError => Sys2Proof.Machine.execRxdmaBusError s
  | .statusEvent kind => Sys2Proof.Machine.execStatusEvent kind s
  | .mdioDone => Sys2Proof.Machine.execMdioDone s

end Sys2Proof.Machine
end

