-- ==== Sys2Proof/Decode.lean ====
section
/-!
DEFINITION. The decoder and the encoder of 30_encoding.md: fields of `OPW` (R102), formats Z, F, A, Q, P, L, M, X, D,
T, G, W, R, E (R104 to R116), maps R119, R120, R121, operand assembly R117 and R118. The decoder reads the opcode,
checks the reserved bits of the operation word (R122 a, b) and of the argument words used (R122 c), and refuses by
`none`; which port accepts the instruction is checked where it is issued (R122 d, e; Machine/Operands.lean).
-/

namespace Sys2Proof

/-- The `n` bits of `w` from bit `lo` up (00_scope.md R9: `w[lo+n-1:lo]`). -/
abbrev bits (w : Word) (lo n : Nat) : BitVec n := w.extractLsb' lo n

/-- One bit of `w` as a Boolean (00_scope.md R9). -/
def bitAt (w : Word) (b : Nat) : Bool := w.getLsbD b

/-- A Boolean in a bit field (00_scope.md R9). -/
def flag (b : Bool) : BitVec 1 := if b then 1#1 else 0#1

/-- The `RING` bit (30_encoding.md R111). -/
def ringOf (b : Bool) : Ring := if b then .rx else .tx

/-- The `RING` bit of a ring (30_encoding.md R111). -/
def ringBit : Ring → Bool
  | .tx => false
  | .rx => true

/-- The 48-bit address of `ADDR_LO` and `ADDR_HI` (30_encoding.md R117). -/
def macOf (lo : Word) (hi : Half) : Mac := hi ++ lo

/-- `ADDR_LO` = A[31:0] (30_encoding.md R117). -/
def macLo (a : Mac) : Word := a.extractLsb' 0 32

/-- `ADDR_HI` = A[47:32] (30_encoding.md R117). -/
def macHi (a : Mac) : Half := a.extractLsb' 32 16

/-- A 16-bit operand in the low half of an argument word whose high half is reserved. -/
def halfArg (h : Half) : Word := 0#16 ++ h

/-- The low half of an argument word. -/
def lowHalf (w : Word) : Half := bits w 0 16

/-- The reserved high half of an argument word is zero (30_encoding.md R122 c). -/
def highZero (w : Word) : Bool := bits w 16 16 == 0#16

/-- A decoded instruction, if the reserved bits it needs are zero. -/
def onlyIf (ok : Bool) (i : Instr) : Option Instr := if ok then some i else none

/-- Format Z: all of `OPW[31:8]` reserved (R104); also the reserved part of formats A, P, R and of most tags. -/
def fmtZ (w : Word) : Bool := bits w 8 24 == 0#24

/-- Formats F and X: `OPW[31:9]` reserved (R105, R111). -/
def fmtF (w : Word) : Bool := bits w 9 23 == 0#23

/-- Formats Q, D and W: `OPW[31:10]` reserved (R107, R112, R115). -/
def fmtQ (w : Word) : Bool := bits w 10 22 == 0#22

/-- Format L: `OPW[31:12]` reserved (R109). -/
def fmtL (w : Word) : Bool := bits w 12 20 == 0#20

/-- Format G: `OPW[31:13]` reserved (R114). -/
def fmtG (w : Word) : Bool := bits w 13 19 == 0#19

/-- Format M of the host operations: `OPW[31:21]` and `OPW[15:13]` reserved (R110). -/
def fmtM (w : Word) : Bool := bits w 21 11 == 0#11 && bits w 13 3 == 0#3

/-- Format M of MDIO_TRANSACTION: as above, but bit 24 is `WR` (R110). -/
def fmtMT (w : Word) : Bool := bits w 25 7 == 0#7 && bits w 21 3 == 0#3 && bits w 13 3 == 0#3

/-- Format T: `OPW[31:21]` and `OPW[15:9]` reserved (R113). -/
def fmtT (w : Word) : Bool := bits w 21 11 == 0#11 && bits w 9 7 == 0#7

/-- Format E with a kind: `OPW[31:16]` reserved (R116). -/
def fmtE (w : Word) : Bool := bits w 16 16 == 0#16

/-- The decoder (30_encoding.md R124): opcode, reserved bits, then the argument words the opcode uses. Opcodes of no
row are refused (R122 a, R123). -/
def decode (t : OpTuple) : Option Instr :=
  let w := t.opw
  let b8 := bitAt w 8
  let b9 := bitAt w 9
  match (bits w 0 8).toNat with
  | 0x01 => onlyIf (fmtZ w) .init
  | 0x02 => onlyIf (fmtZ w) .deinit
  | 0x03 => onlyIf (fmtL w) (.enable (bits w 8 2) (bits w 10 2))
  | 0x04 => onlyIf (fmtZ w) .disable
  | 0x10 => onlyIf (fmtQ w && highZero t.arg1) (.txEnqueue b8 b9 t.arg0 (lowHalf t.arg1))
  | 0x11 => onlyIf (fmtZ w) .txReclaim
  | 0x20 => onlyIf (fmtZ w) (.rxPrime t.arg0)
  | 0x21 => onlyIf (fmtZ w) .rxPoll
  | 0x30 => onlyIf (fmtZ w && highZero t.arg1) (.setOwnAddr (macOf t.arg0 (lowHalf t.arg1)))
  | 0x31 => onlyIf (fmtZ w && highZero t.arg1) (.addMcast (macOf t.arg0 (lowHalf t.arg1)))
  | 0x32 => onlyIf (fmtZ w) .clearMcast
  | 0x33 => onlyIf (fmtF w) (.setPam b8)
  | 0x34 => onlyIf (fmtF w) (.setPromisc b8)
  | 0x40 => onlyIf (fmtM w) (.mdioRead (bits w 8 5) (bits w 16 5))
  | 0x41 => onlyIf (fmtM w && highZero t.arg0) (.mdioWrite (bits w 8 5) (bits w 16 5) (lowHalf t.arg0))
  | 0x50 => onlyIf (fmtF w) (.isrDispatch b8)
  | 0x80 => onlyIf (fmtF w) (.startDma (ringOf b8))
  | 0x81 => onlyIf (fmtF w) (.stopDma (ringOf b8))
  | 0x82 => onlyIf (fmtF w) (.isSlotOwnedByDma (ringOf b8) t.arg0)
  | 0x83 => onlyIf (fmtQ w && highZero t.arg2) (.writeTxDesc b8 b9 t.arg0 t.arg1 (lowHalf t.arg2))
  | 0x84 => onlyIf (fmtZ w) (.writeRxDesc t.arg0 t.arg1)
  | 0x85 => onlyIf (fmtF w) (.isFirstFragment (ringOf b8) t.arg0)
  | 0x86 => onlyIf (fmtF w) (.isLastFragment (ringOf b8) t.arg0)
  | 0x87 => onlyIf (fmtF w) (.isErrorFragment (ringOf b8) t.arg0)
  | 0x88 => onlyIf (fmtF w) (.totalFrameLength (ringOf b8) t.arg0 t.arg1)
  | 0x89 => onlyIf (fmtZ w && highZero t.arg1) (.isBufferDmaReadable t.arg0 (lowHalf t.arg1))
  | 0x8A => onlyIf (fmtZ w && highZero t.arg1) (.writeUnicastAddr (macOf t.arg0 (lowHalf t.arg1)))
  | 0x8B =>
    onlyIf (fmtT w && highZero t.arg1 && (b8 || macOf t.arg0 (lowHalf t.arg1) == 0#48))
      (.writeMcastAddr (bits w 16 5) b8 (macOf t.arg0 (lowHalf t.arg1)))
  | 0x8C => onlyIf (fmtG w) (.setLinkConfig (bitAt w 12) (bits w 8 2) (bits w 10 2))
  | 0x8D =>
    onlyIf (fmtMT w && highZero t.arg0 && mdioValOk (bitAt w 24) (lowHalf t.arg0))
      (.mdioTransaction (bitAt w 24) (bits w 8 5) (bits w 16 5) (lowHalf t.arg0))
  | 0x8E => onlyIf (fmtQ w) (.writeFilterFlags b8 b9)
  | 0xC0 => onlyIf (fmtZ w) .txdmaFetch
  | 0xC1 => onlyIf (fmtZ w) .txdmaComplete
  | 0xC2 => onlyIf (fmtZ w) .txdmaSuspend
  | 0xC3 => onlyIf (fmtZ w) .txdmaBusError
  | 0xC4 => onlyIf (fmtZ w) .rxFrameArrive
  | 0xC5 => onlyIf (fmtZ w) .rxdmaWrite
  | 0xC6 => onlyIf (fmtZ w) .rxdmaSuspend
  | 0xC7 => onlyIf (fmtZ w) .rxdmaBusError
  | 0xC8 => onlyIf (fmtE w) (.statusEvent (bits w 8 8))
  | 0xC9 => onlyIf (fmtZ w) .mdioDone
  | _ => none

/-- The tuple whose `n` lowest bits are those of `w`: bit 0 is bit 0 of `OPW`, `ARG0` follows at bit 32, `ARG1` at bit
64, `ARG2` at bit 96; every higher bit is 0. -/
def tupleOfBits (n w : Nat) : OpTuple :=
  let v := w % 2 ^ n
  { opw := BitVec.ofNat 32 v, arg0 := BitVec.ofNat 32 (v / 2 ^ 32), arg1 := BitVec.ofNat 32 (v / 2 ^ 64),
    arg2 := BitVec.ofNat 32 (v / 2 ^ 96) }

/-- The instruction the decoder reads from an instruction whose bits are `w`. -/
def decodeTableWord (nbits w : Nat) : Option Instr := decode (tupleOfBits nbits w)

/-! The encoder. -/

/-- A tuple with no argument word. -/
def opw0 (w : Word) : OpTuple := ⟨w, 0#32, 0#32, 0#32⟩

/-- Format A (R106). -/
def encA (opc : BitVec 8) (a : Mac) : OpTuple := ⟨0#24 ++ opc, macLo a, halfArg (macHi a), 0#32⟩

/-- Format F, and format X with its index operands (R105, R111). -/
def encF (opc : BitVec 8) (v : Bool) (a0 a1 : Word) : OpTuple := ⟨0#23 ++ flag v ++ opc, a0, a1, 0#32⟩

/-- The operation word of formats Q, D and W: two Booleans above the opcode (R107, R112, R115). -/
def encQ (opc : BitVec 8) (b9 b8 : Bool) : Word := 0#22 ++ flag b9 ++ flag b8 ++ opc

/-- The operation word of format M (R110). -/
def encM (opc : BitVec 8) (wr : Bool) (dev reg : BitVec 5) : Word :=
  0#7 ++ flag wr ++ 0#3 ++ reg ++ 0#3 ++ dev ++ opc

/-- The encoder: the words of an instruction, from the formats R104 to R116. -/
def encode : Instr → OpTuple
  | .init => opw0 0x00000001#32
  | .deinit => opw0 0x00000002#32
  | .enable speed duplex => opw0 (0#20 ++ duplex ++ speed ++ 0x03#8)
  | .disable => opw0 0x00000004#32
  | .txEnqueue first last buf len => ⟨encQ 0x10#8 last first, buf, halfArg len, 0#32⟩
  | .txReclaim => opw0 0x00000011#32
  | .rxPrime buf => ⟨0x00000020#32, buf, 0#32, 0#32⟩
  | .rxPoll => opw0 0x00000021#32
  | .setOwnAddr addr => encA 0x30#8 addr
  | .addMcast addr => encA 0x31#8 addr
  | .clearMcast => opw0 0x00000032#32
  | .setPam v => encF 0x33#8 v 0#32 0#32
  | .setPromisc v => encF 0x34#8 v 0#32 0#32
  | .mdioRead dev reg => opw0 (encM 0x40#8 false dev reg)
  | .mdioWrite dev reg val => ⟨encM 0x41#8 false dev reg, halfArg val, 0#32, 0#32⟩
  | .isrDispatch line => encF 0x50#8 line 0#32 0#32
  | .startDma ring => encF 0x80#8 (ringBit ring) 0#32 0#32
  | .stopDma ring => encF 0x81#8 (ringBit ring) 0#32 0#32
  | .isSlotOwnedByDma ring idx => encF 0x82#8 (ringBit ring) idx 0#32
  | .writeTxDesc first last idx buf len => ⟨encQ 0x83#8 last first, idx, buf, halfArg len⟩
  | .writeRxDesc idx buf => ⟨0x00000084#32, idx, buf, 0#32⟩
  | .isFirstFragment ring idx => encF 0x85#8 (ringBit ring) idx 0#32
  | .isLastFragment ring idx => encF 0x86#8 (ringBit ring) idx 0#32
  | .isErrorFragment ring idx => encF 0x87#8 (ringBit ring) idx 0#32
  | .totalFrameLength ring idx idx2 => encF 0x88#8 (ringBit ring) idx idx2
  | .isBufferDmaReadable ptr len => ⟨0x00000089#32, ptr, halfArg len, 0#32⟩
  | .writeUnicastAddr addr => encA 0x8A#8 addr
  | .writeMcastAddr slot valid addr =>
    ⟨0#11 ++ slot ++ 0#7 ++ flag valid ++ 0x8B#8, macLo addr, halfArg (macHi addr), 0#32⟩
  | .setLinkConfig en speed duplex => opw0 (0#19 ++ flag en ++ duplex ++ speed ++ 0x8C#8)
  | .mdioTransaction wr dev reg val => ⟨encM 0x8D#8 wr dev reg, halfArg val, 0#32, 0#32⟩
  | .writeFilterFlags effPam effPau => opw0 (encQ 0x8E#8 effPau effPam)
  | .txdmaFetch => opw0 0x000000C0#32
  | .txdmaComplete => opw0 0x000000C1#32
  | .txdmaSuspend => opw0 0x000000C2#32
  | .txdmaBusError => opw0 0x000000C3#32
  | .rxFrameArrive => opw0 0x000000C4#32
  | .rxdmaWrite => opw0 0x000000C5#32
  | .rxdmaSuspend => opw0 0x000000C6#32
  | .rxdmaBusError => opw0 0x000000C7#32
  | .statusEvent kind => opw0 (0#16 ++ kind ++ 0xC8#8)
  | .mdioDone => opw0 0x000000C9#32

/-- One row of the opcode maps R119, R120, R121: `match`, `mask` over `OPW`, and the number of argument words. -/
structure OpRow where
  mnemonic : String
  pattern : Word
  mask : Word
  nargs : Nat
deriving DecidableEq, Repr

/-- The row of an instruction, as the tables of 30_encoding.md R119, R120 and R121 print it. -/
def Instr.row : Instr → OpRow
  | .init => ⟨"INIT", 0x00000001#32, 0xFFFFFFFF#32, 0⟩
  | .deinit => ⟨"DEINIT", 0x00000002#32, 0xFFFFFFFF#32, 0⟩
  | .enable _ _ => ⟨"ENABLE", 0x00000003#32, 0xFFFFF0FF#32, 0⟩
  | .disable => ⟨"DISABLE", 0x00000004#32, 0xFFFFFFFF#32, 0⟩
  | .txEnqueue _ _ _ _ => ⟨"TX_ENQUEUE", 0x00000010#32, 0xFFFFFCFF#32, 2⟩
  | .txReclaim => ⟨"TX_RECLAIM", 0x00000011#32, 0xFFFFFFFF#32, 0⟩
  | .rxPrime _ => ⟨"RX_PRIME", 0x00000020#32, 0xFFFFFFFF#32, 1⟩
  | .rxPoll => ⟨"RX_POLL", 0x00000021#32, 0xFFFFFFFF#32, 0⟩
  | .setOwnAddr _ => ⟨"SET_OWN_ADDR", 0x00000030#32, 0xFFFFFFFF#32, 2⟩
  | .addMcast _ => ⟨"ADD_MCAST", 0x00000031#32, 0xFFFFFFFF#32, 2⟩
  | .clearMcast => ⟨"CLEAR_MCAST", 0x00000032#32, 0xFFFFFFFF#32, 0⟩
  | .setPam _ => ⟨"SET_PAM", 0x00000033#32, 0xFFFFFEFF#32, 0⟩
  | .setPromisc _ => ⟨"SET_PROMISC", 0x00000034#32, 0xFFFFFEFF#32, 0⟩
  | .mdioRead _ _ => ⟨"MDIO_READ", 0x00000040#32, 0xFFE0E0FF#32, 0⟩
  | .mdioWrite _ _ _ => ⟨"MDIO_WRITE", 0x00000041#32, 0xFFE0E0FF#32, 1⟩
  | .isrDispatch _ => ⟨"ISR_DISPATCH", 0x00000050#32, 0xFFFFFEFF#32, 0⟩
  | .startDma _ => ⟨"START_DMA", 0x00000080#32, 0xFFFFFEFF#32, 0⟩
  | .stopDma _ => ⟨"STOP_DMA", 0x00000081#32, 0xFFFFFEFF#32, 0⟩
  | .isSlotOwnedByDma _ _ => ⟨"IS_SLOT_OWNED_BY_DMA", 0x00000082#32, 0xFFFFFEFF#32, 1⟩
  | .writeTxDesc _ _ _ _ _ => ⟨"WRITE_TX_DESC", 0x00000083#32, 0xFFFFFCFF#32, 3⟩
  | .writeRxDesc _ _ => ⟨"WRITE_RX_DESC", 0x00000084#32, 0xFFFFFFFF#32, 2⟩
  | .isFirstFragment _ _ => ⟨"IS_FIRST_FRAGMENT", 0x00000085#32, 0xFFFFFEFF#32, 1⟩
  | .isLastFragment _ _ => ⟨"IS_LAST_FRAGMENT", 0x00000086#32, 0xFFFFFEFF#32, 1⟩
  | .isErrorFragment _ _ => ⟨"IS_ERROR_FRAGMENT", 0x00000087#32, 0xFFFFFEFF#32, 1⟩
  | .totalFrameLength _ _ _ => ⟨"TOTAL_FRAME_LENGTH", 0x00000088#32, 0xFFFFFEFF#32, 2⟩
  | .isBufferDmaReadable _ _ => ⟨"IS_BUFFER_DMA_READABLE", 0x00000089#32, 0xFFFFFFFF#32, 2⟩
  | .writeUnicastAddr _ => ⟨"WRITE_UNICAST_ADDR", 0x0000008A#32, 0xFFFFFFFF#32, 2⟩
  | .writeMcastAddr _ _ _ => ⟨"WRITE_MCAST_ADDR", 0x0000008B#32, 0xFFE0FEFF#32, 2⟩
  | .setLinkConfig _ _ _ => ⟨"SET_LINK_CONFIG", 0x0000008C#32, 0xFFFFE0FF#32, 0⟩
  | .mdioTransaction _ _ _ _ => ⟨"MDIO_TRANSACTION", 0x0000008D#32, 0xFEE0E0FF#32, 1⟩
  | .writeFilterFlags _ _ => ⟨"WRITE_FILTER_FLAGS", 0x0000008E#32, 0xFFFFFCFF#32, 0⟩
  | .txdmaFetch => ⟨"TXDMA_FETCH", 0x000000C0#32, 0xFFFFFFFF#32, 0⟩
  | .txdmaComplete => ⟨"TXDMA_COMPLETE", 0x000000C1#32, 0xFFFFFFFF#32, 0⟩
  | .txdmaSuspend => ⟨"TXDMA_SUSPEND", 0x000000C2#32, 0xFFFFFFFF#32, 0⟩
  | .txdmaBusError => ⟨"TXDMA_BUS_ERROR", 0x000000C3#32, 0xFFFFFFFF#32, 0⟩
  | .rxFrameArrive => ⟨"RX_FRAME_ARRIVE", 0x000000C4#32, 0xFFFFFFFF#32, 0⟩
  | .rxdmaWrite => ⟨"RXDMA_WRITE", 0x000000C5#32, 0xFFFFFFFF#32, 0⟩
  | .rxdmaSuspend => ⟨"RXDMA_SUSPEND", 0x000000C6#32, 0xFFFFFFFF#32, 0⟩
  | .rxdmaBusError => ⟨"RXDMA_BUS_ERROR", 0x000000C7#32, 0xFFFFFFFF#32, 0⟩
  | .statusEvent _ => ⟨"STATUS_EVENT", 0x000000C8#32, 0xFFFF00FF#32, 0⟩
  | .mdioDone => ⟨"MDIO_DONE", 0x000000C9#32, 0xFFFFFFFF#32, 0⟩

end Sys2Proof
end

