-- ==== Sys2Proof/Machine/Views.lean ====
section
/-!
DEFINITION. The read-only views of the state: the CSRs (10_state.md R50 to R62), the image of the slots in memory
(20_memory.md R73, R75), the platform's address map (R84), and the accesses of the host to it, which are no operations
(10_state.md R50, 20_memory.md R70, R89).
-/

namespace Sys2Proof.Machine

/-! Codes (10_state.md R21, R34, R51, R52). -/

/-- `LIFE`. -/
def lifeCode : Life → Word
  | .uninitialized => 0#32
  | .initialized => 1#32
  | .enabled => 2#32
  | .disabled => 3#32
  | .deinitialized => 4#32

/-- `STATE` of a DMA engine. -/
def dmaCode : DmaState → Word
  | .stopped => 0#32
  | .idle => 1#32
  | .active => 2#32

/-- `SPEED`. -/
def speedBit : Speed → Bool
  | .s10 => false
  | .s100 => true

/-- `DUPLEX`. -/
def duplexBit : Duplex → Bool
  | .half => false
  | .full => true

/-- A Boolean at a bit position. -/
def atBit (k : Nat) (b : Bool) : Word := if b then 1#32 <<< k else 0#32

/-! CSRs. -/

/-- CSR 0 `ENGINE_STATE` (R51). -/
def csrEngineState (s : State) : Word :=
  lifeCode s.life ||| atBit 8 s.fatal.isSome ||| atBit 9 (s.fatal == some .rxBusError) ||| atBit 16 s.irq.globalOn
    ||| atBit 17 s.mdio.busy ||| atBit 18 s.tx.openFrame

/-- CSR 1 `MAC_CFG` (R52). -/
def csrMacCfg (s : State) : Word :=
  atBit 0 s.mac.macEn ||| atBit 1 (speedBit s.mac.speed) ||| atBit 2 (duplexBit s.mac.duplex)

/-- CSR 2 `FILTER_CTL` (R53). -/
def csrFilterCtl (s : State) : Word :=
  atBit 0 s.mac.pam ||| atBit 1 s.mac.promisc ||| atBit 8 s.mac.effPam ||| atBit 9 s.mac.effPau
    ||| (BitVec.ofNat 5 s.mac.mcast.length).setWidth 32 <<< 16 ||| atBit 24 s.mac.ucast.isSome

/-- CSR 5 `TX_DMA` (R55). -/
def csrTxDma (s : State) : Word :=
  dmaCode s.tx.dma ||| atBit 8 s.tx.inflight.isSome
    ||| (BitVec.ofNat 16 (s.tx.inflight.getD 0)).setWidth 32 <<< 16

/-- CSR 10 `RX_DMA` (R57). -/
def csrRxDma (s : State) : Word := dmaCode s.rx.dma ||| atBit 8 s.rx.pending.isSome

/-- An index or a count, zero-extended (R56, R58). -/
def csrIndex (n : Nat) : Word := BitVec.ofNat 32 n

/-- CSRs 32 + 2k `ADDR_LO[k]` and 33 + 2k `ADDR_HI[k]` (R60). -/
def csrAddr (s : State) (k : Nat) (hi : Bool) : Word :=
  match s.mac.addrTab.getD k none with
  | none => 0#32
  | some a => if hi then 1#1 ++ 0#15 ++ macHi a else macLo a

/-- `CsrRead(n)`, every element at the value State holds (R50 to R61). -/
def csrView (s : State) (n : Nat) : Word :=
  match n with
  | 0 => csrEngineState s
  | 1 => csrMacCfg s
  | 2 => csrFilterCtl s
  | 3 => s.irq.status.setWidth 32
  | 4 => s.irq.enable.setWidth 32
  | 5 => csrTxDma s
  | 6 => csrIndex s.tx.cursor
  | 7 => csrIndex s.tx.head
  | 8 => csrIndex s.tx.hw
  | 9 => csrIndex s.tx.free
  | 10 => csrRxDma s
  | 11 => csrIndex s.rx.cursor
  | 12 => csrIndex s.rx.prime
  | 13 => csrIndex s.rx.hw
  | 14 => csrIndex s.rx.unprimed
  | 16 => s.cnt.rxError
  | 17 => s.cnt.rxOverrun
  | 18 => s.cnt.crcError
  | 19 => s.cnt.txUnderrun
  | 20 => s.cnt.frameTooLong
  | 21 => s.cnt.lateCollision
  | 22 => s.cnt.alignError
  | n => if 32 ≤ n ∧ n < 34 + 2 * s.cfg.mcastCap then csrAddr s ((n - 32) / 2) (n % 2 == 1) else 0#32

/-- The bits of CSR `n` that are unspecified between power-on and INIT (R52, R53, R56, R58, R59, R60, R62); `TX_OPEN` is
one of them (R63, 70_reset_and_hazards.md R333; log 7). -/
def csrUnspecified (c : Params) (n : Nat) : Word :=
  match n with
  | 0 => 0x00040000#32
  | 3 | 4 | 5 | 10 | 15 => 0#32
  | 1 => 0x00000006#32
  | 2 => 0x011F0303#32
  | 6 | 7 | 8 | 9 | 11 | 12 | 13 | 14 => 0xFFFFFFFF#32
  | 16 | 17 | 18 | 19 | 20 | 21 | 22 => 0xFFFFFFFF#32
  | n =>
    if 32 ≤ n ∧ n < 34 + 2 * c.mcastCap then (if n % 2 == 1 then 0x8000FFFF#32 else 0xFFFFFFFF#32) else 0#32

/-- The bits a `CsrRead(n)` must draw: none once INIT has run (R62). -/
def csrDrawn (s : State) (n : Nat) : Word :=
  if s.life = .uninitialized then csrUnspecified s.cfg n else 0#32

/-- `CsrRead(n)` with `d` for the unspecified bits (R62). -/
def csrValue (s : State) (n : Nat) (d : Word) : Word :=
  (csrView s n &&& ~~~(csrDrawn s n)) ||| (d &&& csrDrawn s n)

/-! The image of the slots (20_memory.md R73). -/

/-- Word `k` of the image of a slot. -/
def slotWord (x : Slot) (k : Nat) : Word :=
  match k with
  | 0 => atBit 31 (x.own == .dma) ||| atBit 30 x.first ||| atBit 29 x.last ||| atBit 28 x.err
  | 1 => x.buf
  | 2 => 0#16 ++ x.len
  | _ => 0#32

/-- Byte `j` of a little-endian word (20_memory.md R75). -/
def wordByte (w : Word) (j : Nat) : Byte := w.extractLsb' (8 * j) 8

/-- The offset of an address in a range of `n` bytes at `base`, if it lies there. -/
def offsetIn (base : Word) (n : Nat) (a : Word) : Option Nat :=
  if (a - base).toNat < n then some (a - base).toNat else none

/-- Byte `k` of the image of a slot array. -/
def imageByte (s : State) (r : Ring) (k : Nat) : Byte :=
  wordByte (slotWord (s.slot r (k / 16)) (k % 16 / 4)) (k % 4)

/-- Where an address of the platform's map lies (20_memory.md R84). -/
inductive Region where
  | txImage (k : Nat)
  | rxImage (k : Nat)
  | csr (k : Nat)
  | memory
deriving DecidableEq, Repr

/-- The address map: the two slot arrays, the CSRs if the platform maps them, else main memory. -/
def regionOf (c : Params) (a : Word) : Region :=
  match offsetIn c.txDescBase (16 * c.dTx) a with
  | some k => .txImage k
  | none =>
    match offsetIn c.rxDescBase (16 * c.dRx) a with
    | some k => .rxImage k
    | none =>
      match c.csrBase.bind fun b => offsetIn b 384 a with
      | some k => .csr k
      | none => .memory

/-- The byte is in a buffer attached to an Rx slot (10_state.md R26). -/
def heldByRx (s : State) (a : Word) : Bool :=
  s.rx.book.any fun b =>
    match b with
    | some p => (a - p).toNat < s.cfg.rxBufSize
    | none => false

/-- The byte a load finds, with `d` for what is open: the slots and some CSR bits before INIT (10_state.md R25, R62), and
a byte of a buffer attached to the Rx ring, which races with the engine (20_memory.md R89, 70_reset_and_hazards.md
R346; log 13). -/
def busByte (s : State) (a d : Word) : Byte :=
  match regionOf s.cfg a with
  | .txImage k => if s.life = .uninitialized then wordByte d (k % 4) else imageByte s .tx k
  | .rxImage k => if s.life = .uninitialized then wordByte d (k % 4) else imageByte s .rx k
  | .csr k => wordByte (csrValue s (k / 4) d) (k % 4)
  | .memory => if heldByRx s a then wordByte d (a.toNat % 4) else memRead s.mem a.toNat

/-- The word a 32-bit load finds: the four bytes, the lowest address lowest (20_memory.md R75, R80). A slot word or a CSR
is read whole, in one step (R81). -/
def busWord (s : State) (a d : Word) : Word :=
  busByte s (a + 3#32) d ++ busByte s (a + 2#32) d ++ busByte s (a + 1#32) d ++ busByte s a d

/-! Accesses of a host context. -/

/-- The value a host context has read. -/
def State.setRdata (s : State) (p : Issuer) (v : Word) : State := s.setPort p { s.port p with rdata := v }

/-- A read may draw: the next free value (10_state.md R62). -/
def State.drew (s : State) : State := { s with env := { s.env with drawn := s.env.drawn + 1 } }

/-- `CsrRead(n)` by a context, at any time (10_state.md R50): nothing of the block changes. -/
def readCsr (p : Issuer) (n : Nat) (s : State) : Result :=
  .next ((s.setRdata p (csrValue s n (Config.unspecifiedBits s.env.drawn))).drew)

/-- A byte load of a context (20_memory.md R70, R77). -/
def hostLoad (p : Issuer) (a : Word) (s : State) : Result :=
  .next ((s.setRdata p (0#24 ++ busByte s a (Config.unspecifiedBits s.env.drawn))).drew)

/-- A 32-bit load of a context (20_memory.md R80). -/
def hostLoadWord (p : Issuer) (a : Word) (s : State) : Result :=
  .next ((s.setRdata p (busWord s a (Config.unspecifiedBits s.env.drawn))).drew)

/-- A byte store of a context to main memory. On a buffer whose slot an engine owns it starts a race; on one that is
filled and not handed up yet it leaves the old byte or the new one (20_memory.md R89, 93_implementation_defined.md U5; log
13). No store is defined on the CSRs or the slot images (log 21). -/
def hostStore (a : Word) (v : Byte) (s : State) : Result :=
  match regionOf s.cfg a with
  | .memory => .next ((s.drewIf (filledHolds s a)).storeBytes a [anyOf s 0 v (filledVals s a)])
  | .txImage _ | .rxImage _ | .csr _ => .refused .storeToBlock

end Sys2Proof.Machine
end

