-- ==== Sys2Proof/Machine/Fetch.lean ====
section
/-!
DEFINITION. What happens next (00_scope.md R12; log 2): the head of `env.inputs` is taken, a tuple is latched on its
port and decoded (30_encoding.md R100, R124), and what is no operation is done at once.
-/

namespace Sys2Proof.Machine

/-- What the head of `env.inputs` asks for: an instruction to run in a state, or an outcome. -/
inductive Fetched where
  | run (i : Instr) (s : State)
  | done (r : Result)

/-- The operation of a port holds (00_scope.md R11 d). -/
def isHeld (r : PortRegs) : Bool :=
  match r.phase with
  | .held _ => true
  | .idle | .unanswered | .answered => false

/-- The choice of what happens next is used up. -/
def State.dropInput (s : State) : State := { s with env := { s.env with inputs := s.env.inputs.drop 1 } }

/-- Present a tuple on a port, or an agent's tag: nothing is presented on a port that holds; words of no row are
illegal (30_encoding.md R122). -/
def present (p : Issuer) (t : OpTuple) (s : State) : Fetched :=
  if isHeld (s.port p) then .done (.refused .portHeld)
  else
    match decode t with
    | some i => .run i (s.latch p t)
    | none => .done (illegal (s.latch p t))

/-- Power-on reset (70_reset_and_hazards.md R330): the block is as R63 says, whatever it was. Memory and the
environment are outside the block and keep what they hold (log 17). -/
def powerOn (s : State) : State :=
  { State.resetWith s.cfg with mem := s.mem, env := { s.env with races := [], mdioFor := none } }

/-- One thing that happens at the block. `CsrRead`, the loads and the stores are no operations: they run whatever the
context's port is doing, a hold included (00_scope.md R11 d, "issues nothing else", is read of operations), and after
the fatal latch (43_engine.md R206 keeps `CsrRead`; for main memory it is the model's choice). DESIGN CHOICE, log 11,
log 21. -/
def fetchStim (x : Stim) (s : State) : Fetched :=
  match x with
  | .present p t => present p t s
  | .complete p => .done (completeHeld p s)
  | .csrRead p n => .done (readCsr p n s)
  | .load p a => .done (hostLoad p a s)
  | .loadWord p a => .done (hostLoadWord p a s)
  | .store _ a v => .done (hostStore a v s)
  | .powerOn => .done (.next (powerOn s))

/-- What happens next. With nothing asked the block does nothing on its own (70_reset_and_hazards.md R331; log 3). -/
def fetch (s : State) : Fetched :=
  match s.env.inputs with
  | [] => .done (.next s)
  | x :: _ => fetchStim x s.dropInput

/-- The port, or the hardware, an operation word belongs to (30_encoding.md R119, R120, R121). -/
def issuerOf (w : Word) : Issuer :=
  let opc := (bits w 0 8).toNat
  if opc < 0x80 then .fg else if opc < 0xC0 then .be else .hw

/-- The state in which `t` is what happens next on port `p`, which holds no operation. On `be` that takes a sequencer
inside a host operation, here one of the foreground (45_backend_primitives.md R276; log 10). -/
def State.offer (s : State) (p : Issuer) (t : OpTuple) : State :=
  let s1 := if isHeld (s.port p) then s.setPort p { s.port p with phase := .unanswered } else s
  let s2 :=
    match p with
    | .be => s1.setPort .fg { s1.port .fg with phase := .unanswered }
    | .fg | .txi | .rxi | .hw => s1
  { s2 with env := { s2.env with inputs := .present p t :: s2.env.inputs } }

end Sys2Proof.Machine
end

