-- ==== Sys2Proof/Machine/Step.lean ====
section
/-!
DEFINITION. One step: fetch what happens next and run it.
-/

namespace Sys2Proof.Machine

/-- One transition of the block (00_scope.md R14), the one `env.inputs` names next. -/
def step (s : State) : Host.Outcome State Fault Refusal :=
  match fetch s with
  | .run i s1 => exec i s1
  | .done r => r

/-- The state in which the instruction whose bits are `w` is what happens next: its words are offered on the port its
row belongs to (log 2). -/
def State.withFetchWord (s : State) (nbits w : Nat) : State :=
  let t := tupleOfBits nbits w
  s.offer (issuerOf t.opw) t

end Sys2Proof.Machine
end

