-- ==== Sys2Proof/Safety.lean ====
section
/-!
DEFINITION. What a safe run is, in the terms claims use: the classes of slots (10_state.md R27), the ring invariants
(R33), the invariants of the filter and the address table (R41, R45), of the gate and the interrupt unit
(60_exceptions.md R301, R308), the arrows of the lifecycle (43_engine.md R200), runs, and fairness
(70_reset_and_hazards.md R353).
-/

namespace Sys2Proof.Machine

/-! Classes of slot (10_state.md R27). -/

/-- Tx slot `i` is free. -/
abbrev txIsFree (s : State) (i : Nat) : Prop := (s.txSlot i).own = .software ∧ s.txTok i = none

/-- Tx slot `i` is queued. -/
abbrev txIsQueued (s : State) (i : Nat) : Prop := (s.txSlot i).own = .dma ∧ s.txTok i ≠ none

/-- Tx slot `i` is completed. -/
abbrev txIsCompleted (s : State) (i : Nat) : Prop := (s.txSlot i).own = .software ∧ s.txTok i ≠ none

/-- Rx slot `i` is unprimed. -/
abbrev rxIsUnprimed (s : State) (i : Nat) : Prop := (s.rxSlot i).own = .software ∧ s.rxTok i = none

/-- Rx slot `i` is armed. -/
abbrev rxIsArmed (s : State) (i : Nat) : Prop := (s.rxSlot i).own = .dma ∧ s.rxTok i ≠ none

/-- Rx slot `i` is filled. -/
abbrev rxIsFilled (s : State) (i : Nat) : Prop := (s.rxSlot i).own = .software ∧ s.rxTok i ≠ none

/-! Ring invariants (10_state.md R33). -/

/-- T1 to T4 with `k` completed slots: from `txCursor`, first `k` completed slots, ending at `txHw`, then the queued
ones, ending at `txHead`, then the free ones. -/
abbrev TxShape (s : State) (k : Nat) : Prop :=
  s.tx.slots.length = s.cfg.dTx ∧ s.tx.book.length = s.cfg.dTx
    ∧ s.tx.free ≤ s.cfg.dTx ∧ s.tx.cursor < s.cfg.dTx
    ∧ s.tx.head = (s.tx.cursor + (s.cfg.dTx - s.tx.free)) % s.cfg.dTx
    ∧ k ≤ s.cfg.dTx - s.tx.free ∧ s.tx.hw = (s.tx.cursor + k) % s.cfg.dTx
    ∧ (∀ j, j < s.cfg.dTx →
        if j < k then txIsCompleted s ((s.tx.cursor + j) % s.cfg.dTx)
        else if j < s.cfg.dTx - s.tx.free then txIsQueued s ((s.tx.cursor + j) % s.cfg.dTx)
        else txIsFree s ((s.tx.cursor + j) % s.cfg.dTx))
    ∧ (s.tx.inflight = none ∨ (s.tx.inflight = some s.tx.hw ∧ txIsQueued s s.tx.hw))

/-- The Tx ring invariant T1 to T4. -/
def TxInv (s : State) : Prop := ∃ k, TxShape s k

/-- X1 to X3 with `k` filled slots: from `rxPrime`, first `rxUnprimed` unprimed slots, ending at `rxCursor`, then the
`k` filled ones, ending at `rxHw`, then the armed ones. -/
abbrev RxShape (s : State) (k : Nat) : Prop :=
  s.rx.slots.length = s.cfg.dRx ∧ s.rx.book.length = s.cfg.dRx
    ∧ s.rx.unprimed ≤ s.cfg.dRx ∧ s.rx.prime < s.cfg.dRx
    ∧ s.rx.cursor = (s.rx.prime + s.rx.unprimed) % s.cfg.dRx
    ∧ k ≤ s.cfg.dRx - s.rx.unprimed ∧ s.rx.hw = (s.rx.cursor + k) % s.cfg.dRx
    ∧ (∀ j, j < s.cfg.dRx →
        if j < s.rx.unprimed then rxIsUnprimed s ((s.rx.prime + j) % s.cfg.dRx)
        else if j < s.rx.unprimed + k then rxIsFilled s ((s.rx.prime + j) % s.cfg.dRx)
        else rxIsArmed s ((s.rx.prime + j) % s.cfg.dRx))
    ∧ (s.rx.pending = none ∨ rxIsArmed s s.rx.hw)

/-- The Rx ring invariant X1 to X3. -/
def RxInv (s : State) : Prop := ∃ k, RxShape s k

/-! Invariants of the MAC driver. -/

/-- The combination rule of the filter flags (10_state.md R41). -/
abbrev FilterInv (s : State) : Prop :=
  s.mac.effPam = (s.mac.pam || s.mac.promisc) ∧ s.mac.effPau = s.mac.promisc

/-- The address table against its software copies (10_state.md R44, R45). -/
abbrev AddrTabInv (s : State) : Prop :=
  s.mac.mcast.length ≤ s.cfg.mcastCap
    ∧ s.mac.addrTab =
      s.mac.ucast :: (s.mac.mcast.map some ++ List.replicate (s.cfg.mcastCap - s.mac.mcast.length) none)

/-! Invariants of the control state. -/

/-- `life` is `Initialized`, `Enabled` or `Disabled`. -/
abbrev isLive (l : Life) : Prop := l = .initialized ∨ l = .enabled ∨ l = .disabled

/-- Only the foreground holds DISABLE or DEINIT, and the lifecycle has not moved since (42_mac_driver.md R179,
43_engine.md R204). -/
abbrev HoldInv (s : State) : Prop :=
  (s.ports.fg.phase = .held .disable → s.life = .enabled)
    ∧ (s.ports.fg.phase = .held .deinit → isLive s.life)
    ∧ (s.ports.txi.phase ≠ .held .disable ∧ s.ports.txi.phase ≠ .held .deinit)
    ∧ (s.ports.rxi.phase ≠ .held .disable ∧ s.ports.rxi.phase ≠ .held .deinit)
    ∧ (s.ports.be.phase ≠ .held .disable ∧ s.ports.be.phase ≠ .held .deinit)

/-- The interrupt unit is on exactly while the engine is live and DEINIT is not running (60_exceptions.md R301, R308). -/
abbrev IrqInv (s : State) : Prop :=
  (s.irq.globalOn = true ↔ isLive s.life ∧ s.ports.fg.phase ≠ .held .deinit)
    ∧ s.irq.enable = (if s.irq.globalOn then 0x3FF#10 else 0#10)

/-- The gate is open exactly while the engine is `Enabled` and neither DISABLE nor DEINIT is running (42_mac_driver.md
R178, R179, 43_engine.md R204). -/
abbrev GateInv (s : State) : Prop :=
  s.mac.macEn = true ↔
    s.life = .enabled ∧ s.ports.fg.phase ≠ .held .disable ∧ s.ports.fg.phase ≠ .held .deinit

/-- Between two steps no host operation is half done, so no primitive can be issued on `be`, unless the fatal latch has
ended one without an answer (00_scope.md R14, 45_backend_primitives.md R260, R276, 60_exceptions.md R296). -/
abbrev SeqInv (s : State) : Prop := s.fatal = none → sequencing s = false

/-- The parameters are in range, and the control state is consistent. -/
abbrev ControlInv (s : State) : Prop := s.cfg.wf = true ∧ HoldInv s ∧ IrqInv s ∧ GateInv s ∧ SeqInv s

/-- No queued Tx buffer overlaps a descriptor array (20_memory.md R78). -/
abbrev TxClear (s : State) : Prop :=
  ∀ i, i < s.cfg.dTx → (s.txSlot i).own = .dma →
    meetsDescriptors s.cfg (s.txSlot i).buf (s.txSlot i).len.toNat = false

/-- No buffer attached to the Rx ring overlaps a descriptor array (20_memory.md R78). -/
abbrev RxClear (s : State) : Prop :=
  (∀ i, i < s.cfg.dRx → (s.rxSlot i).own = .dma →
      meetsDescriptors s.cfg (s.rxSlot i).buf s.cfg.rxBufSize = false)
    ∧ ∀ p, some p ∈ s.rx.book → meetsDescriptors s.cfg p s.cfg.rxBufSize = false

/-- The Tx ring invariant, from INIT on. -/
def TxSafe (s : State) : Prop := ControlInv s ∧ (s.life ≠ .uninitialized → TxInv s ∧ TxClear s)

/-- The Rx ring invariant, from INIT on. -/
def RxSafe (s : State) : Prop := ControlInv s ∧ (s.life ≠ .uninitialized → RxInv s ∧ RxClear s)

/-- The filter invariants, from INIT on. -/
def FilterSafe (s : State) : Prop := ControlInv s ∧ (s.life ≠ .uninitialized → FilterInv s ∧ AddrTabInv s)

/-! Lifecycle (43_engine.md R200). -/

/-- The arrows of the lifecycle. -/
def lifeArrow : Life → Life → Bool
  | .uninitialized, .initialized | .initialized, .enabled | .enabled, .disabled | .disabled, .deinitialized
  | .disabled, .enabled | .initialized, .deinitialized | .enabled, .deinitialized | .deinitialized, .initialized =>
    true
  | .uninitialized, .uninitialized | .uninitialized, .enabled | .uninitialized, .disabled
  | .uninitialized, .deinitialized | .initialized, .uninitialized | .initialized, .initialized
  | .initialized, .disabled | .enabled, .uninitialized | .enabled, .initialized | .enabled, .enabled
  | .disabled, .uninitialized | .disabled, .initialized | .disabled, .disabled | .deinitialized, .uninitialized
  | .deinitialized, .enabled | .deinitialized, .disabled | .deinitialized, .deinitialized => false

/-- The rows of 30_encoding.md R119. -/
def isHostOp : Instr → Bool
  | .init | .deinit | .enable _ _ | .disable | .txEnqueue _ _ _ _ | .txReclaim | .rxPrime _ | .rxPoll
  | .setOwnAddr _ | .addMcast _ | .clearMcast | .setPam _ | .setPromisc _ | .mdioRead _ _ | .mdioWrite _ _ _
  | .isrDispatch _ => true
  | .startDma _ | .stopDma _ | .isSlotOwnedByDma _ _ | .writeTxDesc _ _ _ _ _ | .writeRxDesc _ _
  | .isFirstFragment _ _ | .isLastFragment _ _ | .isErrorFragment _ _ | .totalFrameLength _ _ _
  | .isBufferDmaReadable _ _ | .writeUnicastAddr _ | .writeMcastAddr _ _ _ | .setLinkConfig _ _ _
  | .mdioTransaction _ _ _ _ | .writeFilterFlags _ _ => false
  | .txdmaFetch | .txdmaComplete | .txdmaSuspend | .txdmaBusError | .rxFrameArrive | .rxdmaWrite | .rxdmaSuspend
  | .rxdmaBusError | .statusEvent _ | .mdioDone => false

/-- The rows of 30_encoding.md R121. -/
def isAgentStep : Instr → Bool
  | .txdmaFetch | .txdmaComplete | .txdmaSuspend | .txdmaBusError | .rxFrameArrive | .rxdmaWrite | .rxdmaSuspend
  | .rxdmaBusError | .statusEvent _ | .mdioDone => true
  | .init | .deinit | .enable _ _ | .disable | .txEnqueue _ _ _ _ | .txReclaim | .rxPrime _ | .rxPoll
  | .setOwnAddr _ | .addMcast _ | .clearMcast | .setPam _ | .setPromisc _ | .mdioRead _ _ | .mdioWrite _ _ _
  | .isrDispatch _ => false
  | .startDma _ | .stopDma _ | .isSlotOwnedByDma _ _ | .writeTxDesc _ _ _ _ _ | .writeRxDesc _ _
  | .isFirstFragment _ _ | .isLastFragment _ _ | .isErrorFragment _ _ | .totalFrameLength _ _ _
  | .isBufferDmaReadable _ _ | .writeUnicastAddr _ | .writeMcastAddr _ _ _ | .setLinkConfig _ _ _
  | .mdioTransaction _ _ _ _ | .writeFilterFlags _ _ => false

/-- Which host port accepts a host operation (60_exceptions.md R316, 30_encoding.md R122 d and e). -/
def portAccepts (c : Params) (p : Issuer) : Instr → Bool
  | .init | .deinit | .enable _ _ | .disable | .txEnqueue _ _ _ _ | .setOwnAddr _ | .addMcast _ | .clearMcast
  | .setPam _ | .setPromisc _ => foregroundOnly p
  | .txReclaim => reclaimPorts p
  | .rxPrime _ | .rxPoll => rxRingPorts c p
  | .mdioRead _ _ | .mdioWrite _ _ _ => mdioPorts p
  | .isrDispatch line => isrPorts c line p
  | .startDma _ | .stopDma _ | .isSlotOwnedByDma _ _ | .writeTxDesc _ _ _ _ _ | .writeRxDesc _ _
  | .isFirstFragment _ _ | .isLastFragment _ _ | .isErrorFragment _ _ | .totalFrameLength _ _ _
  | .isBufferDmaReadable _ _ | .writeUnicastAddr _ | .writeMcastAddr _ _ _ | .setLinkConfig _ _ _
  | .mdioTransaction _ _ _ _ | .writeFilterFlags _ _ => false
  | .txdmaFetch | .txdmaComplete | .txdmaSuspend | .txdmaBusError | .rxFrameArrive | .rxdmaWrite | .rxdmaSuspend
  | .rxdmaBusError | .statusEvent _ | .mdioDone => false

/-- The step of a hardware agent is enabled (44_dma_agents.md R230). -/
def agentEnabled (s : State) : Instr → Bool
  | .txdmaFetch => canTxFetch s
  | .txdmaComplete => s.tx.inflight.isSome
  | .txdmaSuspend => canTxSuspend s
  | .txdmaBusError => canTxBusError s
  | .rxFrameArrive => canRxArrive s
  | .rxdmaWrite => s.rx.pending.isSome
  | .rxdmaSuspend => canRxSuspend s
  | .rxdmaBusError => canRxBusError s
  | .statusEvent kind => s.mac.macEn && statusKindOk kind
  | .mdioDone => s.mdio.busy
  | .init | .deinit | .enable _ _ | .disable | .txEnqueue _ _ _ _ | .txReclaim | .rxPrime _ | .rxPoll
  | .setOwnAddr _ | .addMcast _ | .clearMcast | .setPam _ | .setPromisc _ | .mdioRead _ _ | .mdioWrite _ _ _
  | .isrDispatch _ => false
  | .startDma _ | .stopDma _ | .isSlotOwnedByDma _ _ | .writeTxDesc _ _ _ _ _ | .writeRxDesc _ _
  | .isFirstFragment _ _ | .isLastFragment _ _ | .isErrorFragment _ _ | .totalFrameLength _ _ _
  | .isBufferDmaReadable _ _ | .writeUnicastAddr _ | .writeMcastAddr _ _ _ | .setLinkConfig _ _ _
  | .mdioTransaction _ _ _ _ | .writeFilterFlags _ _ => false

/-- Entry of the table of admission (43_engine.md R201). -/
inductive Admission where
  | run | ce | ok | refuse | noStep
deriving DecidableEq, Repr

/-- The table of admission (43_engine.md R201), row by row; a primitive or an agent step has no row. -/
def admission : Instr → Life → Admission
  | .init, .uninitialized | .init, .deinitialized => .run
  | .init, .initialized | .init, .enabled | .init, .disabled => .ce
  | .disable, .enabled => .run
  | .disable, .uninitialized | .disable, .initialized | .disable, .disabled | .disable, .deinitialized => .ok
  | .txEnqueue _ _ _ _, .enabled => .run
  | .txEnqueue _ _ _ _, .uninitialized | .txEnqueue _ _ _ _, .initialized | .txEnqueue _ _ _ _, .disabled
  | .txEnqueue _ _ _ _, .deinitialized => .ce
  | .enable _ _, .enabled | .setOwnAddr _, .enabled => .refuse
  | .isrDispatch _, .uninitialized | .isrDispatch _, .deinitialized => .noStep
  | .deinit, l | .enable _ _, l | .txReclaim, l | .rxPrime _, l | .rxPoll, l | .setOwnAddr _, l | .addMcast _, l
  | .clearMcast, l | .setPam _, l | .setPromisc _, l | .mdioRead _ _, l | .mdioWrite _ _ _, l | .isrDispatch _, l =>
    if l = .uninitialized ∨ l = .deinitialized then .ce else .run
  | .startDma _, _ | .stopDma _, _ | .isSlotOwnedByDma _ _, _ | .writeTxDesc _ _ _ _ _, _ | .writeRxDesc _ _, _
  | .isFirstFragment _ _, _ | .isLastFragment _ _, _ | .isErrorFragment _ _, _ | .totalFrameLength _ _ _, _
  | .isBufferDmaReadable _ _, _ | .writeUnicastAddr _, _ | .writeMcastAddr _ _ _, _ | .setLinkConfig _ _ _, _
  | .mdioTransaction _ _ _ _, _ | .writeFilterFlags _ _, _ | .txdmaFetch, _ | .txdmaComplete, _ | .txdmaSuspend, _
  | .txdmaBusError, _ | .rxFrameArrive, _ | .rxdmaWrite, _ | .rxdmaSuspend, _ | .rxdmaBusError, _
  | .statusEvent _, _ | .mdioDone, _ => .noStep

/-! Ports and answers, as claims write them. -/

/-- The ports of the host (30_encoding.md R101). -/
abbrev isHostPort (p : Issuer) : Prop := p = .fg ∨ p = .txi ∨ p = .rxi

/-- `s` with an answer on port `p` and nothing else changed (30_encoding.md R100, R103). -/
def State.answeredOn (s : State) (p : Issuer) (res val : Word) : State :=
  match p with
  | .fg => { s with ports.fg.result := res, ports.fg.ret0 := val, ports.fg.phase := .answered }
  | .txi => { s with ports.txi.result := res, ports.txi.ret0 := val, ports.txi.phase := .answered }
  | .rxi => { s with ports.rxi.result := res, ports.rxi.ret0 := val, ports.rxi.phase := .answered }
  | .be => { s with ports.be.result := res, ports.be.ret0 := val, ports.be.phase := .answered }
  | .hw => s

/-- `s` with the operation of port `p` held and nothing else changed (00_scope.md R11 d). -/
def State.heldOn (s : State) (p : Issuer) (h : Held) : State :=
  match p with
  | .fg => { s with ports.fg.phase := .held h }
  | .txi => { s with ports.txi.phase := .held h }
  | .rxi => { s with ports.rxi.phase := .held h }
  | .be => { s with ports.be.phase := .held h }
  | .hw => s

/-- The running transition is that of port (or agent) `p`, and the fatal latch is clear. -/
abbrev Runs (s : State) (p : Issuer) : Prop := s.env.issuer = p ∧ s.fatal = none

/-- The sequencer issues a primitive on `be`, inside a host operation (45_backend_primitives.md R276; log 10). -/
abbrev Sequences (s : State) : Prop := Runs s .be ∧ sequencing s = true

/-- The tuple `t` is the words of the host operation `i`: its operation word, and the argument words its row uses
(30_encoding.md R119, R124). -/
abbrev wordsOf (t : OpTuple) (i : Instr) : Prop :=
  t.opw = (encode i).opw ∧ (1 ≤ i.row.nargs → t.arg0 = (encode i).arg0)
    ∧ (2 ≤ i.row.nargs → t.arg1 = (encode i).arg1) ∧ (3 ≤ i.row.nargs → t.arg2 = (encode i).arg2)

/-- A legal tuple of a host port: the words of a host operation that the port accepts (30_encoding.md R122). -/
def LegalTuple (c : Params) (p : Issuer) (t : OpTuple) : Prop :=
  ∃ i, isHostOp i = true ∧ portAccepts c p i = true ∧ wordsOf t i

/-! Draws, as claims write them (00_scope.md R16; log 4). -/

/-- The wire delivers the frame `f`, and `e` is the environment after the draw. -/
abbrev WireDelivers (s : State) (f : Frame) (e : Env) : Prop :=
  f.data.length < 2 ^ 32
    ∧ ((∃ rest, s.env.wire = f :: rest ∧ e = { s.env with wire := rest })
      ∨ (s.env.wire = [] ∧ f = Config.wireFrame s.env.drawn ∧ e = { s.env with drawn := s.env.drawn + 1 }))

/-- The PHY answers `v`, and `e` is the environment after the draw. -/
abbrev PhyAnswers (s : State) (dev reg : BitVec 5) (v : Half) (e : Env) : Prop :=
  (∃ rest, s.env.phy = v :: rest ∧ e = { s.env with phy := rest })
    ∨ (s.env.phy = [] ∧ v = Config.phyRead s.env.drawn dev reg ∧ e = { s.env with drawn := s.env.drawn + 1 })

/-- From `s` to `t` the port whose MDIO operation waits has its answer due, `data` for a read and 0 for a write, and every
other port is as before (R240 "the completion the held MDIO_READ or MDIO_WRITE waits for"; log 24). -/
def EndsMdioHold (s t : State) (data : Half) : Prop :=
  ∀ p,
    (s.env.mdioFor = some p →
      ((s.port p).phase = .held .mdioRead →
        t.port p = { s.port p with phase := .held (.mdioOver (data.setWidth 32)) })
      ∧ ((s.port p).phase = .held .mdioWrite → t.port p = { s.port p with phase := .held (.mdioOver 0#32) }))
    ∧ (s.env.mdioFor ≠ some p ∨ ((s.port p).phase ≠ .held .mdioRead ∧ (s.port p).phase ≠ .held .mdioWrite) →
      t.port p = s.port p)

/-! Runs of slots (41_rx_ring.md R154). -/

/-- The slot `j` places after the Rx cursor. -/
def rxRunSlot (s : State) (j : Nat) : Slot := s.rxSlot ((s.rx.cursor + j) % s.cfg.dRx)

/-- The first `k` slots from the Rx cursor are one complete run. -/
abbrev OneRun (s : State) (k : Nat) : Prop :=
  1 ≤ k ∧ ∀ j, j < k → (rxRunSlot s j).first = (j == 0) ∧ (rxRunSlot s j).last = (j + 1 == k)

/-- The buffers of the first `k` slots from the Rx cursor. -/
def rxRunBufs (s : State) (k : Nat) : List Word := booked s.rx.book s.cfg.dRx s.rx.cursor k

/-- The state `u` in which `bufs` have been handed to the slots from `rxPrime` on, and the first `k` filled slots of `s`
consumed: every slot that is not handed a buffer keeps its fields, every book entry outside the consumed slots and those
handed a buffer keeps its value. The rest of the state is not spoken of. -/
abbrev RunTaken (s u : State) (k : Nat) (bufs : List Word) : Prop :=
  let d := s.cfg.dRx
  u.rx =
    { s.rx with
      slots := u.rx.slots, book := u.rx.book
      cursor := (s.rx.cursor + k) % d, prime := (s.rx.prime + bufs.length) % d
      unprimed := s.rx.unprimed + k - bufs.length
      dma := if s.rx.dma = .idle ∧ bufs ≠ [] then .active else s.rx.dma }
    ∧ u.rx.slots.length = d ∧ u.rx.book.length = d
    ∧ (∀ (j : Nat) (b : Word), bufs[j]? = some b →
      u.rxSlot ((s.rx.prime + j) % d) = ⟨.dma, b, 0#16, false, false, false⟩
        ∧ u.rxTok ((s.rx.prime + j) % d) = some b)
    ∧ ∀ i, i < d → (∀ j, j < bufs.length → i ≠ (s.rx.prime + j) % d) →
      u.rxSlot i = s.rxSlot i
        ∧ u.rxTok i = (if i ∈ ringSlots d s.rx.cursor k then none else s.rxTok i)

/-- ADD_MCAST once for each address, as long as each is answered `OK`. -/
def addEach : List Mac → State → Option State
  | [], s => some s
  | a :: rest, s =>
    match exec (.addMcast a) s with
    | .next t => if t.ports.fg.result = 0#32 then addEach rest t else none
    | .fault _ => none
    | .refused _ => none

/-! Order (40_tx_ring.md R133). -/

/-- The instruction a step runs, if it runs one. -/
def runsNext (s : State) : Option Instr :=
  match fetch s with
  | .run i _ => some i
  | .done _ => none

/-- The buffers reported transmitted, in order. -/
def transmitted (s : State) : List Word :=
  s.out.notify.filterMap fun e =>
    match e with
    | .frameTransmitted t => some t
    | .frameReceived _ _ | .linkFault _ | .bufferReleased _ => none

/-- The buffers in the Tx ring, oldest first. -/
def inTxRing (s : State) : List Word := booked s.tx.book s.cfg.dTx s.tx.cursor (s.cfg.dTx - s.tx.free)

/-- The buffer a successful TX_ENQUEUE put into the ring in the step from `s` to `t`, if the step was one. -/
def newlyQueued (s t : State) : List Word :=
  match runsNext s with
  | some (.txEnqueue _ _ buf _) => if t.tx.free < s.tx.free then [buf] else []
  | _ => []

/-! Runs. -/

/-- `t` follows `s` after steps whose first states all satisfy `P`. -/
inductive Steps (P : State → Prop) : State → State → Prop where
  | refl (s : State) : Steps P s s
  | cons (s t u : State) : P s → step s = .next t → Steps P t u → Steps P s u

/-- The step of the hardware agent `i` is what happens next: named as such, not words presented on a port. -/
def takesNext (s : State) (i : Instr) : Prop := ∃ w, s.env.inputs.head? = some (.present .hw w) ∧ decode w = some i

/-- `u` is `t` with what happens next, and the answers of the oracles, as the agents and the environment have chosen them
since (00_scope.md R12, R16). -/
abbrev ChosenSince (t u : State) : Prop :=
  u = { t with env := { t.env with
    inputs := u.env.inputs, alloc := u.env.alloc, wire := u.env.wire, phy := u.env.phy } }

/-- An infinite run: what happens next is chosen afresh after each step, so no run is short of things to happen. -/
def IsRun (run : Nat → State) : Prop := ∀ n, ∃ t, step (run n) = .next t ∧ ChosenSince t (run (n + 1))

/-- The steps fairness owes: those of the hardware agents but the bus errors (70_reset_and_hazards.md R353). -/
def owed : Instr → Bool
  | .txdmaFetch | .txdmaComplete | .txdmaSuspend | .rxFrameArrive | .rxdmaWrite | .rxdmaSuspend | .statusEvent _
  | .mdioDone => true
  | .txdmaBusError | .rxdmaBusError => false
  | .init | .deinit | .enable _ _ | .disable | .txEnqueue _ _ _ _ | .txReclaim | .rxPrime _ | .rxPoll
  | .setOwnAddr _ | .addMcast _ | .clearMcast | .setPam _ | .setPromisc _ | .mdioRead _ _ | .mdioWrite _ _ _
  | .isrDispatch _ => false
  | .startDma _ | .stopDma _ | .isSlotOwnedByDma _ _ | .writeTxDesc _ _ _ _ _ | .writeRxDesc _ _
  | .isFirstFragment _ _ | .isLastFragment _ _ | .isErrorFragment _ _ | .totalFrameLength _ _ _
  | .isBufferDmaReadable _ _ | .writeUnicastAddr _ | .writeMcastAddr _ _ _ | .setLinkConfig _ _ _
  | .mdioTransaction _ _ _ _ | .writeFilterFlags _ _ => false

/-- The parameter `FAIR`, taken as true: an owed step that stays enabled is eventually taken, STATUS_EVENT with any kind
(R353; log 20). -/
def FairRun (run : Nat → State) : Prop :=
  (run 0).cfg.fair = true →
    ∀ i n, owed i = true → (∀ m, n ≤ m → (run m).fatal = none ∧ agentEnabled (run m) i = true) →
      ∃ m j, n ≤ m ∧ j.row.mnemonic = i.row.mnemonic ∧ takesNext (run m) j

end Sys2Proof.Machine
end

