-- ==== Sys2Proof/Certificates/Slice0/Obligations.lean ====
section
/-!
DEFINITION. The statements for the provers. Each says which rule of spec/ it formalises, or that it rests on a choice of
the model and which log entry says so. A next state is written out as the old one with the listed changes, so the
statement is also the frame: what is not listed is unchanged, every byte of memory included.
-/

open Sys2Proof Sys2Proof.Machine

/-! Encoding (30_encoding.md). -/

/-- Decoding the words the encoder writes gives the instruction back, for every well-formed instruction. The spec's
own: decisions D4, D5, D23, D28 and what the spec marks in R110, R117 as derived or not in its source
(92_eei_decisions.md). The spec's own: decisions D4, D5, D23, D28 and what the spec marks in R110, R117 as derived or
not in its source (92_eei_decisions.md). -/
def Obligations.DecodeEncode : Prop :=
  ∀ i : Instr, i.wellFormed = true → decode (encode i) = some i

/-- Decoding loses no bit: what decodes is, word for word, what the encoder writes for it, but for argument words its
row does not use (R100, R124), and its operation word selects its row. The spec's own: decisions D5, D6, D28, D29
(92_eei_decisions.md). -/
def Obligations.EncodeDecode : Prop :=
  ∀ (t : OpTuple) (i : Instr), decode t = some i → wordsOf t i ∧ t.opw &&& i.row.mask = i.row.pattern

/-- Some of the worked words of the spec decode to what they stand for (R173, R174, R178, R180, R264, R269, R272,
R274). The spec's own: decisions D3, D12, D16, D23, D28, D29, D32 (92_eei_decisions.md). -/
def Obligations.WorkedWordsDecode : Prop :=
  decode ⟨0x00000030#32, 0x12000002#32, 0x00005634#32, 0#32⟩ = some (.setOwnAddr 0x563412000002#48)
    ∧ decode ⟨0x00000503#32, 0#32, 0#32, 0#32⟩ = some (.enable 1#2 1#2)
    ∧ decode ⟨0x00020140#32, 0#32, 0#32, 0#32⟩ = some (.mdioRead 1#5 2#5)
    ∧ decode ⟨0x00000383#32, 0#32, 0x20001000#32, 0x40#32⟩ = some (.writeTxDesc true true 0#32 0x20001000#32 64#16)
    ∧ decode ⟨0x00000188#32, 1#32, 2#32, 0#32⟩ = some (.totalFrameLength .rx 1#32 2#32)
    ∧ decode ⟨0x0001018B#32, 0x005E0001#32, 0x00000100#32, 0#32⟩
        = some (.writeMcastAddr 1#5 true 0x0100005E0001#48)
    ∧ decode ⟨0x0100018D#32, 0x00008000#32, 0#32, 0#32⟩ = some (.mdioTransaction true 1#5 0#5 0x8000#16)
    ∧ decode ⟨0x000007C8#32, 0#32, 0#32, 0#32⟩ = some (.statusEvent 7#8)

/-! The step. -/

/-- A step runs the decoded instruction: when the words presented next decode to a well-formed instruction, the step is
`exec` of it at the state in which those words are on their port and nothing else has changed; on a port whose
operation holds it is refused instead. Which words are presented next is the list `env.inputs` of the model (log 2);
the name of the refusal is the model's (log 11). The spec's own: decisions D5, D30 (92_eei_decisions.md). -/
def Obligations.StepRunsDecoded : Prop :=
  ∀ (s : State) (p : Issuer) (w : OpTuple) (rest : List Stim) (i : Instr),
    s.env.inputs = .present p w :: rest → decode w = some i → i.wellFormed = true →
      (isHeld (s.port p) = false →
        ∃ u : State, step s = exec i u
          ∧ u = { s with env := { s.env with inputs := rest, issuer := p }, ports := u.ports }
          ∧ (∀ q, q ≠ p → u.port q = s.port q)
          ∧ (p ≠ .hw → u.port p =
              { s.port p with
                opw := w.opw, arg0 := w.arg0, arg1 := w.arg1, arg2 := w.arg2, phase := .unanswered }))
        ∧ (isHeld (s.port p) = true → step s = .refused .portHeld)

/-- R122: a tuple on a host port that is not the words of a host operation the port accepts is illegal: it changes no
state and answers `CONFIG_ERROR`, 0, in every lifecycle state and even after a fatal fault. The spec's own: decisions
D5, D6, D20 (92_eei_decisions.md). -/
def Obligations.IllegalTupleAnswered : Prop :=
  ∀ (s : State) (p : Issuer) (w : OpTuple) (rest : List Stim),
    isHostPort p → s.env.inputs = .present p w :: rest → isHeld (s.port p) = false → ¬LegalTuple s.cfg p w →
      ∃ u : State, step s = .next u
        ∧ u = { s with env := { s.env with inputs := rest, issuer := p }, ports := u.ports }
        ∧ (∀ q, q ≠ p → u.port q = s.port q)
        ∧ u.port p =
            { s.port p with
              opw := w.opw, arg0 := w.arg0, arg1 := w.arg1, arg2 := w.arg2, result := 2#32, ret0 := 0#32,
              phase := .answered }

/-- R206: once the fatal latch is set no legal host operation, no primitive, no step of a hardware agent and no end of
a hold has a step; `CsrRead` stays defined. That "no step" is the fault `fatalLatched` is the model's (log 9). The
spec's own: decision D22 (92_eei_decisions.md). The spec's own: decision D22 (92_eei_decisions.md). -/
def Obligations.FatalGating : Prop :=
  ∀ s : State, s.fatal ≠ none →
    (∀ i, isHostOp i = true → portAccepts s.cfg s.env.issuer i = true → exec i s = .fault .fatalLatched)
      ∧ (∀ i, isAgentStep i = true → s.env.issuer = .hw → exec i s = .fault .fatalLatched)
      ∧ (∀ i, isHostOp i = false → isAgentStep i = false → s.env.issuer = .be →
        exec i s = .fault .fatalLatched)
      ∧ (∀ p h, (s.port p).phase = .held h → completeHeld p s = .fault .fatalLatched)
      ∧ ∀ p n, ∃ t, readCsr p n s = .next t

/-- R201: the entries CE and OK of the table of admission, for every host operation on a port that accepts it. The
spec's own: decision D14 (92_eei_decisions.md). The spec's own: decision D14 (92_eei_decisions.md). -/
def Obligations.AdmissionTable : Prop :=
  ∀ (i : Instr) (s : State) (p : Issuer), isHostOp i = true → Runs s p → portAccepts s.cfg p i = true →
    (admission i s.life = .ce → exec i s = .next (s.answeredOn p 2#32 0#32))
      ∧ (admission i s.life = .ok → exec i s = .next (s.answeredOn p 0#32 0#32))

/-- R200: a step moves `life` only along the arrows of the lifecycle, but for power-on reset. The spec's own: decisions
D14, D17 (92_eei_decisions.md). -/
def Obligations.LifeMovesAlongArrows : Prop :=
  ∀ s t : State, HoldInv s → s.env.inputs.head? ≠ some .powerOn → step s = .next t →
    t.life = s.life ∨ lifeArrow s.life t.life = true

/-- R11 (a), R202: a host operation other than INIT that is answered with a code other than `OK` has changed nothing.
The spec's own: decision D30 (92_eei_decisions.md). -/
def Obligations.ErrorCodesChangeNothing : Prop :=
  ∀ (i : Instr) (s t : State) (p : Issuer), isHostOp i = true → i ≠ .init → isHostPort p → s.env.issuer = p →
    (s.port p).phase = .unanswered → exec i s = .next t → (t.port p).phase = .answered →
    (t.port p).result ≠ 0#32 → t = s.answeredOn p (t.port p).result 0#32

/-! Reset and lifecycle. -/

/-- R63, R330: power-on reset leaves the elements with a power-on value at that value, from any state; so does the
model's reset state. The spec's own: decision D26 (92_eei_decisions.md). -/
def Obligations.PowerOnValues : Prop :=
  ∀ u : State,
    (u = State.reset ∨ ∃ s rest, s.env.inputs = .powerOn :: rest ∧ step s = .next u) →
      u.life = .uninitialized ∧ u.fatal = none ∧ u.irq = ⟨0#10, 0#10, false⟩ ∧ u.tx.dma = .stopped
        ∧ u.rx.dma = .stopped ∧ u.tx.inflight = none ∧ u.rx.pending = none ∧ u.tx.accum = [] ∧ u.mac.macEn = false
        ∧ u.mdio.busy = false ∧ u.out = ⟨[], [], []⟩

/-- R64: INIT, when the pool gives `D_RX` buffers p_0, p_1, ..., none twice and none on a descriptor array, answers
`OK` and gives every element its value; the model's list of races is emptied (log 13), and no operation waits for an
MDIO transaction any more (log 24). The answers of the pool are those `env.alloc` holds (log 4); `mdioReq`, of which
the rule says nothing, is left open. The spec's own: decision D15 (92_eei_decisions.md). -/
def Obligations.InitCompletes : Prop :=
  ∀ (s : State) (bufs : List Word) (rest : List (Option Word)), Runs s .fg →
    (s.life = .uninitialized ∨ s.life = .deinitialized) → s.cfg.wf = true →
    bufs.length = s.cfg.dRx → bufs.Nodup → s.env.alloc = bufs.map some ++ rest →
    (∀ b ∈ bufs, meetsDescriptors s.cfg b s.cfg.rxBufSize = false) →
      ∃ req : MdioReq, exec .init s = .next (State.answeredOn
        { s with
          life := .initialized
          irq := ⟨0#10, 0x3FF#10, true⟩
          tx :=
            { slots := List.replicate s.cfg.dTx ⟨.software, 0#32, 0#16, false, false, false⟩
              book := List.replicate s.cfg.dTx none
              cursor := 0, head := 0, free := s.cfg.dTx, openFrame := false, hw := 0, dma := .stopped
              inflight := none, accum := [] }
          rx :=
            { slots := bufs.map fun b => ⟨.dma, b, 0#16, false, false, false⟩
              book := bufs.map some
              cursor := 0, prime := 0, unprimed := 0, hw := 0, dma := .stopped, pending := none }
          mac :=
            { pam := false, promisc := false, effPam := false, effPau := false, macEn := false, speed := .s10
              duplex := .half, ucast := none, mcast := [], addrTab := List.replicate (s.cfg.mcastCap + 1) none }
          mdio := ⟨false, req, 0#16⟩
          cnt := ⟨0#32, 0#32, 0#32, 0#32, 0#32, 0#32, 0#32⟩
          env := { s.env with alloc := rest, races := [], mdioFor := none } } .fg 0#32 0#32)

/-- R203 lines 7 to 9: when a draw finds the pool empty, INIT gives back what it took and answers `OUT_OF_MEMORY`, with
nothing else changed. Parameters outside their ranges, and a full pool with a buffer on a descriptor array, are
refused; that is the model's choice (log 14, log 8). The spec's own: decision D15 (92_eei_decisions.md). The spec's
own: decision D15 (92_eei_decisions.md). -/
def Obligations.InitOutOfMemory : Prop :=
  ∀ (s : State) (bufs : List Word) (rest : List (Option Word)), Runs s .fg →
    (s.life = .uninitialized ∨ s.life = .deinitialized) →
      (s.cfg.wf = true → bufs.length < s.cfg.dRx → bufs.Nodup → s.env.alloc = bufs.map some ++ none :: rest →
        exec .init s = .next (State.answeredOn
          { s with
            out := { s.out with notify := s.out.notify ++ bufs.map Notification.bufferReleased }
            env := { s.env with alloc := rest } } .fg 1#32 0#32))
      ∧ (s.cfg.wf = false → exec .init s = .refused .platformOutsideSpec)
      ∧ (s.cfg.wf = true → bufs.length = s.cfg.dRx → bufs.Nodup → s.env.alloc = bufs.map some ++ rest →
        (∃ b ∈ bufs, meetsDescriptors s.cfg b s.cfg.rxBufSize = true) →
          exec .init s = .refused .platformOutsideSpec)

/-- R204: DEINIT with nothing in flight is one step; with something in flight it turns interrupts, gate and engines off
and holds, and its end does the rest; before nothing is in flight there is no end. That "no end" is the fault
`stepNotEnabled`, and that the list of races is emptied, is the model's (log 9, log 11, log 13). The spec's own:
decision D17 (92_eei_decisions.md). The spec's own: decision D17 (92_eei_decisions.md). -/
def Obligations.DeinitCompletes : Prop :=
  (∀ s : State, Runs s .fg → isLive s.life → s.tx.inflight = none → s.rx.pending = none →
    exec .deinit s = .next (State.answeredOn
      { s with
        life := .deinitialized
        irq := ⟨0#10, 0#10, false⟩
        tx := { clearTx s.cfg with dma := .stopped, inflight := none }
        rx := { clearRx s.cfg with dma := .stopped, pending := none }
        env := { s.env with races := [] }
        mac := { s.mac with macEn := if s.life = .enabled then false else s.mac.macEn }
        out :=
          { s.out with
            notify := s.out.notify
              ++ (booked s.tx.book s.cfg.dTx s.tx.cursor (s.cfg.dTx - s.tx.free)).map Notification.bufferReleased
              ++ (booked s.rx.book s.cfg.dRx s.rx.cursor (s.cfg.dRx - s.rx.unprimed)).map
                  Notification.bufferReleased } } .fg 0#32 0#32))
    ∧ (∀ s : State, Runs s .fg → isLive s.life → (s.tx.inflight ≠ none ∨ s.rx.pending ≠ none) →
      exec .deinit s = .next (State.heldOn
        { s with
          irq := ⟨s.irq.status, 0#10, false⟩
          tx := { s.tx with dma := .stopped }
          rx := { s.rx with dma := .stopped }
          mac := { s.mac with macEn := if s.life = .enabled then false else s.mac.macEn } } .fg .deinit))
    ∧ (∀ (s : State) (rest : List Stim), s.env.inputs = .complete .fg :: rest → s.fatal = none →
      s.ports.fg.phase = .held .deinit → s.tx.inflight = none → s.rx.pending = none →
        step s = .next (State.answeredOn
          { s with
            life := .deinitialized
            irq := { s.irq with status := 0#10 }
            tx := { clearTx s.cfg with dma := s.tx.dma, inflight := none }
            rx := { clearRx s.cfg with dma := s.rx.dma, pending := none }
            env := { s.env with inputs := rest, issuer := .fg, races := [] }
            out :=
              { s.out with
                notify := s.out.notify
                  ++ (booked s.tx.book s.cfg.dTx s.tx.cursor (s.cfg.dTx - s.tx.free)).map
                      Notification.bufferReleased
                  ++ (booked s.rx.book s.cfg.dRx s.rx.cursor (s.cfg.dRx - s.rx.unprimed)).map
                      Notification.bufferReleased } } .fg 0#32 0#32))
    ∧ ∀ (s : State) (rest : List Stim), s.env.inputs = .complete .fg :: rest → s.fatal = none →
      s.ports.fg.phase = .held .deinit → (s.tx.inflight ≠ none ∨ s.rx.pending ≠ none) →
        step s = .fault .stepNotEnabled

/-- R178: ENABLE starts both engines, sets speed and duplex and opens the gate; an invalid code answers `CONFIG_ERROR`;
ENABLE while enabled and ENABLE without an own address are refused. The spec's own: decisions D5, D16
(92_eei_decisions.md). -/
def Obligations.EnableCompletes : Prop :=
  ∀ (s : State) (sp du : BitVec 2), Runs s .fg → isLive s.life →
    (sp.toNat < 2 → du.toNat < 2 → s.life ≠ .enabled → s.mac.ucast ≠ none →
      exec (.enable sp du) s = .next (State.answeredOn
        { s with
          life := .enabled
          tx := { s.tx with dma := .active }
          rx := { s.rx with dma := .active }
          mac :=
            { s.mac with
              macEn := true
              speed := if sp.toNat = 0 then .s10 else .s100
              duplex := if du.toNat = 0 then .half else .full } } .fg 0#32 0#32))
      ∧ (2 ≤ sp.toNat ∨ 2 ≤ du.toNat → exec (.enable sp du) s = .next (s.answeredOn .fg 2#32 0#32))
      ∧ (sp.toNat < 2 → du.toNat < 2 → s.life = .enabled →
        exec (.enable sp du) s = .refused .enableWhileEnabled)
      ∧ (sp.toNat < 2 → du.toNat < 2 → s.life ≠ .enabled → s.mac.ucast = none →
        exec (.enable sp du) s = .refused .enableWithoutOwnAddress)

/-- R179: DISABLE closes the gate and stops both engines in one step when nothing is in flight, holds otherwise until
nothing is, and outside `Enabled` answers `OK` with no change. That an end before that is the fault `stepNotEnabled` is
the model's (log 9, log 11). -/
def Obligations.DisableCompletes : Prop :=
  (∀ s : State, Runs s .fg →
    (s.life ≠ .enabled → exec .disable s = .next (s.answeredOn .fg 0#32 0#32))
      ∧ (s.life = .enabled → s.tx.inflight = none → s.rx.pending = none →
        exec .disable s = .next (State.answeredOn
          { s with
            life := .disabled
            tx := { s.tx with dma := .stopped }
            rx := { s.rx with dma := .stopped }
            mac := { s.mac with macEn := false } } .fg 0#32 0#32))
      ∧ (s.life = .enabled → (s.tx.inflight ≠ none ∨ s.rx.pending ≠ none) →
        exec .disable s = .next (State.heldOn
          { s with
            tx := { s.tx with dma := .stopped }
            rx := { s.rx with dma := .stopped }
            mac := { s.mac with macEn := false } } .fg .disable)))
    ∧ (∀ (s : State) (rest : List Stim), s.env.inputs = .complete .fg :: rest → s.fatal = none →
      s.ports.fg.phase = .held .disable → s.tx.inflight = none → s.rx.pending = none →
        step s = .next (State.answeredOn
          { s with life := .disabled, env := { s.env with inputs := rest, issuer := .fg } } .fg 0#32 0#32))
    ∧ ∀ (s : State) (rest : List Stim), s.env.inputs = .complete .fg :: rest → s.fatal = none →
      s.ports.fg.phase = .held .disable → (s.tx.inflight ≠ none ∨ s.rx.pending ≠ none) →
        step s = .fault .stepNotEnabled

/-! The Tx ring. -/

/-- R131 lines 9 to 16: a successful TX_ENQUEUE. -/
def Obligations.TxEnqueueCompletes : Prop :=
  ∀ (s : State) (first last : Bool) (buf : Word) (len : Half), Runs s .fg → s.life = .enabled → len ≠ 0#16 →
    (s.cfg.chained = true ∨ (first = true ∧ last = true)) → first = !s.tx.openFrame →
    bufferDmaReadable s.cfg buf len = true → 0 < s.tx.free →
    meetsDescriptors s.cfg buf len.toNat = false →
      exec (.txEnqueue first last buf len) s = .next (State.answeredOn
        { s with
          tx :=
            { s.tx with
              slots := s.tx.slots.set s.tx.head ⟨.dma, buf, len, first, last, false⟩
              book := s.tx.book.set s.tx.head (some buf)
              head := (s.tx.head + 1) % s.cfg.dTx
              free := s.tx.free - 1
              openFrame := !last
              dma := if s.tx.dma = .idle then .active else s.tx.dma } } .fg 0#32 0#32)

/-- R131 lines 4 to 8, in their order: the four obligations, and then the full ring. A buffer on a descriptor array is
refused where it would be attached (R78; its place after the other checks is the model's, log 8). -/
def Obligations.TxEnqueueTurnsAway : Prop :=
  ∀ (s : State) (first last : Bool) (buf : Word) (len : Half), Runs s .fg → s.life = .enabled →
    (len = 0#16 → exec (.txEnqueue first last buf len) s = .refused .zeroLengthFragment)
      ∧ (len ≠ 0#16 → s.cfg.chained = false → (first && last) = false →
        exec (.txEnqueue first last buf len) s = .refused .fragmentOnUnchainedBackend)
      ∧ (len ≠ 0#16 → (s.cfg.chained = true ∨ (first && last) = true) → first = s.tx.openFrame →
        exec (.txEnqueue first last buf len) s = .refused .fragmentSequence)
      ∧ (len ≠ 0#16 → (s.cfg.chained = true ∨ (first && last) = true) → first ≠ s.tx.openFrame →
        bufferDmaReadable s.cfg buf len = false →
          exec (.txEnqueue first last buf len) s = .refused .bufferNotDmaReadable)
      ∧ (len ≠ 0#16 → (s.cfg.chained = true ∨ (first && last) = true) → first ≠ s.tx.openFrame →
        bufferDmaReadable s.cfg buf len = true → s.tx.free = 0 →
          exec (.txEnqueue first last buf len) s = .next (s.answeredOn .fg 1#32 0#32))
      ∧ (len ≠ 0#16 → (s.cfg.chained = true ∨ (first && last) = true) → first ≠ s.tx.openFrame →
        bufferDmaReadable s.cfg buf len = true → s.tx.free ≠ 0 → meetsDescriptors s.cfg buf len.toNat = true →
          exec (.txEnqueue first last buf len) s = .refused .platformOutsideSpec)

/-- R132: TX_RECLAIM reclaims exactly the completed slots, `k` of them, notifies their tokens in ring order and returns
`k`; no slot field is written. The spec's own: decision D8 (92_eei_decisions.md). -/
def Obligations.TxReclaimCompletes : Prop :=
  ∀ (s : State) (p : Issuer) (k : Nat), Runs s p → (p = .fg ∨ p = .txi) → isLive s.life → TxShape s k →
    exec .txReclaim s = .next (State.answeredOn
      { s with
        tx :=
          { s.tx with
            book := (List.range s.cfg.dTx).map fun i =>
              if i ∈ ringSlots s.cfg.dTx s.tx.cursor k then none else s.txTok i
            cursor := (s.tx.cursor + k) % s.cfg.dTx
            free := s.tx.free + k }
        out :=
          { s.out with
            notify := s.out.notify
              ++ (booked s.tx.book s.cfg.dTx s.tx.cursor k).map Notification.frameTransmitted } }
      p 0#32 (BitVec.ofNat 32 k))

/-- R133: buffers are reported transmitted in the order they were enqueued. What has been reported, followed by what is
in the ring from the oldest on, grows only by the buffer a successful TX_ENQUEUE adds at its end, as long as the engine
is live (DEINIT releases the buffers in the ring instead). The spec's own: decision D8 (92_eei_decisions.md). -/
def Obligations.TransmittedInOrder : Prop :=
  ∀ s t : State, TxSafe s → isLive s.life → step s = .next t → isLive t.life →
    transmitted t ++ inTxRing t = transmitted s ++ inTxRing s ++ newlyQueued s t

/-! The Rx ring. -/

/-- R151, R152: RX_PRIME hands the buffer to the slot at `rxPrime`; with no unprimed slot, or a buffer already
attached, it is refused. The spec's own: decision D9 (92_eei_decisions.md). -/
def Obligations.RxPrimeCompletes : Prop :=
  ∀ (s : State) (p : Issuer) (buf : Word), Runs s p → rxRingPorts s.cfg p = true → isLive s.life →
    (0 < s.rx.unprimed → some buf ∉ s.rx.book → meetsDescriptors s.cfg buf s.cfg.rxBufSize = false →
      exec (.rxPrime buf) s = .next (State.answeredOn
        { s with
          rx :=
            { s.rx with
              slots := s.rx.slots.set s.rx.prime ⟨.dma, buf, 0#16, false, false, false⟩
              book := s.rx.book.set s.rx.prime (some buf)
              prime := (s.rx.prime + 1) % s.cfg.dRx
              unprimed := s.rx.unprimed - 1
              dma := if s.rx.dma = .idle then .active else s.rx.dma } } p 0#32 0#32))
      ∧ (s.rx.unprimed = 0 → exec (.rxPrime buf) s = .refused .noUnprimedSlot)
      ∧ (0 < s.rx.unprimed → some buf ∈ s.rx.book → exec (.rxPrime buf) s = .refused .bufferAlreadyAttached)
      ∧ (0 < s.rx.unprimed → some buf ∉ s.rx.book → meetsDescriptors s.cfg buf s.cfg.rxBufSize = true →
        exec (.rxPrime buf) s = .refused .platformOutsideSpec)

/-- R153, R156: RX_POLL whose filled slots begin with a complete run of `k` slots without error delivers that frame,
with its buffers in ring order and the sum of its slots' lengths, and re-primes as many slots as the pool gave buffers,
oldest first; every other slot and book entry stays. With no more filled slots it answers 1; with more it does, and
answers one more than, what RX_POLL does from there on, refusals included, so the statement covers every list of runs.
The answers of the pool are those `env.alloc` holds (log 4), clear of the descriptor arrays (log 8). -/
def Obligations.RxPollDelivers : Prop :=
  ∀ (s : State) (p : Issuer) (n k : Nat) (draws rest : List (Option Word)), Runs s p → rxRingPorts s.cfg p = true →
    isLive s.life → RxShape s n → k ≤ n → OneRun s k → (∀ j, j < k → (rxRunSlot s j).err = false) →
    s.env.alloc = draws ++ rest → draws.length = k → (draws.filterMap id).Nodup →
    (∀ b, some b ∈ draws → some b ∉ s.rx.book ∧ some b ∉ s.tx.book
      ∧ meetsDescriptors s.cfg b s.cfg.rxBufSize = false) →
      ∃ u : State, RunTaken s u k (draws.filterMap id) ∧ RxShape u (n - k)
        ∧ u = { s with
            rx := u.rx
            env := { s.env with alloc := rest }
            out :=
              { s.out with
                notify := s.out.notify
                  ++ [.frameReceived (rxRunBufs s k)
                      (BitVec.ofNat 32 ((List.range k).map fun j => (rxRunSlot s j).len.toNat).sum)] } }
        ∧ (n = k → exec .rxPoll s = .next (u.answeredOn p 0#32 1#32))
        ∧ (∀ t, exec .rxPoll u = .next t →
          exec .rxPoll s = .next (t.answeredOn p 0#32 ((t.port p).ret0 + 1#32)))
        ∧ ∀ r, exec .rxPoll u = .refused r → exec .rxPoll s = .refused r

/-- R155: RX_POLL whose filled slots begin with a complete run of `k` slots with an error in any of them delivers
nothing for it, adds exactly 1 to `rxErrorCount`, draws nothing and re-primes as many slots with the run's own buffers,
in their order; every other slot and book entry stays. With no more filled slots it answers 0; with more it does, and
answers, what RX_POLL does from there on, refusals included. The spec's own: decision D18 (92_eei_decisions.md). -/
def Obligations.RxPollDrops : Prop :=
  ∀ (s : State) (p : Issuer) (n k : Nat), Runs s p → rxRingPorts s.cfg p = true →
    isLive s.life → RxShape s n → k ≤ n → OneRun s k → (∃ j, j < k ∧ (rxRunSlot s j).err = true) →
      ∃ u : State, RunTaken s u k (rxRunBufs s k) ∧ (rxRunBufs s k).length = k ∧ RxShape u (n - k)
        ∧ u = { s with rx := u.rx, cnt := { s.cnt with rxError := s.cnt.rxError + 1#32 } }
        ∧ (n = k → exec .rxPoll s = .next (u.answeredOn p 0#32 0#32))
        ∧ (∀ t, exec .rxPoll u = .next t → exec .rxPoll s = .next t)
        ∧ ∀ r, exec .rxPoll u = .refused r → exec .rxPoll s = .refused r

/-- R153, R154: RX_POLL with nothing filled, or with a run whose last slot has not been filled yet, answers 0 and
changes nothing; a filled slot at the cursor that is no first fragment, or a second first fragment inside a run, is
refused. The spec's own: decisions D19, D30 and what the spec marks in R154 as derived or not in its source
(92_eei_decisions.md). -/
def Obligations.RxPollLeavesIncomplete : Prop :=
  ∀ (s : State) (p : Issuer) (k : Nat), Runs s p → rxRingPorts s.cfg p = true → isLive s.life → RxShape s k →
    ((∀ j, j < k → (rxRunSlot s j).first = (j == 0) ∧ (rxRunSlot s j).last = false) →
      exec .rxPoll s = .next (s.answeredOn p 0#32 0#32))
    ∧ (1 ≤ k → (rxRunSlot s 0).first = false → exec .rxPoll s = .refused .ringDesync)
    ∧ ∀ m, 1 ≤ m → m < k →
      (∀ j, j < m → (rxRunSlot s j).first = (j == 0) ∧ (rxRunSlot s j).last = false) →
        (rxRunSlot s m).first = true → exec .rxPoll s = .refused .ringDesync

/-! The MAC driver. -/

/-- R173: SET_OWN_ADDR writes the own address and slot 0 of the table, and nothing else; while enabled it is refused.
The spec's own: decision D32 (92_eei_decisions.md). -/
def Obligations.SetOwnAddrCompletes : Prop :=
  ∀ (s : State) (addr : Mac), Runs s .fg → isLive s.life →
    (s.life ≠ .enabled →
      exec (.setOwnAddr addr) s = .next (State.answeredOn
        { s with
          mac := { s.mac with ucast := some addr, addrTab := s.mac.addrTab.set 0 (some addr) } } .fg 0#32 0#32))
      ∧ (s.life = .enabled → exec (.setOwnAddr addr) s = .refused .setOwnAddrWhileEnabled)

/-- R174: ADD_MCAST appends the address and writes it to the next table slot; a full table answers `OUT_OF_MEMORY`. The
spec's own: decision D32 (92_eei_decisions.md). The spec's own: decision D32 (92_eei_decisions.md). -/
def Obligations.AddMcastCompletes : Prop :=
  ∀ (s : State) (addr : Mac), Runs s .fg → isLive s.life →
    (s.mac.mcast.length ≠ s.cfg.mcastCap →
      exec (.addMcast addr) s = .next (State.answeredOn
        { s with
          mac :=
            { s.mac with
              mcast := s.mac.mcast ++ [addr]
              addrTab := s.mac.addrTab.set (s.mac.mcast.length + 1) (some addr) } } .fg 0#32 0#32))
      ∧ (s.mac.mcast.length = s.cfg.mcastCap → exec (.addMcast addr) s = .next (s.answeredOn .fg 1#32 0#32))

/-- R174, the multicast table bound: with room for `C` more addresses, adding `C` succeeds `C` times and the next
answers `OUT_OF_MEMORY`. The spec's own: decision D32 (92_eei_decisions.md). -/
def Obligations.MulticastTableBound : Prop :=
  ∀ (s : State) (addrs : List Mac) (extra : Mac), Runs s .fg → isLive s.life →
    s.mac.mcast.length + addrs.length = s.cfg.mcastCap →
      ∃ t : State, addEach addrs s = some t ∧ t.mac.mcast = s.mac.mcast ++ addrs
        ∧ exec (.addMcast extra) t = .next (t.answeredOn .fg 1#32 0#32)

/-- R175: CLEAR_MCAST empties the list and slots 1 on of the table; slot 0, the own address and the flags stay. The
spec's own: decision D31 (92_eei_decisions.md). The spec's own: decision D31 (92_eei_decisions.md). -/
def Obligations.ClearMcastCompletes : Prop :=
  ∀ s : State, Runs s .fg → isLive s.life → AddrTabInv s →
    exec .clearMcast s = .next (State.answeredOn
      { s with
        mac :=
          { s.mac with
            mcast := []
            addrTab := s.mac.ucast :: List.replicate s.cfg.mcastCap none } } .fg 0#32 0#32)

/-- R40, with R172, R176, R177: SET_PAM and SET_PROMISC write their own flag, not the other, and recompute the
effective bits. -/
def Obligations.FilterFlagsComplete : Prop :=
  ∀ (s : State) (v : Bool), Runs s .fg → isLive s.life →
    exec (.setPam v) s = .next (State.answeredOn
        { s with
          mac := { s.mac with pam := v, effPam := v || s.mac.promisc, effPau := s.mac.promisc } } .fg 0#32 0#32)
      ∧ exec (.setPromisc v) s = .next (State.answeredOn
        { s with
          mac := { s.mac with promisc := v, effPam := s.mac.pam || v, effPau := v } } .fg 0#32 0#32)

/-- R41: `effPam` and `effPau` are `pam` or `promisc`, and `promisc`: at every point between operations from INIT on,
whatever step is taken; SET_PAM and SET_PROMISC recompute them; the filter reads them, and neither of the flags: its
verdict is the same whatever `pam` and `promisc` are, and each effective bit can change it. -/
def Obligations.EffectiveFilterBits : Prop :=
  (∀ s t : State, ControlInv s → (s.life ≠ .uninitialized → FilterInv s) → step s = .next t →
    t.life ≠ .uninitialized → FilterInv t)
    ∧ (∀ (s : State) (v : Bool), Runs s .fg → isLive s.life →
      (∃ t, exec (.setPam v) s = .next t ∧ FilterInv t) ∧ ∃ t, exec (.setPromisc v) s = .next t ∧ FilterInv t)
    ∧ (∀ (s : State) (v w : Bool) (data : List Byte),
      frameAccepted { s with mac := { s.mac with pam := v, promisc := w } } data = frameAccepted s data)
    ∧ (∃ (s : State) (data : List Byte), s.mac.effPam = false ∧ frameAccepted s data = false
      ∧ frameAccepted { s with mac := { s.mac with effPam := true } } data = true)
    ∧ ∃ (s : State) (data : List Byte), s.mac.effPau = false ∧ frameAccepted s data = false
      ∧ frameAccepted { s with mac := { s.mac with effPau := true } } data = true

/-- R182: SET_PROMISC 1 and then SET_PROMISC 0, with any steps but SET_PAM, INIT and power-on before, between and after
(after: no further SET_PROMISC), from a state between two operations, leave `pam` as it was, `effPam` equal to it and
`effPau` false. The spec's own: what the spec marks in R182 as derived or not in its source (92_eei_decisions.md). -/
def Obligations.PromiscuousIndependence : Prop :=
  ∀ s0 s1 s2 s3 s4 t : State,
    let keepsPam : State → Prop := fun s =>
      s.env.inputs.head? ≠ some .powerOn ∧ runsNext s ≠ some .init ∧ ∀ v, runsNext s ≠ some (.setPam v)
    SeqInv s0 → Steps keepsPam s0 s1 →
    s1.env.inputs.head? = some (.present .fg (encode (.setPromisc true))) → step s1 = .next s2 →
    Steps keepsPam s2 s3 → s3.fatal = none → isLive s3.life →
    s3.env.inputs.head? = some (.present .fg (encode (.setPromisc false))) → step s3 = .next s4 →
    Steps (fun s => keepsPam s ∧ ∀ v, runsNext s ≠ some (.setPromisc v)) s4 t →
      t.mac.pam = s0.mac.pam ∧ t.mac.effPam = s0.mac.pam ∧ t.mac.effPau = false

/-- R171: the receive filter. A frame shorter than six bytes is rejected; another is accepted exactly when its
destination, its first six bytes with the first one lowest, is in the table, or is a multicast address while `effPam`,
or a unicast one while `effPau`, or the broadcast address where the platform accepts it. A rejected frame changes no
state. The spec's own: decision D13 and what the spec marks in R171 as derived or not in its source
(92_eei_decisions.md). -/
def Obligations.ReceiveFilter : Prop :=
  (∀ (s : State) (data : List Byte), data.length < 6 → frameAccepted s data = false)
    ∧ (∀ (s : State) (b0 b1 b2 b3 b4 b5 : Byte) (rest : List Byte), s.mac.addrTab.length = s.cfg.mcastCap + 1 →
      let dst : Nat := b0.toNat + b1.toNat * 2 ^ 8 + b2.toNat * 2 ^ 16 + b3.toNat * 2 ^ 24 + b4.toNat * 2 ^ 32
        + b5.toNat * 2 ^ 40
      (frameAccepted s (b0 :: b1 :: b2 :: b3 :: b4 :: b5 :: rest) = true ↔
        (∃ k, k ≤ s.cfg.mcastCap ∧ s.mac.addrTab[k]? = some (some (BitVec.ofNat 48 dst)))
          ∨ (dst % 2 = 1 ∧ s.mac.effPam = true) ∨ (dst % 2 = 0 ∧ s.mac.effPau = true)
          ∨ (dst = 2 ^ 48 - 1 ∧ s.cfg.acceptBroadcast = true)))
    ∧ ∀ (s : State) (f : Frame) (e : Env), Runs s .hw → s.life ≠ .uninitialized → s.mac.macEn = true →
      s.rx.pending = none → WireDelivers s f e → frameAccepted s f.data = false →
        exec .rxFrameArrive s = .next { s with env := e }

/-- R180, R181, R351: MDIO_READ and MDIO_WRITE start the transaction and hold, are refused while one runs, and end only
once the MDIO_DONE of that transaction has come: then the port answers with the word that MDIO_DONE left due, the value
for a read and 0 for a write. Before there is no end, and no other step but power-on changes what the port holds: an
operation whose transaction an INIT took away holds for ever. That "no end" is the fault `stepNotEnabled` is the
model's (log 9, log 11), and so is the field that says which port waits (log 24). -/
def Obligations.MdioOperationsHoldThenAnswer : Prop :=
  (∀ (s : State) (p : Issuer) (dev reg : BitVec 5) (val : Half), Runs s p → isHostPort p → isLive s.life →
    (s.mdio.busy = false →
      exec (.mdioRead dev reg) s = .next (State.heldOn
          { s with
            mdio := { s.mdio with busy := true, req := ⟨false, dev, reg, 0#16⟩ }
            env := { s.env with mdioFor := some p } } p .mdioRead)
        ∧ exec (.mdioWrite dev reg val) s = .next (State.heldOn
          { s with
            mdio := { s.mdio with busy := true, req := ⟨true, dev, reg, val⟩ }
            env := { s.env with mdioFor := some p } } p .mdioWrite))
      ∧ (s.mdio.busy = true →
        exec (.mdioRead dev reg) s = .refused .mdioWhileBusy
          ∧ exec (.mdioWrite dev reg val) s = .refused .mdioWhileBusy))
    ∧ (∀ (s : State) (p : Issuer) (rest : List Stim), isHostPort p → s.env.inputs = .complete p :: rest →
      s.fatal = none →
        (∀ v, (s.port p).phase = .held (.mdioOver v) →
          step s = .next (State.answeredOn { s with env := { s.env with inputs := rest, issuer := p } } p 0#32 v))
        ∧ ((s.port p).phase = .held .mdioRead ∨ (s.port p).phase = .held .mdioWrite →
          step s = .fault .stepNotEnabled))
    ∧ ∀ (s t : State) (p : Issuer), step s = .next t →
      ((s.port p).phase = .held .mdioRead ∨ (s.port p).phase = .held .mdioWrite) →
        ((t.port p).phase = (s.port p).phase ∧ (s.env.mdioFor ≠ some p → t.env.mdioFor ≠ some p))
          ∨ (runsNext s = some .mdioDone ∧ s.env.mdioFor = some p) ∨ s.env.inputs.head? = some .powerOn

/-! Interrupts. -/

/-- R304: line `k` is asserted exactly when `irqGlobal` and a source that is set, enabled and on the line. The sources
of each line are those of R303. The spec's own: decision D20 (92_eei_decisions.md). -/
def Obligations.LineIsALevel : Prop :=
  ∀ (s : State) (k : Bool),
    lineAsserted s k = true ↔
      s.irq.globalOn = true ∧ ∃ b, b < 10 ∧ s.irq.status.getLsbD b = true ∧ s.irq.enable.getLsbD b = true
        ∧ b ∈ (match s.cfg.irqLines, k with
          | .one, false => [0, 1, 2, 3, 4, 5, 6, 7, 8, 9]
          | .one, true => []
          | .perDirection, false => [0, 2, 7, 9]
          | .perDirection, true => [1, 3, 4, 5, 6, 8])

/-- R308 lines 3 to 5: with nothing pending on the line ISR_DISPATCH answers 0 and changes nothing; while `irqGlobal`
is false it has no step. That "no step" is the fault `interruptsOff` is the model's choice (log 9). -/
def Obligations.DispatchSpurious : Prop :=
  ∀ (s : State) (p : Issuer) (line : Bool), Runs s p → isrPorts s.cfg line p = true →
    (s.irq.globalOn = true → s.irq.status &&& s.irq.enable &&& lineMask s.cfg.irqLines line = 0#10 →
      exec (.isrDispatch line) s = .next (s.answeredOn p 0#32 0#32))
    ∧ (s.irq.globalOn = false → exec (.isrDispatch line) s = .fault .interruptsOff)

/-- R311: the fatal path. A pending bus error makes the dispatch raise Fatal, Tx before Rx, and do nothing else;
`irqStatus` keeps its bits, and CSR 3 and CSR 0 show them, the latch and its kind. The spec's own: decision D22
(92_eei_decisions.md). -/
def Obligations.DispatchFatalPath : Prop :=
  ∀ (s : State) (p : Issuer) (line : Bool), Runs s p → isrPorts s.cfg line p = true → s.irq.globalOn = true →
    let q := s.irq.status &&& s.irq.enable &&& lineMask s.cfg.irqLines line
    (q.getLsbD 2 = true ∨ q.getLsbD 3 = true) →
      ∃ (kind : FatalKind) (t : State), exec (.isrDispatch line) s = .next t
        ∧ kind = (if q.getLsbD 2 = true then .txBusError else .rxBusError)
        ∧ t = { s with fatal := some kind, out := { s.out with notify := s.out.notify ++ [.linkFault kind] } }
        ∧ csrView t 3 = s.irq.status.setWidth 32 ∧ (csrView t 0).getLsbD 8 = true
        ∧ (csrView t 0).getLsbD 9 = (kind == .rxBusError)

/-- R308, R309, R321: with statistics sources alone pending, ISR_DISPATCH acknowledges exactly them, adds 1 to the
counter of each, and answers the set. The spec's own: decisions D20, D21 (92_eei_decisions.md). -/
def Obligations.DispatchCounts : Prop :=
  ∀ (s : State) (p : Issuer) (line : Bool), Runs s p → isrPorts s.cfg line p = true → s.irq.globalOn = true →
    let q := s.irq.status &&& s.irq.enable &&& lineMask s.cfg.irqLines line
    q ≠ 0#10 → (∀ b, b < 4 → q.getLsbD b = false) →
      exec (.isrDispatch line) s = .next (State.answeredOn
        { s with
          irq := { s.irq with status := s.irq.status &&& ~~~q }
          cnt :=
            { s.cnt with
              crcError := if q.getLsbD 4 then s.cnt.crcError + 1#32 else s.cnt.crcError
              rxOverrun := if q.getLsbD 5 then s.cnt.rxOverrun + 1#32 else s.cnt.rxOverrun
              frameTooLong := if q.getLsbD 6 then s.cnt.frameTooLong + 1#32 else s.cnt.frameTooLong
              lateCollision := if q.getLsbD 7 then s.cnt.lateCollision + 1#32 else s.cnt.lateCollision
              alignError := if q.getLsbD 8 then s.cnt.alignError + 1#32 else s.cnt.alignError
              txUnderrun := if q.getLsbD 9 then s.cnt.txUnderrun + 1#32 else s.cnt.txUnderrun } } p 0#32 (q.setWidth 32))

/-- R308, R310: the services of a dispatch are the bodies of TX_RECLAIM and RX_POLL. A dispatch with `TX_COMPLETE` and
no `RX_FRAME` reclaims the `k` completed slots; one with `RX_FRAME` and no `TX_COMPLETE` does what RX_POLL does at the
state with the sources acknowledged; one with both reclaims and then polls (R306). Statistics follow, and the set is
answered; a refused poll refuses the dispatch (R315). The spec's own: decision D20 and what the spec marks in R315 as
derived or not in its source (92_eei_decisions.md). -/
def Obligations.DispatchRunsServices : Prop :=
  ∀ (s : State) (p : Issuer) (line : Bool), Runs s p → isrPorts s.cfg line p = true → s.irq.globalOn = true →
    let q := s.irq.status &&& s.irq.enable &&& lineMask s.cfg.irqLines line
    let count := fun c : Counters =>
      { c with
        crcError := if q.getLsbD 4 then c.crcError + 1#32 else c.crcError
        rxOverrun := if q.getLsbD 5 then c.rxOverrun + 1#32 else c.rxOverrun
        frameTooLong := if q.getLsbD 6 then c.frameTooLong + 1#32 else c.frameTooLong
        lateCollision := if q.getLsbD 7 then c.lateCollision + 1#32 else c.lateCollision
        alignError := if q.getLsbD 8 then c.alignError + 1#32 else c.alignError
        txUnderrun := if q.getLsbD 9 then c.txUnderrun + 1#32 else c.txUnderrun }
    q.getLsbD 2 = false → q.getLsbD 3 = false →
      (∀ k, q.getLsbD 0 = true → q.getLsbD 1 = false → TxShape s k →
        exec (.isrDispatch line) s = .next (State.answeredOn
          { s with
            irq := { s.irq with status := s.irq.status &&& ~~~q }
            cnt := count s.cnt
            tx :=
              { s.tx with
                book := (List.range s.cfg.dTx).map fun i =>
                  if i ∈ ringSlots s.cfg.dTx s.tx.cursor k then none else s.txTok i
                cursor := (s.tx.cursor + k) % s.cfg.dTx
                free := s.tx.free + k }
            out :=
              { s.out with
                notify := s.out.notify
                  ++ (booked s.tx.book s.cfg.dTx s.tx.cursor k).map Notification.frameTransmitted } }
          p 0#32 (q.setWidth 32)))
      ∧ (q.getLsbD 0 = false → q.getLsbD 1 = true → isLive s.life → rxRingPorts s.cfg p = true →
        let s1 := { s with irq := { s.irq with status := s.irq.status &&& ~~~q } }
        (∀ u, exec .rxPoll s1 = .next u →
          exec (.isrDispatch line) s = .next (State.answeredOn { u with cnt := count u.cnt } p 0#32 (q.setWidth 32)))
        ∧ ∀ r, exec .rxPoll s1 = .refused r → exec (.isrDispatch line) s = .refused r)
      ∧ ∀ k, q.getLsbD 0 = true → q.getLsbD 1 = true → isLive s.life → rxRingPorts s.cfg p = true → TxShape s k →
        let s1 :=
          { s with
            irq := { s.irq with status := s.irq.status &&& ~~~q }
            tx :=
              { s.tx with
                book := (List.range s.cfg.dTx).map fun i =>
                  if i ∈ ringSlots s.cfg.dTx s.tx.cursor k then none else s.txTok i
                cursor := (s.tx.cursor + k) % s.cfg.dTx
                free := s.tx.free + k }
            out :=
              { s.out with
                notify := s.out.notify
                  ++ (booked s.tx.book s.cfg.dTx s.tx.cursor k).map Notification.frameTransmitted } }
        (∀ u, exec .rxPoll s1 = .next u →
          exec (.isrDispatch line) s = .next (State.answeredOn { u with cnt := count u.cnt } p 0#32 (q.setWidth 32)))
        ∧ ∀ r, exec .rxPoll s1 = .refused r → exec (.isrDispatch line) s = .refused r

/-- R301, R305, R321: over all instructions. Only steps of the hardware agents set bits of `irqStatus`; only INIT and
DEINIT write `irqEnable` and `irqGlobal`; only INIT and ISR_DISPATCH write the six counters of the status sources. The
spec's own: decisions D20, D21 and what the spec marks in R305 as derived or not in its source (92_eei_decisions.md).
-/
def Obligations.InterruptUnitWriters : Prop :=
  ∀ (i : Instr) (s t : State), exec i s = .next t →
    (isAgentStep i = false → t.irq.status &&& ~~~s.irq.status = 0#10)
      ∧ (i ≠ .init → i ≠ .deinit → t.irq.enable = s.irq.enable ∧ t.irq.globalOn = s.irq.globalOn)
      ∧ (i ≠ .init → (∀ line, i ≠ .isrDispatch line) → t.cnt = { s.cnt with rxError := t.cnt.rxError })

/-! The hardware agents. -/

/-- R232, R89: TXDMA_COMPLETE sends the buffer of the slot in flight, gives the slot back, moves on and raises
`TX_COMPLETE`; the frame leaves when the slot is its last. Each byte sent is the one in memory, or, where it was
written while the slot was queued, one it held before: any mix of old and new values. The list of such races and the
draw of the mix are the model's (log 13). The buffer does not overlap a descriptor array (R78; log 8). The spec's own:
decision D11 and the decomposition, the names and the preconditions of the steps of the agents (head of
44_dma_agents.md, decisions D10, D11, D12) and what the spec marks in R89 as derived or not in its source
(92_eei_decisions.md). The spec's own: decision D11 and the decomposition, the names and the preconditions of the steps
of the agents (head of 44_dma_agents.md, decisions D10, D11, D12) and what the spec marks in R89 as derived or not in
its source (92_eei_decisions.md). -/
def Obligations.TxCompleteSendsBuffer : Prop :=
  ∀ (s : State) (i : Nat), Runs s .hw → s.tx.inflight = some i →
    meetsDescriptors s.cfg (s.txSlot i).buf (s.txSlot i).len.toNat = false →
      let x := s.txSlot i
      ∃ (sent : List Byte) (n : Nat), sent.length = x.len.toNat
        ∧ (∀ k, k < x.len.toNat →
          sent[k]? = some (memRead s.mem (x.buf + BitVec.ofNat 32 k).toNat)
            ∨ ∃ r ∈ s.env.races, r.ring = .tx ∧ r.slot = i ∧ r.addr = x.buf + BitVec.ofNat 32 k
              ∧ sent[k]? = some r.val)
        ∧ ((∀ r ∈ s.env.races, ¬(r.ring = .tx ∧ r.slot = i)) → n = s.env.drawn)
        ∧ (let frame := (if x.first then [] else s.tx.accum) ++ sent
          exec .txdmaComplete s = .next
            { s with
              tx :=
                { s.tx with
                  slots := s.tx.slots.set i { x with own := .software }
                  accum := if x.last then [] else frame
                  hw := (i + 1) % s.cfg.dTx
                  inflight := none }
              out := { s.out with txWire := if x.last then s.out.txWire ++ [frame] else s.out.txWire }
              irq := { s.irq with status := s.irq.status ||| 0x001#10 }
              env :=
                { s.env with
                  races := s.env.races.filter fun r => !(r.ring == .tx && r.slot == i), drawn := n } })

/-- R231, R233, R234, R237, R238: TXDMA_FETCH puts the slot at `txHw` in flight; an engine that finds its slot not its
own suspends; a bus error stops its engine, drops what is in flight and sets its source; no slot changes. Each is taken
exactly under its precondition. The spec's own: decision D10 and the decomposition, the names and the preconditions of
the steps of the agents (head of 44_dma_agents.md, decisions D10, D11, D12) (92_eei_decisions.md). -/
def Obligations.EngineControlSteps : Prop :=
  ∀ s : State, Runs s .hw →
    (s.tx.dma = .active ∧ s.mac.macEn = true ∧ s.tx.inflight = none ∧ (s.txSlot s.tx.hw).own = .dma →
      exec .txdmaFetch s = .next { s with tx := { s.tx with inflight := some s.tx.hw } })
    ∧ (¬(s.tx.dma = .active ∧ s.mac.macEn = true ∧ s.tx.inflight = none ∧ (s.txSlot s.tx.hw).own = .dma) →
      ∀ t, exec .txdmaFetch s ≠ .next t)
    ∧ (s.tx.dma = .active ∧ s.tx.inflight = none ∧ (s.txSlot s.tx.hw).own = .software →
      exec .txdmaSuspend s = .next { s with tx := { s.tx with dma := .idle } })
    ∧ (¬(s.tx.dma = .active ∧ s.tx.inflight = none ∧ (s.txSlot s.tx.hw).own = .software) →
      ∀ t, exec .txdmaSuspend s ≠ .next t)
    ∧ (s.rx.dma = .active ∧ s.rx.pending = none ∧ (s.rxSlot s.rx.hw).own = .software →
      exec .rxdmaSuspend s = .next { s with rx := { s.rx with dma := .idle } })
    ∧ (¬(s.rx.dma = .active ∧ s.rx.pending = none ∧ (s.rxSlot s.rx.hw).own = .software) →
      ∀ t, exec .rxdmaSuspend s ≠ .next t)
    ∧ (s.tx.inflight ≠ none ∨ (s.tx.dma = .active ∧ s.mac.macEn = true) →
      exec .txdmaBusError s = .next
        { s with
          tx := { s.tx with dma := .stopped, inflight := none }
          irq := { s.irq with status := s.irq.status ||| 0x004#10 } })
    ∧ (¬(s.tx.inflight ≠ none ∨ (s.tx.dma = .active ∧ s.mac.macEn = true)) → ∀ t, exec .txdmaBusError s ≠ .next t)
    ∧ (s.rx.pending ≠ none ∨ (s.rx.dma = .active ∧ s.mac.macEn = true) →
      exec .rxdmaBusError s = .next
        { s with
          rx := { s.rx with dma := .stopped, pending := none }
          irq := { s.irq with status := s.irq.status ||| 0x008#10 } })
    ∧ (¬(s.rx.pending ≠ none ∨ (s.rx.dma = .active ∧ s.mac.macEn = true)) → ∀ t, exec .rxdmaBusError s ≠ .next t)

/-- R235: the four branches of RX_FRAME_ARRIVE, and its precondition. Before INIT the gate is closed (R331), so the
premise on `life` only sets aside states no run reaches (log 19). The spec's own: the decomposition, the names and the
preconditions of the steps of the agents (head of 44_dma_agents.md, decisions D10, D11, D12) (92_eei_decisions.md). -/
def Obligations.FrameArrives : Prop :=
  ∀ (s : State) (f : Frame) (e : Env), Runs s .hw → s.life ≠ .uninitialized → WireDelivers s f e →
    ((s.mac.macEn = false ∨ s.rx.pending ≠ none) → ∀ t, exec .rxFrameArrive s ≠ .next t)
    ∧ (s.mac.macEn = true → s.rx.pending = none →
      (frameAccepted s f.data = false → exec .rxFrameArrive s = .next { s with env := e })
      ∧ (frameAccepted s f.data = true → s.rx.dma ≠ .active →
        exec .rxFrameArrive s = .next
          { s with env := e, irq := { s.irq with status := s.irq.status ||| 0x020#10 } })
      ∧ (frameAccepted s f.data = true → s.rx.dma = .active → (s.rxSlot s.rx.hw).own = .software →
        exec .rxFrameArrive s = .next
          { s with
            env := e
            rx := { s.rx with dma := .idle }
            irq := { s.irq with status := s.irq.status ||| 0x020#10 } })
      ∧ (frameAccepted s f.data = true → s.rx.dma = .active → (s.rxSlot s.rx.hw).own = .dma →
        exec .rxFrameArrive s = .next
          { s with env := e, rx := { s.rx with pending := some ⟨f.data, 0, f.errs, f.midErr⟩ } }))

/-- R236, R72: RXDMA_WRITE fills the slot at `rxHw` with the next chunk of the frame: (a) the frame ends there, (b) it
goes on in the next slot, (c) it is cut. Exactly the chunk's bytes of memory change, each to the frame's byte, or to
one stored there while the slot was armed, or stays where another filled buffer holds it (R89). The list of such races
and the draw of the mix are the model's (log 13). The buffer does not overlap a descriptor array (R78; log 8). The
spec's own: decisions D11, D12 and the decomposition, the names and the preconditions of the steps of the agents (head
of 44_dma_agents.md, decisions D10, D11, D12) and what the spec marks in R89 as derived or not in its source
(92_eei_decisions.md). The spec's own: decisions D11, D12 and the decomposition, the names and the preconditions of the
steps of the agents (head of 44_dma_agents.md, decisions D10, D11, D12) and what the spec marks in R89 as derived or
not in its source (92_eei_decisions.md). -/
def Obligations.RxWriteFillsSlot : Prop :=
  ∀ (s : State) (f : RxFrame), Runs s .hw → s.rx.pending = some f → s.cfg.rxBufSize ≤ 65535 → Memory.wf s.mem →
    meetsDescriptors s.cfg (s.rxSlot s.rx.hw).buf s.cfg.rxBufSize = false →
      let n := min s.cfg.rxBufSize (f.data.length - f.off)
      let x := s.rxSlot s.rx.hw
      let j := (s.rx.hw + 1) % s.cfg.dRx
      let mid := f.midErr = some (f.off / s.cfg.rxBufSize)
      let ends := f.data.length - f.off - n = 0
      let goesOn := ¬ends ∧ s.cfg.chained = true ∧ 1 < s.cfg.dRx ∧ (s.rxSlot j).own = .dma
      ∃ t : State, exec .rxdmaWrite s = .next t
        ∧ t = { s with
            rx := t.rx, mem := t.mem, irq := { s.irq with status := t.irq.status }
            env := { s.env with races := t.env.races, drawn := t.env.drawn } }
        ∧ (∀ k, k < n →
          memRead t.mem (x.buf + BitVec.ofNat 32 k).toNat = f.data.getD (f.off + k) 0#8
            ∨ ∃ r ∈ s.env.races, r.ring = .rx ∧ r.slot = s.rx.hw ∧ r.addr = x.buf + BitVec.ofNat 32 k
              ∧ memRead t.mem (x.buf + BitVec.ofNat 32 k).toNat = r.val
            ∨ (filledHolds s (x.buf + BitVec.ofNat 32 k) = true
              ∧ memRead t.mem (x.buf + BitVec.ofNat 32 k).toNat = memRead s.mem (x.buf + BitVec.ofNat 32 k).toNat))
        ∧ ((∀ r ∈ s.env.races, ¬(r.ring = .rx ∧ r.slot = s.rx.hw)) →
          (∀ k, k < n → filledHolds s (x.buf + BitVec.ofNat 32 k) = false) → t.env.drawn = s.env.drawn)
        ∧ ((∀ k, k < n → ∀ (r : Ring) (i : Nat), ¬(r = .rx ∧ i = s.rx.hw) →
            slotHolds s r i (x.buf + BitVec.ofNat 32 k) = false) →
          t.env.races = s.env.races.filter fun r => !(r.ring == .rx && r.slot == s.rx.hw))
        ∧ (∀ a : Word, n ≤ (a - x.buf).toNat → memRead t.mem a.toNat = memRead s.mem a.toNat)
        ∧ (ends →
          t.rx =
            { s.rx with
              slots := s.rx.slots.set s.rx.hw
                { x with
                  own := .software, len := BitVec.ofNat 16 n, first := f.off == 0, last := true
                  err := f.errs.crc || f.errs.tooLong || f.errs.align || decide mid }
              hw := j
              pending := none }
            ∧ t.irq.status = s.irq.status ||| 0x002#10 ||| (if f.errs.crc then 0x010#10 else 0#10)
                ||| (if f.errs.tooLong then 0x040#10 else 0#10) ||| (if f.errs.align then 0x100#10 else 0#10))
        ∧ (goesOn →
          t.rx =
            { s.rx with
              slots := s.rx.slots.set s.rx.hw
                { x with
                  own := .software, len := BitVec.ofNat 16 n, first := f.off == 0, last := false
                  err := decide mid }
              hw := j
              pending := some { f with off := f.off + n } }
            ∧ t.irq.status = s.irq.status)
        ∧ (¬ends → ¬goesOn →
          t.rx =
            { s.rx with
              slots := s.rx.slots.set s.rx.hw
                { x with
                  own := .software, len := BitVec.ofNat 16 n, first := f.off == 0, last := true, err := true }
              hw := j
              pending := none
              dma := if s.cfg.chained = true ∧ s.rx.dma = .active then .idle else s.rx.dma }
            ∧ t.irq.status = s.irq.status ||| (if s.cfg.chained then 0x020#10 else 0x040#10) ||| 0x002#10
                ||| (if f.errs.crc then 0x010#10 else 0#10) ||| (if f.errs.tooLong then 0x040#10 else 0#10)
                ||| (if f.errs.align then 0x100#10 else 0#10))

/-- R239, R240: STATUS_EVENT sets the bit of its kind, 4 to 9, while the gate is on; MDIO_DONE ends the transaction: a
write goes out, a read stores what the PHY answered, and the operation that waits for it, if one does, has its answer
due: the value for a read, 0 for a write (log 24). The spec's own: decisions D21, D23 and the decomposition, the names
and the preconditions of the steps of the agents (head of 44_dma_agents.md, decisions D10, D11, D12)
(92_eei_decisions.md). -/
def Obligations.StatusEventAndMdioDone : Prop :=
  ∀ s : State, Runs s .hw →
    (∀ kind : BitVec 8, 4 ≤ kind.toNat → kind.toNat ≤ 9 → s.mac.macEn = true →
      exec (.statusEvent kind) s = .next
        { s with irq := { s.irq with status := s.irq.status ||| BitVec.twoPow 10 kind.toNat } })
    ∧ (∀ (kind : BitVec 8) (t : State), s.mac.macEn = false → exec (.statusEvent kind) s ≠ .next t)
    ∧ (s.mdio.busy = true → s.mdio.req.wr = true →
      ∃ q, exec .mdioDone s = .next
          { s with
            mdio := { s.mdio with busy := false }
            out :=
              { s.out with mdioOut := s.out.mdioOut ++ [(s.mdio.req.dev, s.mdio.req.reg, s.mdio.req.val)] }
            env := { s.env with mdioFor := none }
            ports := q }
        ∧ EndsMdioHold s { s with ports := q } s.mdio.data)
    ∧ (∀ (v : Half) (e : Env), s.mdio.busy = true → s.mdio.req.wr = false →
      PhyAnswers s s.mdio.req.dev s.mdio.req.reg v e →
        ∃ q, exec .mdioDone s = .next
            { s with
              mdio := { s.mdio with busy := false, data := v }
              env := { e with mdioFor := none }
              ports := q }
          ∧ EndsMdioHold s { s with ports := q } v)
    ∧ (s.mdio.busy = false → ∀ t, exec .mdioDone s ≠ .next t)

/-- R230: the step of a hardware agent that is not enabled is no step, and one that is enabled is one, over all ten:
with buffers clear of the descriptor arrays (R78) and the engine initialised. What happens otherwise is the model's
choice: the fault of log 9, and the refusals of log 8 and log 19. The spec's own: decision D25 (92_eei_decisions.md).
-/
def Obligations.AgentStepsWhenEnabled : Prop :=
  (∀ (i : Instr) (s : State), isAgentStep i = true → Runs s .hw →
    (agentEnabled s i = false → exec i s = .fault .stepNotEnabled)
      ∧ (agentEnabled s i = true → s.life ≠ .uninitialized →
        (∀ k, s.tx.inflight = some k →
          meetsDescriptors s.cfg (s.txSlot k).buf (s.txSlot k).len.toNat = false) →
        meetsDescriptors s.cfg (s.rxSlot s.rx.hw).buf s.cfg.rxBufSize = false → ∃ t, exec i s = .next t))
    ∧ ∀ s : State, Runs s .hw →
      (∀ k, s.tx.inflight = some k → meetsDescriptors s.cfg (s.txSlot k).buf (s.txSlot k).len.toNat = true →
        exec .txdmaComplete s = .refused .platformOutsideSpec)
      ∧ (s.rx.pending ≠ none → meetsDescriptors s.cfg (s.rxSlot s.rx.hw).buf s.cfg.rxBufSize = true →
        exec .rxdmaWrite s = .refused .platformOutsideSpec)
      ∧ (s.mac.macEn = true → s.rx.pending = none → s.life = .uninitialized →
        exec .rxFrameArrive s = .refused .unprimedRing)

/-! The backend primitives, issued on `be` by the sequencer inside a host operation. No run shows such a state, since each
operation runs its primitives inside its own step (log 10). -/

/-- Inside a host operation (R276; log 10), R261, R262, R273, R275: DMA control, link configuration and filter flags.
The spec's own: decisions D10, D28 (92_eei_decisions.md). -/
def Obligations.ControlPrimitives : Prop :=
  ∀ s : State, Sequences s →
    exec (.startDma .tx) s = .next (State.answeredOn { s with tx := { s.tx with dma := .active } } .be 0#32 0#32)
    ∧ exec (.startDma .rx) s = .next (State.answeredOn { s with rx := { s.rx with dma := .active } } .be 0#32 0#32)
    ∧ exec (.stopDma .tx) s = .next (State.answeredOn { s with tx := { s.tx with dma := .stopped } } .be 0#32 0#32)
    ∧ exec (.stopDma .rx) s = .next (State.answeredOn { s with rx := { s.rx with dma := .stopped } } .be 0#32 0#32)
    ∧ (∀ (en : Bool) (sp du : BitVec 2), sp.toNat < 2 → du.toNat < 2 →
      exec (.setLinkConfig en sp du) s = .next (State.answeredOn
        { s with
          mac :=
            { s.mac with
              macEn := en
              speed := if sp.toNat = 0 then .s10 else .s100
              duplex := if du.toNat = 0 then .half else .full } } .be 0#32 0#32))
    ∧ ∀ effPam effPau : Bool,
      exec (.writeFilterFlags effPam effPau) s = .next (State.answeredOn
        { s with mac := { s.mac with effPam := effPam, effPau := effPau } } .be 0#32 0#32)

/-- Inside a host operation (R276; log 10), R264, R265: the two descriptor writes, on a slot software owns. The spec's own: decision D3 (92_eei_decisions.md).
-/
def Obligations.DescriptorPrimitives : Prop :=
  ∀ (s : State) (idx buf : Word), Sequences s →
    (∀ (first last : Bool) (len : Half), idx.toNat < s.cfg.dTx → (s.txSlot idx.toNat).own = .software →
      exec (.writeTxDesc first last idx buf len) s = .next (State.answeredOn
        { s with
          tx := { s.tx with slots := s.tx.slots.set idx.toNat ⟨.dma, buf, len, first, last, false⟩ } }
        .be 0#32 0#32))
    ∧ (idx.toNat < s.cfg.dRx → (s.rxSlot idx.toNat).own = .software →
      exec (.writeRxDesc idx buf) s = .next (State.answeredOn
        { s with
          rx := { s.rx with slots := s.rx.slots.set idx.toNat ⟨.dma, buf, 0#16, false, false, false⟩ } }
        .be 0#32 0#32))

/-- Inside a host operation (R276; log 10), R263, R266 to R270: the queries answer the flag, the length or the
parameter, and change nothing. The spec's own: decision D12 (92_eei_decisions.md). -/
def Obligations.QueryPrimitives : Prop :=
  ∀ (s : State) (r : Ring) (idx : Word), Sequences s → idx.toNat < depth s.cfg r →
    let x := s.slot r idx.toNat
    exec (.isSlotOwnedByDma r idx) s = .next (s.answeredOn .be 0#32 (if x.own = .dma then 1#32 else 0#32))
    ∧ exec (.isFirstFragment r idx) s = .next (s.answeredOn .be 0#32 (if x.first then 1#32 else 0#32))
    ∧ exec (.isLastFragment r idx) s = .next (s.answeredOn .be 0#32 (if x.last then 1#32 else 0#32))
    ∧ exec (.isErrorFragment r idx) s = .next (s.answeredOn .be 0#32 (if x.err then 1#32 else 0#32))
    ∧ (∀ idx2 : Word, idx2.toNat < depth s.cfg r →
      exec (.totalFrameLength r idx idx2) s = .next (s.answeredOn .be 0#32
        (BitVec.ofNat 32
          ((List.range ((idx2.toNat + depth s.cfg r - idx.toNat) % depth s.cfg r + 1)).map fun k =>
            (s.slot r ((idx.toNat + k) % depth s.cfg r)).len.toNat).sum)))
    ∧ ∀ (ptr : Word) (len : Half),
      exec (.isBufferDmaReadable ptr len) s = .next (s.answeredOn .be 0#32
        (if bufferDmaReadable s.cfg ptr len then 1#32 else 0#32))

/-- Inside a host operation (R276; log 10), R271, R272, R274: the address table and the start of an MDIO transaction.
The spec's own: decisions D23, D28 (92_eei_decisions.md). -/
def Obligations.TablePrimitives : Prop :=
  ∀ (s : State) (addr : Mac), Sequences s →
    exec (.writeUnicastAddr addr) s = .next (State.answeredOn
      { s with mac := { s.mac with addrTab := s.mac.addrTab.set 0 (some addr) } } .be 0#32 0#32)
    ∧ (∀ slot : BitVec 5, 1 ≤ slot.toNat → slot.toNat ≤ s.cfg.mcastCap →
      exec (.writeMcastAddr slot true addr) s = .next (State.answeredOn
          { s with mac := { s.mac with addrTab := s.mac.addrTab.set slot.toNat (some addr) } } .be 0#32 0#32)
        ∧ exec (.writeMcastAddr slot false 0#48) s = .next (State.answeredOn
          { s with mac := { s.mac with addrTab := s.mac.addrTab.set slot.toNat none } } .be 0#32 0#32))
    ∧ (s.mdio.busy = false → ∀ (wr : Bool) (dev reg : BitVec 5) (val : Half),
      exec (.mdioTransaction wr dev reg val) s = .next (State.answeredOn
        { s with mdio := { s.mdio with busy := true, req := ⟨wr, dev, reg, val⟩ } } .be 0#32 0#32))

/-- R260, R264, R265, R272, R273, R274, R276: where a primitive stops: outside a host operation (it is no step of its
own); with an index outside its ring, a table slot outside 1..`MCAST_CAP`, a code of speed or duplex with no meaning, a
slot the DMA engine owns, a transaction already running. The names of the fault and the refusals are the model's choice
(log 9, log 10, log 18). The spec's own: decisions D3, D5, D23, D28 (92_eei_decisions.md). -/
def Obligations.PrimitivesStop : Prop :=
  (∀ (i : Instr) (s : State), isHostOp i = false → isAgentStep i = false → Runs s .be → sequencing s = false →
    exec i s = .fault .stepNotEnabled)
  ∧ ∀ (s : State) (r : Ring) (idx buf : Word) (len : Half) (b c : Bool) (dev reg : BitVec 5), Sequences s →
    (depth s.cfg r ≤ idx.toNat →
      exec (.isSlotOwnedByDma r idx) s = .refused .primitiveOutOfRange
        ∧ exec (.isFirstFragment r idx) s = .refused .primitiveOutOfRange
        ∧ exec (.isLastFragment r idx) s = .refused .primitiveOutOfRange
        ∧ exec (.isErrorFragment r idx) s = .refused .primitiveOutOfRange
        ∧ ∀ other : Word, exec (.totalFrameLength r idx other) s = .refused .primitiveOutOfRange
          ∧ exec (.totalFrameLength r other idx) s = .refused .primitiveOutOfRange)
    ∧ (s.cfg.dTx ≤ idx.toNat → exec (.writeTxDesc b c idx buf len) s = .refused .primitiveOutOfRange)
    ∧ (s.cfg.dRx ≤ idx.toNat → exec (.writeRxDesc idx buf) s = .refused .primitiveOutOfRange)
    ∧ (idx.toNat < s.cfg.dTx → (s.txSlot idx.toNat).own = .dma →
      exec (.writeTxDesc b c idx buf len) s = .refused .primitivePrecondition)
    ∧ (idx.toNat < s.cfg.dRx → (s.rxSlot idx.toNat).own = .dma →
      exec (.writeRxDesc idx buf) s = .refused .primitivePrecondition)
    ∧ (s.mdio.busy = true → exec (.mdioTransaction b dev reg len) s = .refused .primitivePrecondition)
    ∧ (∀ (slot : BitVec 5) (addr : Mac), slot.toNat = 0 ∨ s.cfg.mcastCap < slot.toNat →
      exec (.writeMcastAddr slot b addr) s = .refused .primitiveOutOfRange)
    ∧ ∀ sp du : BitVec 2, 2 ≤ sp.toNat ∨ 2 ≤ du.toNat →
      exec (.setLinkConfig c sp du) s = .refused .primitiveOutOfRange

/-! Footprints and views. -/

/-- R205: which state each family may write, over all instructions. The Tx family writes the Tx ring, `txWire` and bits
0 and 2 of `irqStatus`; the Rx family the Rx ring, `rxErrorCount`, bits 1, 3, 4, 5, 6, 8, and memory in RXDMA_WRITE
only, and there in the buffer of the slot at `rxHw`; the filter family the MAC state but the gate, speed and duplex;
the MDIO family the MDIO state and `mdioOut`. `notify`, the port's words, the answers drawn, the model's list of races
(log 13) and its field for the port that waits for MDIO (log 24) aside, nothing else changes. The spec's own: what the
spec marks in R205 as derived or not in its source (92_eei_decisions.md). -/
def Obligations.FamilyFootprints : Prop :=
  ∀ (i : Instr) (s t : State), exec i s = .next t →
    ((i = .txReclaim ∨ i = .txdmaFetch ∨ i = .txdmaComplete ∨ i = .txdmaSuspend ∨ i = .txdmaBusError
        ∨ ∃ first last buf len, i = .txEnqueue first last buf len) →
      t = { s with
        tx := t.tx, irq := { s.irq with status := t.irq.status }, ports := t.ports
        out := { s.out with notify := t.out.notify, txWire := t.out.txWire }
        env := { s.env with races := t.env.races, drawn := t.env.drawn } }
      ∧ (t.irq.status ^^^ s.irq.status) &&& ~~~0x005#10 = 0#10 ∧ (i ≠ .txdmaComplete → t.env = s.env))
    ∧ ((i = .rxPoll ∨ i = .rxFrameArrive ∨ i = .rxdmaWrite ∨ i = .rxdmaSuspend ∨ i = .rxdmaBusError
        ∨ ∃ buf, i = .rxPrime buf) →
      t = { s with
        rx := t.rx, irq := { s.irq with status := t.irq.status }, ports := t.ports, mem := t.mem
        cnt := { s.cnt with rxError := t.cnt.rxError }, out := { s.out with notify := t.out.notify }
        env := { s.env with
          alloc := t.env.alloc, wire := t.env.wire, races := t.env.races, drawn := t.env.drawn } }
      ∧ (t.irq.status ^^^ s.irq.status) &&& ~~~0x17A#10 = 0#10
      ∧ (i ≠ .rxdmaWrite → t.mem = s.mem ∧ t.env.races = s.env.races)
      ∧ ∀ a : Word, s.cfg.rxBufSize ≤ (a - (s.rxSlot s.rx.hw).buf).toNat →
        memRead t.mem a.toNat = memRead s.mem a.toNat)
    ∧ ((i = .clearMcast ∨ (∃ a, i = .setOwnAddr a) ∨ (∃ a, i = .addMcast a) ∨ (∃ v, i = .setPam v)
        ∨ ∃ v, i = .setPromisc v) →
      t = { s with
        mac := { t.mac with macEn := s.mac.macEn, speed := s.mac.speed, duplex := s.mac.duplex }
        ports := t.ports })
    ∧ ((i = .mdioDone ∨ (∃ d r, i = .mdioRead d r) ∨ ∃ d r v, i = .mdioWrite d r v) →
      t = { s with
        mdio := t.mdio, ports := t.ports, out := { s.out with mdioOut := t.out.mdioOut }
        env := { s.env with phy := t.env.phy, drawn := t.env.drawn, mdioFor := t.env.mdioFor } })

/-- R50, R62, R82, R80: `CsrRead` returns to the context that asked the view of the CSR, exactly that once INIT has
run, and but for the fields of unspecified power-on value (R63) before, and changes nothing of the block; the byte and
word loads of the host return what the map holds at their address and change nothing either. That a load runs in every
state, during a hold and after the fatal latch too, and that an unaligned word is its four bytes, is the model's choice
(log 11, log 21). What an unspecified field and a buffer attached to the Rx ring read as is left open (R62, log 7; R89,
log 13). The spec's own: decisions D2, D7, D20, D26, D33 (92_eei_decisions.md). -/
def Obligations.CsrReadIsPure : Prop :=
  ∀ (s : State) (p : Issuer) (x : Stim) (n : Nat) (a : Word) (rest : List Stim), p ≠ .hw →
    s.env.inputs = x :: rest → (x = .csrRead p n ∨ x = .load p a ∨ x = .loadWord p a) →
    ∃ (v : Word) (t : State), step s = .next t
      ∧ t = { s with env := { s.env with inputs := rest, drawn := t.env.drawn }, ports := t.ports }
      ∧ (∀ q, q ≠ p → t.port q = s.port q) ∧ t.port p = { s.port p with rdata := v }
      ∧ (x = .csrRead p n → s.life ≠ .uninitialized → v = csrView s n)
      ∧ (x = .csrRead p n → s.life = .uninitialized →
        let unspecified : Word :=
          if n = 0 then 0x00040000#32
          else if n = 3 ∨ n = 4 ∨ n = 5 ∨ n = 10 ∨ n = 15 then 0#32
          else if n = 1 then 0x00000006#32
          else if n = 2 then 0x011F0303#32
          else if n ≤ 22 then 0xFFFFFFFF#32
          else if 32 ≤ n ∧ n < 34 + 2 * s.cfg.mcastCap then (if n % 2 = 1 then 0x8000FFFF#32 else 0xFFFFFFFF#32)
          else 0#32
        v &&& ~~~unspecified = csrView s n &&& ~~~unspecified ∧ ∃ d, v = csrValue s n d)
      ∧ (x = .load p a → regionOf s.cfg a = .memory → heldByRx s a = false →
        v = (memRead s.mem a.toNat).setWidth 32)
      ∧ (x = .load p a → ∃ d, v = (busByte s a d).setWidth 32)
      ∧ (x = .loadWord p a → ∃ d, v = busWord s a d)

/-- R51 to R61: the fields of the CSRs, as numbers: every bit a rule does not name reads as 0. The spec's own:
decisions D7, D20, D21 (92_eei_decisions.md). The spec's own: decisions D7, D20, D21 (92_eei_decisions.md). -/
def Obligations.CsrFields : Prop :=
  ∀ s : State,
    (csrView s 0).toNat =
        (match s.life with
          | .uninitialized => 0 | .initialized => 1 | .enabled => 2 | .disabled => 3 | .deinitialized => 4)
        + 2 ^ 8 * s.fatal.isSome.toNat + 2 ^ 9 * (s.fatal == some .rxBusError).toNat
        + 2 ^ 16 * s.irq.globalOn.toNat + 2 ^ 17 * s.mdio.busy.toNat + 2 ^ 18 * s.tx.openFrame.toNat
    ∧ (csrView s 1).toNat =
        s.mac.macEn.toNat + 2 * (s.mac.speed == .s100).toNat + 4 * (s.mac.duplex == .full).toNat
    ∧ (s.mac.mcast.length ≤ 31 → (csrView s 2).toNat =
        s.mac.pam.toNat + 2 * s.mac.promisc.toNat + 2 ^ 8 * s.mac.effPam.toNat + 2 ^ 9 * s.mac.effPau.toNat
          + 2 ^ 16 * s.mac.mcast.length + 2 ^ 24 * s.mac.ucast.isSome.toNat)
    ∧ ((∀ k, s.tx.inflight = some k → k ≤ 65535) → (csrView s 5).toNat =
        (match s.tx.dma with | .stopped => 0 | .idle => 1 | .active => 2)
          + 2 ^ 8 * s.tx.inflight.isSome.toNat + 2 ^ 16 * s.tx.inflight.getD 0)
    ∧ (csrView s 10).toNat =
        (match s.rx.dma with | .stopped => 0 | .idle => 1 | .active => 2) + 2 ^ 8 * s.rx.pending.isSome.toNat
    ∧ csrView s 3 = s.irq.status.setWidth 32 ∧ csrView s 4 = s.irq.enable.setWidth 32
    ∧ (s.tx.cursor < 2 ^ 16 → (csrView s 6).toNat = s.tx.cursor)
    ∧ (s.tx.head < 2 ^ 16 → (csrView s 7).toNat = s.tx.head)
    ∧ (s.tx.hw < 2 ^ 16 → (csrView s 8).toNat = s.tx.hw)
    ∧ (s.tx.free < 2 ^ 16 → (csrView s 9).toNat = s.tx.free)
    ∧ (s.rx.cursor < 2 ^ 16 → (csrView s 11).toNat = s.rx.cursor)
    ∧ (s.rx.prime < 2 ^ 16 → (csrView s 12).toNat = s.rx.prime)
    ∧ (s.rx.hw < 2 ^ 16 → (csrView s 13).toNat = s.rx.hw)
    ∧ (s.rx.unprimed < 2 ^ 16 → (csrView s 14).toNat = s.rx.unprimed)
    ∧ csrView s 16 = s.cnt.rxError ∧ csrView s 17 = s.cnt.rxOverrun ∧ csrView s 18 = s.cnt.crcError
    ∧ csrView s 19 = s.cnt.txUnderrun ∧ csrView s 20 = s.cnt.frameTooLong
    ∧ csrView s 21 = s.cnt.lateCollision ∧ csrView s 22 = s.cnt.alignError
    ∧ (∀ (k : Nat) (a : Mac), k ≤ s.cfg.mcastCap → s.mac.addrTab[k]? = some (some a) →
        (csrView s (32 + 2 * k)).toNat = a.toNat % 2 ^ 32
          ∧ (csrView s (33 + 2 * k)).toNat = a.toNat / 2 ^ 32 + 2 ^ 31)
    ∧ (∀ k : Nat, k ≤ s.cfg.mcastCap → s.mac.addrTab[k]? = some none →
        csrView s (32 + 2 * k) = 0#32 ∧ csrView s (33 + 2 * k) = 0#32)
    ∧ ∀ n : Nat, (n = 15 ∨ (23 ≤ n ∧ n ≤ 31) ∨ 34 + 2 * s.cfg.mcastCap ≤ n) → csrView s n = 0#32

/-- R73, R75, R78, R80, R84: the image of a slot of either ring in the memory map: four little-endian words at the
ring's base plus 16 times the slot's index, each read whole by a 32-bit access; and a CSR, where the platform maps them
clear of the slot arrays, is the word at its base plus 4 times its number. The spec's own: decisions D2, D3, D4, D7,
D25 (92_eei_decisions.md). -/
def Obligations.SlotImage : Prop :=
  (∀ (s : State) (r : Ring) (i k : Nat) (d : Word), s.cfg.wf = true → s.life ≠ .uninitialized →
    i < depth s.cfg r → k < 16 →
      let x := s.slot r i
      let base := (match r with | .tx => s.cfg.txDescBase | .rx => s.cfg.rxDescBase)
      let word : Nat := (match k / 4 with
        | 0 => 2 ^ 31 * (x.own == .dma).toNat + 2 ^ 30 * x.first.toNat + 2 ^ 29 * x.last.toNat + 2 ^ 28 * x.err.toNat
        | 1 => x.buf.toNat
        | 2 => x.len.toNat
        | _ => 0)
      (busByte s (base + BitVec.ofNat 32 (16 * i + k)) d).toNat = word / 2 ^ (8 * (k % 4)) % 256
        ∧ (k % 4 = 0 → (busWord s (base + BitVec.ofNat 32 (16 * i + k)) d).toNat = word))
    ∧ ∀ (s : State) (b : Word) (n : Nat) (d : Word), s.cfg.wf = true → s.life ≠ .uninitialized →
      s.cfg.csrBase = some b → meetsDescriptors s.cfg b 384 = false → n < 96 →
        busWord s (b + BitVec.ofNat 32 (4 * n)) d = csrView s n

/-! Invariants that every step keeps. -/

/-- Every step keeps the canonical form of memory; a byte store of the host to main memory is a step that writes that
byte and changes nothing else of the block: on a byte of a buffer whose slot an engine owns it also enters the model's
list of races, and on one of a filled Rx buffer it leaves the old byte or the new one (R89; log 13); a store to a slot
image or a mapped CSR is refused (R50; the name of the refusal is the model's, log 21). The spec's own: decisions D2,
D7 and what the spec marks in R89 as derived or not in its source (92_eei_decisions.md). -/
def Obligations.StepKeepsMemory : Prop :=
  (∀ s t : State, Memory.wf s.mem → step s = .next t → Memory.wf t.mem)
    ∧ (∀ (s : State) (p : Issuer) (a : Word) (v : Byte) (rest : List Stim), Memory.wf s.mem →
      s.env.inputs = .store p a v :: rest → regionOf s.cfg a = .memory →
        ∃ t : State, step s = .next t
          ∧ t = { s with
              mem := t.mem
              env := { s.env with inputs := rest, races := t.env.races, drawn := t.env.drawn } }
          ∧ (filledHolds s a = false → memRead t.mem a.toNat = v ∧ t.env.drawn = s.env.drawn)
          ∧ (memRead t.mem a.toNat = v ∨ memRead t.mem a.toNat = memRead s.mem a.toNat) ∧ (∀ b, b ≠ a.toNat → memRead t.mem b = memRead s.mem b)
          ∧ ((∀ r i, slotHolds s r i a = false) → t.env.races = s.env.races)
          ∧ (∀ i, i < s.cfg.dTx → slotHolds s .tx i a = true → ⟨.tx, i, a, memRead s.mem a.toNat⟩ ∈ t.env.races)
          ∧ ∀ i, i < s.cfg.dRx → slotHolds s .rx i a = true → ⟨.rx, i, a, memRead t.mem a.toNat⟩ ∈ t.env.races)
    ∧ ∀ (s : State) (p : Issuer) (a : Word) (v : Byte) (rest : List Stim),
      s.env.inputs = .store p a v :: rest → regionOf s.cfg a ≠ .memory → step s = .refused .storeToBlock

/-- R41, R45, R301, R178, R179: every step keeps the control invariants: who holds what, the interrupt unit on exactly
in the live states, the gate open exactly while enabled; between two steps no host operation is half done (log 10); no
step changes a parameter (R20). The spec's own: decisions D16, D17, D20 (92_eei_decisions.md). -/
def Obligations.StepKeepsControl : Prop :=
  ∀ s t : State, ControlInv s → step s = .next t → ControlInv t ∧ t.cfg = s.cfg

/-- R33 T1 to T4, R136: every step keeps the Tx ring invariant, from INIT on, with no queued buffer on a descriptor
array (R78). The spec's own: decision D25 and what the spec marks in R33, R136 as derived or not in its source
(92_eei_decisions.md). -/
def Obligations.StepKeepsTxRing : Prop :=
  ∀ s t : State, TxSafe s → step s = .next t → TxSafe t

/-- R33 X1 to X3, R150: every step keeps the Rx ring invariant, from INIT on, with no attached buffer on a descriptor
array (R78). The spec's own: decision D25 and what the spec marks in R33 as derived or not in its source
(92_eei_decisions.md). -/
def Obligations.StepKeepsRxRing : Prop :=
  ∀ s t : State, RxSafe s → step s = .next t → RxSafe t

/-- R41, R44, R45: every step keeps the combination rule of the filter flags and the address table equal to its
software copies, from INIT on. The spec's own: decision D13 (92_eei_decisions.md). -/
def Obligations.StepKeepsFilter : Prop :=
  ∀ s t : State, FilterSafe s → step s = .next t → FilterSafe t

/-- The invariants hold at reset. The spec's own: decision D26 and what the spec marks in R33 as derived or not in its
source (92_eei_decisions.md). -/
def Obligations.ResetInvariants : Prop :=
  Memory.wf State.reset.mem ∧ ControlInv State.reset ∧ TxSafe State.reset ∧ RxSafe State.reset ∧ FilterSafe State.reset

/-- R240, R353, R351: MDIO_DONE ends the transaction that runs; nothing but it, INIT and power-on ends one; and under
fairness, in a run in which what happens next is chosen afresh after each step, a transaction that no fatal fault stops
comes to its end. The form of runs and of fairness is the model's (log 20). The spec's own: decisions D23, D34 and the
decomposition, the names and the preconditions of the steps of the agents (head of 44_dma_agents.md, decisions D10,
D11, D12) (92_eei_decisions.md). -/
def Obligations.MdioEndsUnderFairness : Prop :=
  (∀ (s : State) (w : OpTuple) (rest : List Stim), s.env.inputs = .present .hw w :: rest →
    decode w = some .mdioDone → s.fatal = none → s.mdio.busy = true → ∃ t, step s = .next t ∧ t.mdio.busy = false)
  ∧ (∀ s t : State, step s = .next t → s.mdio.busy = true → t.mdio.busy = false →
    runsNext s = some .mdioDone ∨ runsNext s = some .init ∨ s.env.inputs.head? = some .powerOn)
  ∧ ∀ (run : Nat → State) (n : Nat), IsRun run → (run 0).cfg.fair = true → FairRun run →
    (∀ m, (run m).fatal = none) → (run n).mdio.busy = true → ∃ m, n ≤ m ∧ (run m).mdio.busy = false
end

