-- ==== Sys2Proof/Laws/Memory.lean ====
section
/-!
SUPPORT. Memory (20_memory.md R71, R72): every operation keeps the canonical form, a read after a write gives the value
written, and a write leaves every other address alone.
-/

namespace Sys2Proof.Machine

/-- An address below every listed one reads as unwritten. -/
theorem memRead_below (m : List Host.Cell) (a : Nat) (h : ∀ c ∈ m, a < c.1) : memRead m a = unwrittenByte := by
  induction m with
  | nil => rfl
  | cons c m ih =>
    have hc : a < c.1 := h c (by simp)
    have : c.1 ≠ a := by omega
    simp only [memRead, this, if_false]
    exact ih fun d hd => h d (by simp [hd])

/-- What a listed cell of the memory after a write is. -/
theorem mem_memWrite (m : List Host.Cell) (a : Nat) (v : Byte) (c : Host.Cell) (h : c ∈ memWrite m a v) :
    c ∈ m ∨ (c = (a, v) ∧ v ≠ unwrittenByte) := by
  induction m with
  | nil =>
    simp only [memWrite] at h
    split at h
    · simp at h
    · exact .inr ⟨by simpa using h, ‹_›⟩
  | cons d m ih =>
    simp only [memWrite] at h
    split at h
    · split at h
      · exact .inl h
      · rcases List.mem_cons.1 h with h | h
        · exact .inr ⟨h, ‹_›⟩
        · exact .inl h
    · split at h
      · split at h
        · exact .inl (List.mem_cons_of_mem _ h)
        · rcases List.mem_cons.1 h with h | h
          · exact .inr ⟨h, ‹_›⟩
          · exact .inl (List.mem_cons_of_mem _ h)
      · rcases List.mem_cons.1 h with h | h
        · exact .inl (h ▸ List.mem_cons_self)
        · rcases ih h with h | h
          · exact .inl (List.mem_cons_of_mem _ h)
          · exact .inr h

/-- A write keeps addresses rising. -/
theorem memWrite_sorted (m : List Host.Cell) (a : Nat) (v : Byte)
    (h : m.Pairwise fun x y => x.1 < y.1) : (memWrite m a v).Pairwise fun x y => x.1 < y.1 := by
  induction m with
  | nil =>
    simp only [memWrite]
    split <;> simp
  | cons d m ih =>
    obtain ⟨hd, hm⟩ := List.pairwise_cons.1 h
    simp only [memWrite]
    split
    · split
      · exact h
      · refine List.pairwise_cons.2 ⟨fun y hy => ?_, h⟩
        rcases List.mem_cons.1 hy with rfl | hy
        · assumption
        · exact Nat.lt_trans ‹_› (hd y hy)
    · split
      · split
        · exact hm
        · exact List.pairwise_cons.2 ⟨fun y hy => by have := hd y hy; simp_all, hm⟩
      · refine List.pairwise_cons.2 ⟨fun y hy => ?_, ih hm⟩
        rcases mem_memWrite m a v y hy with hy | ⟨rfl, -⟩
        · exact hd y hy
        · show d.1 < a
          omega

/-- A write keeps the canonical form. -/
theorem memWrite_wf (m : List Host.Cell) (a : Nat) (v : Byte) (h : Memory.wf m) (ha : a < 2 ^ 32) :
    Memory.wf (memWrite m a v) := by
  refine ⟨memWrite_sorted m a v h.1, fun c hc => ?_⟩
  rcases mem_memWrite m a v c hc with hc | ⟨rfl, hv⟩
  · exact h.2 c hc
  · exact ⟨ha, hv⟩

/-- A write leaves every other address alone. -/
theorem memRead_memWrite_other (m : List Host.Cell) (a b : Nat) (v : Byte) (hab : b ≠ a) :
    memRead (memWrite m a v) b = memRead m b := by
  induction m with
  | nil =>
    simp only [memWrite]
    split
    · rfl
    · simp [memRead, Ne.symm hab]
  | cons d m ih =>
    simp only [memWrite]
    split
    · split
      · rfl
      · simp [memRead, Ne.symm hab]
    · split
      · have : d.1 ≠ b := by omega
        split <;> simp [memRead, this, Ne.symm hab]
      · simp only [memRead, ih]

/-- A read after a write to the same address gives the value written. -/
theorem memRead_memWrite_same (m : List Host.Cell) (a : Nat) (v : Byte) (h : m.Pairwise fun x y => x.1 < y.1) :
    memRead (memWrite m a v) a = v := by
  induction m with
  | nil =>
    simp only [memWrite]
    split
    · simp_all [memRead]
    · simp [memRead]
  | cons d m ih =>
    obtain ⟨hd, hm⟩ := List.pairwise_cons.1 h
    simp only [memWrite]
    split
    · split
      · rw [memRead_below _ _ fun c hc => ?_]
        · exact Eq.symm ‹_›
        · rcases List.mem_cons.1 hc with rfl | hc
          · assumption
          · exact Nat.lt_trans ‹_› (hd c hc)
      · simp [memRead]
    · split
      · split
        · rw [memRead_below _ _ fun c hc => by have := hd c hc; omega]
          exact Eq.symm ‹_›
        · simp [memRead]
      · have : d.1 ≠ a := by omega
        simp only [memRead, this, if_false]
        exact ih hm

/-- A buffer write keeps the canonical form. -/
theorem writeBytes_wf (m : List Host.Cell) (addr : Word) (vs : List Byte) (h : Memory.wf m) :
    Memory.wf (writeBytes m addr vs) := by
  induction vs generalizing m addr with
  | nil => exact h
  | cons v vs ih => exact ih _ _ (memWrite_wf m addr.toNat v h (by have := addr.isLt; simpa using this))

/-- A buffer write leaves every address outside `[addr, addr + n)`, modulo 2^32, alone (20_memory.md R72). -/
theorem memRead_writeBytes_other (m : List Host.Cell) (addr b : Word) (vs : List Byte)
    (h : vs.length ≤ (b - addr).toNat) : memRead (writeBytes m addr vs) b.toNat = memRead m b.toNat := by
  induction vs generalizing m addr with
  | nil => rfl
  | cons v vs ih =>
    have hne : b ≠ addr := by
      rintro rfl
      simp at h
    have hsub : (b - (addr + 1#32)).toNat = (b - addr).toNat - 1 := by
      simp only [List.length_cons] at h
      bv_omega
    show memRead (writeBytes (memWrite m addr.toNat v) (addr + 1#32) vs) b.toNat = _
    rw [ih _ _ (by rw [hsub]; simp only [List.length_cons] at h; omega)]
    exact memRead_memWrite_other m _ _ v fun e => hne (BitVec.eq_of_toNat_eq e)

/-- Byte `k` of a buffer is the byte written there (20_memory.md R72, R76). -/
theorem memRead_writeBytes_same (m : List Host.Cell) (addr : Word) (vs : List Byte) (k : Nat) (hm : Memory.wf m)
    (hlen : vs.length ≤ 2 ^ 32) (hk : k < vs.length) :
    memRead (writeBytes m addr vs) (addr + BitVec.ofNat 32 k).toNat = vs[k] := by
  induction vs generalizing m addr k with
  | nil => simp at hk
  | cons v vs ih =>
    have hwf := memWrite_wf m addr.toNat v hm (by have := addr.isLt; simpa using this)
    show memRead (writeBytes (memWrite m addr.toNat v) (addr + 1#32) vs) _ = _
    simp only [List.length_cons] at hlen hk
    cases k with
    | zero =>
      have : (addr + BitVec.ofNat 32 0) = addr := by simp
      rw [this, memRead_writeBytes_other _ _ _ _ (by bv_omega)]
      simpa using memRead_memWrite_same m addr.toNat v hm.1
    | succ k =>
      have : addr + BitVec.ofNat 32 (k + 1) = addr + 1#32 + BitVec.ofNat 32 k := by
        rw [BitVec.add_assoc]
        congr 1
        rw [Nat.add_comm]
        exact BitVec.ofNat_add ..
      rw [this]
      exact ih _ _ k hwf (by omega) (by omega)

@[simp] theorem readBytes_length (m : List Host.Cell) (addr : Word) (n : Nat) : (readBytes m addr n).length = n := by
  induction n generalizing addr with
  | zero => rfl
  | succ n ih => simp [readBytes, ih]

/-- Byte `k` of a buffer read (20_memory.md R72). -/
theorem readBytes_getElem (m : List Host.Cell) (addr : Word) (n k : Nat) (h : k < (readBytes m addr n).length) :
    (readBytes m addr n)[k] = memRead m (addr + BitVec.ofNat 32 k).toNat := by
  induction n generalizing addr k with
  | zero => simp [readBytes] at h
  | succ n ih =>
    cases k with
    | zero => simp [readBytes]
    | succ k =>
      have : addr + BitVec.ofNat 32 (k + 1) = addr + 1#32 + BitVec.ofNat 32 k := by
        rw [BitVec.add_assoc]
        congr 1
        rw [Nat.add_comm]
        exact BitVec.ofNat_add ..
      rw [this]
      exact ih _ k (by simpa [readBytes] using h)

/-- Memory at reset is in canonical form. -/
theorem reset_memory_wf (c : Params) : Memory.wf (State.resetWith c).mem :=
  ⟨List.Pairwise.nil, fun _ h => nomatch h⟩

end Sys2Proof.Machine
end

