-- ==== Sys2Proof/Laws/State.lean ====
section
/-!
SUPPORT. The update lemmas of the state: one lemma for each field and each named update. Where an update is a plain
record update every lemma is true by rfl; where it branches, the lemma says which fields it leaves alone.
-/

namespace Sys2Proof.Machine

/-! Ports -/

@[simp] theorem setPort_cfg (s : State) (p : Issuer) (r : PortRegs) :
    (s.setPort p r).cfg = s.cfg := by cases p <;> rfl
@[simp] theorem setPort_life (s : State) (p : Issuer) (r : PortRegs) :
    (s.setPort p r).life = s.life := by cases p <;> rfl
@[simp] theorem setPort_fatal (s : State) (p : Issuer) (r : PortRegs) :
    (s.setPort p r).fatal = s.fatal := by cases p <;> rfl
@[simp] theorem setPort_tx (s : State) (p : Issuer) (r : PortRegs) :
    (s.setPort p r).tx = s.tx := by cases p <;> rfl
@[simp] theorem setPort_rx (s : State) (p : Issuer) (r : PortRegs) :
    (s.setPort p r).rx = s.rx := by cases p <;> rfl
@[simp] theorem setPort_mac (s : State) (p : Issuer) (r : PortRegs) :
    (s.setPort p r).mac = s.mac := by cases p <;> rfl
@[simp] theorem setPort_mdio (s : State) (p : Issuer) (r : PortRegs) :
    (s.setPort p r).mdio = s.mdio := by cases p <;> rfl
@[simp] theorem setPort_irq (s : State) (p : Issuer) (r : PortRegs) :
    (s.setPort p r).irq = s.irq := by cases p <;> rfl
@[simp] theorem setPort_cnt (s : State) (p : Issuer) (r : PortRegs) :
    (s.setPort p r).cnt = s.cnt := by cases p <;> rfl
@[simp] theorem setPort_out (s : State) (p : Issuer) (r : PortRegs) :
    (s.setPort p r).out = s.out := by cases p <;> rfl
@[simp] theorem setPort_mem (s : State) (p : Issuer) (r : PortRegs) :
    (s.setPort p r).mem = s.mem := by cases p <;> rfl
@[simp] theorem setPort_env (s : State) (p : Issuer) (r : PortRegs) :
    (s.setPort p r).env = s.env := by cases p <;> rfl

@[simp] theorem setPort_port_same (s : State) (p : Issuer) (r : PortRegs) (h : p ≠ .hw) :
    (s.setPort p r).port p = r := by cases p <;> first | rfl | exact absurd rfl h
@[simp] theorem setPort_port_other (s : State) (p q : Issuer) (r : PortRegs) (h : q ≠ p) :
    (s.setPort p r).port q = s.port q := by cases p <;> cases q <;> first | rfl | exact absurd rfl h

@[simp] theorem answer_cfg (s : State) (res val : Word) :
    (s.answer res val).cfg = s.cfg := by simp [State.answer]
@[simp] theorem answer_life (s : State) (res val : Word) :
    (s.answer res val).life = s.life := by simp [State.answer]
@[simp] theorem answer_fatal (s : State) (res val : Word) :
    (s.answer res val).fatal = s.fatal := by simp [State.answer]
@[simp] theorem answer_tx (s : State) (res val : Word) : (s.answer res val).tx = s.tx := by simp [State.answer]
@[simp] theorem answer_rx (s : State) (res val : Word) : (s.answer res val).rx = s.rx := by simp [State.answer]
@[simp] theorem answer_mac (s : State) (res val : Word) :
    (s.answer res val).mac = s.mac := by simp [State.answer]
@[simp] theorem answer_mdio (s : State) (res val : Word) :
    (s.answer res val).mdio = s.mdio := by simp [State.answer]
@[simp] theorem answer_irq (s : State) (res val : Word) :
    (s.answer res val).irq = s.irq := by simp [State.answer]
@[simp] theorem answer_cnt (s : State) (res val : Word) :
    (s.answer res val).cnt = s.cnt := by simp [State.answer]
@[simp] theorem answer_out (s : State) (res val : Word) :
    (s.answer res val).out = s.out := by simp [State.answer]
@[simp] theorem answer_mem (s : State) (res val : Word) :
    (s.answer res val).mem = s.mem := by simp [State.answer]
@[simp] theorem answer_env (s : State) (res val : Word) :
    (s.answer res val).env = s.env := by simp [State.answer]

@[simp] theorem hold_cfg (s : State) (h : Held) : (s.hold h).cfg = s.cfg := by simp [State.hold]
@[simp] theorem hold_life (s : State) (h : Held) : (s.hold h).life = s.life := by simp [State.hold]
@[simp] theorem hold_fatal (s : State) (h : Held) : (s.hold h).fatal = s.fatal := by simp [State.hold]
@[simp] theorem hold_tx (s : State) (h : Held) : (s.hold h).tx = s.tx := by simp [State.hold]
@[simp] theorem hold_rx (s : State) (h : Held) : (s.hold h).rx = s.rx := by simp [State.hold]
@[simp] theorem hold_mac (s : State) (h : Held) : (s.hold h).mac = s.mac := by simp [State.hold]
@[simp] theorem hold_mdio (s : State) (h : Held) : (s.hold h).mdio = s.mdio := by simp [State.hold]
@[simp] theorem hold_irq (s : State) (h : Held) : (s.hold h).irq = s.irq := by simp [State.hold]
@[simp] theorem hold_cnt (s : State) (h : Held) : (s.hold h).cnt = s.cnt := by simp [State.hold]
@[simp] theorem hold_out (s : State) (h : Held) : (s.hold h).out = s.out := by simp [State.hold]
@[simp] theorem hold_mem (s : State) (h : Held) : (s.hold h).mem = s.mem := by simp [State.hold]
@[simp] theorem hold_env (s : State) (h : Held) : (s.hold h).env = s.env := by simp [State.hold]

@[simp] theorem latch_cfg (s : State) (p : Issuer) (t : OpTuple) :
    (s.latch p t).cfg = s.cfg := by cases p <;> rfl
@[simp] theorem latch_life (s : State) (p : Issuer) (t : OpTuple) :
    (s.latch p t).life = s.life := by cases p <;> rfl
@[simp] theorem latch_fatal (s : State) (p : Issuer) (t : OpTuple) :
    (s.latch p t).fatal = s.fatal := by cases p <;> rfl
@[simp] theorem latch_tx (s : State) (p : Issuer) (t : OpTuple) : (s.latch p t).tx = s.tx := by cases p <;> rfl
@[simp] theorem latch_rx (s : State) (p : Issuer) (t : OpTuple) : (s.latch p t).rx = s.rx := by cases p <;> rfl
@[simp] theorem latch_mac (s : State) (p : Issuer) (t : OpTuple) :
    (s.latch p t).mac = s.mac := by cases p <;> rfl
@[simp] theorem latch_mdio (s : State) (p : Issuer) (t : OpTuple) :
    (s.latch p t).mdio = s.mdio := by cases p <;> rfl
@[simp] theorem latch_irq (s : State) (p : Issuer) (t : OpTuple) :
    (s.latch p t).irq = s.irq := by cases p <;> rfl
@[simp] theorem latch_cnt (s : State) (p : Issuer) (t : OpTuple) :
    (s.latch p t).cnt = s.cnt := by cases p <;> rfl
@[simp] theorem latch_out (s : State) (p : Issuer) (t : OpTuple) :
    (s.latch p t).out = s.out := by cases p <;> rfl
@[simp] theorem latch_mem (s : State) (p : Issuer) (t : OpTuple) :
    (s.latch p t).mem = s.mem := by cases p <;> rfl
@[simp] theorem latch_env (s : State) (p : Issuer) (t : OpTuple) :
    (s.latch p t).env = { s.env with issuer := p } := by cases p <;> rfl

@[simp] theorem setRdata_cfg (s : State) (p : Issuer) (v : Word) :
    (s.setRdata p v).cfg = s.cfg := by simp [State.setRdata]
@[simp] theorem setRdata_life (s : State) (p : Issuer) (v : Word) :
    (s.setRdata p v).life = s.life := by simp [State.setRdata]
@[simp] theorem setRdata_fatal (s : State) (p : Issuer) (v : Word) :
    (s.setRdata p v).fatal = s.fatal := by simp [State.setRdata]
@[simp] theorem setRdata_tx (s : State) (p : Issuer) (v : Word) :
    (s.setRdata p v).tx = s.tx := by simp [State.setRdata]
@[simp] theorem setRdata_rx (s : State) (p : Issuer) (v : Word) :
    (s.setRdata p v).rx = s.rx := by simp [State.setRdata]
@[simp] theorem setRdata_mac (s : State) (p : Issuer) (v : Word) :
    (s.setRdata p v).mac = s.mac := by simp [State.setRdata]
@[simp] theorem setRdata_mdio (s : State) (p : Issuer) (v : Word) :
    (s.setRdata p v).mdio = s.mdio := by simp [State.setRdata]
@[simp] theorem setRdata_irq (s : State) (p : Issuer) (v : Word) :
    (s.setRdata p v).irq = s.irq := by simp [State.setRdata]
@[simp] theorem setRdata_cnt (s : State) (p : Issuer) (v : Word) :
    (s.setRdata p v).cnt = s.cnt := by simp [State.setRdata]
@[simp] theorem setRdata_out (s : State) (p : Issuer) (v : Word) :
    (s.setRdata p v).out = s.out := by simp [State.setRdata]
@[simp] theorem setRdata_mem (s : State) (p : Issuer) (v : Word) :
    (s.setRdata p v).mem = s.mem := by simp [State.setRdata]
@[simp] theorem setRdata_env (s : State) (p : Issuer) (v : Word) :
    (s.setRdata p v).env = s.env := by simp [State.setRdata]

@[simp] theorem drew_cfg (s : State) : (s.drew).cfg = s.cfg := rfl
@[simp] theorem drew_life (s : State) : (s.drew).life = s.life := rfl
@[simp] theorem drew_fatal (s : State) : (s.drew).fatal = s.fatal := rfl
@[simp] theorem drew_tx (s : State) : (s.drew).tx = s.tx := rfl
@[simp] theorem drew_rx (s : State) : (s.drew).rx = s.rx := rfl
@[simp] theorem drew_mac (s : State) : (s.drew).mac = s.mac := rfl
@[simp] theorem drew_mdio (s : State) : (s.drew).mdio = s.mdio := rfl
@[simp] theorem drew_irq (s : State) : (s.drew).irq = s.irq := rfl
@[simp] theorem drew_cnt (s : State) : (s.drew).cnt = s.cnt := rfl
@[simp] theorem drew_out (s : State) : (s.drew).out = s.out := rfl
@[simp] theorem drew_mem (s : State) : (s.drew).mem = s.mem := rfl
@[simp] theorem drew_ports (s : State) : (s.drew).ports = s.ports := rfl
@[simp] theorem drew_env (s : State) : (s.drew).env = { s.env with drawn := s.env.drawn + 1 } := rfl

@[simp] theorem dropInput_cfg (s : State) : (s.dropInput).cfg = s.cfg := rfl
@[simp] theorem dropInput_life (s : State) : (s.dropInput).life = s.life := rfl
@[simp] theorem dropInput_fatal (s : State) : (s.dropInput).fatal = s.fatal := rfl
@[simp] theorem dropInput_tx (s : State) : (s.dropInput).tx = s.tx := rfl
@[simp] theorem dropInput_rx (s : State) : (s.dropInput).rx = s.rx := rfl
@[simp] theorem dropInput_mac (s : State) : (s.dropInput).mac = s.mac := rfl
@[simp] theorem dropInput_mdio (s : State) : (s.dropInput).mdio = s.mdio := rfl
@[simp] theorem dropInput_irq (s : State) : (s.dropInput).irq = s.irq := rfl
@[simp] theorem dropInput_cnt (s : State) : (s.dropInput).cnt = s.cnt := rfl
@[simp] theorem dropInput_out (s : State) : (s.dropInput).out = s.out := rfl
@[simp] theorem dropInput_mem (s : State) : (s.dropInput).mem = s.mem := rfl
@[simp] theorem dropInput_ports (s : State) : (s.dropInput).ports = s.ports := rfl
@[simp] theorem dropInput_env (s : State) :
    (s.dropInput).env = { s.env with inputs := s.env.inputs.drop 1 } := rfl

/-! Slots -/

@[simp] theorem setTxSlot_cfg (s : State) (i : Nat) (x : Slot) : (s.setTxSlot i x).cfg = s.cfg := rfl
@[simp] theorem setTxSlot_life (s : State) (i : Nat) (x : Slot) : (s.setTxSlot i x).life = s.life := rfl
@[simp] theorem setTxSlot_fatal (s : State) (i : Nat) (x : Slot) : (s.setTxSlot i x).fatal = s.fatal := rfl
@[simp] theorem setTxSlot_tx (s : State) (i : Nat) (x : Slot) :
    (s.setTxSlot i x).tx = { s.tx with slots := s.tx.slots.set i x } := rfl
@[simp] theorem setTxSlot_rx (s : State) (i : Nat) (x : Slot) : (s.setTxSlot i x).rx = s.rx := rfl
@[simp] theorem setTxSlot_mac (s : State) (i : Nat) (x : Slot) : (s.setTxSlot i x).mac = s.mac := rfl
@[simp] theorem setTxSlot_mdio (s : State) (i : Nat) (x : Slot) : (s.setTxSlot i x).mdio = s.mdio := rfl
@[simp] theorem setTxSlot_irq (s : State) (i : Nat) (x : Slot) : (s.setTxSlot i x).irq = s.irq := rfl
@[simp] theorem setTxSlot_cnt (s : State) (i : Nat) (x : Slot) : (s.setTxSlot i x).cnt = s.cnt := rfl
@[simp] theorem setTxSlot_out (s : State) (i : Nat) (x : Slot) : (s.setTxSlot i x).out = s.out := rfl
@[simp] theorem setTxSlot_mem (s : State) (i : Nat) (x : Slot) : (s.setTxSlot i x).mem = s.mem := rfl
@[simp] theorem setTxSlot_ports (s : State) (i : Nat) (x : Slot) : (s.setTxSlot i x).ports = s.ports := rfl
@[simp] theorem setTxSlot_env (s : State) (i : Nat) (x : Slot) : (s.setTxSlot i x).env = s.env := rfl

@[simp] theorem setRxSlot_cfg (s : State) (i : Nat) (x : Slot) : (s.setRxSlot i x).cfg = s.cfg := rfl
@[simp] theorem setRxSlot_life (s : State) (i : Nat) (x : Slot) : (s.setRxSlot i x).life = s.life := rfl
@[simp] theorem setRxSlot_fatal (s : State) (i : Nat) (x : Slot) : (s.setRxSlot i x).fatal = s.fatal := rfl
@[simp] theorem setRxSlot_tx (s : State) (i : Nat) (x : Slot) : (s.setRxSlot i x).tx = s.tx := rfl
@[simp] theorem setRxSlot_rx (s : State) (i : Nat) (x : Slot) :
    (s.setRxSlot i x).rx = { s.rx with slots := s.rx.slots.set i x } := rfl
@[simp] theorem setRxSlot_mac (s : State) (i : Nat) (x : Slot) : (s.setRxSlot i x).mac = s.mac := rfl
@[simp] theorem setRxSlot_mdio (s : State) (i : Nat) (x : Slot) : (s.setRxSlot i x).mdio = s.mdio := rfl
@[simp] theorem setRxSlot_irq (s : State) (i : Nat) (x : Slot) : (s.setRxSlot i x).irq = s.irq := rfl
@[simp] theorem setRxSlot_cnt (s : State) (i : Nat) (x : Slot) : (s.setRxSlot i x).cnt = s.cnt := rfl
@[simp] theorem setRxSlot_out (s : State) (i : Nat) (x : Slot) : (s.setRxSlot i x).out = s.out := rfl
@[simp] theorem setRxSlot_mem (s : State) (i : Nat) (x : Slot) : (s.setRxSlot i x).mem = s.mem := rfl
@[simp] theorem setRxSlot_ports (s : State) (i : Nat) (x : Slot) : (s.setRxSlot i x).ports = s.ports := rfl
@[simp] theorem setRxSlot_env (s : State) (i : Nat) (x : Slot) : (s.setRxSlot i x).env = s.env := rfl

/-! Primitives (45_backend_primitives.md) -/

@[simp] theorem startDMA_tx_cfg (s : State) : (startDMA .tx s).cfg = s.cfg := rfl
@[simp] theorem startDMA_tx_life (s : State) : (startDMA .tx s).life = s.life := rfl
@[simp] theorem startDMA_tx_fatal (s : State) : (startDMA .tx s).fatal = s.fatal := rfl
@[simp] theorem startDMA_tx_tx (s : State) : (startDMA .tx s).tx = { s.tx with dma := .active } := rfl
@[simp] theorem startDMA_tx_rx (s : State) : (startDMA .tx s).rx = s.rx := rfl
@[simp] theorem startDMA_tx_mac (s : State) : (startDMA .tx s).mac = s.mac := rfl
@[simp] theorem startDMA_tx_mdio (s : State) : (startDMA .tx s).mdio = s.mdio := rfl
@[simp] theorem startDMA_tx_irq (s : State) : (startDMA .tx s).irq = s.irq := rfl
@[simp] theorem startDMA_tx_cnt (s : State) : (startDMA .tx s).cnt = s.cnt := rfl
@[simp] theorem startDMA_tx_out (s : State) : (startDMA .tx s).out = s.out := rfl
@[simp] theorem startDMA_tx_mem (s : State) : (startDMA .tx s).mem = s.mem := rfl
@[simp] theorem startDMA_tx_ports (s : State) : (startDMA .tx s).ports = s.ports := rfl
@[simp] theorem startDMA_tx_env (s : State) : (startDMA .tx s).env = s.env := rfl

@[simp] theorem startDMA_rx_cfg (s : State) : (startDMA .rx s).cfg = s.cfg := rfl
@[simp] theorem startDMA_rx_life (s : State) : (startDMA .rx s).life = s.life := rfl
@[simp] theorem startDMA_rx_fatal (s : State) : (startDMA .rx s).fatal = s.fatal := rfl
@[simp] theorem startDMA_rx_tx (s : State) : (startDMA .rx s).tx = s.tx := rfl
@[simp] theorem startDMA_rx_rx (s : State) : (startDMA .rx s).rx = { s.rx with dma := .active } := rfl
@[simp] theorem startDMA_rx_mac (s : State) : (startDMA .rx s).mac = s.mac := rfl
@[simp] theorem startDMA_rx_mdio (s : State) : (startDMA .rx s).mdio = s.mdio := rfl
@[simp] theorem startDMA_rx_irq (s : State) : (startDMA .rx s).irq = s.irq := rfl
@[simp] theorem startDMA_rx_cnt (s : State) : (startDMA .rx s).cnt = s.cnt := rfl
@[simp] theorem startDMA_rx_out (s : State) : (startDMA .rx s).out = s.out := rfl
@[simp] theorem startDMA_rx_mem (s : State) : (startDMA .rx s).mem = s.mem := rfl
@[simp] theorem startDMA_rx_ports (s : State) : (startDMA .rx s).ports = s.ports := rfl
@[simp] theorem startDMA_rx_env (s : State) : (startDMA .rx s).env = s.env := rfl

@[simp] theorem stopDMA_tx_cfg (s : State) : (stopDMA .tx s).cfg = s.cfg := rfl
@[simp] theorem stopDMA_tx_life (s : State) : (stopDMA .tx s).life = s.life := rfl
@[simp] theorem stopDMA_tx_fatal (s : State) : (stopDMA .tx s).fatal = s.fatal := rfl
@[simp] theorem stopDMA_tx_tx (s : State) : (stopDMA .tx s).tx = { s.tx with dma := .stopped } := rfl
@[simp] theorem stopDMA_tx_rx (s : State) : (stopDMA .tx s).rx = s.rx := rfl
@[simp] theorem stopDMA_tx_mac (s : State) : (stopDMA .tx s).mac = s.mac := rfl
@[simp] theorem stopDMA_tx_mdio (s : State) : (stopDMA .tx s).mdio = s.mdio := rfl
@[simp] theorem stopDMA_tx_irq (s : State) : (stopDMA .tx s).irq = s.irq := rfl
@[simp] theorem stopDMA_tx_cnt (s : State) : (stopDMA .tx s).cnt = s.cnt := rfl
@[simp] theorem stopDMA_tx_out (s : State) : (stopDMA .tx s).out = s.out := rfl
@[simp] theorem stopDMA_tx_mem (s : State) : (stopDMA .tx s).mem = s.mem := rfl
@[simp] theorem stopDMA_tx_ports (s : State) : (stopDMA .tx s).ports = s.ports := rfl
@[simp] theorem stopDMA_tx_env (s : State) : (stopDMA .tx s).env = s.env := rfl

@[simp] theorem stopDMA_rx_cfg (s : State) : (stopDMA .rx s).cfg = s.cfg := rfl
@[simp] theorem stopDMA_rx_life (s : State) : (stopDMA .rx s).life = s.life := rfl
@[simp] theorem stopDMA_rx_fatal (s : State) : (stopDMA .rx s).fatal = s.fatal := rfl
@[simp] theorem stopDMA_rx_tx (s : State) : (stopDMA .rx s).tx = s.tx := rfl
@[simp] theorem stopDMA_rx_rx (s : State) : (stopDMA .rx s).rx = { s.rx with dma := .stopped } := rfl
@[simp] theorem stopDMA_rx_mac (s : State) : (stopDMA .rx s).mac = s.mac := rfl
@[simp] theorem stopDMA_rx_mdio (s : State) : (stopDMA .rx s).mdio = s.mdio := rfl
@[simp] theorem stopDMA_rx_irq (s : State) : (stopDMA .rx s).irq = s.irq := rfl
@[simp] theorem stopDMA_rx_cnt (s : State) : (stopDMA .rx s).cnt = s.cnt := rfl
@[simp] theorem stopDMA_rx_out (s : State) : (stopDMA .rx s).out = s.out := rfl
@[simp] theorem stopDMA_rx_mem (s : State) : (stopDMA .rx s).mem = s.mem := rfl
@[simp] theorem stopDMA_rx_ports (s : State) : (stopDMA .rx s).ports = s.ports := rfl
@[simp] theorem stopDMA_rx_env (s : State) : (stopDMA .rx s).env = s.env := rfl

@[simp] theorem writeTxDescriptor_cfg (i : Nat) (b : Word) (l : Half) (f g : Bool) (s : State) :
    (writeTxDescriptor i b l f g s).cfg = s.cfg := rfl
@[simp] theorem writeTxDescriptor_life (i : Nat) (b : Word) (l : Half) (f g : Bool) (s : State) :
    (writeTxDescriptor i b l f g s).life = s.life := rfl
@[simp] theorem writeTxDescriptor_fatal (i : Nat) (b : Word) (l : Half) (f g : Bool) (s : State) :
    (writeTxDescriptor i b l f g s).fatal = s.fatal := rfl
@[simp] theorem writeTxDescriptor_tx (i : Nat) (b : Word) (l : Half) (f g : Bool) (s : State) :
    (writeTxDescriptor i b l f g s).tx = { s.tx with slots := s.tx.slots.set i ⟨.dma, b, l, f, g, false⟩ } := rfl
@[simp] theorem writeTxDescriptor_rx (i : Nat) (b : Word) (l : Half) (f g : Bool) (s : State) :
    (writeTxDescriptor i b l f g s).rx = s.rx := rfl
@[simp] theorem writeTxDescriptor_mac (i : Nat) (b : Word) (l : Half) (f g : Bool) (s : State) :
    (writeTxDescriptor i b l f g s).mac = s.mac := rfl
@[simp] theorem writeTxDescriptor_mdio (i : Nat) (b : Word) (l : Half) (f g : Bool) (s : State) :
    (writeTxDescriptor i b l f g s).mdio = s.mdio := rfl
@[simp] theorem writeTxDescriptor_irq (i : Nat) (b : Word) (l : Half) (f g : Bool) (s : State) :
    (writeTxDescriptor i b l f g s).irq = s.irq := rfl
@[simp] theorem writeTxDescriptor_cnt (i : Nat) (b : Word) (l : Half) (f g : Bool) (s : State) :
    (writeTxDescriptor i b l f g s).cnt = s.cnt := rfl
@[simp] theorem writeTxDescriptor_out (i : Nat) (b : Word) (l : Half) (f g : Bool) (s : State) :
    (writeTxDescriptor i b l f g s).out = s.out := rfl
@[simp] theorem writeTxDescriptor_mem (i : Nat) (b : Word) (l : Half) (f g : Bool) (s : State) :
    (writeTxDescriptor i b l f g s).mem = s.mem := rfl
@[simp] theorem writeTxDescriptor_ports (i : Nat) (b : Word) (l : Half) (f g : Bool) (s : State) :
    (writeTxDescriptor i b l f g s).ports = s.ports := rfl
@[simp] theorem writeTxDescriptor_env (i : Nat) (b : Word) (l : Half) (f g : Bool) (s : State) :
    (writeTxDescriptor i b l f g s).env = s.env := rfl

@[simp] theorem writeRxDescriptor_cfg (i : Nat) (b : Word) (s : State) :
    (writeRxDescriptor i b s).cfg = s.cfg := rfl
@[simp] theorem writeRxDescriptor_life (i : Nat) (b : Word) (s : State) :
    (writeRxDescriptor i b s).life = s.life := rfl
@[simp] theorem writeRxDescriptor_fatal (i : Nat) (b : Word) (s : State) :
    (writeRxDescriptor i b s).fatal = s.fatal := rfl
@[simp] theorem writeRxDescriptor_tx (i : Nat) (b : Word) (s : State) :
    (writeRxDescriptor i b s).tx = s.tx := rfl
@[simp] theorem writeRxDescriptor_rx (i : Nat) (b : Word) (s : State) :
    (writeRxDescriptor i b s).rx = { s.rx with
        slots := s.rx.slots.set i ⟨.dma, b, 0#16, false, false, false⟩ } := rfl
@[simp] theorem writeRxDescriptor_mac (i : Nat) (b : Word) (s : State) :
    (writeRxDescriptor i b s).mac = s.mac := rfl
@[simp] theorem writeRxDescriptor_mdio (i : Nat) (b : Word) (s : State) :
    (writeRxDescriptor i b s).mdio = s.mdio := rfl
@[simp] theorem writeRxDescriptor_irq (i : Nat) (b : Word) (s : State) :
    (writeRxDescriptor i b s).irq = s.irq := rfl
@[simp] theorem writeRxDescriptor_cnt (i : Nat) (b : Word) (s : State) :
    (writeRxDescriptor i b s).cnt = s.cnt := rfl
@[simp] theorem writeRxDescriptor_out (i : Nat) (b : Word) (s : State) :
    (writeRxDescriptor i b s).out = s.out := rfl
@[simp] theorem writeRxDescriptor_mem (i : Nat) (b : Word) (s : State) :
    (writeRxDescriptor i b s).mem = s.mem := rfl
@[simp] theorem writeRxDescriptor_ports (i : Nat) (b : Word) (s : State) :
    (writeRxDescriptor i b s).ports = s.ports := rfl
@[simp] theorem writeRxDescriptor_env (i : Nat) (b : Word) (s : State) :
    (writeRxDescriptor i b s).env = s.env := rfl

@[simp] theorem writeUnicastAddress_cfg (a : Mac) (s : State) : (writeUnicastAddress a s).cfg = s.cfg := rfl
@[simp] theorem writeUnicastAddress_life (a : Mac) (s : State) : (writeUnicastAddress a s).life = s.life := rfl
@[simp] theorem writeUnicastAddress_fatal (a : Mac) (s : State) :
    (writeUnicastAddress a s).fatal = s.fatal := rfl
@[simp] theorem writeUnicastAddress_tx (a : Mac) (s : State) : (writeUnicastAddress a s).tx = s.tx := rfl
@[simp] theorem writeUnicastAddress_rx (a : Mac) (s : State) : (writeUnicastAddress a s).rx = s.rx := rfl
@[simp] theorem writeUnicastAddress_mac (a : Mac) (s : State) :
    (writeUnicastAddress a s).mac = { s.mac with addrTab := s.mac.addrTab.set 0 (some a) } := rfl
@[simp] theorem writeUnicastAddress_mdio (a : Mac) (s : State) : (writeUnicastAddress a s).mdio = s.mdio := rfl
@[simp] theorem writeUnicastAddress_irq (a : Mac) (s : State) : (writeUnicastAddress a s).irq = s.irq := rfl
@[simp] theorem writeUnicastAddress_cnt (a : Mac) (s : State) : (writeUnicastAddress a s).cnt = s.cnt := rfl
@[simp] theorem writeUnicastAddress_out (a : Mac) (s : State) : (writeUnicastAddress a s).out = s.out := rfl
@[simp] theorem writeUnicastAddress_mem (a : Mac) (s : State) : (writeUnicastAddress a s).mem = s.mem := rfl
@[simp] theorem writeUnicastAddress_ports (a : Mac) (s : State) :
    (writeUnicastAddress a s).ports = s.ports := rfl
@[simp] theorem writeUnicastAddress_env (a : Mac) (s : State) : (writeUnicastAddress a s).env = s.env := rfl

@[simp] theorem writeMulticastAddress_cfg (k : Nat) (a : Option Mac) (s : State) :
    (writeMulticastAddress k a s).cfg = s.cfg := rfl
@[simp] theorem writeMulticastAddress_life (k : Nat) (a : Option Mac) (s : State) :
    (writeMulticastAddress k a s).life = s.life := rfl
@[simp] theorem writeMulticastAddress_fatal (k : Nat) (a : Option Mac) (s : State) :
    (writeMulticastAddress k a s).fatal = s.fatal := rfl
@[simp] theorem writeMulticastAddress_tx (k : Nat) (a : Option Mac) (s : State) :
    (writeMulticastAddress k a s).tx = s.tx := rfl
@[simp] theorem writeMulticastAddress_rx (k : Nat) (a : Option Mac) (s : State) :
    (writeMulticastAddress k a s).rx = s.rx := rfl
@[simp] theorem writeMulticastAddress_mac (k : Nat) (a : Option Mac) (s : State) :
    (writeMulticastAddress k a s).mac = { s.mac with addrTab := s.mac.addrTab.set k a } := rfl
@[simp] theorem writeMulticastAddress_mdio (k : Nat) (a : Option Mac) (s : State) :
    (writeMulticastAddress k a s).mdio = s.mdio := rfl
@[simp] theorem writeMulticastAddress_irq (k : Nat) (a : Option Mac) (s : State) :
    (writeMulticastAddress k a s).irq = s.irq := rfl
@[simp] theorem writeMulticastAddress_cnt (k : Nat) (a : Option Mac) (s : State) :
    (writeMulticastAddress k a s).cnt = s.cnt := rfl
@[simp] theorem writeMulticastAddress_out (k : Nat) (a : Option Mac) (s : State) :
    (writeMulticastAddress k a s).out = s.out := rfl
@[simp] theorem writeMulticastAddress_mem (k : Nat) (a : Option Mac) (s : State) :
    (writeMulticastAddress k a s).mem = s.mem := rfl
@[simp] theorem writeMulticastAddress_ports (k : Nat) (a : Option Mac) (s : State) :
    (writeMulticastAddress k a s).ports = s.ports := rfl
@[simp] theorem writeMulticastAddress_env (k : Nat) (a : Option Mac) (s : State) :
    (writeMulticastAddress k a s).env = s.env := rfl

@[simp] theorem writeLinkConfig_cfg (e : Bool) (sp : Speed) (du : Duplex) (s : State) :
    (writeLinkConfig e sp du s).cfg = s.cfg := rfl
@[simp] theorem writeLinkConfig_life (e : Bool) (sp : Speed) (du : Duplex) (s : State) :
    (writeLinkConfig e sp du s).life = s.life := rfl
@[simp] theorem writeLinkConfig_fatal (e : Bool) (sp : Speed) (du : Duplex) (s : State) :
    (writeLinkConfig e sp du s).fatal = s.fatal := rfl
@[simp] theorem writeLinkConfig_tx (e : Bool) (sp : Speed) (du : Duplex) (s : State) :
    (writeLinkConfig e sp du s).tx = s.tx := rfl
@[simp] theorem writeLinkConfig_rx (e : Bool) (sp : Speed) (du : Duplex) (s : State) :
    (writeLinkConfig e sp du s).rx = s.rx := rfl
@[simp] theorem writeLinkConfig_mac (e : Bool) (sp : Speed) (du : Duplex) (s : State) :
    (writeLinkConfig e sp du s).mac = { s.mac with macEn := e, speed := sp, duplex := du } := rfl
@[simp] theorem writeLinkConfig_mdio (e : Bool) (sp : Speed) (du : Duplex) (s : State) :
    (writeLinkConfig e sp du s).mdio = s.mdio := rfl
@[simp] theorem writeLinkConfig_irq (e : Bool) (sp : Speed) (du : Duplex) (s : State) :
    (writeLinkConfig e sp du s).irq = s.irq := rfl
@[simp] theorem writeLinkConfig_cnt (e : Bool) (sp : Speed) (du : Duplex) (s : State) :
    (writeLinkConfig e sp du s).cnt = s.cnt := rfl
@[simp] theorem writeLinkConfig_out (e : Bool) (sp : Speed) (du : Duplex) (s : State) :
    (writeLinkConfig e sp du s).out = s.out := rfl
@[simp] theorem writeLinkConfig_mem (e : Bool) (sp : Speed) (du : Duplex) (s : State) :
    (writeLinkConfig e sp du s).mem = s.mem := rfl
@[simp] theorem writeLinkConfig_ports (e : Bool) (sp : Speed) (du : Duplex) (s : State) :
    (writeLinkConfig e sp du s).ports = s.ports := rfl
@[simp] theorem writeLinkConfig_env (e : Bool) (sp : Speed) (du : Duplex) (s : State) :
    (writeLinkConfig e sp du s).env = s.env := rfl

@[simp] theorem startMdio_cfg (w : Bool) (d r : BitVec 5) (v : Half) (s : State) :
    (startMdio w d r v s).cfg = s.cfg := rfl
@[simp] theorem startMdio_life (w : Bool) (d r : BitVec 5) (v : Half) (s : State) :
    (startMdio w d r v s).life = s.life := rfl
@[simp] theorem startMdio_fatal (w : Bool) (d r : BitVec 5) (v : Half) (s : State) :
    (startMdio w d r v s).fatal = s.fatal := rfl
@[simp] theorem startMdio_tx (w : Bool) (d r : BitVec 5) (v : Half) (s : State) :
    (startMdio w d r v s).tx = s.tx := rfl
@[simp] theorem startMdio_rx (w : Bool) (d r : BitVec 5) (v : Half) (s : State) :
    (startMdio w d r v s).rx = s.rx := rfl
@[simp] theorem startMdio_mac (w : Bool) (d r : BitVec 5) (v : Half) (s : State) :
    (startMdio w d r v s).mac = s.mac := rfl
@[simp] theorem startMdio_mdio (w : Bool) (d r : BitVec 5) (v : Half) (s : State) :
    (startMdio w d r v s).mdio = { s.mdio with busy := true, req := ⟨w, d, r, v⟩ } := rfl
@[simp] theorem startMdio_irq (w : Bool) (d r : BitVec 5) (v : Half) (s : State) :
    (startMdio w d r v s).irq = s.irq := rfl
@[simp] theorem startMdio_cnt (w : Bool) (d r : BitVec 5) (v : Half) (s : State) :
    (startMdio w d r v s).cnt = s.cnt := rfl
@[simp] theorem startMdio_out (w : Bool) (d r : BitVec 5) (v : Half) (s : State) :
    (startMdio w d r v s).out = s.out := rfl
@[simp] theorem startMdio_mem (w : Bool) (d r : BitVec 5) (v : Half) (s : State) :
    (startMdio w d r v s).mem = s.mem := rfl
@[simp] theorem startMdio_ports (w : Bool) (d r : BitVec 5) (v : Half) (s : State) :
    (startMdio w d r v s).ports = s.ports := rfl
@[simp] theorem startMdio_env (w : Bool) (d r : BitVec 5) (v : Half) (s : State) :
    (startMdio w d r v s).env = s.env := rfl

@[simp] theorem writeEffFlags_cfg (a b : Bool) (s : State) : (writeEffFlags a b s).cfg = s.cfg := rfl
@[simp] theorem writeEffFlags_life (a b : Bool) (s : State) : (writeEffFlags a b s).life = s.life := rfl
@[simp] theorem writeEffFlags_fatal (a b : Bool) (s : State) : (writeEffFlags a b s).fatal = s.fatal := rfl
@[simp] theorem writeEffFlags_tx (a b : Bool) (s : State) : (writeEffFlags a b s).tx = s.tx := rfl
@[simp] theorem writeEffFlags_rx (a b : Bool) (s : State) : (writeEffFlags a b s).rx = s.rx := rfl
@[simp] theorem writeEffFlags_mac (a b : Bool) (s : State) :
    (writeEffFlags a b s).mac = { s.mac with effPam := a, effPau := b } := rfl
@[simp] theorem writeEffFlags_mdio (a b : Bool) (s : State) : (writeEffFlags a b s).mdio = s.mdio := rfl
@[simp] theorem writeEffFlags_irq (a b : Bool) (s : State) : (writeEffFlags a b s).irq = s.irq := rfl
@[simp] theorem writeEffFlags_cnt (a b : Bool) (s : State) : (writeEffFlags a b s).cnt = s.cnt := rfl
@[simp] theorem writeEffFlags_out (a b : Bool) (s : State) : (writeEffFlags a b s).out = s.out := rfl
@[simp] theorem writeEffFlags_mem (a b : Bool) (s : State) : (writeEffFlags a b s).mem = s.mem := rfl
@[simp] theorem writeEffFlags_ports (a b : Bool) (s : State) : (writeEffFlags a b s).ports = s.ports := rfl
@[simp] theorem writeEffFlags_env (a b : Bool) (s : State) : (writeEffFlags a b s).env = s.env := rfl

@[simp] theorem recompute_cfg (s : State) : (recompute s).cfg = s.cfg := rfl
@[simp] theorem recompute_life (s : State) : (recompute s).life = s.life := rfl
@[simp] theorem recompute_fatal (s : State) : (recompute s).fatal = s.fatal := rfl
@[simp] theorem recompute_tx (s : State) : (recompute s).tx = s.tx := rfl
@[simp] theorem recompute_rx (s : State) : (recompute s).rx = s.rx := rfl
@[simp] theorem recompute_mac (s : State) :
    (recompute s).mac = { s.mac with effPam := s.mac.pam || s.mac.promisc, effPau := s.mac.promisc } := rfl
@[simp] theorem recompute_mdio (s : State) : (recompute s).mdio = s.mdio := rfl
@[simp] theorem recompute_irq (s : State) : (recompute s).irq = s.irq := rfl
@[simp] theorem recompute_cnt (s : State) : (recompute s).cnt = s.cnt := rfl
@[simp] theorem recompute_out (s : State) : (recompute s).out = s.out := rfl
@[simp] theorem recompute_mem (s : State) : (recompute s).mem = s.mem := rfl
@[simp] theorem recompute_ports (s : State) : (recompute s).ports = s.ports := rfl
@[simp] theorem recompute_env (s : State) : (recompute s).env = s.env := rfl

/-! Outputs, interrupt sources, counters -/

@[simp] theorem tell_cfg (s : State) (e : Notification) : (s.tell e).cfg = s.cfg := rfl
@[simp] theorem tell_life (s : State) (e : Notification) : (s.tell e).life = s.life := rfl
@[simp] theorem tell_fatal (s : State) (e : Notification) : (s.tell e).fatal = s.fatal := rfl
@[simp] theorem tell_tx (s : State) (e : Notification) : (s.tell e).tx = s.tx := rfl
@[simp] theorem tell_rx (s : State) (e : Notification) : (s.tell e).rx = s.rx := rfl
@[simp] theorem tell_mac (s : State) (e : Notification) : (s.tell e).mac = s.mac := rfl
@[simp] theorem tell_mdio (s : State) (e : Notification) : (s.tell e).mdio = s.mdio := rfl
@[simp] theorem tell_irq (s : State) (e : Notification) : (s.tell e).irq = s.irq := rfl
@[simp] theorem tell_cnt (s : State) (e : Notification) : (s.tell e).cnt = s.cnt := rfl
@[simp] theorem tell_out (s : State) (e : Notification) :
    (s.tell e).out = { s.out with notify := s.out.notify ++ [e] } := rfl
@[simp] theorem tell_mem (s : State) (e : Notification) : (s.tell e).mem = s.mem := rfl
@[simp] theorem tell_ports (s : State) (e : Notification) : (s.tell e).ports = s.ports := rfl
@[simp] theorem tell_env (s : State) (e : Notification) : (s.tell e).env = s.env := rfl

@[simp] theorem release_cfg (s : State) (bs : List Word) : (s.release bs).cfg = s.cfg := rfl
@[simp] theorem release_life (s : State) (bs : List Word) : (s.release bs).life = s.life := rfl
@[simp] theorem release_fatal (s : State) (bs : List Word) : (s.release bs).fatal = s.fatal := rfl
@[simp] theorem release_tx (s : State) (bs : List Word) : (s.release bs).tx = s.tx := rfl
@[simp] theorem release_rx (s : State) (bs : List Word) : (s.release bs).rx = s.rx := rfl
@[simp] theorem release_mac (s : State) (bs : List Word) : (s.release bs).mac = s.mac := rfl
@[simp] theorem release_mdio (s : State) (bs : List Word) : (s.release bs).mdio = s.mdio := rfl
@[simp] theorem release_irq (s : State) (bs : List Word) : (s.release bs).irq = s.irq := rfl
@[simp] theorem release_cnt (s : State) (bs : List Word) : (s.release bs).cnt = s.cnt := rfl
@[simp] theorem release_out (s : State) (bs : List Word) :
    (s.release bs).out = { s.out with notify := s.out.notify ++ bs.map .bufferReleased } := rfl
@[simp] theorem release_mem (s : State) (bs : List Word) : (s.release bs).mem = s.mem := rfl
@[simp] theorem release_ports (s : State) (bs : List Word) : (s.release bs).ports = s.ports := rfl
@[simp] theorem release_env (s : State) (bs : List Word) : (s.release bs).env = s.env := rfl

@[simp] theorem raiseIrq_cfg (s : State) (m : BitVec 10) : (s.raiseIrq m).cfg = s.cfg := rfl
@[simp] theorem raiseIrq_life (s : State) (m : BitVec 10) : (s.raiseIrq m).life = s.life := rfl
@[simp] theorem raiseIrq_fatal (s : State) (m : BitVec 10) : (s.raiseIrq m).fatal = s.fatal := rfl
@[simp] theorem raiseIrq_tx (s : State) (m : BitVec 10) : (s.raiseIrq m).tx = s.tx := rfl
@[simp] theorem raiseIrq_rx (s : State) (m : BitVec 10) : (s.raiseIrq m).rx = s.rx := rfl
@[simp] theorem raiseIrq_mac (s : State) (m : BitVec 10) : (s.raiseIrq m).mac = s.mac := rfl
@[simp] theorem raiseIrq_mdio (s : State) (m : BitVec 10) : (s.raiseIrq m).mdio = s.mdio := rfl
@[simp] theorem raiseIrq_irq (s : State) (m : BitVec 10) :
    (s.raiseIrq m).irq = { s.irq with status := s.irq.status ||| m } := rfl
@[simp] theorem raiseIrq_cnt (s : State) (m : BitVec 10) : (s.raiseIrq m).cnt = s.cnt := rfl
@[simp] theorem raiseIrq_out (s : State) (m : BitVec 10) : (s.raiseIrq m).out = s.out := rfl
@[simp] theorem raiseIrq_mem (s : State) (m : BitVec 10) : (s.raiseIrq m).mem = s.mem := rfl
@[simp] theorem raiseIrq_ports (s : State) (m : BitVec 10) : (s.raiseIrq m).ports = s.ports := rfl
@[simp] theorem raiseIrq_env (s : State) (m : BitVec 10) : (s.raiseIrq m).env = s.env := rfl

@[simp] theorem raiseFatal_cfg (k : FatalKind) (s : State) : (raiseFatal k s).cfg = s.cfg := rfl
@[simp] theorem raiseFatal_life (k : FatalKind) (s : State) : (raiseFatal k s).life = s.life := rfl
@[simp] theorem raiseFatal_fatal (k : FatalKind) (s : State) : (raiseFatal k s).fatal = some k := rfl
@[simp] theorem raiseFatal_tx (k : FatalKind) (s : State) : (raiseFatal k s).tx = s.tx := rfl
@[simp] theorem raiseFatal_rx (k : FatalKind) (s : State) : (raiseFatal k s).rx = s.rx := rfl
@[simp] theorem raiseFatal_mac (k : FatalKind) (s : State) : (raiseFatal k s).mac = s.mac := rfl
@[simp] theorem raiseFatal_mdio (k : FatalKind) (s : State) : (raiseFatal k s).mdio = s.mdio := rfl
@[simp] theorem raiseFatal_irq (k : FatalKind) (s : State) : (raiseFatal k s).irq = s.irq := rfl
@[simp] theorem raiseFatal_cnt (k : FatalKind) (s : State) : (raiseFatal k s).cnt = s.cnt := rfl
@[simp] theorem raiseFatal_out (k : FatalKind) (s : State) :
    (raiseFatal k s).out = { s.out with notify := s.out.notify ++ [.linkFault k] } := rfl
@[simp] theorem raiseFatal_mem (k : FatalKind) (s : State) : (raiseFatal k s).mem = s.mem := rfl
@[simp] theorem raiseFatal_ports (k : FatalKind) (s : State) : (raiseFatal k s).ports = s.ports := rfl
@[simp] theorem raiseFatal_env (k : FatalKind) (s : State) : (raiseFatal k s).env = s.env := rfl

@[simp] theorem acknowledge_cfg (p : BitVec 10) (s : State) : (acknowledge p s).cfg = s.cfg := rfl
@[simp] theorem acknowledge_life (p : BitVec 10) (s : State) : (acknowledge p s).life = s.life := rfl
@[simp] theorem acknowledge_fatal (p : BitVec 10) (s : State) : (acknowledge p s).fatal = s.fatal := rfl
@[simp] theorem acknowledge_tx (p : BitVec 10) (s : State) : (acknowledge p s).tx = s.tx := rfl
@[simp] theorem acknowledge_rx (p : BitVec 10) (s : State) : (acknowledge p s).rx = s.rx := rfl
@[simp] theorem acknowledge_mac (p : BitVec 10) (s : State) : (acknowledge p s).mac = s.mac := rfl
@[simp] theorem acknowledge_mdio (p : BitVec 10) (s : State) : (acknowledge p s).mdio = s.mdio := rfl
@[simp] theorem acknowledge_irq (p : BitVec 10) (s : State) :
    (acknowledge p s).irq = { s.irq with status := s.irq.status &&& ~~~p } := rfl
@[simp] theorem acknowledge_cnt (p : BitVec 10) (s : State) : (acknowledge p s).cnt = s.cnt := rfl
@[simp] theorem acknowledge_out (p : BitVec 10) (s : State) : (acknowledge p s).out = s.out := rfl
@[simp] theorem acknowledge_mem (p : BitVec 10) (s : State) : (acknowledge p s).mem = s.mem := rfl
@[simp] theorem acknowledge_ports (p : BitVec 10) (s : State) : (acknowledge p s).ports = s.ports := rfl
@[simp] theorem acknowledge_env (p : BitVec 10) (s : State) : (acknowledge p s).env = s.env := rfl

@[simp] theorem countStatistics_cfg (p : BitVec 10) (s : State) : (countStatistics p s).cfg = s.cfg := rfl
@[simp] theorem countStatistics_life (p : BitVec 10) (s : State) : (countStatistics p s).life = s.life := rfl
@[simp] theorem countStatistics_fatal (p : BitVec 10) (s : State) : (countStatistics p s).fatal = s.fatal := rfl
@[simp] theorem countStatistics_tx (p : BitVec 10) (s : State) : (countStatistics p s).tx = s.tx := rfl
@[simp] theorem countStatistics_rx (p : BitVec 10) (s : State) : (countStatistics p s).rx = s.rx := rfl
@[simp] theorem countStatistics_mac (p : BitVec 10) (s : State) : (countStatistics p s).mac = s.mac := rfl
@[simp] theorem countStatistics_mdio (p : BitVec 10) (s : State) : (countStatistics p s).mdio = s.mdio := rfl
@[simp] theorem countStatistics_irq (p : BitVec 10) (s : State) : (countStatistics p s).irq = s.irq := rfl
@[simp] theorem countStatistics_out (p : BitVec 10) (s : State) : (countStatistics p s).out = s.out := rfl
@[simp] theorem countStatistics_mem (p : BitVec 10) (s : State) : (countStatistics p s).mem = s.mem := rfl
@[simp] theorem countStatistics_ports (p : BitVec 10) (s : State) : (countStatistics p s).ports = s.ports := rfl
@[simp] theorem countStatistics_env (p : BitVec 10) (s : State) : (countStatistics p s).env = s.env := rfl

/-! Ring operations -/

@[simp] theorem enqueueSlot_cfg (f g : Bool) (b : Word) (l : Half) (s : State) :
    (enqueueSlot f g b l s).cfg = s.cfg := by unfold enqueueSlot; dsimp only; split <;> simp_all
@[simp] theorem enqueueSlot_life (f g : Bool) (b : Word) (l : Half) (s : State) :
    (enqueueSlot f g b l s).life = s.life := by unfold enqueueSlot; dsimp only; split <;> simp_all
@[simp] theorem enqueueSlot_fatal (f g : Bool) (b : Word) (l : Half) (s : State) :
    (enqueueSlot f g b l s).fatal = s.fatal := by unfold enqueueSlot; dsimp only; split <;> simp_all
@[simp] theorem enqueueSlot_tx (f g : Bool) (b : Word) (l : Half) (s : State) :
    (enqueueSlot f g b l s).tx = { s.tx with
        slots := s.tx.slots.set s.tx.head ⟨.dma, b, l, f, g, false⟩,
        book := s.tx.book.set s.tx.head (some b), head := nextIdx s.cfg.dTx s.tx.head,
        free := s.tx.free - 1, openFrame := !g, dma := if s.tx.dma = .idle then .active else s.tx.dma } := by
  unfold enqueueSlot
  dsimp only
  split <;> simp_all
@[simp] theorem enqueueSlot_rx (f g : Bool) (b : Word) (l : Half) (s : State) :
    (enqueueSlot f g b l s).rx = s.rx := by unfold enqueueSlot; dsimp only; split <;> simp_all
@[simp] theorem enqueueSlot_mac (f g : Bool) (b : Word) (l : Half) (s : State) :
    (enqueueSlot f g b l s).mac = s.mac := by unfold enqueueSlot; dsimp only; split <;> simp_all
@[simp] theorem enqueueSlot_mdio (f g : Bool) (b : Word) (l : Half) (s : State) :
    (enqueueSlot f g b l s).mdio = s.mdio := by unfold enqueueSlot; dsimp only; split <;> simp_all
@[simp] theorem enqueueSlot_irq (f g : Bool) (b : Word) (l : Half) (s : State) :
    (enqueueSlot f g b l s).irq = s.irq := by unfold enqueueSlot; dsimp only; split <;> simp_all
@[simp] theorem enqueueSlot_cnt (f g : Bool) (b : Word) (l : Half) (s : State) :
    (enqueueSlot f g b l s).cnt = s.cnt := by unfold enqueueSlot; dsimp only; split <;> simp_all
@[simp] theorem enqueueSlot_out (f g : Bool) (b : Word) (l : Half) (s : State) :
    (enqueueSlot f g b l s).out = s.out := by unfold enqueueSlot; dsimp only; split <;> simp_all
@[simp] theorem enqueueSlot_mem (f g : Bool) (b : Word) (l : Half) (s : State) :
    (enqueueSlot f g b l s).mem = s.mem := by unfold enqueueSlot; dsimp only; split <;> simp_all
@[simp] theorem enqueueSlot_ports (f g : Bool) (b : Word) (l : Half) (s : State) :
    (enqueueSlot f g b l s).ports = s.ports := by unfold enqueueSlot; dsimp only; split <;> simp_all
@[simp] theorem enqueueSlot_env (f g : Bool) (b : Word) (l : Half) (s : State) :
    (enqueueSlot f g b l s).env = s.env := by unfold enqueueSlot; dsimp only; split <;> simp_all

@[simp] theorem reclaimSlot_cfg (s : State) :
    (reclaimSlot s).cfg = s.cfg := by unfold reclaimSlot; dsimp only; split <;> simp_all
@[simp] theorem reclaimSlot_life (s : State) :
    (reclaimSlot s).life = s.life := by unfold reclaimSlot; dsimp only; split <;> simp_all
@[simp] theorem reclaimSlot_fatal (s : State) :
    (reclaimSlot s).fatal = s.fatal := by unfold reclaimSlot; dsimp only; split <;> simp_all
@[simp] theorem reclaimSlot_tx (s : State) :
    (reclaimSlot s).tx = { s.tx with
        book := s.tx.book.set s.tx.cursor none, cursor := nextIdx s.cfg.dTx s.tx.cursor,
        free := s.tx.free + 1 } := by
  unfold reclaimSlot
  dsimp only
  split <;> simp_all
@[simp] theorem reclaimSlot_rx (s : State) :
    (reclaimSlot s).rx = s.rx := by unfold reclaimSlot; dsimp only; split <;> simp_all
@[simp] theorem reclaimSlot_mac (s : State) :
    (reclaimSlot s).mac = s.mac := by unfold reclaimSlot; dsimp only; split <;> simp_all
@[simp] theorem reclaimSlot_mdio (s : State) :
    (reclaimSlot s).mdio = s.mdio := by unfold reclaimSlot; dsimp only; split <;> simp_all
@[simp] theorem reclaimSlot_irq (s : State) :
    (reclaimSlot s).irq = s.irq := by unfold reclaimSlot; dsimp only; split <;> simp_all
@[simp] theorem reclaimSlot_cnt (s : State) :
    (reclaimSlot s).cnt = s.cnt := by unfold reclaimSlot; dsimp only; split <;> simp_all
@[simp] theorem reclaimSlot_out (s : State) :
    (reclaimSlot s).out = { s.out with
        notify := s.out.notify ++ (s.txTok s.tx.cursor).toList.map .frameTransmitted } := by
  unfold reclaimSlot
  dsimp only
  split <;> simp_all
@[simp] theorem reclaimSlot_mem (s : State) :
    (reclaimSlot s).mem = s.mem := by unfold reclaimSlot; dsimp only; split <;> simp_all
@[simp] theorem reclaimSlot_ports (s : State) :
    (reclaimSlot s).ports = s.ports := by unfold reclaimSlot; dsimp only; split <;> simp_all
@[simp] theorem reclaimSlot_env (s : State) :
    (reclaimSlot s).env = s.env := by unfold reclaimSlot; dsimp only; split <;> simp_all

@[simp] theorem primeSlot_cfg (b : Word) (s : State) :
    (primeSlot b s).cfg = s.cfg := by unfold primeSlot; dsimp only; split <;> simp_all
@[simp] theorem primeSlot_life (b : Word) (s : State) :
    (primeSlot b s).life = s.life := by unfold primeSlot; dsimp only; split <;> simp_all
@[simp] theorem primeSlot_fatal (b : Word) (s : State) :
    (primeSlot b s).fatal = s.fatal := by unfold primeSlot; dsimp only; split <;> simp_all
@[simp] theorem primeSlot_tx (b : Word) (s : State) :
    (primeSlot b s).tx = s.tx := by unfold primeSlot; dsimp only; split <;> simp_all
@[simp] theorem primeSlot_rx (b : Word) (s : State) :
    (primeSlot b s).rx = { s.rx with
        slots := s.rx.slots.set s.rx.prime ⟨.dma, b, 0#16, false, false, false⟩,
        book := s.rx.book.set s.rx.prime (some b), prime := nextIdx s.cfg.dRx s.rx.prime,
        unprimed := s.rx.unprimed - 1, dma := if s.rx.dma = .idle then .active else s.rx.dma } := by
  unfold primeSlot
  dsimp only
  split <;> simp_all
@[simp] theorem primeSlot_mac (b : Word) (s : State) :
    (primeSlot b s).mac = s.mac := by unfold primeSlot; dsimp only; split <;> simp_all
@[simp] theorem primeSlot_mdio (b : Word) (s : State) :
    (primeSlot b s).mdio = s.mdio := by unfold primeSlot; dsimp only; split <;> simp_all
@[simp] theorem primeSlot_irq (b : Word) (s : State) :
    (primeSlot b s).irq = s.irq := by unfold primeSlot; dsimp only; split <;> simp_all
@[simp] theorem primeSlot_cnt (b : Word) (s : State) :
    (primeSlot b s).cnt = s.cnt := by unfold primeSlot; dsimp only; split <;> simp_all
@[simp] theorem primeSlot_out (b : Word) (s : State) :
    (primeSlot b s).out = s.out := by unfold primeSlot; dsimp only; split <;> simp_all
@[simp] theorem primeSlot_mem (b : Word) (s : State) :
    (primeSlot b s).mem = s.mem := by unfold primeSlot; dsimp only; split <;> simp_all
@[simp] theorem primeSlot_ports (b : Word) (s : State) :
    (primeSlot b s).ports = s.ports := by unfold primeSlot; dsimp only; split <;> simp_all
@[simp] theorem primeSlot_env (b : Word) (s : State) :
    (primeSlot b s).env = s.env := by unfold primeSlot; dsimp only; split <;> simp_all

@[simp] theorem consumeSlot_cfg (i : Nat) (s : State) : (consumeSlot i s).cfg = s.cfg := rfl
@[simp] theorem consumeSlot_life (i : Nat) (s : State) : (consumeSlot i s).life = s.life := rfl
@[simp] theorem consumeSlot_fatal (i : Nat) (s : State) : (consumeSlot i s).fatal = s.fatal := rfl
@[simp] theorem consumeSlot_tx (i : Nat) (s : State) : (consumeSlot i s).tx = s.tx := rfl
@[simp] theorem consumeSlot_rx (i : Nat) (s : State) :
    (consumeSlot i s).rx = { s.rx with
        book := s.rx.book.set i none, unprimed := s.rx.unprimed + 1, cursor := nextIdx s.cfg.dRx i } := rfl
@[simp] theorem consumeSlot_mac (i : Nat) (s : State) : (consumeSlot i s).mac = s.mac := rfl
@[simp] theorem consumeSlot_mdio (i : Nat) (s : State) : (consumeSlot i s).mdio = s.mdio := rfl
@[simp] theorem consumeSlot_irq (i : Nat) (s : State) : (consumeSlot i s).irq = s.irq := rfl
@[simp] theorem consumeSlot_cnt (i : Nat) (s : State) : (consumeSlot i s).cnt = s.cnt := rfl
@[simp] theorem consumeSlot_out (i : Nat) (s : State) : (consumeSlot i s).out = s.out := rfl
@[simp] theorem consumeSlot_mem (i : Nat) (s : State) : (consumeSlot i s).mem = s.mem := rfl
@[simp] theorem consumeSlot_ports (i : Nat) (s : State) : (consumeSlot i s).ports = s.ports := rfl
@[simp] theorem consumeSlot_env (i : Nat) (s : State) : (consumeSlot i s).env = s.env := rfl

/-! Lifecycle -/

@[simp] theorem openGate_cfg (sp : Speed) (du : Duplex) (s : State) : (openGate sp du s).cfg = s.cfg := rfl
@[simp] theorem openGate_life (sp : Speed) (du : Duplex) (s : State) : (openGate sp du s).life = .enabled := rfl
@[simp] theorem openGate_fatal (sp : Speed) (du : Duplex) (s : State) :
    (openGate sp du s).fatal = s.fatal := rfl
@[simp] theorem openGate_tx (sp : Speed) (du : Duplex) (s : State) :
    (openGate sp du s).tx = { s.tx with dma := .active } := rfl
@[simp] theorem openGate_rx (sp : Speed) (du : Duplex) (s : State) :
    (openGate sp du s).rx = { s.rx with dma := .active } := rfl
@[simp] theorem openGate_mac (sp : Speed) (du : Duplex) (s : State) :
    (openGate sp du s).mac = { s.mac with macEn := true, speed := sp, duplex := du } := rfl
@[simp] theorem openGate_mdio (sp : Speed) (du : Duplex) (s : State) : (openGate sp du s).mdio = s.mdio := rfl
@[simp] theorem openGate_irq (sp : Speed) (du : Duplex) (s : State) : (openGate sp du s).irq = s.irq := rfl
@[simp] theorem openGate_cnt (sp : Speed) (du : Duplex) (s : State) : (openGate sp du s).cnt = s.cnt := rfl
@[simp] theorem openGate_out (sp : Speed) (du : Duplex) (s : State) : (openGate sp du s).out = s.out := rfl
@[simp] theorem openGate_mem (sp : Speed) (du : Duplex) (s : State) : (openGate sp du s).mem = s.mem := rfl
@[simp] theorem openGate_ports (sp : Speed) (du : Duplex) (s : State) :
    (openGate sp du s).ports = s.ports := rfl
@[simp] theorem openGate_env (sp : Speed) (du : Duplex) (s : State) : (openGate sp du s).env = s.env := rfl

@[simp] theorem closeGate_cfg (s : State) : (closeGate s).cfg = s.cfg := rfl
@[simp] theorem closeGate_life (s : State) : (closeGate s).life = s.life := rfl
@[simp] theorem closeGate_fatal (s : State) : (closeGate s).fatal = s.fatal := rfl
@[simp] theorem closeGate_tx (s : State) : (closeGate s).tx = s.tx := rfl
@[simp] theorem closeGate_rx (s : State) : (closeGate s).rx = s.rx := rfl
@[simp] theorem closeGate_mac (s : State) : (closeGate s).mac = { s.mac with macEn := false } := rfl
@[simp] theorem closeGate_mdio (s : State) : (closeGate s).mdio = s.mdio := rfl
@[simp] theorem closeGate_irq (s : State) : (closeGate s).irq = s.irq := rfl
@[simp] theorem closeGate_cnt (s : State) : (closeGate s).cnt = s.cnt := rfl
@[simp] theorem closeGate_out (s : State) : (closeGate s).out = s.out := rfl
@[simp] theorem closeGate_mem (s : State) : (closeGate s).mem = s.mem := rfl
@[simp] theorem closeGate_ports (s : State) : (closeGate s).ports = s.ports := rfl
@[simp] theorem closeGate_env (s : State) : (closeGate s).env = s.env := rfl

@[simp] theorem stopBoth_cfg (s : State) : (stopBoth s).cfg = s.cfg := rfl
@[simp] theorem stopBoth_life (s : State) : (stopBoth s).life = s.life := rfl
@[simp] theorem stopBoth_fatal (s : State) : (stopBoth s).fatal = s.fatal := rfl
@[simp] theorem stopBoth_tx (s : State) : (stopBoth s).tx = { s.tx with dma := .stopped } := rfl
@[simp] theorem stopBoth_rx (s : State) : (stopBoth s).rx = { s.rx with dma := .stopped } := rfl
@[simp] theorem stopBoth_mac (s : State) : (stopBoth s).mac = s.mac := rfl
@[simp] theorem stopBoth_mdio (s : State) : (stopBoth s).mdio = s.mdio := rfl
@[simp] theorem stopBoth_irq (s : State) : (stopBoth s).irq = s.irq := rfl
@[simp] theorem stopBoth_cnt (s : State) : (stopBoth s).cnt = s.cnt := rfl
@[simp] theorem stopBoth_out (s : State) : (stopBoth s).out = s.out := rfl
@[simp] theorem stopBoth_mem (s : State) : (stopBoth s).mem = s.mem := rfl
@[simp] theorem stopBoth_ports (s : State) : (stopBoth s).ports = s.ports := rfl
@[simp] theorem stopBoth_env (s : State) : (stopBoth s).env = s.env := rfl

@[simp] theorem finishDisable_cfg (s : State) : (finishDisable s).cfg = s.cfg := by simp [finishDisable]
@[simp] theorem finishDisable_life (s : State) : (finishDisable s).life = .disabled := by simp [finishDisable]
@[simp] theorem finishDisable_fatal (s : State) : (finishDisable s).fatal = s.fatal := by simp [finishDisable]
@[simp] theorem finishDisable_tx (s : State) : (finishDisable s).tx = s.tx := by simp [finishDisable]
@[simp] theorem finishDisable_rx (s : State) : (finishDisable s).rx = s.rx := by simp [finishDisable]
@[simp] theorem finishDisable_mac (s : State) : (finishDisable s).mac = s.mac := by simp [finishDisable]
@[simp] theorem finishDisable_mdio (s : State) : (finishDisable s).mdio = s.mdio := by simp [finishDisable]
@[simp] theorem finishDisable_irq (s : State) : (finishDisable s).irq = s.irq := by simp [finishDisable]
@[simp] theorem finishDisable_cnt (s : State) : (finishDisable s).cnt = s.cnt := by simp [finishDisable]
@[simp] theorem finishDisable_out (s : State) : (finishDisable s).out = s.out := by simp [finishDisable]
@[simp] theorem finishDisable_mem (s : State) : (finishDisable s).mem = s.mem := by simp [finishDisable]
@[simp] theorem finishDisable_env (s : State) : (finishDisable s).env = s.env := by simp [finishDisable]

@[simp] theorem resetPeripheral_cfg (s : State) : (resetPeripheral s).cfg = s.cfg := rfl
@[simp] theorem resetPeripheral_life (s : State) : (resetPeripheral s).life = s.life := rfl
@[simp] theorem resetPeripheral_fatal (s : State) : (resetPeripheral s).fatal = s.fatal := rfl
@[simp] theorem resetPeripheral_tx (s : State) : (resetPeripheral s).tx = clearTx s.cfg := rfl
@[simp] theorem resetPeripheral_rx (s : State) : (resetPeripheral s).rx = clearRx s.cfg := rfl
@[simp] theorem resetPeripheral_mac (s : State) : (resetPeripheral s).mac = clearMac s.cfg := rfl
@[simp] theorem resetPeripheral_mdio (s : State) :
    (resetPeripheral s).mdio = { s.mdio with busy := false, data := 0#16 } := rfl
@[simp] theorem resetPeripheral_irq (s : State) : (resetPeripheral s).irq = s.irq := rfl
@[simp] theorem resetPeripheral_cnt (s : State) :
    (resetPeripheral s).cnt = ⟨0#32, 0#32, 0#32, 0#32, 0#32, 0#32, 0#32⟩ := rfl
@[simp] theorem resetPeripheral_out (s : State) : (resetPeripheral s).out = s.out := rfl
@[simp] theorem resetPeripheral_mem (s : State) : (resetPeripheral s).mem = s.mem := rfl
@[simp] theorem resetPeripheral_ports (s : State) : (resetPeripheral s).ports = s.ports := rfl
@[simp] theorem resetPeripheral_env (s : State) :
    (resetPeripheral s).env = { s.env with races := [], mdioFor := none } := rfl

@[simp] theorem beginDeinit_cfg (s : State) :
    (beginDeinit s).cfg = s.cfg := by unfold beginDeinit; dsimp only; split <;> simp
@[simp] theorem beginDeinit_life (s : State) :
    (beginDeinit s).life = s.life := by unfold beginDeinit; dsimp only; split <;> simp
@[simp] theorem beginDeinit_fatal (s : State) :
    (beginDeinit s).fatal = s.fatal := by unfold beginDeinit; dsimp only; split <;> simp
@[simp] theorem beginDeinit_tx (s : State) :
    (beginDeinit s).tx = { s.tx with dma := .stopped } := by unfold beginDeinit; dsimp only; split <;> simp
@[simp] theorem beginDeinit_rx (s : State) :
    (beginDeinit s).rx = { s.rx with dma := .stopped } := by unfold beginDeinit; dsimp only; split <;> simp
@[simp] theorem beginDeinit_mdio (s : State) :
    (beginDeinit s).mdio = s.mdio := by unfold beginDeinit; dsimp only; split <;> simp
@[simp] theorem beginDeinit_irq (s : State) :
    (beginDeinit s).irq = { s.irq with enable := 0#10, globalOn := false } := by
  unfold beginDeinit
  dsimp only
  split <;> simp
@[simp] theorem beginDeinit_cnt (s : State) :
    (beginDeinit s).cnt = s.cnt := by unfold beginDeinit; dsimp only; split <;> simp
@[simp] theorem beginDeinit_out (s : State) :
    (beginDeinit s).out = s.out := by unfold beginDeinit; dsimp only; split <;> simp
@[simp] theorem beginDeinit_mem (s : State) :
    (beginDeinit s).mem = s.mem := by unfold beginDeinit; dsimp only; split <;> simp
@[simp] theorem beginDeinit_ports (s : State) :
    (beginDeinit s).ports = s.ports := by unfold beginDeinit; dsimp only; split <;> simp
@[simp] theorem beginDeinit_env (s : State) :
    (beginDeinit s).env = s.env := by unfold beginDeinit; dsimp only; split <;> simp

@[simp] theorem tearDown_cfg (s : State) : (tearDown s).cfg = s.cfg := rfl
@[simp] theorem tearDown_life (s : State) : (tearDown s).life = .deinitialized := rfl
@[simp] theorem tearDown_fatal (s : State) : (tearDown s).fatal = s.fatal := rfl
@[simp] theorem tearDown_tx (s : State) :
    (tearDown s).tx = { clearTx s.cfg with dma := s.tx.dma, inflight := s.tx.inflight } := rfl
@[simp] theorem tearDown_rx (s : State) :
    (tearDown s).rx = { clearRx s.cfg with dma := s.rx.dma, pending := s.rx.pending } := rfl
@[simp] theorem tearDown_mac (s : State) : (tearDown s).mac = s.mac := rfl
@[simp] theorem tearDown_mdio (s : State) : (tearDown s).mdio = s.mdio := rfl
@[simp] theorem tearDown_irq (s : State) : (tearDown s).irq = { s.irq with status := 0#10 } := rfl
@[simp] theorem tearDown_cnt (s : State) : (tearDown s).cnt = s.cnt := rfl
@[simp] theorem tearDown_mem (s : State) : (tearDown s).mem = s.mem := rfl
@[simp] theorem tearDown_ports (s : State) : (tearDown s).ports = s.ports := rfl
@[simp] theorem tearDown_env (s : State) : (tearDown s).env = { s.env with races := [] } := rfl

/-! Stores and races -/

@[simp] theorem endRaces_cfg (s : State) (r : Ring) (i : Nat) : (s.endRaces r i).cfg = s.cfg := rfl
@[simp] theorem endRaces_life (s : State) (r : Ring) (i : Nat) : (s.endRaces r i).life = s.life := rfl
@[simp] theorem endRaces_fatal (s : State) (r : Ring) (i : Nat) : (s.endRaces r i).fatal = s.fatal := rfl
@[simp] theorem endRaces_tx (s : State) (r : Ring) (i : Nat) : (s.endRaces r i).tx = s.tx := rfl
@[simp] theorem endRaces_rx (s : State) (r : Ring) (i : Nat) : (s.endRaces r i).rx = s.rx := rfl
@[simp] theorem endRaces_mac (s : State) (r : Ring) (i : Nat) : (s.endRaces r i).mac = s.mac := rfl
@[simp] theorem endRaces_mdio (s : State) (r : Ring) (i : Nat) : (s.endRaces r i).mdio = s.mdio := rfl
@[simp] theorem endRaces_irq (s : State) (r : Ring) (i : Nat) : (s.endRaces r i).irq = s.irq := rfl
@[simp] theorem endRaces_cnt (s : State) (r : Ring) (i : Nat) : (s.endRaces r i).cnt = s.cnt := rfl
@[simp] theorem endRaces_out (s : State) (r : Ring) (i : Nat) : (s.endRaces r i).out = s.out := rfl
@[simp] theorem endRaces_mem (s : State) (r : Ring) (i : Nat) : (s.endRaces r i).mem = s.mem := rfl
@[simp] theorem endRaces_ports (s : State) (r : Ring) (i : Nat) : (s.endRaces r i).ports = s.ports := rfl
@[simp] theorem endRaces_inputs (s : State) (r : Ring) (i : Nat) :
    (s.endRaces r i).env.inputs = s.env.inputs := rfl
@[simp] theorem endRaces_issuer (s : State) (r : Ring) (i : Nat) :
    (s.endRaces r i).env.issuer = s.env.issuer := rfl
@[simp] theorem endRaces_alloc (s : State) (r : Ring) (i : Nat) :
    (s.endRaces r i).env.alloc = s.env.alloc := rfl
@[simp] theorem endRaces_wire (s : State) (r : Ring) (i : Nat) :
    (s.endRaces r i).env.wire = s.env.wire := rfl
@[simp] theorem endRaces_phy (s : State) (r : Ring) (i : Nat) :
    (s.endRaces r i).env.phy = s.env.phy := rfl

@[simp] theorem drewIf_cfg (s : State) (b : Bool) : (s.drewIf b).cfg = s.cfg := rfl
@[simp] theorem drewIf_life (s : State) (b : Bool) : (s.drewIf b).life = s.life := rfl
@[simp] theorem drewIf_fatal (s : State) (b : Bool) : (s.drewIf b).fatal = s.fatal := rfl
@[simp] theorem drewIf_tx (s : State) (b : Bool) : (s.drewIf b).tx = s.tx := rfl
@[simp] theorem drewIf_rx (s : State) (b : Bool) : (s.drewIf b).rx = s.rx := rfl
@[simp] theorem drewIf_mac (s : State) (b : Bool) : (s.drewIf b).mac = s.mac := rfl
@[simp] theorem drewIf_mdio (s : State) (b : Bool) : (s.drewIf b).mdio = s.mdio := rfl
@[simp] theorem drewIf_irq (s : State) (b : Bool) : (s.drewIf b).irq = s.irq := rfl
@[simp] theorem drewIf_cnt (s : State) (b : Bool) : (s.drewIf b).cnt = s.cnt := rfl
@[simp] theorem drewIf_out (s : State) (b : Bool) : (s.drewIf b).out = s.out := rfl
@[simp] theorem drewIf_mem (s : State) (b : Bool) : (s.drewIf b).mem = s.mem := rfl
@[simp] theorem drewIf_ports (s : State) (b : Bool) : (s.drewIf b).ports = s.ports := rfl
@[simp] theorem drewIf_env (s : State) (b : Bool) :
    (s.drewIf b).env = { s.env with drawn := if b then s.env.drawn + 1 else s.env.drawn } := rfl

@[simp] theorem storeBytes_cfg (s : State) (a : Word) (vs : List Byte) : (s.storeBytes a vs).cfg = s.cfg := rfl
@[simp] theorem storeBytes_life (s : State) (a : Word) (vs : List Byte) : (s.storeBytes a vs).life = s.life := rfl
@[simp] theorem storeBytes_fatal (s : State) (a : Word) (vs : List Byte) : (s.storeBytes a vs).fatal = s.fatal := rfl
@[simp] theorem storeBytes_tx (s : State) (a : Word) (vs : List Byte) : (s.storeBytes a vs).tx = s.tx := rfl
@[simp] theorem storeBytes_rx (s : State) (a : Word) (vs : List Byte) : (s.storeBytes a vs).rx = s.rx := rfl
@[simp] theorem storeBytes_mac (s : State) (a : Word) (vs : List Byte) : (s.storeBytes a vs).mac = s.mac := rfl
@[simp] theorem storeBytes_mdio (s : State) (a : Word) (vs : List Byte) : (s.storeBytes a vs).mdio = s.mdio := rfl
@[simp] theorem storeBytes_irq (s : State) (a : Word) (vs : List Byte) : (s.storeBytes a vs).irq = s.irq := rfl
@[simp] theorem storeBytes_cnt (s : State) (a : Word) (vs : List Byte) : (s.storeBytes a vs).cnt = s.cnt := rfl
@[simp] theorem storeBytes_out (s : State) (a : Word) (vs : List Byte) : (s.storeBytes a vs).out = s.out := rfl
@[simp] theorem storeBytes_mem (s : State) (a : Word) (vs : List Byte) :
    (s.storeBytes a vs).mem = writeBytes s.mem a vs := rfl
@[simp] theorem storeBytes_ports (s : State) (a : Word) (vs : List Byte) : (s.storeBytes a vs).ports = s.ports := rfl
@[simp] theorem storeBytes_env (s : State) (a : Word) (vs : List Byte) :
    (s.storeBytes a vs).env = { s.env with races := s.env.races ++ racesAlong s a vs } := rfl

/-! Steps of the hardware agents -/

@[simp] theorem completeTx_cfg (i : Nat) (s : State) : (completeTx i s).cfg = s.cfg := rfl
@[simp] theorem completeTx_life (i : Nat) (s : State) : (completeTx i s).life = s.life := rfl
@[simp] theorem completeTx_fatal (i : Nat) (s : State) : (completeTx i s).fatal = s.fatal := rfl
@[simp] theorem completeTx_rx (i : Nat) (s : State) : (completeTx i s).rx = s.rx := rfl
@[simp] theorem completeTx_mac (i : Nat) (s : State) : (completeTx i s).mac = s.mac := rfl
@[simp] theorem completeTx_mdio (i : Nat) (s : State) : (completeTx i s).mdio = s.mdio := rfl
@[simp] theorem completeTx_irq (i : Nat) (s : State) :
    (completeTx i s).irq = { s.irq with status := s.irq.status ||| irqTxComplete } := rfl
@[simp] theorem completeTx_cnt (i : Nat) (s : State) : (completeTx i s).cnt = s.cnt := rfl
@[simp] theorem completeTx_mem (i : Nat) (s : State) : (completeTx i s).mem = s.mem := rfl
@[simp] theorem completeTx_ports (i : Nat) (s : State) : (completeTx i s).ports = s.ports := rfl
@[simp] theorem completeTx_env (i : Nat) (s : State) : (completeTx i s).env = (s.endRaces .tx i).env := rfl

@[simp] theorem writeRx_cfg (f : RxFrame) (s : State) : (writeRx f s).cfg = s.cfg := rfl
@[simp] theorem writeRx_life (f : RxFrame) (s : State) : (writeRx f s).life = s.life := rfl
@[simp] theorem writeRx_fatal (f : RxFrame) (s : State) : (writeRx f s).fatal = s.fatal := rfl
@[simp] theorem writeRx_tx (f : RxFrame) (s : State) : (writeRx f s).tx = s.tx := rfl
@[simp] theorem writeRx_mac (f : RxFrame) (s : State) : (writeRx f s).mac = s.mac := rfl
@[simp] theorem writeRx_mdio (f : RxFrame) (s : State) : (writeRx f s).mdio = s.mdio := rfl
@[simp] theorem writeRx_irq (f : RxFrame) (s : State) :
    (writeRx f s).irq = { s.irq with status := s.irq.status ||| writeIrq f (writeCase f s) s.cfg } := rfl
@[simp] theorem writeRx_cnt (f : RxFrame) (s : State) : (writeRx f s).cnt = s.cnt := rfl
@[simp] theorem writeRx_out (f : RxFrame) (s : State) : (writeRx f s).out = s.out := rfl
@[simp] theorem writeRx_ports (f : RxFrame) (s : State) : (writeRx f s).ports = s.ports := rfl
@[simp] theorem writeRx_mem (f : RxFrame) (s : State) :
    (writeRx f s).mem = writeBytes s.mem (s.rxSlot s.rx.hw).buf
      (settledBytes s .rx s.rx.hw 0 (s.rxSlot s.rx.hw).buf (rxChunk s.cfg f)) := rfl
@[simp] theorem writeRx_inputs (f : RxFrame) (s : State) : (writeRx f s).env.inputs = s.env.inputs := rfl
@[simp] theorem writeRx_issuer (f : RxFrame) (s : State) : (writeRx f s).env.issuer = s.env.issuer := rfl
@[simp] theorem writeRx_alloc (f : RxFrame) (s : State) : (writeRx f s).env.alloc = s.env.alloc := rfl
@[simp] theorem writeRx_wire (f : RxFrame) (s : State) : (writeRx f s).env.wire = s.env.wire := rfl
@[simp] theorem writeRx_phy (f : RxFrame) (s : State) : (writeRx f s).env.phy = s.env.phy := rfl
@[simp] theorem writeRx_drawn (f : RxFrame) (s : State) :
    (writeRx f s).env.drawn = ((s.endRaces .rx s.rx.hw).drewIf
      ((List.range (rxChunk s.cfg f).length).any fun k =>
        filledHolds s ((s.rxSlot s.rx.hw).buf + BitVec.ofNat 32 k))).env.drawn := rfl

@[simp] theorem drawFrame_cfg (s : State) :
    ((drawFrame s).2).cfg = s.cfg := by unfold drawFrame; dsimp only; split <;> rfl
@[simp] theorem drawFrame_life (s : State) :
    ((drawFrame s).2).life = s.life := by unfold drawFrame; dsimp only; split <;> rfl
@[simp] theorem drawFrame_fatal (s : State) :
    ((drawFrame s).2).fatal = s.fatal := by unfold drawFrame; dsimp only; split <;> rfl
@[simp] theorem drawFrame_tx (s : State) :
    ((drawFrame s).2).tx = s.tx := by unfold drawFrame; dsimp only; split <;> rfl
@[simp] theorem drawFrame_rx (s : State) :
    ((drawFrame s).2).rx = s.rx := by unfold drawFrame; dsimp only; split <;> rfl
@[simp] theorem drawFrame_mac (s : State) :
    ((drawFrame s).2).mac = s.mac := by unfold drawFrame; dsimp only; split <;> rfl
@[simp] theorem drawFrame_mdio (s : State) :
    ((drawFrame s).2).mdio = s.mdio := by unfold drawFrame; dsimp only; split <;> rfl
@[simp] theorem drawFrame_irq (s : State) :
    ((drawFrame s).2).irq = s.irq := by unfold drawFrame; dsimp only; split <;> rfl
@[simp] theorem drawFrame_cnt (s : State) :
    ((drawFrame s).2).cnt = s.cnt := by unfold drawFrame; dsimp only; split <;> rfl
@[simp] theorem drawFrame_out (s : State) :
    ((drawFrame s).2).out = s.out := by unfold drawFrame; dsimp only; split <;> rfl
@[simp] theorem drawFrame_mem (s : State) :
    ((drawFrame s).2).mem = s.mem := by unfold drawFrame; dsimp only; split <;> rfl
@[simp] theorem drawFrame_ports (s : State) :
    ((drawFrame s).2).ports = s.ports := by unfold drawFrame; dsimp only; split <;> rfl

@[simp] theorem drawPhy_cfg (d r : BitVec 5) (s : State) :
    ((drawPhy d r s).2).cfg = s.cfg := by unfold drawPhy; split <;> rfl
@[simp] theorem drawPhy_life (d r : BitVec 5) (s : State) :
    ((drawPhy d r s).2).life = s.life := by unfold drawPhy; split <;> rfl
@[simp] theorem drawPhy_fatal (d r : BitVec 5) (s : State) :
    ((drawPhy d r s).2).fatal = s.fatal := by unfold drawPhy; split <;> rfl
@[simp] theorem drawPhy_tx (d r : BitVec 5) (s : State) :
    ((drawPhy d r s).2).tx = s.tx := by unfold drawPhy; split <;> rfl
@[simp] theorem drawPhy_rx (d r : BitVec 5) (s : State) :
    ((drawPhy d r s).2).rx = s.rx := by unfold drawPhy; split <;> rfl
@[simp] theorem drawPhy_mac (d r : BitVec 5) (s : State) :
    ((drawPhy d r s).2).mac = s.mac := by unfold drawPhy; split <;> rfl
@[simp] theorem drawPhy_mdio (d r : BitVec 5) (s : State) :
    ((drawPhy d r s).2).mdio = s.mdio := by unfold drawPhy; split <;> rfl
@[simp] theorem drawPhy_irq (d r : BitVec 5) (s : State) :
    ((drawPhy d r s).2).irq = s.irq := by unfold drawPhy; split <;> rfl
@[simp] theorem drawPhy_cnt (d r : BitVec 5) (s : State) :
    ((drawPhy d r s).2).cnt = s.cnt := by unfold drawPhy; split <;> rfl
@[simp] theorem drawPhy_out (d r : BitVec 5) (s : State) :
    ((drawPhy d r s).2).out = s.out := by unfold drawPhy; split <;> rfl
@[simp] theorem drawPhy_mem (d r : BitVec 5) (s : State) :
    ((drawPhy d r s).2).mem = s.mem := by unfold drawPhy; split <;> rfl
@[simp] theorem drawPhy_ports (d r : BitVec 5) (s : State) :
    ((drawPhy d r s).2).ports = s.ports := by unfold drawPhy; split <;> rfl

@[simp] theorem drawAllocRaw_cfg (s : State) :
    ((drawAllocRaw s).2).cfg = s.cfg := by unfold drawAllocRaw; split <;> rfl
@[simp] theorem drawAllocRaw_life (s : State) :
    ((drawAllocRaw s).2).life = s.life := by unfold drawAllocRaw; split <;> rfl
@[simp] theorem drawAllocRaw_fatal (s : State) :
    ((drawAllocRaw s).2).fatal = s.fatal := by unfold drawAllocRaw; split <;> rfl
@[simp] theorem drawAllocRaw_tx (s : State) :
    ((drawAllocRaw s).2).tx = s.tx := by unfold drawAllocRaw; split <;> rfl
@[simp] theorem drawAllocRaw_rx (s : State) :
    ((drawAllocRaw s).2).rx = s.rx := by unfold drawAllocRaw; split <;> rfl
@[simp] theorem drawAllocRaw_mac (s : State) :
    ((drawAllocRaw s).2).mac = s.mac := by unfold drawAllocRaw; split <;> rfl
@[simp] theorem drawAllocRaw_mdio (s : State) :
    ((drawAllocRaw s).2).mdio = s.mdio := by unfold drawAllocRaw; split <;> rfl
@[simp] theorem drawAllocRaw_irq (s : State) :
    ((drawAllocRaw s).2).irq = s.irq := by unfold drawAllocRaw; split <;> rfl
@[simp] theorem drawAllocRaw_cnt (s : State) :
    ((drawAllocRaw s).2).cnt = s.cnt := by unfold drawAllocRaw; split <;> rfl
@[simp] theorem drawAllocRaw_out (s : State) :
    ((drawAllocRaw s).2).out = s.out := by unfold drawAllocRaw; split <;> rfl
@[simp] theorem drawAllocRaw_mem (s : State) :
    ((drawAllocRaw s).2).mem = s.mem := by unfold drawAllocRaw; split <;> rfl
@[simp] theorem drawAllocRaw_ports (s : State) :
    ((drawAllocRaw s).2).ports = s.ports := by unfold drawAllocRaw; split <;> rfl

@[simp] theorem drawAlloc_cfg (s : State) : ((drawAlloc s).2).cfg = s.cfg := by simp [drawAlloc]
@[simp] theorem drawAlloc_life (s : State) : ((drawAlloc s).2).life = s.life := by simp [drawAlloc]
@[simp] theorem drawAlloc_fatal (s : State) : ((drawAlloc s).2).fatal = s.fatal := by simp [drawAlloc]
@[simp] theorem drawAlloc_tx (s : State) : ((drawAlloc s).2).tx = s.tx := by simp [drawAlloc]
@[simp] theorem drawAlloc_rx (s : State) : ((drawAlloc s).2).rx = s.rx := by simp [drawAlloc]
@[simp] theorem drawAlloc_mac (s : State) : ((drawAlloc s).2).mac = s.mac := by simp [drawAlloc]
@[simp] theorem drawAlloc_mdio (s : State) : ((drawAlloc s).2).mdio = s.mdio := by simp [drawAlloc]
@[simp] theorem drawAlloc_irq (s : State) : ((drawAlloc s).2).irq = s.irq := by simp [drawAlloc]
@[simp] theorem drawAlloc_cnt (s : State) : ((drawAlloc s).2).cnt = s.cnt := by simp [drawAlloc]
@[simp] theorem drawAlloc_out (s : State) : ((drawAlloc s).2).out = s.out := by simp [drawAlloc]
@[simp] theorem drawAlloc_mem (s : State) : ((drawAlloc s).2).mem = s.mem := by simp [drawAlloc]
@[simp] theorem drawAlloc_ports (s : State) : ((drawAlloc s).2).ports = s.ports := by simp [drawAlloc]

@[simp] theorem frameArrives_cfg (f : Frame) (s : State) :
    (frameArrives f s).cfg = s.cfg := by unfold frameArrives; (repeat' split) <;> simp
@[simp] theorem frameArrives_life (f : Frame) (s : State) :
    (frameArrives f s).life = s.life := by unfold frameArrives; (repeat' split) <;> simp
@[simp] theorem frameArrives_fatal (f : Frame) (s : State) :
    (frameArrives f s).fatal = s.fatal := by unfold frameArrives; (repeat' split) <;> simp
@[simp] theorem frameArrives_tx (f : Frame) (s : State) :
    (frameArrives f s).tx = s.tx := by unfold frameArrives; (repeat' split) <;> simp
@[simp] theorem frameArrives_mac (f : Frame) (s : State) :
    (frameArrives f s).mac = s.mac := by unfold frameArrives; (repeat' split) <;> simp
@[simp] theorem frameArrives_mdio (f : Frame) (s : State) :
    (frameArrives f s).mdio = s.mdio := by unfold frameArrives; (repeat' split) <;> simp
@[simp] theorem frameArrives_cnt (f : Frame) (s : State) :
    (frameArrives f s).cnt = s.cnt := by unfold frameArrives; (repeat' split) <;> simp
@[simp] theorem frameArrives_out (f : Frame) (s : State) :
    (frameArrives f s).out = s.out := by unfold frameArrives; (repeat' split) <;> simp
@[simp] theorem frameArrives_mem (f : Frame) (s : State) :
    (frameArrives f s).mem = s.mem := by unfold frameArrives; (repeat' split) <;> simp
@[simp] theorem frameArrives_ports (f : Frame) (s : State) :
    (frameArrives f s).ports = s.ports := by unfold frameArrives; (repeat' split) <;> simp
@[simp] theorem frameArrives_env (f : Frame) (s : State) :
    (frameArrives f s).env = s.env := by unfold frameArrives; (repeat' split) <;> simp

@[simp] theorem endTransaction_cfg (s : State) :
    (endTransaction s).cfg = s.cfg := by unfold endTransaction; dsimp only; split <;> simp
@[simp] theorem endTransaction_life (s : State) :
    (endTransaction s).life = s.life := by unfold endTransaction; dsimp only; split <;> simp
@[simp] theorem endTransaction_fatal (s : State) :
    (endTransaction s).fatal = s.fatal := by unfold endTransaction; dsimp only; split <;> simp
@[simp] theorem endTransaction_tx (s : State) :
    (endTransaction s).tx = s.tx := by unfold endTransaction; dsimp only; split <;> simp
@[simp] theorem endTransaction_rx (s : State) :
    (endTransaction s).rx = s.rx := by unfold endTransaction; dsimp only; split <;> simp
@[simp] theorem endTransaction_mac (s : State) :
    (endTransaction s).mac = s.mac := by unfold endTransaction; dsimp only; split <;> simp
@[simp] theorem endTransaction_irq (s : State) :
    (endTransaction s).irq = s.irq := by unfold endTransaction; dsimp only; split <;> simp
@[simp] theorem endTransaction_cnt (s : State) :
    (endTransaction s).cnt = s.cnt := by unfold endTransaction; dsimp only; split <;> simp
@[simp] theorem endTransaction_mem (s : State) :
    (endTransaction s).mem = s.mem := by unfold endTransaction; dsimp only; split <;> simp
@[simp] theorem endTransaction_ports (s : State) :
    (endTransaction s).ports = s.ports := by unfold endTransaction; dsimp only; split <;> simp

@[simp] theorem endMdioHold_cfg (s : State) :
    s.endMdioHold.cfg = s.cfg := by unfold State.endMdioHold; dsimp only; split <;> simp
@[simp] theorem endMdioHold_life (s : State) :
    s.endMdioHold.life = s.life := by unfold State.endMdioHold; dsimp only; split <;> simp
@[simp] theorem endMdioHold_fatal (s : State) :
    s.endMdioHold.fatal = s.fatal := by unfold State.endMdioHold; dsimp only; split <;> simp
@[simp] theorem endMdioHold_tx (s : State) :
    s.endMdioHold.tx = s.tx := by unfold State.endMdioHold; dsimp only; split <;> simp
@[simp] theorem endMdioHold_rx (s : State) :
    s.endMdioHold.rx = s.rx := by unfold State.endMdioHold; dsimp only; split <;> simp
@[simp] theorem endMdioHold_mac (s : State) :
    s.endMdioHold.mac = s.mac := by unfold State.endMdioHold; dsimp only; split <;> simp
@[simp] theorem endMdioHold_mdio (s : State) :
    s.endMdioHold.mdio = s.mdio := by unfold State.endMdioHold; dsimp only; split <;> simp
@[simp] theorem endMdioHold_irq (s : State) :
    s.endMdioHold.irq = s.irq := by unfold State.endMdioHold; dsimp only; split <;> simp
@[simp] theorem endMdioHold_cnt (s : State) :
    s.endMdioHold.cnt = s.cnt := by unfold State.endMdioHold; dsimp only; split <;> simp
@[simp] theorem endMdioHold_out (s : State) :
    s.endMdioHold.out = s.out := by unfold State.endMdioHold; dsimp only; split <;> simp
@[simp] theorem endMdioHold_mem (s : State) :
    s.endMdioHold.mem = s.mem := by unfold State.endMdioHold; dsimp only; split <;> simp
@[simp] theorem endMdioHold_env (s : State) :
    s.endMdioHold.env = { s.env with mdioFor := none } := by unfold State.endMdioHold; dsimp only; split <;> simp

/-- The port that waits for the transaction gets its answer due; no other port changes. -/
theorem endMdioHold_port (s : State) (p : Issuer) :
    s.endMdioHold.port p
      = if s.env.mdioFor = some p ∧ p ≠ .hw then { s.port p with phase := mdioPhase s.mdio.data (s.port p).phase }
        else s.port p := by
  unfold State.endMdioHold
  dsimp only
  cases hm : s.env.mdioFor with
  | none => cases p <;> simp [State.port]
  | some q => cases q <;> cases p <;> simp [State.port, State.setPort]

@[simp] theorem finishMdio_cfg (s : State) : (finishMdio s).cfg = s.cfg := by simp [finishMdio]
@[simp] theorem finishMdio_life (s : State) : (finishMdio s).life = s.life := by simp [finishMdio]
@[simp] theorem finishMdio_fatal (s : State) : (finishMdio s).fatal = s.fatal := by simp [finishMdio]
@[simp] theorem finishMdio_tx (s : State) : (finishMdio s).tx = s.tx := by simp [finishMdio]
@[simp] theorem finishMdio_rx (s : State) : (finishMdio s).rx = s.rx := by simp [finishMdio]
@[simp] theorem finishMdio_mac (s : State) : (finishMdio s).mac = s.mac := by simp [finishMdio]
@[simp] theorem finishMdio_irq (s : State) : (finishMdio s).irq = s.irq := by simp [finishMdio]
@[simp] theorem finishMdio_cnt (s : State) : (finishMdio s).cnt = s.cnt := by simp [finishMdio]
@[simp] theorem finishMdio_mem (s : State) : (finishMdio s).mem = s.mem := by simp [finishMdio]
@[simp] theorem finishMdio_mdio (s : State) : (finishMdio s).mdio = (endTransaction s).mdio := by simp [finishMdio]
@[simp] theorem finishMdio_out (s : State) : (finishMdio s).out = (endTransaction s).out := by simp [finishMdio]
@[simp] theorem finishMdio_env (s : State) :
    (finishMdio s).env = { (endTransaction s).env with mdioFor := none } := by simp [finishMdio]

@[simp] theorem holdForMdio_cfg (wr : Bool) (dev reg : BitVec 5) (val : Half) (h : Held) (s : State) :
    (holdForMdio wr dev reg val h s).cfg = s.cfg := by simp [holdForMdio]
@[simp] theorem holdForMdio_life (wr : Bool) (dev reg : BitVec 5) (val : Half) (h : Held) (s : State) :
    (holdForMdio wr dev reg val h s).life = s.life := by simp [holdForMdio]
@[simp] theorem holdForMdio_fatal (wr : Bool) (dev reg : BitVec 5) (val : Half) (h : Held) (s : State) :
    (holdForMdio wr dev reg val h s).fatal = s.fatal := by simp [holdForMdio]
@[simp] theorem holdForMdio_tx (wr : Bool) (dev reg : BitVec 5) (val : Half) (h : Held) (s : State) :
    (holdForMdio wr dev reg val h s).tx = s.tx := by simp [holdForMdio]
@[simp] theorem holdForMdio_rx (wr : Bool) (dev reg : BitVec 5) (val : Half) (h : Held) (s : State) :
    (holdForMdio wr dev reg val h s).rx = s.rx := by simp [holdForMdio]
@[simp] theorem holdForMdio_mac (wr : Bool) (dev reg : BitVec 5) (val : Half) (h : Held) (s : State) :
    (holdForMdio wr dev reg val h s).mac = s.mac := by simp [holdForMdio]
@[simp] theorem holdForMdio_irq (wr : Bool) (dev reg : BitVec 5) (val : Half) (h : Held) (s : State) :
    (holdForMdio wr dev reg val h s).irq = s.irq := by simp [holdForMdio]
@[simp] theorem holdForMdio_cnt (wr : Bool) (dev reg : BitVec 5) (val : Half) (h : Held) (s : State) :
    (holdForMdio wr dev reg val h s).cnt = s.cnt := by simp [holdForMdio]
@[simp] theorem holdForMdio_out (wr : Bool) (dev reg : BitVec 5) (val : Half) (h : Held) (s : State) :
    (holdForMdio wr dev reg val h s).out = s.out := by simp [holdForMdio]
@[simp] theorem holdForMdio_mem (wr : Bool) (dev reg : BitVec 5) (val : Half) (h : Held) (s : State) :
    (holdForMdio wr dev reg val h s).mem = s.mem := by simp [holdForMdio]
@[simp] theorem holdForMdio_mdio (wr : Bool) (dev reg : BitVec 5) (val : Half) (h : Held) (s : State) :
    (holdForMdio wr dev reg val h s).mdio = { s.mdio with busy := true, req := ⟨wr, dev, reg, val⟩ } := by
  simp [holdForMdio]
@[simp] theorem holdForMdio_env (wr : Bool) (dev reg : BitVec 5) (val : Half) (h : Held) (s : State) :
    (holdForMdio wr dev reg val h s).env = { s.env with mdioFor := some s.env.issuer } := by simp [holdForMdio]
@[simp] theorem holdForMdio_ports (wr : Bool) (dev reg : BitVec 5) (val : Half) (h : Held) (s : State) :
    (holdForMdio wr dev reg val h s).ports = (s.hold h).ports := by
  cases hp : s.env.issuer <;> simp [holdForMdio, State.hold, State.setPort, State.port, hp]

end Sys2Proof.Machine
end

