-- ==== Sys2Proof/Laws/Ops.lean ====
section
/-!
SUPPORT. One lemma for each shared operation that says everything it can do, for proofs to cite instead of unfolding it:
if it answers a next state, then one of the listed cases holds; and the equation for the case that runs.
-/

namespace Sys2Proof.Machine

/-! Answers, as claims write them. -/

@[simp] theorem rcOk_eq : rcOk = 0#32 := rfl
@[simp] theorem rcOutOfMemory_eq : rcOutOfMemory = 1#32 := rfl
@[simp] theorem rcConfigError_eq : rcConfigError = 2#32 := rfl

/-- An answer on the port of the running transition. -/
theorem answer_eq {s : State} {p : Issuer} (res val : Word) (h : s.env.issuer = p) :
    s.answer res val = s.answeredOn p res val := by
  subst h
  unfold State.answer State.answeredOn
  cases s.env.issuer <;> rfl

/-- A hold on the port of the running transition. -/
theorem hold_eq {s : State} {p : Issuer} (k : Held) (h : s.env.issuer = p) : s.hold k = s.heldOn p k := by
  subst h
  unfold State.hold State.heldOn
  cases s.env.issuer <;> rfl

/-- In a live engine the operations of the driver run. -/
theorem colLive_of_isLive {l : Life} (h : isLive l) : colLive l = .run := by
  rcases h with rfl | rfl | rfl <;> rfl

/-! The common part of every operation. -/

/-- A host operation past its checks runs its own lines. -/
theorem hostOp_run {legal : Bool} {cell : Life → Cell} {s : State} (body : Result) (hl : legal = true)
    (hf : s.fatal = none) (hc : cell s.life = .run) : hostOp legal cell s body = body := by
  simp [hostOp, hl, hf, hc]

/-- A host operation its lifecycle state does not admit answers `CONFIG_ERROR`. -/
theorem hostOp_ce {legal : Bool} {cell : Life → Cell} {s : State} (body : Result) (hl : legal = true)
    (hf : s.fatal = none) (hc : cell s.life = .ce) :
    hostOp legal cell s body = .next (s.answer rcConfigError 0#32) := by simp [hostOp, hl, hf, hc]

/-- A host operation that its lifecycle state lets pass unchanged answers `OK`. -/
theorem hostOp_ok {legal : Bool} {cell : Life → Cell} {s : State} (body : Result) (hl : legal = true)
    (hf : s.fatal = none) (hc : cell s.life = .ok) : hostOp legal cell s body = .next (s.answer rcOk 0#32) := by
  simp [hostOp, hl, hf, hc]

/-- A legal host operation has no step once the fatal latch is set. -/
theorem hostOp_fatal {legal : Bool} {cell : Life → Cell} {s : State} (body : Result) (hl : legal = true)
    (hf : s.fatal.isSome = true) : hostOp legal cell s body = .fault .fatalLatched := by simp [hostOp, hl, hf]

/-- What is illegal answers `CONFIG_ERROR` on a host port and has no next state elsewhere. -/
theorem illegal_next {s t : State} (h : illegal s = .next t) :
    t = s.answer rcConfigError 0#32 ∧ s.env.issuer ≠ .be ∧ s.env.issuer ≠ .hw := by
  unfold illegal at h
  split at h
  · rename_i hi
    simp_all
  · rename_i hi
    simp_all
  · rename_i hi
    simp_all
  · cases h
  · cases h

/-- Everything a host operation can answer. -/
theorem hostOp_next {legal : Bool} {cell : Life → Cell} {s t : State} {body : Result}
    (h : hostOp legal cell s body = .next t) :
    (legal = true ∧ s.fatal = none ∧ cell s.life = .run ∧ body = .next t)
      ∨ (legal = true ∧ s.fatal = none ∧ cell s.life = .ce ∧ t = s.answer rcConfigError 0#32)
      ∨ (legal = true ∧ s.fatal = none ∧ cell s.life = .ok ∧ t = s.answer rcOk 0#32)
      ∨ (legal = false ∧ t = s.answer rcConfigError 0#32) := by
  unfold hostOp at h
  split at h
  · rename_i hl
    split at h
    · cases h
    · rename_i hf
      have hf' : s.fatal = none := by simpa using hf
      split at h
      · exact .inl ⟨hl, hf', ‹_›, h⟩
      · cases h
        exact .inr (.inl ⟨hl, hf', ‹_›, rfl⟩)
      · cases h
        exact .inr (.inr (.inl ⟨hl, hf', ‹_›, rfl⟩))
  · rename_i hl
    exact .inr (.inr (.inr ⟨by simpa using hl, (illegal_next h).1⟩))

/-- A primitive on `be`, inside a host operation, with its operands in range and its precondition met. -/
theorem primitive_run {s : State} {inRange pre : Bool} (eff : State) (val : Word) (hp : Sequences s)
    (hr : inRange = true) (hpre : pre = true) :
    primitive s inRange pre eff val = .next (eff.answer rcOk val) := by
  obtain ⟨⟨h1, h2⟩, h3⟩ := hp
  simp [primitive, h1, h2, h3, hr, hpre]

/-- No primitive is issued once the fatal latch is set. -/
theorem primitive_fatal {s : State} {inRange pre : Bool} (eff : State) (val : Word) (hp : s.env.issuer = .be)
    (hf : s.fatal.isSome = true) : primitive s inRange pre eff val = .fault .fatalLatched := by
  simp [primitive, hp, hf]

/-- No primitive is issued outside a host operation. -/
theorem primitive_alone {s : State} {inRange pre : Bool} (eff : State) (val : Word) (hp : Runs s .be)
    (hs : sequencing s = false) : primitive s inRange pre eff val = .fault .stepNotEnabled := by
  obtain ⟨h1, h2⟩ := hp
  simp [primitive, h1, h2, hs]

/-- Everything a primitive can answer: its effect on `be`, or the answer of an illegal tuple on a host port. -/
theorem primitive_next {s t eff : State} {inRange pre : Bool} {val : Word}
    (h : primitive s inRange pre eff val = .next t) :
    (Sequences s ∧ inRange = true ∧ pre = true ∧ t = eff.answer rcOk val)
      ∨ (s.env.issuer ≠ .be ∧ t = s.answer rcConfigError 0#32) := by
  unfold primitive at h
  split at h
  · rename_i hi
    split at h
    · cases h
    · rename_i hf
      split at h
      · cases h
      · rename_i hs
        split at h
        · split at h
          · cases h
            exact .inl ⟨⟨⟨hi, by simpa using hf⟩, by simpa using hs⟩, ‹_›, ‹_›, rfl⟩
          · cases h
        · cases h
  all_goals
    rename_i hi
    exact .inr ⟨by simp [hi], (illegal_next h).1⟩

/-- An enabled step of a hardware agent. -/
theorem agentStep_run {s : State} {enabled : Bool} (body : Result) (hp : s.env.issuer = .hw) (hf : s.fatal = none)
    (he : enabled = true) : agentStep s enabled body = body := by simp [agentStep, hp, hf, he]

/-- Everything the step of a hardware agent can answer. -/
theorem agentStep_next {s t : State} {enabled : Bool} {body : Result} (h : agentStep s enabled body = .next t) :
    (s.env.issuer = .hw ∧ s.fatal = none ∧ enabled = true ∧ body = .next t)
      ∨ (s.env.issuer ≠ .hw ∧ t = s.answer rcConfigError 0#32) := by
  unfold agentStep at h
  split at h
  · rename_i hi
    split at h
    · cases h
    · rename_i hf
      split at h
      · exact .inl ⟨hi, by simpa using hf, ‹_›, h⟩
      · cases h
  all_goals
    rename_i hi
    exact .inr ⟨by simp [hi], (illegal_next h).1⟩

/-- Everything the end of a hold can do: DISABLE and DEINIT end once nothing is in flight, an MDIO operation once its
MDIO_DONE has come. -/
theorem finishHeld_some {h : Held} {s t : State} (he : finishHeld h s = some t) :
    (h = .disable ∧ quiet s = true ∧ t = finishDisable s) ∨ (h = .deinit ∧ quiet s = true ∧ t = finishDeinit s)
      ∨ ∃ ret, h = .mdioOver ret ∧ t = s.answer rcOk ret := by
  cases h <;> simp_all [finishHeld]

/-- The end of a hold: the hold was on that port, the latch was clear, and the hold could end. -/
theorem completeHeld_next {p : Issuer} {s t : State} (h : completeHeld p s = .next t) :
    ∃ k, (s.port p).phase = .held k ∧ s.fatal = none
      ∧ finishHeld k { s with env := { s.env with issuer := p } } = some t := by
  unfold completeHeld at h
  split at h
  · rename_i k hk
    split at h
    · cases h
    · rename_i hf
      split at h
      · rename_i u hu
        cases h
        exact ⟨k, hk, by simpa using hf, hu⟩
      · cases h
  all_goals cases h

/-! The step. -/

/-- Everything a step can do. -/
theorem step_next {s t : State} (h : step s = .next t) :
    (s.env.inputs = [] ∧ t = s)
      ∨ ∃ x rest, s.env.inputs = x :: rest ∧
        ((∃ p w i, x = .present p w ∧ isHeld (s.port p) = false ∧ decode w = some i
            ∧ exec i (s.dropInput.latch p w) = .next t)
          ∨ (∃ p w, x = .present p w ∧ isHeld (s.port p) = false ∧ decode w = none
            ∧ illegal (s.dropInput.latch p w) = .next t)
          ∨ (∃ p, x = .complete p ∧ completeHeld p s.dropInput = .next t)
          ∨ (∃ p n, x = .csrRead p n ∧ readCsr p n s.dropInput = .next t)
          ∨ (∃ p a, x = .load p a ∧ hostLoad p a s.dropInput = .next t)
          ∨ (∃ p a, x = .loadWord p a ∧ hostLoadWord p a s.dropInput = .next t)
          ∨ (∃ p a v, x = .store p a v ∧ hostStore a v s.dropInput = .next t)
          ∨ (x = .powerOn ∧ t = powerOn s.dropInput)) := by
  have hport : ∀ p, s.dropInput.port p = s.port p := fun p => by cases p <;> rfl
  unfold step fetch at h
  cases hin : s.env.inputs with
  | nil =>
    simp only [hin] at h
    exact .inl ⟨rfl, by cases h; rfl⟩
  | cons x rest =>
    simp only [hin] at h
    refine .inr ⟨x, rest, rfl, ?_⟩
    cases x with
    | present p w =>
      simp only [fetchStim, present, hport] at h
      by_cases hh : isHeld (s.port p)
      · simp [hh] at h
      · simp only [hh] at h
        cases hd : decode w with
        | some i =>
          simp only [hd] at h
          exact .inl ⟨p, w, i, rfl, by simpa using hh, hd, h⟩
        | none =>
          simp only [hd] at h
          exact .inr (.inl ⟨p, w, rfl, by simpa using hh, hd, h⟩)
    | complete p => exact .inr (.inr (.inl ⟨p, rfl, h⟩))
    | csrRead p n => exact .inr (.inr (.inr (.inl ⟨p, n, rfl, h⟩)))
    | load p a => exact .inr (.inr (.inr (.inr (.inl ⟨p, a, rfl, h⟩))))
    | loadWord p a => exact .inr (.inr (.inr (.inr (.inr (.inl ⟨p, a, rfl, h⟩)))))
    | store p a v => exact .inr (.inr (.inr (.inr (.inr (.inr (.inl ⟨p, a, v, rfl, h⟩))))))
    | powerOn =>
      refine .inr (.inr (.inr (.inr (.inr (.inr (.inr ⟨rfl, ?_⟩))))))
      simp only [fetchStim] at h
      cases h
      rfl

/-! Reclaim. -/

/-- What every turn of `Reclaim()` keeps, `Reclaim()` keeps. -/
theorem reclaimLoop_keeps (P : State → Prop)
    (hstep : ∀ s, P s → s.tx.free < s.cfg.dTx → ownedByDma s .tx s.tx.cursor = false → P (reclaimSlot s))
    (fuel : Nat) (s : State) (n : Nat) (h : P s) : P (reclaimLoop fuel s n).1 := by
  induction fuel generalizing s n with
  | zero => exact h
  | succ fuel ih =>
    unfold reclaimLoop
    split
    · rename_i hg
      simp only [Bool.and_eq_true, decide_eq_true_eq, Bool.not_eq_true'] at hg
      exact ih _ _ (hstep s h hg.1 hg.2)
    · exact h

/-- What every turn of `Reclaim()` keeps, `Reclaim()` keeps. -/
theorem reclaim_keeps (P : State → Prop)
    (hstep : ∀ s, P s → s.tx.free < s.cfg.dTx → ownedByDma s .tx s.tx.cursor = false → P (reclaimSlot s))
    (s : State) (h : P s) : P (reclaim s).1 := reclaimLoop_keeps P hstep _ s 0 h

/-- What `Reclaim()` leaves alone. -/
theorem reclaim_frame (s : State) :
    let t := (reclaim s).1
    t = { s with
      tx := { s.tx with book := t.tx.book, cursor := t.tx.cursor, free := t.tx.free }
      out := { s.out with notify := t.out.notify } } := by
  refine reclaim_keeps (fun t => t = { s with
      tx := { s.tx with book := t.tx.book, cursor := t.tx.cursor, free := t.tx.free }
      out := { s.out with notify := t.out.notify } }) ?_ s rfl
  intro t ht _ _
  have h1 := congrArg State.tx ht
  have h2 := congrArg State.out ht
  rw [ht]
  unfold reclaimSlot
  dsimp only
  split <;> rfl

/-! The prime procedure, the poll, and their draws. -/

/-- What `Reclaim()` and the ring rules read of a state does not depend on the environment. -/
theorem drawAllocRaw_env (s : State) : (drawAllocRaw s).2 = { s with env := (drawAllocRaw s).2.env } := by
  unfold drawAllocRaw
  split <;> rfl

/-- A draw changes the environment only, and answers no attached pointer (00_scope.md R16). -/
theorem drawAlloc_spec (s : State) :
    (drawAlloc s).2 = { s with env := (drawAlloc s).2.env }
      ∧ ∀ b, (drawAlloc s).1 = some b → s.rx.book.contains (some b) = false ∧ s.tx.book.contains (some b) = false := by
  refine ⟨drawAllocRaw_env s, fun b hb => ?_⟩
  simp only [drawAlloc, unlessAttached] at hb
  split at hb
  · cases hb
  · split at hb
    · cases hb
    · cases hb
      rename_i hn
      simpa [attachedIn] using hn

/-- What consuming and re-priming one slot keeps, consuming a run keeps. -/
theorem consumeRun_keeps (P : State → Prop) (bad : Bool)
    (hsame : ∀ s i p, P s → bad = true → P (primeSlot p (consumeSlot i s)))
    (hnew : ∀ s i b, P s → bad = false → (drawAlloc (consumeSlot i s)).1 = some b →
      meetsDescriptors s.cfg b s.cfg.rxBufSize = false → P (primeSlot b (drawAlloc (consumeSlot i s)).2))
    (hnone : ∀ s i, P s → bad = false → (drawAlloc (consumeSlot i s)).1 = none →
      P (drawAlloc (consumeSlot i s)).2)
    (run : List (Nat × Word)) (s t : State) (h : P s) (hr : consumeRun bad run s = .ok t) : P t := by
  induction run generalizing s with
  | nil =>
    cases hr
    exact h
  | cons x rest ih =>
    obtain ⟨i, p⟩ := x
    unfold consumeRun at hr
    dsimp only at hr
    split at hr
    · exact ih _ (hsame s i p h ‹_›) hr
    · rename_i hb
      have hb' : bad = false := by simpa using hb
      cases hd : drawAlloc (consumeSlot i s) with
      | mk a s2 =>
        rw [hd] at hr
        cases a with
        | none =>
          have hn := hnone s i h hb'
          rw [hd] at hn
          exact ih _ (hn rfl) hr
        | some b =>
          dsimp only at hr
          split at hr
          · cases hr
          · rename_i hm
            have hn := hnew s i b h hb'
            rw [hd] at hn
            exact ih _ (hn rfl (by simpa using hm)) hr

/-- What consuming a complete run leaves alone. -/
theorem consumeRun_frame {bad : Bool} {run : List (Nat × Word)} {s t : State} (h : consumeRun bad run s = .ok t) :
    t.cfg = s.cfg ∧ t.life = s.life ∧ t.fatal = s.fatal ∧ t.tx = s.tx ∧ t.mac = s.mac ∧ t.mdio = s.mdio
      ∧ t.irq = s.irq ∧ t.cnt = s.cnt ∧ t.out = s.out ∧ t.mem = s.mem ∧ t.ports = s.ports
      ∧ t.env = { s.env with alloc := t.env.alloc, drawn := t.env.drawn } := by
  have henv : ∀ u : State, (drawAlloc u).2.env
      = { u.env with alloc := (drawAlloc u).2.env.alloc, drawn := (drawAlloc u).2.env.drawn } := fun u => by
    unfold drawAlloc drawAllocRaw
    dsimp only
    split <;> rfl
  refine consumeRun_keeps (fun t => t.cfg = s.cfg ∧ t.life = s.life ∧ t.fatal = s.fatal ∧ t.tx = s.tx ∧ t.mac = s.mac
      ∧ t.mdio = s.mdio ∧ t.irq = s.irq ∧ t.cnt = s.cnt ∧ t.out = s.out ∧ t.mem = s.mem ∧ t.ports = s.ports
      ∧ t.env = { s.env with alloc := t.env.alloc, drawn := t.env.drawn }) bad ?_ ?_ ?_ run s t (by simp) h
  · intro u i p hu _
    simpa using hu
  · intro u i b hu _ _ _
    have h1 := henv (consumeSlot i u)
    obtain ⟨g1, g2, g3, g4, g5, g6, g7, g8, g9, g10, g11, g12⟩ := hu
    refine ⟨by simpa, by simpa, by simpa, by simpa, by simpa, by simpa, by simpa, by simpa, by simpa, by simpa,
      by simpa, ?_⟩
    simp only [primeSlot_env]
    rw [h1]
    simp only [consumeSlot_env]
    rw [g12]
  · intro u i hu _ _
    have h1 := henv (consumeSlot i u)
    obtain ⟨g1, g2, g3, g4, g5, g6, g7, g8, g9, g10, g11, g12⟩ := hu
    refine ⟨by simpa, by simpa, by simpa, by simpa, by simpa, by simpa, by simpa, by simpa, by simpa, by simpa,
      by simpa, ?_⟩
    rw [h1]
    simp only [consumeSlot_env]
    rw [g12]

/-- Everything handling a complete run can do. -/
theorem finishRun_ok {run : List Nat} {bufs : List Word} {total : Nat} {s t : State}
    (h : finishRun run bufs total s = .ok t) :
    ∃ u, consumeRun (run.any fun i => isError s .rx i) (run.zip bufs) s = .ok u
      ∧ t = reportRun (run.any fun i => isError s .rx i) bufs total u := by
  unfold finishRun at h
  dsimp only at h
  split at h
  · cases h
    exact ⟨_, ‹_›, rfl⟩
  · cases h

/-- What every complete run handled keeps, `Poll()` keeps. -/
theorem pollLoop_keeps (P : State → Prop)
    (hstep : ∀ s k bufs total, P s → s.rx.unprimed ≠ s.cfg.dRx → ownedByDma s .rx s.rx.cursor = false →
      isFirst s .rx s.rx.cursor = true →
      scanRun s (s.cfg.dRx - s.rx.unprimed - 1) s.rx.cursor 1 = .complete k →
      runBuffers s (ringSlots s.cfg.dRx s.rx.cursor k) = some bufs →
      ∀ u, finishRun (ringSlots s.cfg.dRx s.rx.cursor k) bufs total s = .ok u → P u)
    (fuel : Nat) (s t : State) (n k : Nat) (h : P s) (hp : pollLoop fuel s n = .ok (t, k)) : P t := by
  induction fuel generalizing s n with
  | zero => cases hp
  | succ fuel ih =>
    unfold pollLoop at hp
    dsimp only at hp
    split at hp
    · cases hp
      exact h
    · rename_i hu
      split at hp
      · cases hp
        exact h
      · rename_i ho
        split at hp
        · cases hp
        · rename_i hf
          split at hp
          · cases hp
            exact h
          · cases hp
          · rename_i m hm
            split at hp
            · cases hp
            · rename_i bufs hb
              split at hp
              · rename_i u hq
                exact ih _ _ (hstep s m bufs _ h hu (by simpa using ho) (by simpa using hf) hm hb u hq) hp
              · cases hp

/-- What the ring rules of the Rx side leave alone: `t` differs from `s` in the Rx ring, `rxErrorCount`, `notify` and
the answers of the pool only. -/
abbrev PollFrame (s t : State) : Prop :=
  t.cfg = s.cfg ∧ t.life = s.life ∧ t.fatal = s.fatal ∧ t.tx = s.tx ∧ t.mac = s.mac ∧ t.mdio = s.mdio
    ∧ t.irq = s.irq ∧ t.mem = s.mem ∧ t.ports = s.ports ∧ t.cnt = { s.cnt with rxError := t.cnt.rxError }
    ∧ t.out = { s.out with notify := t.out.notify }
    ∧ t.env = { s.env with alloc := t.env.alloc, drawn := t.env.drawn }

theorem PollFrame_trans {s t u : State} (h : PollFrame s t) (g : PollFrame t u) : PollFrame s u := by
  obtain ⟨h1, h2, h3, h4, h5, h6, h7, h8, h9, h10, h11, h12⟩ := h
  obtain ⟨g1, g2, g3, g4, g5, g6, g7, g8, g9, g10, g11, g12⟩ := g
  refine ⟨g1.trans h1, g2.trans h2, g3.trans h3, g4.trans h4, g5.trans h5, g6.trans h6, g7.trans h7, g8.trans h8,
    g9.trans h9, ?_, ?_, ?_⟩
  · rw [g10, h10]
  · rw [g11, h11]
  · rw [g12, h12]

/-- What handling one complete run leaves alone. -/
theorem finishRun_frame {run : List Nat} {bufs : List Word} {total : Nat} {s t : State}
    (h : finishRun run bufs total s = .ok t) : PollFrame s t := by
  obtain ⟨u, hu, rfl⟩ := finishRun_ok h
  obtain ⟨g1, g2, g3, g4, g5, g6, g7, g8, g9, g10, g11, g12⟩ := consumeRun_frame hu
  unfold reportRun
  split
  · exact ⟨g1, g2, g3, g4, g5, g6, g7, g10, g11, by simp [g8], by simp [g9], g12⟩
  · exact ⟨g1, g2, g3, g4, g5, g6, g7, g10, g11, by simp [g8], by simp [g9], g12⟩

/-- What `Poll()` leaves alone. -/
theorem poll_frame {s t : State} {k : Nat} (h : poll s = .ok (t, k)) : PollFrame s t :=
  pollLoop_keeps (PollFrame s) (fun _ _ _ _ hu _ _ _ _ _ _ hq => PollFrame_trans hu (finishRun_frame hq)) _ s t 0 k
    (by simp [PollFrame]) h

/-! Services of a dispatch. -/

/-- A service of the Rx frames that answers is a poll, or nothing. -/
theorem serveRx_ok {p : BitVec 10} {s t : State} (h : serveRx p s = .ok t) :
    (hasIrq p irqRxFrame = true ∧ ∃ k, poll s = .ok (t, k)) ∨ (hasIrq p irqRxFrame = false ∧ t = s) := by
  unfold serveRx at h
  split at h
  · rename_i hp
    split at h
    · cases h
      exact .inl ⟨hp, _, ‹_›⟩
    · cases h
  · rename_i hp
    cases h
    exact .inr ⟨by simpa using hp, rfl⟩

/-- The services of a dispatch, in order (60_exceptions.md R306). -/
theorem serve_ok {p : BitVec 10} {s t : State} (h : serve p s = .ok t) :
    ∃ u, serveRx p (serveTx p (acknowledge p s)) = .ok u ∧ t = countStatistics p u := by
  unfold serve at h
  split at h
  · cases h
    exact ⟨_, ‹_›, rfl⟩
  · cases h

/-! INIT. -/

/-- The draws of INIT change the environment only. -/
theorem drawPool_env (n : Nat) (bufs : List Word) (s : State) :
    (drawPool n bufs s).2.2 = { s with env := (drawPool n bufs s).2.2.env } := by
  induction n generalizing bufs s with
  | zero => rfl
  | succ n ih =>
    have hd := drawAllocRaw_env s
    unfold drawPool
    dsimp only
    split
    · rw [ih]
      rw [hd]
    · exact hd

/-- The draws of INIT, when none is empty, give as many pointers as asked, no two equal. -/
theorem drawPool_full (n : Nat) (bufs taken : List Word) (s t : State) (hb : bufs.Nodup)
    (h : drawPool n bufs s = (true, taken, t)) : taken.length = bufs.length + n ∧ taken.Nodup := by
  induction n generalizing bufs s with
  | zero =>
    unfold drawPool at h
    cases h
    exact ⟨rfl, hb⟩
  | succ n ih =>
    unfold drawPool at h
    dsimp only at h
    split at h
    · rename_i p hp
      have hp' : p ∉ bufs := by
        intro hm
        unfold unlessAttached at hp
        split at hp
        · cases hp
        · split at hp
          · cases hp
          · cases hp
            simp_all
      have hnd : (bufs ++ [p]).Nodup := by
        rw [List.nodup_append]
        exact ⟨hb, by simp, fun a ha b hb' => by
          rintro rfl
          simp at hb'
          exact hp' (hb' ▸ ha)⟩
      obtain ⟨h1, h2⟩ := ih _ _ hnd h
      exact ⟨by rw [h1]; simp; omega, h2⟩
    · cases h

/-- Everything INIT past its checks can do. -/
theorem runInit_cases (s : State) :
    (∃ bufs t, drawPool s.cfg.dRx [] s = (true, bufs, t)
        ∧ (∀ b ∈ bufs, meetsDescriptors s.cfg b s.cfg.rxBufSize = false)
        ∧ runInit s = .next ((initialise bufs t).answer rcOk 0#32))
      ∨ (∃ bufs t, drawPool s.cfg.dRx [] s = (true, bufs, t)
        ∧ (∃ b ∈ bufs, meetsDescriptors s.cfg b s.cfg.rxBufSize = true) ∧ runInit s = .refused .platformOutsideSpec)
      ∨ ∃ bufs t, drawPool s.cfg.dRx [] s = (false, bufs, t)
        ∧ runInit s = .next ((t.release bufs).answer rcOutOfMemory 0#32) := by
  unfold runInit
  split
  · split
    · rename_i h
      exact .inr (.inl ⟨_, _, ‹_›, by simpa using h, rfl⟩)
    · rename_i h
      exact .inl ⟨_, _, ‹_›, by simpa using h, rfl⟩
  · exact .inr (.inr ⟨_, _, ‹_›, rfl⟩)

/-- What every prime keeps, priming a list of buffers keeps. -/
theorem primeAll_keeps (P : State → Prop) (hstep : ∀ s b, P s → P (primeSlot b s)) (bufs : List Word) (s : State)
    (h : P s) : P (primeAll bufs s) := by
  induction bufs generalizing s with
  | nil => exact h
  | cons b bs ih => exact ih _ (hstep s b h)

/-! Stores and races. -/

/-- A free one of a byte and others is one of them. -/
theorem anyOf_cases (s : State) (k : Nat) (b : Byte) (vs : List Byte) : anyOf s k b vs = b ∨ anyOf s k b vs ∈ vs := by
  unfold anyOf
  split
  · exact .inl rfl
  · rename_i v vs
    have hlt : Config.raceChoice s.env.drawn k % (vs.length + 2) < (b :: v :: vs).length := by
      simpa using Nat.mod_lt _ (Nat.succ_pos _)
    rw [List.getD_eq_getElem _ _ hlt]
    exact List.mem_cons.1 (List.getElem_mem hlt)

/-- What a store leaves at a byte of main memory: the byte stored, or on a filled buffer the one there before. -/
theorem anyOf_filledVals (s : State) (k : Nat) (a : Word) (v : Byte) :
    anyOf s k v (filledVals s a) = v
      ∨ (filledHolds s a = true ∧ anyOf s k v (filledVals s a) = memRead s.mem a.toNat) := by
  rcases anyOf_cases s k v (filledVals s a) with h | h
  · exact .inl h
  · cases hf : filledHolds s a with
    | false => simp [filledVals, hf] at h
    | true => exact .inr ⟨rfl, by simpa [filledVals, hf] using h⟩

/-- On a byte no filled buffer holds a store leaves the byte stored. -/
theorem anyOf_filledVals_quiet (s : State) (k : Nat) (a : Word) (v : Byte) (h : filledHolds s a = false) :
    anyOf s k v (filledVals s a) = v := by
  simp [filledVals, h, anyOf]

/-- What the engine moves for a byte: the byte itself without a race, else it or one of the values of the races, or, for
the Rx engine on a filled buffer, the byte there before. -/
theorem settled_cases (s : State) (r : Ring) (i k : Nat) (a : Word) (b : Byte) :
    settled s r i k a b = b
      ∨ (∃ x ∈ s.env.races, x.ring = r ∧ x.slot = i ∧ x.addr = a ∧ settled s r i k a b = x.val)
      ∨ (r = .rx ∧ filledHolds s a = true ∧ settled s r i k a b = memRead s.mem a.toNat) := by
  have hmem : ∀ v ∈ raceVals s r i a, ∃ x ∈ s.env.races, x.ring = r ∧ x.slot = i ∧ x.addr = a ∧ v = x.val := by
    intro v hv
    simp only [raceVals, List.mem_map, List.mem_filter, Bool.and_eq_true, beq_iff_eq] at hv
    obtain ⟨x, ⟨hx, ⟨h1, h2⟩, h3⟩, rfl⟩ := hv
    exact ⟨x, hx, h1, h2, h3, rfl⟩
  unfold settled
  rcases anyOf_cases s k b (otherVals s r i a) with h | h
  · exact .inl h
  · cases r with
    | tx => exact .inr (.inl (hmem _ h))
    | rx =>
      rcases List.mem_append.1 h with h | h
      · exact .inr (.inl (hmem _ h))
      · cases hf : filledHolds s a with
        | false => simp [filledVals, hf] at h
        | true => exact .inr (.inr ⟨rfl, rfl, by simpa [filledVals, hf] using h⟩)

@[simp] theorem settledBytes_length (s : State) (r : Ring) (i k : Nat) (a : Word) (bs : List Byte) :
    (settledBytes s r i k a bs).length = bs.length := by
  induction bs generalizing k a with
  | nil => rfl
  | cons b bs ih => simp [settledBytes, ih]

/-- Byte `m` of what the engine moves. -/
theorem settledBytes_getElem (s : State) (r : Ring) (i k : Nat) (a : Word) (bs : List Byte) (m : Nat)
    (h : m < (settledBytes s r i k a bs).length) :
    (settledBytes s r i k a bs)[m]
      = settled s r i (k + m) (a + BitVec.ofNat 32 m) (bs[m]'(by simpa using h)) := by
  induction bs generalizing k a m with
  | nil => simp [settledBytes] at h
  | cons b bs ih =>
    cases m with
    | zero => simp [settledBytes]
    | succ m =>
      have : a + BitVec.ofNat 32 (m + 1) = a + 1#32 + BitVec.ofNat 32 m := by
        rw [BitVec.add_assoc]
        congr 1
        rw [Nat.add_comm]
        exact BitVec.ofNat_add ..
      simp only [settledBytes, List.getElem_cons_succ]
      rw [ih (k + 1) (a + 1#32) m (by simpa [settledBytes] using h), this, Nat.add_right_comm]
      rfl

/-- Without a race on the slot the engine moves the bytes themselves: on Rx, clear of every filled buffer. -/
theorem settledBytes_quiet (s : State) (r : Ring) (i k : Nat) (a : Word) (bs : List Byte)
    (h : ∀ x ∈ s.env.races, ¬(x.ring = r ∧ x.slot = i))
    (hf : r = .rx → ∀ m, m < bs.length → filledHolds s (a + BitVec.ofNat 32 m) = false) :
    settledBytes s r i k a bs = bs := by
  induction bs generalizing k a with
  | nil => rfl
  | cons b bs ih =>
    have h1 : settled s r i k a b = b := by
      rcases settled_cases s r i k a b with h1 | ⟨x, hx, h1, h2, -⟩ | ⟨hr, h1, -⟩
      · exact h1
      · exact absurd ⟨h1, h2⟩ (h x hx)
      · have := hf hr 0 (by simp)
        simp only [BitVec.add_zero] at this
        simp [this] at h1
    have h2 := ih (k + 1) (a + 1#32) fun hr m hm => by
      have := hf hr (m + 1) (by simpa using hm)
      rwa [show a + BitVec.ofNat 32 (m + 1) = a + 1#32 + BitVec.ofNat 32 m by
        rw [BitVec.add_assoc]
        congr 1
        rw [Nat.add_comm]
        exact BitVec.ofNat_add ..] at this
    simp [settledBytes, h1, h2]

/-- Without a race on the slot no draw is made. -/
theorem endRaces_drawn_quiet (s : State) (r : Ring) (i : Nat)
    (h : ∀ x ∈ s.env.races, ¬(x.ring = r ∧ x.slot = i)) : (s.endRaces r i).env.drawn = s.env.drawn := by
  simp only [State.endRaces]
  rw [if_neg]
  simpa using h

/-- A store on bytes no engine-owned slot holds starts no race. -/
theorem racesAlong_quiet (s : State) (a : Word) (vs : List Byte)
    (h : ∀ k, k < vs.length → ∀ r i, slotHolds s r i (a + BitVec.ofNat 32 k) = false) :
    racesAlong s a vs = [] := by
  induction vs generalizing a with
  | nil => rfl
  | cons v vs ih =>
    have h0 := h 0 (by simp)
    simp only [BitVec.add_zero] at h0
    have h1 : racesAt s a v = [] := by simp [racesAt, h0]
    simp only [racesAlong, h1, List.nil_append]
    refine ih _ fun k hk r i => ?_
    have := h (k + 1) (by simpa using hk) r i
    rwa [show a + BitVec.ofNat 32 (k + 1) = a + 1#32 + BitVec.ofNat 32 k by
      rw [BitVec.add_assoc]
      congr 1
      rw [Nat.add_comm]
      exact BitVec.ofNat_add ..] at this

/-! Steps of the hardware agents. -/

/-- The four branches of RX_FRAME_ARRIVE (44_dma_agents.md R235). -/
theorem frameArrives_cases (f : Frame) (s : State) :
    (frameAccepted s f.data = false ∧ frameArrives f s = s)
      ∨ (frameAccepted s f.data = true ∧ s.rx.dma ≠ .active ∧ frameArrives f s = s.raiseIrq irqRxOverrun)
      ∨ (frameAccepted s f.data = true ∧ s.rx.dma = .active ∧ ownedByDma s .rx s.rx.hw = false
        ∧ frameArrives f s = ({ s with rx := { s.rx with dma := .idle } }).raiseIrq irqRxOverrun)
      ∨ (frameAccepted s f.data = true ∧ s.rx.dma = .active ∧ ownedByDma s .rx s.rx.hw = true
        ∧ frameArrives f s = { s with rx := { s.rx with pending := some ⟨f.data, 0, f.errs, f.midErr⟩ } }) := by
  unfold frameArrives
  split
  · exact .inl ⟨by simp_all, rfl⟩
  · split
    · exact .inr (.inl ⟨by simp_all, ‹_›, rfl⟩)
    · split
      · exact .inr (.inr (.inl ⟨by simp_all, by simp_all, by simp_all, rfl⟩))
      · exact .inr (.inr (.inr ⟨by simp_all, by simp_all, by simp_all, rfl⟩))

/-- The case of RXDMA_WRITE that applies (44_dma_agents.md R236). -/
theorem writeCase_cases (f : RxFrame) (s : State) :
    (writeCase f s = .ends ∧ f.data.length - f.off - (rxChunk s.cfg f).length = 0)
      ∨ (writeCase f s = .goesOn ∧ f.data.length - f.off - (rxChunk s.cfg f).length ≠ 0 ∧ s.cfg.chained = true
        ∧ nextSlotArmed s = true)
      ∨ (writeCase f s = .cut ∧ f.data.length - f.off - (rxChunk s.cfg f).length ≠ 0
        ∧ (s.cfg.chained = false ∨ nextSlotArmed s = false)) := by
  unfold writeCase
  split
  · exact .inl ⟨rfl, ‹_›⟩
  · split
    · exact .inr (.inl ⟨rfl, ‹_›, by simp_all, by simp_all⟩)
    · refine .inr (.inr ⟨rfl, ‹_›, ?_⟩)
      rename_i hc
      cases h : s.cfg.chained
      · exact .inl rfl
      · exact .inr (by simpa [h] using hc)

/-- RXDMA_WRITE moves `min(RX_BUF_SIZE, L - off)` bytes (44_dma_agents.md R236). -/
@[simp] theorem rxChunk_length (c : Params) (f : RxFrame) :
    (rxChunk c f).length = min c.rxBufSize (f.data.length - f.off) := by simp [rxChunk]

end Sys2Proof.Machine
end

