-- ==== Sys2Proof/Laws/PerInstr.lean ====
section
/-!
SUPPORT. Statements made for each instruction. `TableRow`: the words the encoder writes match the instruction's row of
the opcode maps (30_encoding.md R119, R120, R121): its `match` under its `mask`, and no argument word beyond its `nargs`.
-/

namespace Sys2Proof

/-- The encoded operation word selects the instruction's row (30_encoding.md section 4), and the argument words the row
does not use are 0. -/
def Laws.TableRow.Statement (i : Instr) : Prop :=
  (encode i).opw &&& i.row.mask = i.row.pattern
    ∧ (i.row.nargs = 0 → (encode i).arg0 = 0#32)
    ∧ (i.row.nargs ≤ 1 → (encode i).arg1 = 0#32)
    ∧ (i.row.nargs ≤ 2 → (encode i).arg2 = 0#32)

/-- The words of the format with one Boolean match their mask. -/
theorem flagWord_masked (opc : BitVec 8) (v : Bool) :
    (0#23 ++ flag v ++ opc : Word) &&& 0xFFFFFEFF#32 = opc.setWidth 32 := by
  cases v <;> revert opc <;> decide +kernel

/-- The words of the formats with two Booleans match their mask. -/
theorem encQ_masked (opc : BitVec 8) (b9 b8 : Bool) : encQ opc b9 b8 &&& 0xFFFFFCFF#32 = opc.setWidth 32 := by
  cases b9 <;> cases b8 <;> revert opc <;> decide +kernel

/-- The words of the host's MDIO format match their mask. -/
theorem mdioWord_masked (w : Bool) (dev reg : BitVec 5) :
    encM (if w then 0x41#8 else 0x40#8) false dev reg &&& 0xFFE0E0FF#32 = if w then 0x41#32 else 0x40#32 := by
  revert w dev reg
  decide +kernel

/-- The words of MDIO_TRANSACTION match their mask. -/
theorem mdioTransaction_masked (wr : Bool) (dev reg : BitVec 5) :
    encM 0x8D#8 wr dev reg &&& 0xFEE0E0FF#32 = 0x8D#32 := by
  revert wr dev reg
  decide +kernel

/-- The words of WRITE_MCAST_ADDR match their mask. -/
theorem mcastWord_masked (slot : BitVec 5) (valid : Bool) :
    (0#11 ++ slot ++ 0#7 ++ flag valid ++ 0x8B#8 : Word) &&& 0xFFE0FEFF#32 = 0x8B#32 := by
  revert slot valid
  decide +kernel

theorem Laws.TableRow.init : Laws.TableRow.Statement .init :=
  ⟨rfl, fun _ => rfl, fun _ => rfl, fun _ => rfl⟩

theorem Laws.TableRow.deinit : Laws.TableRow.Statement .deinit :=
  ⟨rfl, fun _ => rfl, fun _ => rfl, fun _ => rfl⟩

theorem Laws.TableRow.enable (speed duplex : BitVec 2) : Laws.TableRow.Statement (.enable speed duplex) :=
  ⟨by revert speed duplex; decide +kernel, fun _ => rfl, fun _ => rfl, fun _ => rfl⟩

theorem Laws.TableRow.disable : Laws.TableRow.Statement .disable :=
  ⟨rfl, fun _ => rfl, fun _ => rfl, fun _ => rfl⟩

theorem Laws.TableRow.txEnqueue (first last : Bool) (buf : Word) (len : Half) :
    Laws.TableRow.Statement (.txEnqueue first last buf len) :=
  ⟨encQ_masked .., by simp [Instr.row], by simp [Instr.row], fun _ => rfl⟩

theorem Laws.TableRow.txReclaim : Laws.TableRow.Statement .txReclaim :=
  ⟨rfl, fun _ => rfl, fun _ => rfl, fun _ => rfl⟩

theorem Laws.TableRow.rxPrime (buf : Word) : Laws.TableRow.Statement (.rxPrime buf) :=
  ⟨by simp [encode, Instr.row], by simp [Instr.row], fun _ => rfl, fun _ => rfl⟩

theorem Laws.TableRow.rxPoll : Laws.TableRow.Statement .rxPoll :=
  ⟨rfl, fun _ => rfl, fun _ => rfl, fun _ => rfl⟩

theorem Laws.TableRow.setOwnAddr (addr : Mac) : Laws.TableRow.Statement (.setOwnAddr addr) :=
  ⟨by simp [encode, encA, Instr.row], by simp [Instr.row], by simp [Instr.row], fun _ => rfl⟩

theorem Laws.TableRow.addMcast (addr : Mac) : Laws.TableRow.Statement (.addMcast addr) :=
  ⟨by simp [encode, encA, Instr.row], by simp [Instr.row], by simp [Instr.row], fun _ => rfl⟩

theorem Laws.TableRow.clearMcast : Laws.TableRow.Statement .clearMcast :=
  ⟨rfl, fun _ => rfl, fun _ => rfl, fun _ => rfl⟩

theorem Laws.TableRow.setPam (v : Bool) : Laws.TableRow.Statement (.setPam v) :=
  ⟨flagWord_masked .., fun _ => rfl, fun _ => rfl, fun _ => rfl⟩

theorem Laws.TableRow.setPromisc (v : Bool) : Laws.TableRow.Statement (.setPromisc v) :=
  ⟨flagWord_masked .., fun _ => rfl, fun _ => rfl, fun _ => rfl⟩

theorem Laws.TableRow.mdioRead (dev reg : BitVec 5) : Laws.TableRow.Statement (.mdioRead dev reg) :=
  ⟨mdioWord_masked false dev reg, fun _ => rfl, fun _ => rfl, fun _ => rfl⟩

theorem Laws.TableRow.mdioWrite (dev reg : BitVec 5) (val : Half) :
    Laws.TableRow.Statement (.mdioWrite dev reg val) :=
  ⟨mdioWord_masked true dev reg, by simp [Instr.row], fun _ => rfl, fun _ => rfl⟩

theorem Laws.TableRow.isrDispatch (line : Bool) : Laws.TableRow.Statement (.isrDispatch line) :=
  ⟨flagWord_masked .., fun _ => rfl, fun _ => rfl, fun _ => rfl⟩

theorem Laws.TableRow.startDma (ring : Ring) : Laws.TableRow.Statement (.startDma ring) :=
  ⟨flagWord_masked .., fun _ => rfl, fun _ => rfl, fun _ => rfl⟩

theorem Laws.TableRow.stopDma (ring : Ring) : Laws.TableRow.Statement (.stopDma ring) :=
  ⟨flagWord_masked .., fun _ => rfl, fun _ => rfl, fun _ => rfl⟩

theorem Laws.TableRow.isSlotOwnedByDma (ring : Ring) (idx : Word) :
    Laws.TableRow.Statement (.isSlotOwnedByDma ring idx) :=
  ⟨flagWord_masked .., by simp [Instr.row], fun _ => rfl, fun _ => rfl⟩

theorem Laws.TableRow.writeTxDesc (first last : Bool) (idx buf : Word) (len : Half) :
    Laws.TableRow.Statement (.writeTxDesc first last idx buf len) :=
  ⟨encQ_masked .., by simp [Instr.row], by simp [Instr.row], by simp [Instr.row]⟩

theorem Laws.TableRow.writeRxDesc (idx buf : Word) : Laws.TableRow.Statement (.writeRxDesc idx buf) :=
  ⟨by simp [encode, Instr.row], by simp [Instr.row], by simp [Instr.row], fun _ => rfl⟩

theorem Laws.TableRow.isFirstFragment (ring : Ring) (idx : Word) :
    Laws.TableRow.Statement (.isFirstFragment ring idx) :=
  ⟨flagWord_masked .., by simp [Instr.row], fun _ => rfl, fun _ => rfl⟩

theorem Laws.TableRow.isLastFragment (ring : Ring) (idx : Word) :
    Laws.TableRow.Statement (.isLastFragment ring idx) :=
  ⟨flagWord_masked .., by simp [Instr.row], fun _ => rfl, fun _ => rfl⟩

theorem Laws.TableRow.isErrorFragment (ring : Ring) (idx : Word) :
    Laws.TableRow.Statement (.isErrorFragment ring idx) :=
  ⟨flagWord_masked .., by simp [Instr.row], fun _ => rfl, fun _ => rfl⟩

theorem Laws.TableRow.totalFrameLength (ring : Ring) (idx idx2 : Word) :
    Laws.TableRow.Statement (.totalFrameLength ring idx idx2) :=
  ⟨flagWord_masked .., by simp [Instr.row], by simp [Instr.row], fun _ => rfl⟩

theorem Laws.TableRow.isBufferDmaReadable (ptr : Word) (len : Half) :
    Laws.TableRow.Statement (.isBufferDmaReadable ptr len) :=
  ⟨by simp [encode, Instr.row], by simp [Instr.row], by simp [Instr.row], fun _ => rfl⟩

theorem Laws.TableRow.writeUnicastAddr (addr : Mac) : Laws.TableRow.Statement (.writeUnicastAddr addr) :=
  ⟨by simp [encode, encA, Instr.row], by simp [Instr.row], by simp [Instr.row], fun _ => rfl⟩

theorem Laws.TableRow.writeMcastAddr (slot : BitVec 5) (valid : Bool) (addr : Mac) :
    Laws.TableRow.Statement (.writeMcastAddr slot valid addr) :=
  ⟨mcastWord_masked .., by simp [Instr.row], by simp [Instr.row], fun _ => rfl⟩

theorem Laws.TableRow.setLinkConfig (en : Bool) (speed duplex : BitVec 2) :
    Laws.TableRow.Statement (.setLinkConfig en speed duplex) :=
  ⟨by revert en speed duplex; decide +kernel, fun _ => rfl, fun _ => rfl, fun _ => rfl⟩

theorem Laws.TableRow.mdioTransaction (wr : Bool) (dev reg : BitVec 5) (val : Half) :
    Laws.TableRow.Statement (.mdioTransaction wr dev reg val) :=
  ⟨mdioTransaction_masked .., by simp [Instr.row], fun _ => rfl, fun _ => rfl⟩

theorem Laws.TableRow.writeFilterFlags (effPam effPau : Bool) :
    Laws.TableRow.Statement (.writeFilterFlags effPam effPau) :=
  ⟨encQ_masked .., fun _ => rfl, fun _ => rfl, fun _ => rfl⟩

theorem Laws.TableRow.txdmaFetch : Laws.TableRow.Statement .txdmaFetch :=
  ⟨rfl, fun _ => rfl, fun _ => rfl, fun _ => rfl⟩

theorem Laws.TableRow.txdmaComplete : Laws.TableRow.Statement .txdmaComplete :=
  ⟨rfl, fun _ => rfl, fun _ => rfl, fun _ => rfl⟩

theorem Laws.TableRow.txdmaSuspend : Laws.TableRow.Statement .txdmaSuspend :=
  ⟨rfl, fun _ => rfl, fun _ => rfl, fun _ => rfl⟩

theorem Laws.TableRow.txdmaBusError : Laws.TableRow.Statement .txdmaBusError :=
  ⟨rfl, fun _ => rfl, fun _ => rfl, fun _ => rfl⟩

theorem Laws.TableRow.rxFrameArrive : Laws.TableRow.Statement .rxFrameArrive :=
  ⟨rfl, fun _ => rfl, fun _ => rfl, fun _ => rfl⟩

theorem Laws.TableRow.rxdmaWrite : Laws.TableRow.Statement .rxdmaWrite :=
  ⟨rfl, fun _ => rfl, fun _ => rfl, fun _ => rfl⟩

theorem Laws.TableRow.rxdmaSuspend : Laws.TableRow.Statement .rxdmaSuspend :=
  ⟨rfl, fun _ => rfl, fun _ => rfl, fun _ => rfl⟩

theorem Laws.TableRow.rxdmaBusError : Laws.TableRow.Statement .rxdmaBusError :=
  ⟨rfl, fun _ => rfl, fun _ => rfl, fun _ => rfl⟩

theorem Laws.TableRow.statusEvent (kind : BitVec 8) : Laws.TableRow.Statement (.statusEvent kind) :=
  ⟨by revert kind; decide +kernel, fun _ => rfl, fun _ => rfl, fun _ => rfl⟩

theorem Laws.TableRow.mdioDone : Laws.TableRow.Statement .mdioDone :=
  ⟨rfl, fun _ => rfl, fun _ => rfl, fun _ => rfl⟩

end Sys2Proof
end

