-- ==== Sys2Proof/Tests/Slice0.lean ====
section
/-!
SUPPORT. Tests. Expected values come from spec/95_test_vectors.md (named S1, T3, X5, ... as there), from the worked
examples of the rules, or are words written out from the formats of 30_encoding.md. The last part holds, for every
obligation with hypotheses, a concrete state and operands that meet them.
-/

namespace Sys2Proof.Tests

open Sys2Proof.Machine

-- one theorem after the other: each thread of a kernel evaluation has a stack of its own
set_option Elab.async false

/-! ## Well-formedness: each check refuses an ill-formed term -/

theorem test_wf_statusKind :
    (Instr.statusEvent 3#8).wellFormed = false ∧ (Instr.statusEvent 10#8).wellFormed = false
      ∧ (Instr.statusEvent 4#8).wellFormed = true ∧ (Instr.statusEvent 9#8).wellFormed = true := by
  decide

theorem test_wf_linkCode :
    (Instr.setLinkConfig true 2#2 0#2).wellFormed = false ∧ (Instr.setLinkConfig true 0#2 3#2).wellFormed = false
      ∧ (Instr.setLinkConfig true 1#2 1#2).wellFormed = true := by
  decide

theorem test_wf_mcastSlot :
    (Instr.writeMcastAddr 0#5 true 1#48).wellFormed = false ∧ (Instr.writeMcastAddr 1#5 false 1#48).wellFormed = false
      ∧ (Instr.writeMcastAddr 31#5 false 0#48).wellFormed = true := by
  decide

theorem test_wf_mdioVal :
    (Instr.mdioTransaction false 0#5 0#5 1#16).wellFormed = false
      ∧ (Instr.mdioTransaction true 0#5 0#5 1#16).wellFormed = true := by
  decide

/-! ## Decoding: words written out from the formats, every row -/

/-- The operation word `w` with no argument word. -/
def word (w : Word) : OpTuple := ⟨w, 0#32, 0#32, 0#32⟩

/-- Format Z (R104). -/
theorem test_decode_formatZ :
    decode (word 0x00000001#32) = some .init ∧ decode (word 0x00000002#32) = some .deinit
      ∧ decode (word 0x00000004#32) = some .disable
      ∧ decode ⟨0x00000011#32, 0xDEADBEEF#32, 0#32, 0#32⟩ = some .txReclaim
      ∧ decode (word 0x00000021#32) = some .rxPoll ∧ decode (word 0x00000032#32) = some .clearMcast := by
  decide

/-- Format L (R109), vectors E5 and E6: the duplex code is above the speed code. -/
theorem test_decode_formatL :
    decode (word 0x00000003#32) = some (.enable 0#2 0#2) ∧ decode (word 0x00000F03#32) = some (.enable 3#2 3#2)
      ∧ decode (word 0x00000103#32) = some (.enable 1#2 0#2)
      ∧ decode (word 0x00000803#32) = some (.enable 0#2 2#2) := by
  decide

/-- Formats Q and P (R107, R108), vectors E1 to E4 and E11. -/
theorem test_decode_rings :
    decode ⟨0x00000010#32, 0x20001000#32, 8#32, 0#32⟩ = some (.txEnqueue false false 0x20001000#32 8#16)
      ∧ decode ⟨0x00000110#32, 0x20001000#32, 8#32, 0#32⟩ = some (.txEnqueue true false 0x20001000#32 8#16)
      ∧ decode ⟨0x00000210#32, 0x20001000#32, 8#32, 0#32⟩ = some (.txEnqueue false true 0x20001000#32 8#16)
      ∧ decode ⟨0x00000310#32, 0#32, 0x0000FFFF#32, 0#32⟩ = some (.txEnqueue true true 0#32 0xFFFF#16)
      ∧ decode ⟨0x00000020#32, 0xFFFFFFFF#32, 0#32, 0#32⟩ = some (.rxPrime 0xFFFFFFFF#32) := by
  decide

/-- Formats A and F (R105, R106), with the addresses of section 2.1, and vector E9. -/
theorem test_decode_filter :
    decode ⟨0x00000030#32, 0x12000002#32, 0x00005634#32, 0#32⟩ = some (.setOwnAddr 0x563412000002#48)
      ∧ decode ⟨0x00000031#32, 0x00C28001#32, 0x00000E00#32, 0#32⟩ = some (.addMcast 0x0E0000C28001#48)
      ∧ decode (word 0x00000133#32) = some (.setPam true) ∧ decode (word 0x00000033#32) = some (.setPam false)
      ∧ decode (word 0x00000134#32) = some (.setPromisc true) ∧ decode (word 0x00000150#32) = some (.isrDispatch true)
      ∧ decode (word 0x00000050#32) = some (.isrDispatch false) := by
  decide

/-- Format M (R110), vectors E7, E8, E13: `REG` in bits 20 to 16, `DEV` in bits 12 to 8, `WR` in bit 24. -/
theorem test_decode_mdio :
    decode (word 0x001F1F40#32) = some (.mdioRead 31#5 31#5) ∧ decode (word 0x00020140#32) = some (.mdioRead 1#5 2#5)
      ∧ decode ⟨0x00000141#32, 0x0000FFFF#32, 0#32, 0#32⟩ = some (.mdioWrite 1#5 0#5 0xFFFF#16)
      ∧ decode ⟨0x0100018D#32, 0x00008000#32, 0#32, 0#32⟩ = some (.mdioTransaction true 1#5 0#5 0x8000#16)
      ∧ decode (word 0x0002018D#32) = some (.mdioTransaction false 1#5 2#5 0#16) := by
  decide

/-- Format X (R111). -/
theorem test_decode_formatX :
    decode (word 0x00000080#32) = some (.startDma .tx) ∧ decode (word 0x00000181#32) = some (.stopDma .rx)
      ∧ decode ⟨0x00000182#32, 3#32, 0#32, 0#32⟩ = some (.isSlotOwnedByDma .rx 3#32)
      ∧ decode ⟨0x00000085#32, 2#32, 0#32, 0#32⟩ = some (.isFirstFragment .tx 2#32)
      ∧ decode ⟨0x00000186#32, 2#32, 0#32, 0#32⟩ = some (.isLastFragment .rx 2#32)
      ∧ decode ⟨0x00000187#32, 1#32, 0#32, 0#32⟩ = some (.isErrorFragment .rx 1#32)
      ∧ decode ⟨0x00000188#32, 3#32, 0#32, 0#32⟩ = some (.totalFrameLength .rx 3#32 0#32) := by
  decide

/-- Formats D, R, A, T, G and W (R106, R112 to R115), vector E12. -/
theorem test_decode_primitives :
    decode ⟨0x00000183#32, 1#32, 0x20001000#32, 10#32⟩ = some (.writeTxDesc true false 1#32 0x20001000#32 10#16)
      ∧ decode ⟨0x00000084#32, 1#32, 0x20010000#32, 0#32⟩ = some (.writeRxDesc 1#32 0x20010000#32)
      ∧ decode ⟨0x00000089#32, 0x2003FFF8#32, 8#32, 0#32⟩ = some (.isBufferDmaReadable 0x2003FFF8#32 8#16)
      ∧ decode ⟨0x0000008A#32, 0x12000002#32, 0x00005634#32, 0#32⟩ = some (.writeUnicastAddr 0x563412000002#48)
      ∧ decode ⟨0x0001018B#32, 0x005E0001#32, 0x00000100#32, 0#32⟩
          = some (.writeMcastAddr 1#5 true 0x0100005E0001#48)
      ∧ decode (word 0x0002008B#32) = some (.writeMcastAddr 2#5 false 0#48)
      ∧ decode (word 0x0000148C#32) = some (.setLinkConfig true 0#2 1#2)
      ∧ decode (word 0x0000018E#32) = some (.writeFilterFlags true false) := by
  decide

/-- Format E (R116), vector E14. -/
theorem test_decode_tags :
    decode (word 0x000000C0#32) = some .txdmaFetch ∧ decode (word 0x000000C1#32) = some .txdmaComplete
      ∧ decode (word 0x000000C2#32) = some .txdmaSuspend ∧ decode (word 0x000000C3#32) = some .txdmaBusError
      ∧ decode (word 0x000000C4#32) = some .rxFrameArrive ∧ decode (word 0x000000C5#32) = some .rxdmaWrite
      ∧ decode (word 0x000000C6#32) = some .rxdmaSuspend ∧ decode (word 0x000000C7#32) = some .rxdmaBusError
      ∧ decode (word 0x000007C8#32) = some (.statusEvent 7#8) ∧ decode (word 0x000000C9#32) = some .mdioDone := by
  decide

/-- Words that decode to nothing: vectors E20, E21, E24 to E32, and reserved bits of the primitives and tags. -/
theorem test_decode_refuses :
    [word 0x00000000#32, word 0x00000005#32, word 0x00000101#32, ⟨0x00000410#32, 0#32, 8#32, 0#32⟩,
      word 0x00001003#32, word 0x00000233#32, word 0x00200040#32, word 0x01000040#32,
      ⟨0x00000310#32, 0#32, 0x00010040#32, 0#32⟩, ⟨0x00000030#32, 0#32, 0x00015634#32, 0#32⟩,
      ⟨0x00000141#32, 0x00018000#32, 0#32, 0#32⟩, ⟨0x0000008B#32, 1#32, 0#32, 0#32⟩,
      ⟨0x0000008D#32, 1#32, 0#32, 0#32⟩, word 0x000001C0#32, word 0x000107C8#32].map decode
      = List.replicate 15 none := by
  decide

/-- The bits of a table row, first word lowest: SET_OWN_ADDR of three words, TX_RECLAIM of one. -/
theorem test_decodeTableWord :
    decodeTableWord 96 0x00005634_12000002_00000030 = some (.setOwnAddr 0x563412000002#48)
      ∧ decodeTableWord 32 0x00000011 = some .txReclaim := by
  decide

/-! ## One step each, on small states -/

/-- A predicate of the next state. -/
def nexts (r : Result) (f : State → Bool) : Bool :=
  match r with
  | .next t => f t
  | .fault _ => false
  | .refused _ => false

/-- A next state that satisfies a predicate exists. -/
theorem exists_of_nexts {r : Result} {f : State → Bool} (h : nexts r f = true) : ∃ t, r = .next t ∧ f t = true := by
  cases r with
  | next t => exact ⟨t, rfl, h⟩
  | fault e => cases h
  | refused e => cases h

/-- The outcome is this refusal. -/
def refuses (r : Result) (e : Refusal) : Bool :=
  match r with
  | .refused x => x == e
  | .next _ => false
  | .fault _ => false

/-- The outcome is this fault. -/
def faults (r : Result) (e : Fault) : Bool :=
  match r with
  | .fault x => x == e
  | .next _ => false
  | .refused _ => false

/-- The answer of a port. -/
def answered (t : State) (p : Issuer) (res val : Word) : Bool :=
  (t.port p).phase == .answered && (t.port p).result == res && (t.port p).ret0 == val

/-- `s` with `p` as the one whose transition runs. -/
def issuedBy (p : Issuer) (s : State) : State := { s with env := { s.env with issuer := p } }

/-- `s` with the sequencer inside a foreground operation, about to issue a primitive on `be` (R276). -/
def sequenced (s : State) : State :=
  issuedBy .be { s with ports := { s.ports with fg := { s.ports.fg with phase := .unanswered } } }

/-- 02:00:00:12:34:56. -/
def own : Mac := 0x563412000002#48

/-- The four buffers of the conventions. -/
def pool : List Word := [0x20010000#32, 0x20010800#32, 0x20011000#32, 0x20011800#32]

/-- The state I0 of the conventions, for parameters with `D_RX` = 4; the foreground issues. -/
def i0 (c : Params) : State := issuedBy .fg (initialise pool (State.resetWith c))

/-- The state E0 of the conventions. -/
def e0 (c : Params) : State :=
  openGate .s100 .full
    (writeUnicastAddress own { i0 c with mac := { (i0 c).mac with ucast := some own } })

/-- The conventions. -/
def one : Params := Params.vectors

/-- A chained backend with buffers of 4 bytes. -/
def chained : Params := { Params.vectors with chained := true, rxBufSize := 4 }

/-- The conventions of E0: C0, C1, C2, C4, C5, C9, C10, C14, C32, C33. -/
theorem test_e0 :
    [0, 1, 2, 4, 5, 9, 10, 14, 32, 33].map (csrView (e0 one))
      = [0x00010002#32, 7#32, 0x01000000#32, 0x3FF#32, 2#32, 4#32, 2#32, 0#32, 0x12000002#32, 0x80005634#32] := by
  decide +kernel

/-- Reset: C0 = C3 = C4 = C5 = C10 = 0 (R63), reached through `step`, which answers 0x00010001 to INIT (I0). -/
theorem test_init :
    nexts (step { State.reset with
        env := { State.reset.env with inputs := [.present .fg (word 1#32)], alloc := pool.map some } })
      (fun t => answered t .fg 0#32 0#32 && [0, 1, 2, 3, 4, 5, 9, 10, 14].map (csrView t)
        == [0x00010001#32, 0#32, 0#32, 0#32, 0x3FF#32, 0#32, 4#32, 0#32, 0#32]) = true := by
  decide +kernel

/-- L2: INIT with a dry pool. -/
theorem test_init_outOfMemory :
    nexts (exec .init (issuedBy .fg { State.reset with
        env := { State.reset.env with alloc := [some 0x20010000#32, some 0x20010800#32, none] } }))
      (fun t => answered t .fg 1#32 0#32 && csrView t 0 == 0#32
        && t.out.notify == [.bufferReleased 0x20010000#32, .bufferReleased 0x20010800#32]) = true := by
  decide +kernel

/-- L3: DEINIT from `Initialized` releases the four buffers in ring order. -/
theorem test_deinit :
    nexts (exec .deinit (i0 one)) (fun t => answered t .fg 0#32 0#32
      && [0, 4, 9, 14].map (csrView t) == [4#32, 0#32, 4#32, 4#32]
      && t.out.notify == pool.map .bufferReleased) = true := by
  decide +kernel

/-- M5: ENABLE of 100 Mbit, half duplex gives C1 = 3. -/
theorem test_enable :
    nexts (exec (.enable 1#2 0#2)
        (writeUnicastAddress own { i0 one with mac := { (i0 one).mac with ucast := some own } }))
      (fun t => answered t .fg 0#32 0#32 && [0, 1, 5, 10].map (csrView t) == [0x00010002#32, 3#32, 2#32, 2#32])
      = true := by
  decide +kernel

/-- M5: code 2 answers `CONFIG_ERROR` even in E0. -/
theorem test_enable_code :
    nexts (exec (.enable 0#2 2#2) (e0 one)) (fun t => answered t .fg 2#32 0#32 && csrView t 1 == 7#32) = true := by
  decide +kernel

/-- M6: DISABLE in E0. -/
theorem test_disable :
    nexts (exec .disable (e0 one)) (fun t => answered t .fg 0#32 0#32
      && [0, 1, 5, 10].map (csrView t) == [0x00010003#32, 6#32, 0#32, 0#32]) = true := by
  decide +kernel

/-- T1. -/
theorem test_txEnqueue :
    nexts (exec (.txEnqueue true true 0x20001000#32 64#16) (e0 one)) (fun t => answered t .fg 0#32 0#32
      && t.txSlot 0 == ⟨.dma, 0x20001000#32, 64#16, true, true, false⟩ && t.txTok 0 == some 0x20001000#32
      && [0, 5, 7, 9].map (csrView t) == [0x00010002#32, 2#32, 1#32, 3#32]) = true := by
  decide +kernel

/-- E0 with one frame queued. -/
def queued (c : Params) : State := enqueueSlot true true 0x20001000#32 64#16 (e0 c)

/-- T3 step 9: an idle engine restarts, and the head wraps. -/
theorem test_txEnqueue_restart :
    nexts (exec (.txEnqueue true true 0x20001000#32 10#16)
        { e0 chained with tx := { (e0 chained).tx with cursor := 3, head := 3, hw := 3, dma := .idle } })
      (fun t => [5, 7, 9].map (csrView t) == [2#32, 0#32, 3#32]) = true := by
  decide +kernel

/-- S1 steps 6 and 7 done: one frame completed. -/
def completed : State :=
  let s := (queued one).setTxSlot 0 ⟨.software, 0x20001000#32, 64#16, true, true, false⟩
  { s with tx := { s.tx with hw := 1 } }

/-- S1 step 8. -/
theorem test_txReclaim :
    nexts (exec .txReclaim (issuedBy .txi completed)) (fun t => answered t .txi 0#32 1#32
      && t.out.notify == [.frameTransmitted 0x20001000#32] && [6, 9].map (csrView t) == [1#32, 4#32]) = true := by
  decide +kernel

/-- X8: slot 0 unprimed, slots 1 to 3 armed. -/
def oneUnprimed : State :=
  { e0 one with rx := { (e0 one).rx with
      slots := (e0 one).rx.slots.set 0 ⟨.software, 0x20010000#32, 100#16, true, true, false⟩
      book := (e0 one).rx.book.set 0 none, cursor := 1, hw := 1, unprimed := 1 } }

/-- X8: the delivered buffer handed back. -/
theorem test_rxPrime :
    nexts (exec (.rxPrime 0x20010000#32) oneUnprimed) (fun t => answered t .fg 0#32 0#32
      && t.rxSlot 0 == ⟨.dma, 0x20010000#32, 0#16, false, false, false⟩ && [12, 14].map (csrView t) == [1#32, 0#32])
      = true := by
  decide +kernel

/-- X8: the two refusals. -/
theorem test_rxPrime_refused :
    refuses (exec (.rxPrime 0x20010800#32) oneUnprimed) .bufferAlreadyAttached = true
      ∧ refuses (exec (.rxPrime 0x20019000#32) (e0 one)) .noUnprimedSlot = true := by
  decide +kernel

/-- E0 with slot 0 filled. -/
def filled (c : Params) (x : Slot) : State :=
  { e0 c with rx := { (e0 c).rx with slots := (e0 c).rx.slots.set 0 x, hw := 1 } }

/-- S2 step 3. -/
theorem test_rxPoll_delivers :
    nexts (exec .rxPoll (issuedBy .rxi { filled one ⟨.software, 0x20010000#32, 1518#16, true, true, false⟩ with
        env := { (e0 one).env with alloc := [some 0x20012000#32] } }))
      (fun t => answered t .rxi 0#32 1#32 && t.out.notify == [.frameReceived [0x20010000#32] 1518#32]
        && t.rxSlot 0 == ⟨.dma, 0x20012000#32, 0#16, false, false, false⟩ && t.rxTok 0 == some 0x20012000#32
        && [11, 12, 14].map (csrView t) == [1#32, 1#32, 0#32]) = true := by
  decide +kernel

/-- S3 step 3. -/
theorem test_rxPoll_drops :
    nexts (exec .rxPoll (issuedBy .rxi (filled one ⟨.software, 0x20010000#32, 64#16, true, true, true⟩)))
      (fun t => answered t .rxi 0#32 0#32 && t.out.notify == []
        && t.rxSlot 0 == ⟨.dma, 0x20010000#32, 0#16, false, false, false⟩
        && [11, 12, 14, 16].map (csrView t) == [1#32, 1#32, 0#32, 1#32]) = true := by
  decide +kernel

/-- M1. -/
theorem test_setOwnAddr :
    nexts (exec (.setOwnAddr 0xCCBBAA000002#48) (i0 one)) (fun t => answered t .fg 0#32 0#32
      && [2, 32, 33].map (csrView t) == [0x01000000#32, 0xAA000002#32, 0x8000CCBB#32]) = true := by
  decide +kernel

/-- P3 step 6: the first multicast address. -/
theorem test_addMcast :
    nexts (exec (.addMcast 0x0100005E0001#48) (i0 one)) (fun t => answered t .fg 0#32 0#32
      && [2, 34, 35].map (csrView t) == [0x00010000#32, 0x005E0001#32, 0x80000100#32]) = true := by
  decide +kernel

/-- M4 with `MCAST_CAP` = 0. -/
theorem test_addMcast_full :
    nexts (exec (.addMcast 1#48) (i0 { one with mcastCap := 0 })) (fun t => answered t .fg 1#32 0#32) = true := by
  decide +kernel

/-- E0 with one multicast address. -/
def subscribed : State :=
  { e0 one with mac := { (e0 one).mac with
      mcast := [0x0100005E0001#48], addrTab := (e0 one).mac.addrTab.set 1 (some 0x0100005E0001#48) } }

/-- P3 step 9: the own address stays. -/
theorem test_clearMcast :
    nexts (exec .clearMcast subscribed) (fun t => answered t .fg 0#32 0#32
      && [2, 32, 33, 34, 35].map (csrView t) == [0x01000000#32, 0x12000002#32, 0x80005634#32, 0#32, 0#32]) = true := by
  decide +kernel

/-- R176: C2 goes from 0 to 0x101. -/
theorem test_setPam :
    nexts (exec (.setPam true) (i0 one)) (fun t => answered t .fg 0#32 0#32 && csrView t 2 == 0x101#32) = true := by
  decide +kernel

/-- M2 steps 2 and 7: `promisc` sets both effective bits, and leaves `pam` alone. -/
theorem test_setPromisc :
    nexts (exec (.setPromisc true) { i0 one with mac := { (i0 one).mac with pam := true, effPam := true } })
        (fun t => csrView t 2 == 0x303#32) = true
      ∧ nexts (exec (.setPromisc false) { i0 one with
          mac := { (i0 one).mac with pam := true, promisc := true, effPam := true, effPau := true } })
        (fun t => csrView t 2 == 0x101#32) = true := by
  decide +kernel

/-- M7: the hold, C0 = 00030001. -/
theorem test_mdioRead :
    nexts (exec (.mdioRead 1#5 2#5) (i0 one)) (fun t => csrView t 0 == 0x00030001#32
      && t.mdio.req == ⟨false, 1#5, 2#5, 0#16⟩ && t.ports.fg.phase == .held .mdioRead
      && t.env.mdioFor == some .fg) = true := by
  decide +kernel

/-- M7: a second MDIO operation while the first is held. -/
theorem test_mdioWrite :
    nexts (exec (.mdioWrite 1#5 0#5 0x8000#16) (i0 one)) (fun t => t.mdio.req == ⟨true, 1#5, 0#5, 0x8000#16⟩
        && t.ports.fg.phase == .held .mdioWrite) = true
      ∧ refuses (exec (.mdioWrite 1#5 0#5 0#16) { i0 one with mdio := ⟨true, ⟨false, 1#5, 2#5, 0#16⟩, 0#16⟩ })
        .mdioWhileBusy = true := by
  decide +kernel

/-- I0 with an operation held on `txi` and its end next. -/
def heldOnTxi (h : Held) : State :=
  { i0 one with
    ports := { (i0 one).ports with txi := { (i0 one).ports.txi with phase := .held h } }
    env := { (i0 one).env with inputs := [.complete .txi] } }

/-- M7: the end of the read, on the port it was issued on. -/
theorem test_mdioRead_completes :
    nexts (step (heldOnTxi (.mdioOver 0x2000#32))) (fun t => answered t .txi 0#32 0x2000#32) = true := by
  decide +kernel

/-- R351, R11 d: an MDIO operation whose MDIO_DONE has not come does not end, though no transaction runs. -/
theorem test_mdio_hangs :
    (heldOnTxi .mdioRead).mdio.busy = false ∧ faults (step (heldOnTxi .mdioRead)) .stepNotEnabled = true
      ∧ faults (step (heldOnTxi .mdioWrite)) .stepNotEnabled = true := by
  decide +kernel

/-- E0 with bits of `irqStatus` set. -/
def withIrq (c : Params) (m : BitVec 10) : State := { e0 c with irq := { (e0 c).irq with status := m } }

/-- I5: with one line, all six statistics sources at once. -/
theorem test_isrDispatch_counts :
    nexts (exec (.isrDispatch false) (issuedBy .txi (withIrq { one with irqLines := .one } 0x3F0#10)))
      (fun t => answered t .txi 0#32 0x3F0#32
        && [3, 16, 17, 18, 19, 20, 21, 22].map (csrView t) == [0#32, 0#32, 1#32, 1#32, 1#32, 1#32, 1#32, 1#32])
      = true := by
  decide +kernel

/-- I7: both bus errors. -/
theorem test_isrDispatch_fatal :
    nexts (exec (.isrDispatch false) (issuedBy .txi (withIrq { one with irqLines := .one } 0x00C#10)))
      (fun t => [0, 3].map (csrView t) == [0x00010102#32, 0x00C#32] && t.out.notify == [.linkFault .txBusError])
      = true := by
  decide +kernel

/-- R261: START_DMA, and R262: STOP_DMA, on E0 stopped and on E0. -/
theorem test_startDma_stopDma :
    nexts (exec (.startDma .rx) (sequenced (i0 one)))
        (fun t => answered t .be 0#32 0#32 && [5, 10].map (csrView t) == [0#32, 2#32]) = true
      ∧ nexts (exec (.stopDma .tx) (sequenced (e0 one)))
        (fun t => answered t .be 0#32 0#32 && [5, 10].map (csrView t) == [0#32, 2#32]) = true := by
  decide +kernel

/-- R260, R276: a primitive outside a host operation is no step; R206: nor is one after the latch. -/
theorem test_primitive_outside :
    faults (exec (.startDma .rx) (issuedBy .be (i0 one))) .stepNotEnabled = true
      ∧ faults (exec (.startDma .rx) (sequenced { i0 one with fatal := some .txBusError })) .fatalLatched = true := by
  decide +kernel

/-- R263: right after INIT the Rx slots are the engine's. -/
theorem test_isSlotOwnedByDma :
    nexts (exec (.isSlotOwnedByDma .rx 0#32) (sequenced (i0 one))) (fun t => answered t .be 0#32 1#32) = true
      ∧ nexts (exec (.isSlotOwnedByDma .tx 0#32) (sequenced (i0 one))) (fun t => answered t .be 0#32 0#32)
        = true := by
  decide +kernel

/-- R264: the image of the slot becomes E0000000, 20001000, 40 (section 2.1). -/
theorem test_writeTxDesc :
    nexts (exec (.writeTxDesc true true 0#32 0x20001000#32 64#16) (sequenced (i0 one)))
      (fun t => [0, 1, 2, 3].map (slotWord (t.txSlot 0)) == [0xE0000000#32, 0x20001000#32, 0x40#32, 0#32]) = true := by
  decide +kernel

/-- R265 on an unprimed slot. -/
theorem test_writeRxDesc :
    nexts (exec (.writeRxDesc 0#32 0x20012000#32) (sequenced oneUnprimed))
      (fun t => t.rxSlot 0 == ⟨.dma, 0x20012000#32, 0#16, false, false, false⟩) = true := by
  decide +kernel

/-- T3 after step 3, slots 0 to 2. -/
def threeFragments : State :=
  enqueueSlot false true 0x20003000#32 4#16
    (enqueueSlot false false 0x20002000#32 20#16 (enqueueSlot true false 0x20001000#32 10#16 (e0 chained)))

/-- Section 2.8: the queries after T3 step 3. -/
theorem test_queries :
    nexts (exec (.isFirstFragment .tx 2#32) (sequenced threeFragments)) (fun t => answered t .be 0#32 0#32) = true
      ∧ nexts (exec (.isLastFragment .tx 2#32) (sequenced threeFragments)) (fun t => answered t .be 0#32 1#32) = true
      ∧ nexts (exec (.totalFrameLength .tx 0#32 2#32) (sequenced threeFragments))
        (fun t => answered t .be 0#32 34#32) = true
      ∧ nexts (exec (.isErrorFragment .rx 0#32)
          (sequenced (filled one ⟨.software, 0#32, 64#16, true, true, true⟩))) (fun t => answered t .be 0#32 1#32)
        = true := by
  decide +kernel

/-- Section 2.8: the length of a run that wraps. -/
theorem test_totalFrameLength_wraps :
    nexts (exec (.totalFrameLength .rx 3#32 0#32) (sequenced { i0 one with rx := { (i0 one).rx with
        slots := ((i0 one).rx.slots.set 3 ⟨.software, 0#32, 1024#16, true, false, false⟩).set 0
          ⟨.software, 0#32, 100#16, false, true, false⟩ } })) (fun t => answered t .be 0#32 1124#32) = true := by
  decide +kernel

/-- T5: the last address that fits the window and the first that does not. -/
theorem test_isBufferDmaReadable :
    let s := sequenced (i0 { one with dmaReadable := .windows [(0x20000000, 0x20040000)] })
    nexts (exec (.isBufferDmaReadable 0x2003FFF8#32 8#16) s) (fun t => answered t .be 0#32 1#32) = true
      ∧ nexts (exec (.isBufferDmaReadable 0x2003FFFC#32 8#16) s) (fun t => answered t .be 0#32 0#32) = true := by
  decide +kernel

/-- R271 and R272: slots 0 and 14 of the table, and a slot cleared. -/
theorem test_table_primitives :
    nexts (exec (.writeUnicastAddr own) (sequenced (i0 one)))
        (fun t => [32, 33].map (csrView t) == [0x12000002#32, 0x80005634#32]) = true
      ∧ nexts (exec (.writeMcastAddr 14#5 true 1#48) (sequenced (i0 one)))
        (fun t => [60, 61].map (csrView t) == [1#32, 0x80000000#32]) = true
      ∧ nexts (exec (.writeMcastAddr 1#5 false 0#48) (sequenced subscribed))
        (fun t => [34, 35].map (csrView t) == [0#32, 0#32]) = true := by
  decide +kernel

/-- R273 and R275 in CSRs 1 and 2. -/
theorem test_setLinkConfig_writeFilterFlags :
    nexts (exec (.setLinkConfig true 0#2 1#2) (sequenced (i0 one))) (fun t => csrView t 1 == 5#32) = true
      ∧ nexts (exec (.writeFilterFlags true false) (sequenced (i0 one))) (fun t => csrView t 2 == 0x100#32)
        = true := by
  decide +kernel

/-- R274: the request is latched and the engine busy. -/
theorem test_mdioTransaction :
    nexts (exec (.mdioTransaction true 1#5 0#5 0x8000#16) (sequenced (i0 one)))
      (fun t => csrView t 0 == 0x00030001#32 && t.mdio.req == ⟨true, 1#5, 0#5, 0x8000#16⟩) = true := by
  decide +kernel

/-- S1 step 6; not before a frame is queued (H1). -/
theorem test_txdmaFetch :
    nexts (exec .txdmaFetch (issuedBy .hw (queued one))) (fun t => csrView t 5 == 0x102#32) = true
      ∧ faults (exec .txdmaFetch (issuedBy .hw (e0 one))) .stepNotEnabled = true := by
  decide +kernel

/-- A frame of 2 bytes in flight, of which memory holds the second. -/
def inFlight : State :=
  let s := enqueueSlot true true 0x20001000#32 2#16 (e0 one)
  issuedBy .hw { s with tx := { s.tx with inflight := some 0 }, mem := [(0x20001001, 0xAB#8)] }

/-- S1 step 7, with 2 bytes. -/
theorem test_txdmaComplete :
    nexts (exec .txdmaComplete inFlight) (fun t => t.out.txWire == [[0#8, 0xAB#8]]
      && t.txSlot 0 == ⟨.software, 0x20001000#32, 2#16, true, true, false⟩
      && [3, 5, 8].map (csrView t) == [1#32, 2#32, 1#32]) = true := by
  decide +kernel

/-- T3 step 8. -/
theorem test_txdmaSuspend :
    nexts (exec .txdmaSuspend (issuedBy .hw (e0 one))) (fun t => csrView t 5 == 1#32) = true := by
  decide +kernel

/-- H2, both engines. -/
theorem test_busErrors :
    nexts (exec .txdmaBusError inFlight) (fun t => [3, 5, 8].map (csrView t) == [4#32, 0#32, 0#32]
        && (t.txSlot 0).own == .dma) = true
      ∧ nexts (exec .rxdmaBusError (issuedBy .hw (e0 one)))
        (fun t => [3, 10].map (csrView t) == [8#32, 0#32]) = true := by
  decide +kernel

/-- A frame to the own address. -/
def ownFrame (rest : List Byte) (e : ErrSet) (mid : Option Nat) : Frame :=
  ⟨[0x02#8, 0#8, 0#8, 0x12#8, 0x34#8, 0x56#8] ++ rest, e, mid⟩

/-- No error. -/
def good : ErrSet := ⟨false, false, false⟩

/-- A state with the wire's next frame chosen. -/
def onWire (f : Frame) (s : State) : State := { s with env := { s.env with issuer := .hw, wire := [f] } }

/-- X11: accepted, filtered, too short. -/
theorem test_rxFrameArrive :
    nexts (exec .rxFrameArrive (onWire (ownFrame [7#8] good none) (e0 one))) (fun t => csrView t 10 == 0x102#32) = true
      ∧ nexts (exec .rxFrameArrive
          (onWire ⟨[0x02#8, 0#8, 0#8, 0x99#8, 0x99#8, 0x99#8], good, none⟩ (e0 one))) (fun t => csrView t 10 == 2#32)
        = true
      ∧ nexts (exec .rxFrameArrive (onWire ⟨[0x02#8, 0#8, 0#8, 0x12#8, 0x34#8], good, none⟩ (e0 one)))
        (fun t => csrView t 10 == 2#32 && csrView t 3 == 0#32) = true := by
  decide +kernel

/-- X11: lost while the engine is idle, and while its slot is not its own. -/
theorem test_rxFrameArrive_lost :
    nexts (exec .rxFrameArrive (onWire (ownFrame [] good none) { e0 one with rx := { (e0 one).rx with dma := .idle } }))
        (fun t => csrView t 3 == 0x20#32) = true
      ∧ nexts (exec .rxFrameArrive
          (onWire (ownFrame [] good none) ((e0 one).setRxSlot 0 ⟨.software, 0#32, 0#16, false, false, false⟩)))
        (fun t => csrView t 3 == 0x20#32 && csrView t 10 == 1#32) = true := by
  decide +kernel

/-- A frame of 10 bytes in flight on the chained backend with buffers of 4 bytes, `off` bytes written. -/
def arriving (off : Nat) (e : ErrSet) (mid : Option Nat) : State :=
  issuedBy .hw { e0 chained with rx := { (e0 chained).rx with
    pending := some ⟨(ownFrame [1#8, 2#8, 3#8, 4#8] e mid).data, off, e, mid⟩, hw := off / 4 } }

/-- X5 steps 1 and 4, in small: the first chunk goes on, the last one ends the frame. -/
theorem test_rxdmaWrite :
    nexts (exec .rxdmaWrite (arriving 0 good none)) (fun t =>
        t.rxSlot 0 == ⟨.software, 0x20010000#32, 4#16, true, false, false⟩ && csrView t 3 == 0#32
          && csrView t 10 == 0x102#32 && csrView t 13 == 1#32
          && t.mem == [(0x20010000, 0x02#8), (0x20010003, 0x12#8)]) = true
      ∧ nexts (exec .rxdmaWrite (arriving 8 ⟨true, false, true⟩ none)) (fun t =>
        t.rxSlot 2 == ⟨.software, 0x20011000#32, 2#16, false, true, true⟩ && csrView t 3 == 0x112#32
          && csrView t 10 == 2#32 && csrView t 13 == 3#32) = true := by
  decide +kernel

/-- X4 in small: a frame longer than the buffer on an unchained backend is cut. -/
theorem test_rxdmaWrite_cut :
    nexts (exec .rxdmaWrite { arriving 0 good none with cfg := { chained with chained := false } }) (fun t =>
      t.rxSlot 0 == ⟨.software, 0x20010000#32, 4#16, true, true, true⟩ && csrView t 3 == 0x42#32
        && csrView t 10 == 2#32) = true := by
  decide +kernel

/-- X9: the engine finds its slot not its own. -/
theorem test_rxdmaSuspend :
    nexts (exec .rxdmaSuspend (issuedBy .hw ((e0 one).setRxSlot 0 ⟨.software, 0#32, 0#16, false, false, false⟩)))
      (fun t => csrView t 10 == 1#32) = true := by
  decide +kernel

/-- H3: kinds 4 and 9; a kind outside them is no step. -/
theorem test_statusEvent :
    nexts (exec (.statusEvent 4#8) (issuedBy .hw (e0 one))) (fun t => csrView t 3 == 0x10#32) = true
      ∧ nexts (exec (.statusEvent 9#8) (issuedBy .hw (e0 one))) (fun t => csrView t 3 == 0x200#32) = true
      ∧ faults (exec (.statusEvent 3#8) (issuedBy .hw (e0 one))) .stepNotEnabled = true := by
  decide +kernel

/-- A transaction running. -/
def mdioRunning (wr : Bool) : State :=
  issuedBy .hw { i0 one with
    mdio := ⟨true, ⟨wr, 1#5, 2#5, 0x8000#16⟩, 0#16⟩, env := { (i0 one).env with phy := [0x2000#16] } }

/-- M7: the read stores what the PHY answers, the write goes out. -/
theorem test_mdioDone :
    nexts (exec .mdioDone (mdioRunning false))
        (fun t => t.mdio.data == 0x2000#16 && !t.mdio.busy && t.out.mdioOut == []) = true
      ∧ nexts (exec .mdioDone (mdioRunning true)) (fun t => t.mdio.data == 0#16 && !t.mdio.busy
        && t.out.mdioOut == [(1#5, 2#5, 0x8000#16)]) = true := by
  decide +kernel

/-- A transaction running, and the operation held on `fg` waiting for it. -/
def mdioAwaited (wr : Bool) (h : Held) : State :=
  { mdioRunning wr with
    ports := { (i0 one).ports with fg := { (i0 one).ports.fg with phase := .held h } }
    env := { (mdioRunning wr).env with mdioFor := some .fg } }

/-- M7: MDIO_DONE ends the hold of the operation that waits, with what the PHY answers for a read. -/
theorem test_mdioDone_ends_hold :
    nexts (exec .mdioDone (mdioAwaited false .mdioRead))
        (fun t => t.ports.fg.phase == .held (.mdioOver 0x2000#32) && t.env.mdioFor == none) = true
      ∧ nexts (exec .mdioDone (mdioAwaited true .mdioWrite))
        (fun t => t.ports.fg.phase == .held (.mdioOver 0#32)) = true := by
  decide +kernel

/-- R73, R75, R84: the bytes of slot 0 at `TX_DESC_BASE`, little-endian (T3: W0 = C0000000, W1 = 20001000, W2 = 0A). -/
theorem test_slotImage :
    ([0, 3, 5, 7, 8].map fun k => busByte threeFragments (0x40000000#32 + BitVec.ofNat 32 k) 0#32)
      = [0#8, 0xC0#8, 0x10#8, 0x20#8, 0x0A#8] := by
  decide +kernel

/-- `s` with `x` next. -/
def nextly (x : Stim) (s : State) : State := { s with env := { s.env with inputs := [x] } }

/-- R80: the words of the same slot, and CSR 9 where it is mapped, read whole. -/
theorem test_loadWord :
    nexts (step (nextly (.loadWord .rxi 0x40000000#32) threeFragments)) (fun t => t.ports.rxi.rdata == 0xC0000000#32)
        = true
      ∧ nexts (step (nextly (.loadWord .fg 0x40000004#32) threeFragments)) (fun t => t.ports.fg.rdata == 0x20001000#32)
        = true
      ∧ busWord threeFragments 0x40200024#32 0#32 = 1#32 := by
  decide +kernel

/-- R89: a store to a byte of a queued Tx buffer lands, and what the engine sends for it is open. -/
theorem test_storeToQueued :
    nexts (step (nextly (.store .fg 0x20001001#32 0xCD#8) inFlight)) (fun t =>
        memRead t.mem 0x20001001 == 0xCD#8 && t.env.races == [⟨.tx, 0, 0x20001001#32, 0xAB#8⟩]) = true
      ∧ nexts (step (nextly (.store .fg 0x20001002#32 0xCD#8) inFlight)) (fun t => t.env.races == []) = true := by
  decide +kernel

/-- R89: what a store leaves on a filled Rx buffer is open; on the armed one next to it it lands and starts a race. -/
theorem test_storeToFilled :
    let s := filled one ⟨.software, 0x20010000#32, 64#16, true, true, false⟩
    (filledHolds s 0x20010007#32 = true ∧ filledHolds s 0x20010800#32 = false)
      ∧ nexts (step (nextly (.store .fg 0x20010007#32 0xCD#8) s)) (fun t =>
        t.env.drawn == s.env.drawn + 1 && t.env.races == [] && t.rx == s.rx) = true
      ∧ nexts (step (nextly (.store .fg 0x20010800#32 0xCD#8) s)) (fun t =>
        memRead t.mem 0x20010800 == 0xCD#8 && t.env.races == [⟨.rx, 1, 0x20010800#32, 0xCD#8⟩]) = true := by
  decide +kernel

/-- R78: a buffer that overlaps a descriptor array is not attached. -/
theorem test_attach_refused :
    refuses (exec (.txEnqueue true true 0x3FFFFFFF#32 2#16) (e0 one)) .platformOutsideSpec = true
      ∧ nexts (exec (.txEnqueue true true 0x3FFFFFFF#32 1#16) (e0 one)) (fun t => answered t .fg 0#32 0#32) = true
      ∧ refuses (exec (.rxPrime 0x40000030#32) oneUnprimed) .platformOutsideSpec = true := by
  decide +kernel

/-- R63, R333: `TX_OPEN` is drawn before INIT and is no draw after it. -/
theorem test_txOpen_drawn :
    csrValue State.reset 0 0xFFFFFFFF#32 = 0x00040000#32 ∧ csrValue State.reset 0 0#32 = 0#32
      ∧ csrValue (i0 one) 0 0xFFFFFFFF#32 = 0x00010001#32 := by
  decide +kernel

/-- Power-on reset from E0: C0 = 0 (R63). -/
theorem test_powerOn :
    nexts (step { e0 one with env := { (e0 one).env with inputs := [.powerOn] } })
      (fun t => [0, 3, 4, 5, 10].map (csrView t) == [0#32, 0#32, 0#32, 0#32, 0#32]) = true := by
  decide +kernel


/-! ## Hypotheses that are met

For each obligation with hypotheses, states and operands that meet all of them together, clause by clause. -/

/-- A next state that satisfies a property exists. -/
theorem exists_next {r : Result} {P : State → Prop} [DecidablePred P] (h : nexts r (fun t => decide (P t)) = true) :
    ∃ t, r = .next t ∧ P t := by
  obtain ⟨t, ht, hp⟩ := exists_of_nexts h
  exact ⟨t, ht, of_decide_eq_true hp⟩

/-- `s` with `w` presented next on `p`. -/
def offered (p : Issuer) (w : OpTuple) (s : State) : State :=
  { s with env := { s.env with inputs := [.present p w] } }

/-- `s` with the end of the operation held on `p` next. -/
def ending (p : Issuer) (s : State) : State := { s with env := { s.env with inputs := [.complete p] } }

/-- `s` with an operation held on `fg`. -/
def holding (h : Held) (s : State) : State :=
  { s with ports := { s.ports with fg := { s.ports.fg with phase := .held h } } }

/-- E0 with the gate closed and the engines stopped, as DISABLE leaves it while it holds. -/
def closing : State := holding .disable (stopBoth (closeGate (e0 one)))

/-- E0 as DEINIT leaves it while it holds. -/
def deiniting : State := holding .deinit (beginDeinit (e0 one))

/-- Every buffer of a list is clear of the descriptors, said as a test. -/
theorem all_clear {s : State} {bufs : List Word}
    (h : (bufs.all fun b => !meetsDescriptors s.cfg b s.cfg.rxBufSize) = true) :
    ∀ b ∈ bufs, meetsDescriptors s.cfg b s.cfg.rxBufSize = false := fun b hb => by
  simpa using List.all_eq_true.mp h b hb

theorem witness_DecodeEncode :
    (Instr.writeMcastAddr 31#5 false 0#48).wellFormed = true ∧ (Instr.statusEvent 9#8).wellFormed = true := by
  decide

theorem witness_EncodeDecode :
    decode ⟨0x0001018B#32, 0x005E0001#32, 0x00000100#32, 7#32⟩
      = some (.writeMcastAddr 1#5 true 0x0100005E0001#48) := by
  decide

theorem witness_StepRunsDecoded :
    let w := word 0x00000011#32
    (offered .txi w (e0 one)).env.inputs = .present .txi w :: [] ∧ decode w = some .txReclaim
      ∧ Instr.txReclaim.wellFormed = true ∧ isHeld ((offered .txi w (e0 one)).port .txi) = false
      ∧ isHeld ((offered .fg w closing).port .fg) = true := by
  decide +kernel

/-- Vector E38's operation on the other ISR port. -/
theorem not_legal_init_txi : ¬LegalTuple one .txi (word 0x00000001#32) := by
  rintro ⟨i, h1, h2, h3, -⟩
  cases i <;> simp [isHostOp] at h1 <;> simp [portAccepts, foregroundOnly, rxRingPorts, one, Params.vectors] at h2
  case txReclaim => exact absurd h3 (by decide)
  case mdioRead dev reg => revert h3; revert dev reg; decide +kernel
  case mdioWrite dev reg val => revert h3; simp only [encode, word]; clear val; revert dev reg; decide +kernel
  case isrDispatch line => revert h3; cases line <;> decide

theorem witness_IllegalTupleAnswered :
    let s := offered .txi (word 0x00000001#32) (e0 one)
    isHostPort .txi ∧ s.env.inputs = .present .txi (word 0x00000001#32) :: [] ∧ isHeld (s.port .txi) = false
      ∧ ¬LegalTuple s.cfg .txi (word 0x00000001#32) :=
  ⟨by decide, by decide +kernel, by decide +kernel, not_legal_init_txi⟩

/-- E0 with the latch set. -/
def dead (s : State) : State := { s with fatal := some .rxBusError }

theorem witness_FatalGating :
    (dead (e0 one)).fatal ≠ none ∧ isHostOp .rxPoll = true
      ∧ portAccepts (dead (e0 one)).cfg (dead (e0 one)).env.issuer .rxPoll = true
      ∧ isAgentStep .mdioDone = true ∧ (dead (mdioRunning true)).env.issuer = .hw
      ∧ (isHostOp (.startDma .tx) = false ∧ isAgentStep (.startDma .tx) = false
        ∧ (dead (sequenced (e0 one))).env.issuer = .be)
      ∧ ((dead closing).port .fg).phase = .held .disable := by
  decide +kernel

theorem witness_AdmissionTable :
    isHostOp .init = true ∧ isHostOp .disable = true ∧ Runs (i0 one) .fg ∧ portAccepts (i0 one).cfg .fg .init = true
      ∧ admission .init (i0 one).life = .ce ∧ admission .disable (i0 one).life = .ok := by
  decide +kernel

theorem witness_LifeMovesAlongArrows :
    HoldInv (offered .fg (word 0x00000004#32) (e0 one))
      ∧ (offered .fg (word 0x00000004#32) (e0 one)).env.inputs.head? ≠ some .powerOn
      ∧ ∃ t, step (offered .fg (word 0x00000004#32) (e0 one)) = .next t ∧ t.life = .disabled :=
  ⟨by decide +kernel, by decide +kernel, exists_next (by decide +kernel)⟩

theorem witness_ErrorCodesChangeNothing :
    let s := (e0 one).latch .fg (word 0x00000203#32)
    isHostOp (.enable 2#2 0#2) = true ∧ Instr.enable 2#2 0#2 ≠ .init ∧ isHostPort .fg ∧ s.env.issuer = .fg
      ∧ (s.port .fg).phase = .unanswered
      ∧ ∃ t, exec (.enable 2#2 0#2) s = .next t
        ∧ ((t.port .fg).phase = .answered ∧ (t.port .fg).result ≠ 0#32) :=
  ⟨by decide, by decide, by decide, by decide +kernel, by decide +kernel, exists_next (by decide +kernel)⟩

theorem witness_PowerOnValues :
    ∃ u, step { e0 one with env := { (e0 one).env with inputs := [.powerOn] } } = .next u ∧ u.life = .uninitialized :=
  exists_next (by decide +kernel)

/-- Power-on, the foreground issuing, with the answers of the pool chosen. -/
def fresh (c : Params) (l : Life) (a : List (Option Word)) : State :=
  { State.resetWith c with
    life := l, env := { (State.resetWith c).env with issuer := .fg, alloc := a } }

theorem witness_InitCompletes :
    let s := fresh one .uninitialized (pool.map some ++ [none])
    Runs s .fg ∧ (s.life = .uninitialized ∨ s.life = .deinitialized) ∧ s.cfg.wf = true ∧ pool.length = s.cfg.dRx
      ∧ pool.Nodup ∧ s.env.alloc = pool.map some ++ [none]
      ∧ ∀ b ∈ pool, meetsDescriptors s.cfg b s.cfg.rxBufSize = false :=
  ⟨by decide +kernel, by decide +kernel, by decide +kernel, by decide +kernel, by decide +kernel, by decide +kernel,
    all_clear (by decide +kernel)⟩

theorem witness_InitOutOfMemory :
    let s := fresh one .deinitialized [none]
    let z := fresh { one with dTx := 0 } .uninitialized []
    let m := fresh { one with dRx := 1 } .uninitialized [some 0x3FFFFFFF#32]
    (Runs s .fg ∧ (s.life = .uninitialized ∨ s.life = .deinitialized) ∧ s.cfg.wf = true
        ∧ ([] : List Word).length < s.cfg.dRx ∧ ([] : List Word).Nodup ∧ s.env.alloc = [] ++ none :: [])
      ∧ (Runs z .fg ∧ (z.life = .uninitialized ∨ z.life = .deinitialized) ∧ z.cfg.wf = false)
      ∧ (Runs m .fg ∧ m.life = .uninitialized ∧ m.cfg.wf = true ∧ [0x3FFFFFFF#32].length = m.cfg.dRx
        ∧ [0x3FFFFFFF#32].Nodup ∧ m.env.alloc = [0x3FFFFFFF#32].map some ++ []
        ∧ ∃ b ∈ [0x3FFFFFFF#32], meetsDescriptors m.cfg b m.cfg.rxBufSize = true) :=
  ⟨by decide +kernel, by decide +kernel, by decide +kernel, by decide +kernel, by decide +kernel, by decide +kernel,
    by decide +kernel, by decide +kernel, _, List.mem_singleton_self _, by decide +kernel⟩

theorem witness_DeinitCompletes :
    (Runs (e0 one) .fg ∧ isLive (e0 one).life ∧ (e0 one).tx.inflight = none ∧ (e0 one).rx.pending = none)
      ∧ (Runs (issuedBy .fg inFlight) .fg ∧ isLive (issuedBy .fg inFlight).life
        ∧ ((issuedBy .fg inFlight).tx.inflight ≠ none ∨ (issuedBy .fg inFlight).rx.pending ≠ none))
      ∧ (let s := ending .fg deiniting
        s.env.inputs = .complete .fg :: [] ∧ s.fatal = none ∧ s.ports.fg.phase = .held .deinit
          ∧ s.tx.inflight = none ∧ s.rx.pending = none)
      ∧ (let s := ending .fg (holding .deinit inFlight)
        s.env.inputs = .complete .fg :: [] ∧ s.fatal = none ∧ s.ports.fg.phase = .held .deinit
          ∧ (s.tx.inflight ≠ none ∨ s.rx.pending ≠ none)) := by
  decide +kernel

/-- I0 with the own address. -/
def addressed : State := { i0 one with mac := { (i0 one).mac with ucast := some own } }

theorem witness_EnableCompletes :
    (Runs addressed .fg ∧ isLive addressed.life ∧ (1#2 : BitVec 2).toNat < 2 ∧ (0#2 : BitVec 2).toNat < 2
        ∧ addressed.life ≠ .enabled ∧ addressed.mac.ucast ≠ none)
      ∧ 2 ≤ (2#2 : BitVec 2).toNat
      ∧ (Runs (e0 one) .fg ∧ isLive (e0 one).life ∧ (e0 one).life = .enabled)
      ∧ (Runs (i0 one) .fg ∧ isLive (i0 one).life ∧ (i0 one).life ≠ .enabled ∧ (i0 one).mac.ucast = none) := by
  decide +kernel

theorem witness_DisableCompletes :
    (Runs (i0 one) .fg ∧ (i0 one).life ≠ .enabled)
      ∧ (Runs (e0 one) .fg ∧ (e0 one).life = .enabled ∧ (e0 one).tx.inflight = none ∧ (e0 one).rx.pending = none)
      ∧ (Runs (issuedBy .fg inFlight) .fg ∧ (issuedBy .fg inFlight).life = .enabled
        ∧ ((issuedBy .fg inFlight).tx.inflight ≠ none ∨ (issuedBy .fg inFlight).rx.pending ≠ none))
      ∧ (let s := ending .fg closing
        s.env.inputs = .complete .fg :: [] ∧ s.fatal = none ∧ s.ports.fg.phase = .held .disable
          ∧ s.tx.inflight = none ∧ s.rx.pending = none)
      ∧ (let s := ending .fg (holding .disable (arriving 0 good none))
        s.env.inputs = .complete .fg :: [] ∧ s.fatal = none ∧ s.ports.fg.phase = .held .disable
          ∧ (s.tx.inflight ≠ none ∨ s.rx.pending ≠ none)) := by
  decide +kernel

/-- A full ring: T2 after its first enqueue. -/
def fullRing : State := { e0 one with tx := { (e0 one).tx with free := 0 } }

/-- The platform of T5. -/
def windowed : State := e0 { one with dmaReadable := .windows [(0x20000000, 0x20040000)] }

theorem witness_TxEnqueueCompletes :
    Runs windowed .fg ∧ windowed.life = .enabled ∧ (8#16 : Half) ≠ 0#16
      ∧ (windowed.cfg.chained = true ∨ (true = true ∧ true = true)) ∧ true = !windowed.tx.openFrame
      ∧ bufferDmaReadable windowed.cfg 0x2003FFF8#32 8#16 = true ∧ 0 < windowed.tx.free
      ∧ meetsDescriptors windowed.cfg 0x2003FFF8#32 (8#16 : Half).toNat = false := by
  decide +kernel

theorem witness_TxEnqueueTurnsAway :
    (Runs (e0 one) .fg ∧ (e0 one).life = .enabled ∧ (0#16 : Half) = 0#16)
      ∧ ((1#16 : Half) ≠ 0#16 ∧ (e0 one).cfg.chained = false ∧ (true && false) = false)
      ∧ ((e0 one).cfg.chained = true ∨ (true && true) = true)
      ∧ (Runs (e0 chained) .fg ∧ (e0 chained).life = .enabled ∧ (e0 chained).cfg.chained = true
        ∧ false = (e0 chained).tx.openFrame)
      ∧ (Runs windowed .fg ∧ windowed.life = .enabled ∧ true ≠ windowed.tx.openFrame
        ∧ bufferDmaReadable windowed.cfg 0x2003FFFC#32 8#16 = false)
      ∧ (Runs fullRing .fg ∧ fullRing.life = .enabled ∧ true ≠ fullRing.tx.openFrame
        ∧ bufferDmaReadable fullRing.cfg 0#32 1#16 = true ∧ fullRing.tx.free = 0)
      ∧ ((2#16 : Half) ≠ 0#16 ∧ true ≠ (e0 one).tx.openFrame ∧ bufferDmaReadable one 0x3FFFFFFF#32 2#16 = true
        ∧ (e0 one).tx.free ≠ 0 ∧ meetsDescriptors (e0 one).cfg 0x3FFFFFFF#32 (2#16 : Half).toNat = true) := by
  decide +kernel

theorem witness_TxReclaimCompletes :
    (Runs (e0 one) .fg ∧ isLive (e0 one).life ∧ TxShape (e0 one) 0)
      ∧ (Runs (issuedBy .txi completed) .txi ∧ isLive (issuedBy .txi completed).life
        ∧ TxShape (issuedBy .txi completed) 1) := by
  decide +kernel

theorem witness_txSafe (s : State) (k : Nat) (h : ControlInv s) (hk : TxShape s k) (hc : TxClear s) : TxSafe s :=
  ⟨h, fun _ => ⟨⟨k, hk⟩, hc⟩⟩

theorem witness_rxSafe (s : State) (k : Nat) (h : ControlInv s) (hk : RxShape s k) (hc : RxClear s) : RxSafe s :=
  ⟨h, fun _ => ⟨⟨k, hk⟩, hc⟩⟩

theorem witness_TransmittedInOrder :
    let s := offered .fg ⟨0x00000310#32, 0x20001000#32, 64#32, 0#32⟩ (e0 one)
    TxSafe s ∧ isLive s.life
      ∧ ∃ t, step s = .next t ∧ (isLive t.life ∧ newlyQueued s t = [0x20001000#32]) :=
  ⟨witness_txSafe _ 0 (by decide +kernel) (by decide +kernel) (by decide +kernel), by decide +kernel,
    exists_next (by decide +kernel)⟩

theorem witness_RxPrimeCompletes :
    Runs oneUnprimed .fg ∧ rxRingPorts oneUnprimed.cfg .fg = true ∧ isLive oneUnprimed.life
      ∧ (0 < oneUnprimed.rx.unprimed ∧ some 0x20010000#32 ∉ oneUnprimed.rx.book
        ∧ meetsDescriptors oneUnprimed.cfg 0x20010000#32 oneUnprimed.cfg.rxBufSize = false)
      ∧ (Runs (e0 one) .fg ∧ isLive (e0 one).life ∧ (e0 one).rx.unprimed = 0)
      ∧ some 0x20010800#32 ∈ oneUnprimed.rx.book
      ∧ (some 0x3FFFFFFF#32 ∉ oneUnprimed.rx.book
        ∧ meetsDescriptors oneUnprimed.cfg 0x3FFFFFFF#32 oneUnprimed.cfg.rxBufSize = true) := by
  decide +kernel

/-- X10 (b): slots 0 and 1 filled. -/
def twoFilled (x y : Slot) : State :=
  let s := (e0 chained).setRxSlot 0 x |>.setRxSlot 1 y
  { s with rx := { s.rx with hw := 2 } }

/-- A whole frame in each of the first two slots, the pool giving a buffer and then none. -/
def twoFrames (err : Bool) : State :=
  let s := twoFilled ⟨.software, 0x20010000#32, 4#16, true, true, err⟩ ⟨.software, 0x20010800#32, 3#16, true, true, false⟩
  { s with env := { s.env with alloc := [some 0x20012000#32, none] } }

/-- The premises of the statement of RX_POLL's deliveries. -/
abbrev canPoll (s : State) (n k : Nat) (draws rest : List (Option Word)) : Prop :=
  Runs s .fg ∧ rxRingPorts s.cfg .fg = true ∧ isLive s.life ∧ RxShape s n ∧ k ≤ n ∧ OneRun s k
    ∧ (∀ j, j < k → (rxRunSlot s j).err = false) ∧ s.env.alloc = draws ++ rest ∧ draws.length = k
    ∧ (draws.filterMap id).Nodup

/-- The buffers the pool gives are new, and clear of the descriptors. -/
theorem clear_one (s : State) (h : some 0x20012000#32 ∉ s.rx.book ∧ some 0x20012000#32 ∉ s.tx.book
      ∧ meetsDescriptors s.cfg 0x20012000#32 s.cfg.rxBufSize = false) (b : Word) (hb : some b ∈ [some 0x20012000#32]) :
    some b ∉ s.rx.book ∧ some b ∉ s.tx.book ∧ meetsDescriptors s.cfg b s.cfg.rxBufSize = false := by
  obtain rfl : b = 0x20012000#32 := by simpa using hb
  exact h

/-- S2 step 3, and two frames, of which the second is polled from where the first leaves off. -/
theorem witness_RxPollDelivers :
    let s := { filled one ⟨.software, 0x20010000#32, 1518#16, true, true, false⟩ with
      env := { (e0 one).env with alloc := [some 0x20012000#32] } }
    let v := twoFrames false
    let fresh (s : State) : Prop := ∀ b, some b ∈ [some 0x20012000#32] →
      some b ∉ s.rx.book ∧ some b ∉ s.tx.book ∧ meetsDescriptors s.cfg b s.cfg.rxBufSize = false
    (canPoll s 1 1 [some 0x20012000#32] [] ∧ fresh s)
      ∧ (canPoll v 2 1 [some 0x20012000#32] [none] ∧ fresh v) ∧ nexts (exec .rxPoll v) (fun t =>
        answered t .fg 0#32 2#32) = true :=
  ⟨⟨by decide +kernel, clear_one _ (by decide +kernel)⟩, ⟨by decide +kernel, clear_one _ (by decide +kernel)⟩,
    by decide +kernel⟩

/-- S3 step 3, and a bad frame before a good one. -/
theorem witness_RxPollDrops :
    let s := filled one ⟨.software, 0x20010000#32, 64#16, true, true, true⟩
    let v := twoFrames true
    (Runs s .fg ∧ rxRingPorts s.cfg .fg = true ∧ isLive s.life ∧ RxShape s 1 ∧ OneRun s 1
        ∧ (∃ j, j < 1 ∧ (rxRunSlot s j).err = true))
      ∧ (Runs v .fg ∧ rxRingPorts v.cfg .fg = true ∧ isLive v.life ∧ RxShape v 2 ∧ OneRun v 1
        ∧ ∃ j, j < 1 ∧ (rxRunSlot v j).err = true)
      ∧ nexts (exec .rxPoll v) (fun t => answered t .fg 0#32 1#32 && t.cnt.rxError == 1#32) = true :=
  ⟨⟨by decide +kernel, by decide +kernel, by decide +kernel, by decide +kernel, by decide +kernel, 0, by decide,
      by decide +kernel⟩,
    ⟨by decide +kernel, by decide +kernel, by decide +kernel, by decide +kernel, by decide +kernel, 0, by decide,
      by decide +kernel⟩, by decide +kernel⟩

theorem witness_RxPollLeavesIncomplete :
    let a := filled chained ⟨.software, 0x20010000#32, 4#16, false, true, false⟩
    let b := twoFilled ⟨.software, 0x20010000#32, 4#16, true, false, false⟩
      ⟨.software, 0x20010800#32, 10#16, true, true, false⟩
    let c := twoFilled ⟨.software, 0x20010000#32, 4#16, true, false, false⟩
      ⟨.software, 0x20010800#32, 4#16, false, false, false⟩
    (Runs (e0 one) .fg ∧ rxRingPorts (e0 one).cfg .fg = true ∧ isLive (e0 one).life ∧ RxShape (e0 one) 0)
      ∧ (Runs c .fg ∧ isLive c.life ∧ RxShape c 2
        ∧ ∀ j, j < 2 → (rxRunSlot c j).first = (j == 0) ∧ (rxRunSlot c j).last = false)
      ∧ (Runs a .fg ∧ isLive a.life ∧ RxShape a 1 ∧ (rxRunSlot a 0).first = false)
      ∧ (Runs b .fg ∧ isLive b.life ∧ RxShape b 2
        ∧ (∀ j, j < 1 → (rxRunSlot b j).first = (j == 0) ∧ (rxRunSlot b j).last = false)
        ∧ (rxRunSlot b 1).first = true) :=
  ⟨by decide +kernel, by decide +kernel, by decide +kernel, by decide +kernel⟩

theorem witness_SetOwnAddrCompletes :
    (Runs (i0 one) .fg ∧ isLive (i0 one).life ∧ (i0 one).life ≠ .enabled)
      ∧ (Runs (e0 one) .fg ∧ isLive (e0 one).life ∧ (e0 one).life = .enabled) := by
  decide +kernel

theorem witness_AddMcastCompletes :
    let z := i0 { one with mcastCap := 0 }
    (Runs (i0 one) .fg ∧ isLive (i0 one).life ∧ (i0 one).mac.mcast.length ≠ (i0 one).cfg.mcastCap)
      ∧ (Runs z .fg ∧ isLive z.life ∧ z.mac.mcast.length = z.cfg.mcastCap) := by
  decide +kernel

theorem witness_MulticastTableBound :
    let s := i0 { one with mcastCap := 2 }
    Runs s .fg ∧ isLive s.life
      ∧ s.mac.mcast.length + [0x0100005E0001#48, 0x010000003333#48].length = s.cfg.mcastCap := by
  decide +kernel

theorem witness_ClearMcastCompletes :
    Runs subscribed .fg ∧ isLive subscribed.life ∧ AddrTabInv subscribed := by
  decide +kernel

theorem witness_FilterFlagsComplete : Runs (e0 one) .fg ∧ isLive (e0 one).life := by
  decide +kernel

/-- SET_PROMISC 1 in E0. -/
theorem witness_EffectiveFilterBits :
    let s := offered .fg (encode (.setPromisc true)) (e0 one)
    (ControlInv s ∧ FilterInv s ∧ ∃ t, step s = .next t ∧ t.life = .enabled)
      ∧ (Runs (e0 one) .fg ∧ isLive (e0 one).life) :=
  ⟨⟨by decide +kernel, by decide +kernel, exists_next (by decide +kernel)⟩, by decide +kernel⟩

/-- E0 with SET_PROMISC 1 and then SET_PROMISC 0 next. -/
def toggling : State :=
  { e0 one with
    env := { (e0 one).env with
      inputs := [.present .fg (encode (.setPromisc true)), .present .fg (encode (.setPromisc false))] } }

theorem witness_PromiscuousIndependence :
    SeqInv toggling ∧ toggling.env.inputs.head? = some (.present .fg (encode (.setPromisc true)))
      ∧ ∃ s2, step toggling = .next s2
        ∧ ((s2.fatal = none ∧ isLive s2.life
          ∧ s2.env.inputs.head? = some (.present .fg (encode (.setPromisc false))))
        ∧ ∃ s4, step s2 = .next s4) := by
  refine ⟨by decide +kernel, by decide +kernel, ?_⟩
  obtain ⟨s2, h2, h, h4⟩ := exists_next (r := step toggling)
    (P := fun t => (t.fatal = none ∧ isLive t.life
        ∧ t.env.inputs.head? = some (.present .fg (encode (.setPromisc false))))
      ∧ nexts (step t) (fun _ => true) = true) (by decide +kernel)
  obtain ⟨s4, h4, -⟩ := exists_of_nexts h4
  exact ⟨s2, h2, h, s4, h4⟩

theorem witness_ReceiveFilter :
    let f : Frame := ⟨[0x02#8, 0#8, 0#8, 0x99#8, 0x99#8, 0x99#8], good, none⟩
    let s := onWire f (e0 one)
    ([0x02#8, 0#8, 0#8, 0x12#8, 0x34#8] : List Byte).length < 6 ∧ s.mac.addrTab.length = s.cfg.mcastCap + 1
      ∧ Runs s .hw ∧ s.life ≠ .uninitialized ∧ s.mac.macEn = true ∧ s.rx.pending = none
      ∧ WireDelivers s f { s.env with wire := [] } ∧ frameAccepted s f.data = false :=
  ⟨by decide, by decide +kernel, by decide +kernel, by decide +kernel, by decide +kernel, by decide +kernel,
    ⟨by decide +kernel, .inl ⟨[], rfl, rfl⟩⟩, by decide +kernel⟩

theorem witness_MdioOperationsHoldThenAnswer :
    let b := issuedBy .rxi (mdioRunning false)
    let v := ending .fg (holding (.mdioOver 0x2000#32) (i0 one))
    let r := ending .fg (holding .mdioRead (mdioRunning false))
    let w := ending .fg (holding .mdioWrite (i0 one))
    (Runs (i0 one) .fg ∧ isHostPort .fg ∧ isLive (i0 one).life ∧ (i0 one).mdio.busy = false)
      ∧ (Runs b .rxi ∧ isHostPort .rxi ∧ isLive b.life ∧ b.mdio.busy = true)
      ∧ (v.env.inputs = .complete .fg :: [] ∧ v.fatal = none ∧ (v.port .fg).phase = .held (.mdioOver 0x2000#32))
      ∧ (r.env.inputs = .complete .fg :: [] ∧ r.fatal = none ∧ (r.port .fg).phase = .held .mdioRead)
      ∧ (w.env.inputs = .complete .fg :: [] ∧ w.fatal = none ∧ (w.port .fg).phase = .held .mdioWrite)
      ∧ (let a := offered .hw (word 0x000000C9#32) (mdioAwaited false .mdioRead)
        (∃ t, step a = .next t) ∧ (a.port .fg).phase = .held .mdioRead ∧ a.env.mdioFor = some .fg)
      ∧ (let c := offered .hw (word 0x000000C9#32) (holding .mdioWrite (mdioRunning false))
        (∃ t, step c = .next t) ∧ (c.port .fg).phase = .held .mdioWrite ∧ c.env.mdioFor ≠ some .fg) := by
  refine ⟨by decide +kernel, by decide +kernel, by decide +kernel, by decide +kernel, by decide +kernel,
    ⟨?_, by decide +kernel, by decide +kernel⟩, ⟨?_, by decide +kernel, by decide +kernel⟩⟩
  · obtain ⟨t, ht, -⟩ := exists_of_nexts (r := step (offered .hw (word 0x000000C9#32) (mdioAwaited false .mdioRead)))
      (f := fun _ => true) (by decide +kernel)
    exact ⟨t, ht⟩
  · obtain ⟨t, ht, -⟩ := exists_of_nexts
      (r := step (offered .hw (word 0x000000C9#32) (holding .mdioWrite (mdioRunning false)))) (f := fun _ => true)
      (by decide +kernel)
    exact ⟨t, ht⟩

theorem witness_DispatchSpurious :
    let s := issuedBy .txi (withIrq one 0x010#10)
    let d := issuedBy .txi State.reset
    (Runs s .txi ∧ isrPorts s.cfg false .txi = true ∧ s.irq.globalOn = true
        ∧ s.irq.status &&& s.irq.enable &&& lineMask s.cfg.irqLines false = 0#10)
      ∧ (Runs d .txi ∧ isrPorts d.cfg false .txi = true ∧ d.irq.globalOn = false) := by
  decide +kernel

theorem witness_DispatchFatalPath :
    let s := issuedBy .txi (withIrq { one with irqLines := .one } 0x00C#10)
    let t := issuedBy .rxi (withIrq one 0x008#10)
    (Runs s .txi ∧ isrPorts s.cfg false .txi = true ∧ s.irq.globalOn = true
        ∧ (s.irq.status &&& s.irq.enable &&& lineMask s.cfg.irqLines false).getLsbD 2 = true)
      ∧ (Runs t .rxi ∧ isrPorts t.cfg true .rxi = true ∧ t.irq.globalOn = true
        ∧ (t.irq.status &&& t.irq.enable &&& lineMask t.cfg.irqLines true).getLsbD 3 = true) := by
  decide +kernel

theorem witness_DispatchCounts :
    let s := issuedBy .txi (withIrq { one with irqLines := .one } 0x3F0#10)
    let q := s.irq.status &&& s.irq.enable &&& lineMask s.cfg.irqLines false
    Runs s .txi ∧ isrPorts s.cfg false .txi = true ∧ s.irq.globalOn = true ∧ q ≠ 0#10
      ∧ ∀ b, b < 4 → q.getLsbD b = false := by
  decide +kernel

theorem witness_DispatchRunsServices :
    let both := { one with irqLines := .one }
    let s := issuedBy .txi { completed with irq := { completed.irq with status := 0x001#10 } }
    let q := s.irq.status &&& s.irq.enable &&& lineMask s.cfg.irqLines false
    let r := issuedBy .rxi (withIrq one 0x012#10)
    let p := r.irq.status &&& r.irq.enable &&& lineMask r.cfg.irqLines true
    let b := issuedBy .txi (withIrq both 0x003#10)
    let o := b.irq.status &&& b.irq.enable &&& lineMask b.cfg.irqLines false
    (Runs s .txi ∧ isrPorts s.cfg false .txi = true ∧ s.irq.globalOn = true
        ∧ (q.getLsbD 2 = false ∧ q.getLsbD 3 = false ∧ q.getLsbD 0 = true ∧ q.getLsbD 1 = false) ∧ TxShape s 1)
      ∧ (Runs r .rxi ∧ isrPorts r.cfg true .rxi = true ∧ r.irq.globalOn = true
        ∧ (p.getLsbD 2 = false ∧ p.getLsbD 3 = false ∧ p.getLsbD 0 = false ∧ p.getLsbD 1 = true)
        ∧ isLive r.life ∧ rxRingPorts r.cfg .rxi = true)
      ∧ (∃ u, exec .rxPoll { r with irq := { r.irq with status := r.irq.status &&& ~~~p } } = .next u
        ∧ u.life = .enabled)
      ∧ (Runs b .txi ∧ isrPorts b.cfg false .txi = true ∧ b.irq.globalOn = true
        ∧ (o.getLsbD 2 = false ∧ o.getLsbD 3 = false ∧ o.getLsbD 0 = true ∧ o.getLsbD 1 = true)
        ∧ isLive b.life ∧ rxRingPorts b.cfg .txi = true ∧ TxShape b 0)
      ∧ nexts (exec (.isrDispatch false) b) (fun t => answered t .txi 0#32 3#32) = true :=
  ⟨by decide +kernel, by decide +kernel, exists_next (by decide +kernel), by decide +kernel, by decide +kernel⟩

theorem witness_InterruptUnitWriters :
    (∃ t, exec .txReclaim (e0 one) = .next t ∧ isAgentStep .txReclaim = false)
      ∧ Instr.txReclaim ≠ .init ∧ Instr.txReclaim ≠ .deinit ∧ ∀ line, Instr.txReclaim ≠ .isrDispatch line :=
  ⟨exists_next (P := fun _ => isAgentStep .txReclaim = false) (by decide +kernel), by decide, by decide, by decide⟩

/-- The frame in flight, and the host has written its second byte since. -/
def racing : State := { inFlight with env := { inFlight.env with races := [⟨.tx, 0, 0x20001001#32, 0xCD#8⟩] } }

theorem witness_TxCompleteSendsBuffer :
    (Runs inFlight .hw ∧ inFlight.tx.inflight = some 0
        ∧ meetsDescriptors inFlight.cfg (inFlight.txSlot 0).buf (inFlight.txSlot 0).len.toNat = false
        ∧ ∀ r ∈ inFlight.env.races, ¬(r.ring = .tx ∧ r.slot = 0))
      ∧ (Runs racing .hw ∧ racing.tx.inflight = some 0
        ∧ meetsDescriptors racing.cfg (racing.txSlot 0).buf (racing.txSlot 0).len.toNat = false)
      ∧ nexts (exec .txdmaComplete racing) (fun t => t.env.races == [] && t.out.txWire.length == 1) = true := by
  decide +kernel

theorem witness_EngineControlSteps :
    let q := issuedBy .hw (queued one)
    let e := issuedBy .hw (e0 one)
    let d := issuedBy .hw (i0 one)
    let r := issuedBy .hw ((e0 one).setRxSlot 0 ⟨.software, 0#32, 0#16, false, false, false⟩)
    (Runs q .hw ∧ q.tx.dma = .active ∧ q.mac.macEn = true ∧ q.tx.inflight = none ∧ (q.txSlot q.tx.hw).own = .dma)
      ∧ (Runs e .hw ∧ (e.tx.dma = .active ∧ e.tx.inflight = none ∧ (e.txSlot e.tx.hw).own = .software)
        ∧ ¬(e.rx.dma = .active ∧ e.rx.pending = none ∧ (e.rxSlot e.rx.hw).own = .software))
      ∧ (Runs r .hw ∧ (r.rx.dma = .active ∧ r.rx.pending = none ∧ (r.rxSlot r.rx.hw).own = .software))
      ∧ (Runs inFlight .hw ∧ inFlight.tx.inflight ≠ none)
      ∧ (Runs (arriving 0 good none) .hw ∧ (arriving 0 good none).rx.pending ≠ none)
      ∧ (Runs d .hw ∧ ¬(d.tx.dma = .active) ∧ ¬(d.tx.inflight ≠ none ∨ (d.tx.dma = .active ∧ d.mac.macEn = true))
        ∧ ¬(d.rx.pending ≠ none ∨ (d.rx.dma = .active ∧ d.mac.macEn = true))) := by
  decide +kernel

/-- The premises of RX_FRAME_ARRIVE's statement. -/
def canDeliver (s : State) (f : Frame) : Prop :=
  Runs s .hw ∧ s.life ≠ .uninitialized ∧ WireDelivers s f { s.env with wire := [] }

theorem canDeliver_onWire (f : Frame) (s : State) (hf : f.data.length < 2 ^ 32)
    (hs : s.fatal = none ∧ s.life ≠ .uninitialized) : canDeliver (onWire f s) f :=
  ⟨⟨rfl, hs.1⟩, hs.2, hf, .inl ⟨[], rfl, rfl⟩⟩

theorem witness_FrameArrives :
    let f := ownFrame [] good none
    let other : Frame := ⟨[0x02#8, 0#8, 0#8, 0x99#8, 0x99#8, 0x99#8], good, none⟩
    let gate (s : State) : Prop := s.mac.macEn = true ∧ s.rx.pending = none
    let a := onWire f (e0 one)
    let b := onWire f { e0 one with rx := { (e0 one).rx with dma := .idle } }
    let c := onWire f ((e0 one).setRxSlot 0 ⟨.software, 0#32, 0#16, false, false, false⟩)
    let d := onWire other (e0 one)
    let e := onWire f (i0 one)
    (canDeliver a f ∧ gate a ∧ frameAccepted a f.data = true ∧ a.rx.dma = .active ∧ (a.rxSlot a.rx.hw).own = .dma)
      ∧ (canDeliver b f ∧ gate b ∧ frameAccepted b f.data = true ∧ b.rx.dma ≠ .active)
      ∧ (canDeliver c f ∧ gate c ∧ frameAccepted c f.data = true ∧ c.rx.dma = .active
        ∧ (c.rxSlot c.rx.hw).own = .software)
      ∧ (canDeliver d other ∧ gate d ∧ frameAccepted d other.data = false)
      ∧ (canDeliver e f ∧ e.mac.macEn = false) :=
  ⟨⟨canDeliver_onWire _ _ (by decide) (by decide +kernel), by decide +kernel, by decide +kernel⟩,
    ⟨canDeliver_onWire _ _ (by decide) (by decide +kernel), by decide +kernel, by decide +kernel⟩,
    ⟨canDeliver_onWire _ _ (by decide) (by decide +kernel), by decide +kernel, by decide +kernel⟩,
    ⟨canDeliver_onWire _ _ (by decide) (by decide +kernel), by decide +kernel, by decide +kernel⟩,
    ⟨canDeliver_onWire _ _ (by decide) (by decide +kernel), by decide +kernel⟩⟩

/-- The premises of RXDMA_WRITE's statement. -/
def canWrite (s : State) (f : RxFrame) : Prop :=
  Runs s .hw ∧ s.rx.pending = some f ∧ s.cfg.rxBufSize ≤ 65535 ∧ Memory.wf s.mem
    ∧ meetsDescriptors s.cfg (s.rxSlot s.rx.hw).buf s.cfg.rxBufSize = false

/-- The frame of `arriving`, `off` bytes written. -/
def tenBytes (off : Nat) : RxFrame := ⟨(ownFrame [1#8, 2#8, 3#8, 4#8] good none).data, off, good, none⟩

theorem witness_RxWriteFillsSlot :
    let cut := { arriving 0 good none with cfg := { chained with chained := false } }
    (canWrite (arriving 8 good none) (tenBytes 8) ∧ 10 - 8 - min 4 (10 - 8) = 0)
      ∧ (canWrite (arriving 0 good none) (tenBytes 0) ∧ chained.chained = true ∧ 1 < chained.dRx
        ∧ ((arriving 0 good none).rxSlot 1).own = .dma ∧ 10 - 0 - min 4 (10 - 0) ≠ 0)
      ∧ (canWrite cut (tenBytes 0) ∧ cut.cfg.chained = false)
      ∧ (∀ k, k < 2 → filledHolds (arriving 8 good none) (0x20011000#32 + BitVec.ofNat 32 k) = false)
      ∧ ((∀ r ∈ (arriving 8 good none).env.races, ¬(r.ring = .rx ∧ r.slot = 2))
        ∧ ∀ k, k < 2 → ∀ (r : Ring) (i : Nat), ¬(r = .rx ∧ i = 2) → i < 4 →
          slotHolds (arriving 8 good none) r i (0x20011000#32 + BitVec.ofNat 32 k) = false) := by
  unfold canWrite
  refine ⟨by decide +kernel, by decide +kernel, by decide +kernel, by decide +kernel, by decide +kernel, ?_⟩
  intro k hk r i hr hi
  interval_cases k <;> interval_cases i <;> cases r <;> first | decide +kernel | exact absurd ⟨rfl, rfl⟩ hr

theorem witness_StatusEventAndMdioDone :
    let e := issuedBy .hw (e0 one)
    let d := issuedBy .hw (i0 one)
    let r := mdioRunning false
    (Runs e .hw ∧ 4 ≤ (4#8 : BitVec 8).toNat ∧ (9#8 : BitVec 8).toNat ≤ 9 ∧ e.mac.macEn = true)
      ∧ (Runs d .hw ∧ d.mac.macEn = false ∧ d.mdio.busy = false)
      ∧ (Runs (mdioRunning true) .hw ∧ (mdioRunning true).mdio.busy = true ∧ (mdioRunning true).mdio.req.wr = true)
      ∧ (Runs r .hw ∧ r.mdio.busy = true ∧ r.mdio.req.wr = false)
      ∧ PhyAnswers r r.mdio.req.dev r.mdio.req.reg 0x2000#16 { r.env with phy := [] }
      ∧ (let a := mdioAwaited false .mdioRead
        a.env.mdioFor = some .fg ∧ (a.port .fg).phase = .held .mdioRead ∧ Runs a .hw ∧ a.mdio.busy = true)
      ∧ (let a := mdioAwaited true .mdioWrite
        a.env.mdioFor = some .fg ∧ (a.port .fg).phase = .held .mdioWrite ∧ Runs a .hw ∧ a.mdio.busy = true) :=
  ⟨by decide +kernel, by decide +kernel, by decide +kernel, by decide +kernel, .inl ⟨[], rfl, rfl⟩, by decide +kernel,
    by decide +kernel⟩

/-- A frame in flight whose buffer lies on the Tx descriptors. -/
def misplaced : State :=
  issuedBy .hw { inFlight with tx := { inFlight.tx with
    slots := inFlight.tx.slots.set 0 ⟨.dma, 0x3FFFFFFF#32, 2#16, true, true, false⟩ } }

theorem witness_AgentStepsWhenEnabled :
    let a := { arriving 0 good none with cfg := { chained with rxDescBase := 0x20010000#32 } }
    let u := { onWire (ownFrame [] good none) (e0 one) with life := .uninitialized }
    (isAgentStep .txdmaFetch = true ∧ Runs inFlight .hw ∧ agentEnabled inFlight .txdmaFetch = false)
      ∧ (isAgentStep .txdmaComplete = true ∧ agentEnabled inFlight .txdmaComplete = true
        ∧ inFlight.life ≠ .uninitialized ∧ inFlight.tx.inflight = some 0
        ∧ meetsDescriptors inFlight.cfg (inFlight.txSlot 0).buf (inFlight.txSlot 0).len.toNat = false
        ∧ meetsDescriptors inFlight.cfg (inFlight.rxSlot inFlight.rx.hw).buf inFlight.cfg.rxBufSize = false)
      ∧ (Runs misplaced .hw ∧ misplaced.tx.inflight = some 0
        ∧ meetsDescriptors misplaced.cfg (misplaced.txSlot 0).buf (misplaced.txSlot 0).len.toNat = true)
      ∧ (Runs a .hw ∧ a.rx.pending ≠ none
        ∧ meetsDescriptors a.cfg (a.rxSlot a.rx.hw).buf a.cfg.rxBufSize = true)
      ∧ (Runs u .hw ∧ u.mac.macEn = true ∧ u.rx.pending = none ∧ u.life = .uninitialized) := by
  decide +kernel

theorem witness_ControlPrimitives :
    Sequences (sequenced (e0 one)) ∧ (1#2 : BitVec 2).toNat < 2 := by
  decide +kernel

theorem witness_DescriptorPrimitives :
    let s := sequenced oneUnprimed
    Sequences s ∧ (3#32 : Word).toNat < s.cfg.dTx ∧ (s.txSlot 3).own = .software
      ∧ (0#32 : Word).toNat < s.cfg.dRx ∧ (s.rxSlot 0).own = .software := by
  decide +kernel

theorem witness_QueryPrimitives :
    Sequences (sequenced (e0 one)) ∧ (3#32 : Word).toNat < depth one .rx
      ∧ (0#32 : Word).toNat < depth one .rx := by
  decide +kernel

theorem witness_TablePrimitives :
    let s := sequenced (e0 one)
    Sequences s ∧ 1 ≤ (14#5 : BitVec 5).toNat ∧ (14#5 : BitVec 5).toNat ≤ s.cfg.mcastCap
      ∧ s.mdio.busy = false := by
  decide +kernel

theorem witness_PrimitivesStop :
    let s := sequenced (e0 one)
    let q := sequenced (queued one)
    let b := sequenced (mdioRunning true)
    (Runs (issuedBy .be (e0 one)) .be ∧ sequencing (issuedBy .be (e0 one)) = false)
      ∧ Sequences s ∧ depth s.cfg .rx ≤ (4#32 : Word).toNat ∧ s.cfg.dTx ≤ (4#32 : Word).toNat
      ∧ s.cfg.dRx ≤ (4#32 : Word).toNat ∧ (Sequences q ∧ (0#32 : Word).toNat < q.cfg.dTx
        ∧ (q.txSlot 0).own = .dma)
      ∧ ((3#32 : Word).toNat < s.cfg.dRx ∧ (s.rxSlot 3).own = .dma) ∧ (Sequences b ∧ b.mdio.busy = true)
      ∧ ((0#5 : BitVec 5).toNat = 0 ∧ s.cfg.mcastCap < (15#5 : BitVec 5).toNat) ∧ 2 ≤ (2#2 : BitVec 2).toNat := by
  decide +kernel

theorem witness_FamilyFootprints :
    (∃ t, exec .txReclaim (e0 one) = .next t ∧ t.life = .enabled)
      ∧ (∃ t, exec .rxdmaWrite (arriving 0 good none) = .next t ∧ t.life = .enabled)
      ∧ (∃ t, exec .clearMcast subscribed = .next t ∧ t.life = .enabled)
      ∧ ∃ t, exec .mdioDone (mdioRunning true) = .next t ∧ t.life = .initialized :=
  ⟨exists_next (by decide +kernel), exists_next (by decide +kernel), exists_next (by decide +kernel),
    exists_next (by decide +kernel)⟩

theorem witness_CsrReadIsPure :
    Issuer.fg ≠ .hw ∧ (nextly (.csrRead .fg 95) (e0 one)).env.inputs = .csrRead .fg 95 :: []
      ∧ (e0 one).life ≠ .uninitialized
      ∧ ((nextly (.csrRead .fg 0) State.reset).env.inputs = .csrRead .fg 0 :: [] ∧ State.reset.life = .uninitialized)
      ∧ (nextly (.load .fg 0x20001001#32) inFlight).env.inputs = .load .fg 0x20001001#32 :: []
      ∧ regionOf inFlight.cfg 0x20001001#32 = .memory ∧ heldByRx inFlight 0x20001001#32 = false
      ∧ (nextly (.loadWord .fg 0x40000000#32) inFlight).env.inputs = .loadWord .fg 0x40000000#32 :: [] := by
  decide +kernel

theorem witness_CsrFields :
    subscribed.mac.mcast.length ≤ 31 ∧ inFlight.tx.inflight = some 0 ∧ 0 ≤ 65535
      ∧ (0 ≤ subscribed.cfg.mcastCap ∧ subscribed.mac.addrTab[0]? = some (some own))
      ∧ (14 ≤ subscribed.cfg.mcastCap ∧ subscribed.mac.addrTab[14]? = some none)
      ∧ (subscribed.tx.cursor < 2 ^ 16 ∧ subscribed.tx.head < 2 ^ 16 ∧ subscribed.tx.hw < 2 ^ 16
        ∧ subscribed.tx.free < 2 ^ 16 ∧ subscribed.rx.cursor < 2 ^ 16 ∧ subscribed.rx.prime < 2 ^ 16
        ∧ subscribed.rx.hw < 2 ^ 16 ∧ subscribed.rx.unprimed < 2 ^ 16)
      ∧ (23 ≤ 31 ∧ 34 + 2 * subscribed.cfg.mcastCap ≤ 62) := by
  decide +kernel

theorem witness_SlotImage :
    (e0 one).cfg.wf = true ∧ (e0 one).life ≠ .uninitialized ∧ 3 < depth (e0 one).cfg .rx
      ∧ 3 < depth (e0 one).cfg .tx ∧ 15 < 16
      ∧ ((e0 one).cfg.csrBase = some 0x40200000#32 ∧ meetsDescriptors (e0 one).cfg 0x40200000#32 384 = false
        ∧ 95 < 96) := by
  decide +kernel

theorem witness_StepKeepsMemory :
    let s := offered .hw (word 0x000000C5#32) (arriving 0 good none)
    let w := nextly (.store .fg 0x20001001#32 0xCD#8) inFlight
    (Memory.wf s.mem ∧ ∃ t, step s = .next t ∧ t.mem ≠ [])
      ∧ (Memory.wf w.mem ∧ w.env.inputs = .store .fg 0x20001001#32 0xCD#8 :: []
        ∧ regionOf w.cfg 0x20001001#32 = .memory ∧ 0 < w.cfg.dTx ∧ slotHolds w .tx 0 0x20001001#32 = true)
      ∧ (regionOf w.cfg 0x20010000#32 = .memory ∧ 0 < w.cfg.dRx ∧ slotHolds w .rx 0 0x20010000#32 = true)
      ∧ filledHolds w 0x20001001#32 = false
      ∧ regionOf w.cfg 0x40000003#32 ≠ .memory ∧ regionOf w.cfg 0x40200000#32 ≠ .memory :=
  ⟨⟨by decide +kernel, exists_next (by decide +kernel)⟩, by decide +kernel, by decide +kernel, by decide +kernel,
    by decide +kernel, by decide +kernel⟩

/-- No slot holds the byte: the other case of the store. -/
theorem witness_store_quiet (r : Ring) (i : Nat) (hi : i < 4) : slotHolds inFlight r i 0x20001002#32 = false := by
  interval_cases i <;> cases r <;> decide +kernel

theorem witness_StepKeepsControl :
    let s := offered .fg (word 0x00000004#32) (e0 one)
    ControlInv s ∧ ∃ t, step s = .next t ∧ t.life = .disabled :=
  ⟨by decide +kernel, exists_next (by decide +kernel)⟩

theorem witness_StepKeepsTxRing :
    let s := offered .txi (word 0x00000011#32) completed
    TxSafe s ∧ ∃ t, step s = .next t ∧ t.tx.free = 4 :=
  ⟨witness_txSafe _ 1 (by decide +kernel) (by decide +kernel) (by decide +kernel), exists_next (by decide +kernel)⟩

/-- The buffers of the conventions are clear of the descriptors. -/
theorem clear_pool (s : State)
    (h : s.rx.book = pool.map some ∧ (pool.all fun b => !meetsDescriptors s.cfg b s.cfg.rxBufSize) = true) (p : Word)
    (hp : some p ∈ s.rx.book) : meetsDescriptors s.cfg p s.cfg.rxBufSize = false := by
  rw [h.1, List.mem_map] at hp
  obtain ⟨q, hq, he⟩ := hp
  exact Option.some.inj he ▸ all_clear h.2 q hq

theorem witness_StepKeepsRxRing :
    let s := offered .hw (word 0x000000C5#32) (arriving 0 good none)
    RxSafe s ∧ ∃ t, step s = .next t ∧ t.rx.hw = 1 :=
  ⟨witness_rxSafe _ 0 (by decide +kernel) (by decide +kernel) ⟨by decide +kernel, clear_pool _ (by decide +kernel)⟩,
    exists_next (by decide +kernel)⟩

theorem witness_StepKeepsFilter :
    let s := offered .fg (word 0x00000032#32) subscribed
    FilterSafe s ∧ ∃ t, step s = .next t ∧ t.mac.mcast = [] :=
  ⟨⟨by decide +kernel, fun _ => by decide +kernel⟩, exists_next (by decide +kernel)⟩

/-- A transaction running under FAIR, and its end next. -/
def mdioEnding : State :=
  offered .hw (word 0x000000C9#32) { mdioRunning true with cfg := { one with fair := true } }

/-- The state a step leads to, if it does. -/
def after (s : State) : State :=
  match step s with
  | .next t => t
  | .fault _ => s
  | .refused _ => s

/-- The run in which that step is taken and nothing more happens. -/
def fairRun : Nat → State
  | 0 => mdioEnding
  | _ + 1 => after mdioEnding

theorem step_mdioEnding : step mdioEnding = .next (after mdioEnding) := by
  obtain ⟨t, ht, -⟩ := exists_of_nexts (r := step mdioEnding) (f := fun _ => true) (by decide +kernel)
  simp only [after, ht]

theorem step_of_nothing (s : State) (h : s.env.inputs = []) : step s = .next s := by
  simp only [step, fetch, h]

theorem nothing_enabled (i : Instr) : agentEnabled (after mdioEnding) i = false := by
  cases i <;> rfl

theorem witness_MdioEndsUnderFairness :
    (mdioEnding.env.inputs = .present .hw (word 0x000000C9#32) :: [] ∧ decode (word 0x000000C9#32) = some .mdioDone
        ∧ mdioEnding.fatal = none ∧ mdioEnding.mdio.busy = true ∧ (after mdioEnding).mdio.busy = false)
      ∧ IsRun fairRun ∧ (fairRun 0).cfg.fair = true ∧ FairRun fairRun ∧ (∀ m, (fairRun m).fatal = none)
      ∧ (fairRun 0).mdio.busy = true := by
  refine ⟨by decide +kernel, ?_, by decide +kernel, ?_, ?_, by decide +kernel⟩
  · rintro (_ | n)
    · exact ⟨_, step_mdioEnding, rfl⟩
    · exact ⟨_, step_of_nothing (after mdioEnding) (by decide +kernel), rfl⟩
  · intro _ i n _ h
    have := (h (n + 1) (Nat.le_succ n)).2
    exact absurd this (by simp [fairRun, nothing_enabled])
  · rintro (_ | n)
    · decide +kernel
    · change (after mdioEnding).fatal = none
      decide +kernel

/-- E0 under FAIR with both engines idle, a frame too short on the wire, and the step of tag `w` next. -/
def openGateWith (w : Word) : State :=
  let s := e0 { one with fair := true }
  issuedBy .hw (offered .hw (word w) { s with
    tx := { s.tx with dma := .idle }, rx := { s.rx with dma := .idle }, irq := { s.irq with status := 0x010#10 }
    env := { s.env with wire := [⟨[0x02#8], good, none⟩] } })

/-- The run in which status events and frames come in turn for ever. -/
def openRun (n : Nat) : State := if n % 2 = 0 then openGateWith 0x000004C8#32 else openGateWith 0x000000C4#32

theorem openRun_cases (n : Nat) :
    (n % 2 = 0 ∧ openRun n = openGateWith 0x000004C8#32 ∧ openRun (n + 1) = openGateWith 0x000000C4#32)
      ∨ (n % 2 = 1 ∧ openRun n = openGateWith 0x000000C4#32 ∧ openRun (n + 1) = openGateWith 0x000004C8#32) := by
  rcases Nat.mod_two_eq_zero_or_one n with h | h
  · exact .inl ⟨h, if_pos h, if_neg (by omega)⟩
  · exact .inr ⟨h, if_neg (by omega), if_pos (by omega)⟩

/-- R353: a fair run in which the gate stays open for ever. -/
theorem test_fair_openGate :
    IsRun openRun ∧ FairRun openRun ∧ (openRun 0).cfg.fair = true
      ∧ ∀ n, (openRun n).mac.macEn = true ∧ (openRun n).fatal = none := by
  refine ⟨fun n => ?_, fun _ i n ho h => ?_, by decide +kernel, fun n => ?_⟩
  · rcases openRun_cases n with ⟨-, h1, h2⟩ | ⟨-, h1, h2⟩
    · rw [h1, h2]; exact exists_next (by decide +kernel)
    · rw [h1, h2]; exact exists_next (by decide +kernel)
  · have he := (h n (Nat.le_refl n)).2
    have hodd : openRun (2 * n + 1) = openGateWith 0x000000C4#32 := if_neg (by omega)
    have heven : openRun (2 * n) = openGateWith 0x000004C8#32 := if_pos (by omega)
    cases i <;> simp only [owed, Bool.false_eq_true] at ho
    case rxFrameArrive =>
      refine ⟨2 * n + 1, .rxFrameArrive, by omega, rfl, ?_⟩
      rw [hodd]
      exact ⟨_, rfl, by decide⟩
    case statusEvent kind =>
      refine ⟨2 * n, .statusEvent 4#8, by omega, rfl, ?_⟩
      rw [heven]
      exact ⟨_, rfl, by decide⟩
    all_goals
      rcases openRun_cases n with ⟨-, h1, -⟩ | ⟨-, h1, -⟩ <;> rw [h1] at he <;>
        exact absurd he (by decide +kernel)
  · rcases openRun_cases n with ⟨-, h1, -⟩ | ⟨-, h1, -⟩ <;> rw [h1] <;> decide +kernel

end Sys2Proof.Tests
end

/-! Error answers of the host operations (00_scope.md R11 (a), 43_engine.md R202). The obligation is split along the way
a host operation is written: its checks (`hostOp`), then one branch of its own lines, which is no next state, an error
answer on the unchanged state, an `OK` answer, a hold, or a fatal error. -/
namespace Sys2Proof.Machine

/-- What an outcome of the running transition must satisfy: if it has answered with a code other than `OK`, it is the
state it began in with that answer and `RET0` = 0. -/
def ErrorIsNoChange (s : State) (r : Result) : Prop :=
  ∀ t, r = .next t → (t.port s.env.issuer).phase = .answered → (t.port s.env.issuer).result ≠ rcOk →
    t = s.answer (t.port s.env.issuer).result 0#32

/-! The port of the running transition after an answer, a hold, and the services. -/

theorem answer_port_issuer {s : State} (res val : Word) (hp : s.env.issuer ≠ .hw) :
    (s.answer res val).port s.env.issuer
      = { s.port s.env.issuer with result := res, ret0 := val, phase := .answered } :=
  setPort_port_same s _ _ hp

theorem hold_port_issuer {s : State} (k : Held) (hp : s.env.issuer ≠ .hw) :
    (s.hold k).port s.env.issuer = { s.port s.env.issuer with phase := .held k } :=
  setPort_port_same s _ _ hp

/-- A port's words are those of `ports`. -/
theorem port_congr {s t : State} (h : t.ports = s.ports) (p : Issuer) : t.port p = s.port p := by
  cases p <;> simp [State.port, h]

@[simp] theorem reclaim_env (s : State) : (reclaim s).1.env = s.env := by
  rw [reclaim_frame s]

theorem poll_issuer {s t : State} {n : Nat} (h : poll s = .ok (t, n)) : t.env.issuer = s.env.issuer := by
  obtain ⟨-, -, -, -, -, -, -, -, -, -, -, henv⟩ := poll_frame h
  rw [henv]

@[simp] theorem clearMcastSlots_env (n : Nat) (s : State) : (clearMcastSlots n s).env = s.env := by
  induction n with
  | zero => rfl
  | succ n ih => simp [clearMcastSlots, ih]

@[simp] theorem serveTx_env (p : BitVec 10) (s : State) : (serveTx p s).env = s.env := by
  unfold serveTx
  split
  · exact reclaim_env s
  · rfl

theorem serve_issuer {p : BitVec 10} {s t : State} (h : serve p s = .ok t) : t.env.issuer = s.env.issuer := by
  obtain ⟨u, hu, rfl⟩ := serve_ok h
  have hback : (serveTx p (acknowledge p s)).env.issuer = s.env.issuer := by simp
  rcases serveRx_ok hu with ⟨-, n, hpoll⟩ | ⟨-, rfl⟩
  · simpa using (poll_issuer hpoll).trans hback
  · exact hback

/-! The ways a branch of a host operation ends. -/

@[simp] theorem errorIsNoChange_refused (s : State) (r : Refusal) : ErrorIsNoChange s (.refused r) :=
  fun _ h => nomatch h

@[simp] theorem errorIsNoChange_fault (s : State) (f : Fault) : ErrorIsNoChange s (.fault f) :=
  fun _ h => nomatch h

/-- An answer on the state the operation began in, with `RET0` = 0, whatever its code. -/
theorem errorIsNoChange_answer {s : State} (res : Word) (hp : s.env.issuer ≠ .hw) :
    ErrorIsNoChange s (.next (s.answer res 0#32)) := by
  rintro t ⟨⟩ - -
  rw [answer_port_issuer res 0#32 hp]

/-- An `OK` answer of the same port, whatever else has changed. -/
theorem errorIsNoChange_answer_ok {s u : State} (val : Word) (hp : s.env.issuer ≠ .hw)
    (hu : u.env.issuer = s.env.issuer) : ErrorIsNoChange s (.next (u.answer rcOk val)) := by
  rintro t ⟨⟩ - hres
  rw [← hu] at hp hres
  exact absurd (by rw [answer_port_issuer rcOk val hp]) hres

/-- Without an answer on the port nothing is claimed. -/
theorem errorIsNoChange_of_not_answered {s u : State} (h : (u.port s.env.issuer).phase ≠ .answered) :
    ErrorIsNoChange s (.next u) := by
  rintro t ⟨⟩ hans
  exact absurd hans h

/-- A hold of the same port, whatever else has changed. -/
theorem errorIsNoChange_hold {s u : State} (k : Held) (hp : s.env.issuer ≠ .hw)
    (hu : u.env.issuer = s.env.issuer) : ErrorIsNoChange s (.next (u.hold k)) := by
  refine errorIsNoChange_of_not_answered ?_
  rw [← hu] at hp ⊢
  simp [hold_port_issuer k hp]

/-- A fatal error leaves the operation without an answer (60_exceptions.md R296). -/
theorem errorIsNoChange_raiseFatal {s : State} (k : FatalKind) (hun : (s.port s.env.issuer).phase = .unanswered) :
    ErrorIsNoChange s (.next (raiseFatal k s)) := by
  refine errorIsNoChange_of_not_answered ?_
  simp [port_congr (raiseFatal_ports k s), hun]

/-- The checks of a host operation answer on the unchanged state, so the claim is about its own lines only. -/
theorem errorIsNoChange_hostOp {legal : Bool} {cell : Life → Cell} {s : State} {body : Result}
    (hp : s.env.issuer ≠ .hw) (hbody : ErrorIsNoChange s body) : ErrorIsNoChange s (hostOp legal cell s body) := by
  intro t h
  rcases hostOp_next h with ⟨-, -, -, hrun⟩ | ⟨-, -, -, rfl⟩ | ⟨-, -, -, rfl⟩ | ⟨-, rfl⟩
  · exact hbody t hrun
  all_goals exact errorIsNoChange_answer _ hp _ rfl

/-! The host operations with branches of their own. -/

section
variable {s : State} (hp : s.env.issuer ≠ .hw)
include hp

theorem errorIsNoChange_deinit : ErrorIsNoChange s (execDeinit s) := by
  refine errorIsNoChange_hostOp hp ?_
  dsimp only
  split
  · exact errorIsNoChange_answer_ok _ hp (by simp)
  · exact errorIsNoChange_hold _ hp (by simp)

theorem errorIsNoChange_enable (sp du : BitVec 2) : ErrorIsNoChange s (execEnable sp du s) := by
  refine errorIsNoChange_hostOp hp ?_
  split
  · exact errorIsNoChange_answer _ hp
  · split_ifs
    · simp
    · simp
    · exact errorIsNoChange_answer_ok _ hp (by simp)

theorem errorIsNoChange_disable : ErrorIsNoChange s (execDisable s) := by
  refine errorIsNoChange_hostOp hp ?_
  dsimp only
  split
  · exact errorIsNoChange_answer_ok _ hp (by simp)
  · exact errorIsNoChange_hold _ hp (by simp)

theorem errorIsNoChange_txEnqueue (first last : Bool) (buf : Word) (len : Half) :
    ErrorIsNoChange s (execTxEnqueue first last buf len s) := by
  refine errorIsNoChange_hostOp hp ?_
  split_ifs
  iterate 4 · simp
  · exact errorIsNoChange_answer _ hp
  · simp
  · exact errorIsNoChange_answer_ok _ hp (by simp)

theorem errorIsNoChange_rxPrime (buf : Word) : ErrorIsNoChange s (execRxPrime buf s) := by
  refine errorIsNoChange_hostOp hp ?_
  split_ifs
  iterate 3 · simp
  · exact errorIsNoChange_answer_ok _ hp (by simp)

theorem errorIsNoChange_rxPoll : ErrorIsNoChange s (execRxPoll s) := by
  refine errorIsNoChange_hostOp hp ?_
  split
  · exact errorIsNoChange_answer_ok _ hp (poll_issuer ‹_›)
  · simp

theorem errorIsNoChange_setOwnAddr (addr : Mac) : ErrorIsNoChange s (execSetOwnAddr addr s) := by
  refine errorIsNoChange_hostOp hp ?_
  split
  · simp
  · exact errorIsNoChange_answer_ok _ hp (by simp)

theorem errorIsNoChange_addMcast (addr : Mac) : ErrorIsNoChange s (execAddMcast addr s) := by
  refine errorIsNoChange_hostOp hp ?_
  split
  · exact errorIsNoChange_answer _ hp
  · exact errorIsNoChange_answer_ok _ hp (by simp)

/-- Both MDIO operations hold until their MDIO_DONE (42_mac_driver.md R180, R181). -/
theorem errorIsNoChange_holdForMdio (wr : Bool) (dev reg : BitVec 5) (val : Half) (k : Held) :
    ErrorIsNoChange s (.next (holdForMdio wr dev reg val k s)) := by
  refine errorIsNoChange_of_not_answered ?_
  simp [port_congr (holdForMdio_ports wr dev reg val k s), hold_port_issuer k hp]

theorem errorIsNoChange_mdioRead (dev reg : BitVec 5) : ErrorIsNoChange s (execMdioRead dev reg s) := by
  refine errorIsNoChange_hostOp hp ?_
  split
  · simp
  · exact errorIsNoChange_holdForMdio hp _ _ _ _ _

theorem errorIsNoChange_mdioWrite (dev reg : BitVec 5) (val : Half) :
    ErrorIsNoChange s (execMdioWrite dev reg val s) := by
  refine errorIsNoChange_hostOp hp ?_
  split
  · simp
  · exact errorIsNoChange_holdForMdio hp _ _ _ _ _

theorem errorIsNoChange_isrDispatch (line : Bool) (hun : (s.port s.env.issuer).phase = .unanswered) :
    ErrorIsNoChange s (execIsrDispatch line s) := by
  refine errorIsNoChange_hostOp hp ?_
  dsimp only
  split_ifs
  · simp
  · exact errorIsNoChange_answer _ hp
  · exact errorIsNoChange_raiseFatal _ hun
  · exact errorIsNoChange_raiseFatal _ hun
  · split
    · exact errorIsNoChange_answer_ok _ hp (serve_issuer ‹_›)
    · simp

/-- Every host operation but INIT; those without a branch of their own are one `OK` answer. -/
theorem errorIsNoChange_exec {i : Instr} (hi : isHostOp i = true) (hinit : i ≠ .init)
    (hun : (s.port s.env.issuer).phase = .unanswered) : ErrorIsNoChange s (exec i s) := by
  cases i with
  | init => exact absurd rfl hinit
  | deinit => exact errorIsNoChange_deinit hp
  | enable sp du => exact errorIsNoChange_enable hp sp du
  | disable => exact errorIsNoChange_disable hp
  | txEnqueue first last buf len => exact errorIsNoChange_txEnqueue hp first last buf len
  | txReclaim => exact errorIsNoChange_hostOp hp (errorIsNoChange_answer_ok _ hp (by simp))
  | rxPrime buf => exact errorIsNoChange_rxPrime hp buf
  | rxPoll => exact errorIsNoChange_rxPoll hp
  | setOwnAddr addr => exact errorIsNoChange_setOwnAddr hp addr
  | addMcast addr => exact errorIsNoChange_addMcast hp addr
  | clearMcast => exact errorIsNoChange_hostOp hp (errorIsNoChange_answer_ok _ hp (by simp))
  | setPam v => exact errorIsNoChange_hostOp hp (errorIsNoChange_answer_ok _ hp (by simp))
  | setPromisc v => exact errorIsNoChange_hostOp hp (errorIsNoChange_answer_ok _ hp (by simp))
  | mdioRead dev reg => exact errorIsNoChange_mdioRead hp dev reg
  | mdioWrite dev reg val => exact errorIsNoChange_mdioWrite hp dev reg val
  | isrDispatch line => exact errorIsNoChange_isrDispatch hp line hun
  | _ => cases hi

end

/-- Settles O9, by the branch of the operation that answered. -/
theorem errorCodesChangeNothing : Obligations.ErrorCodesChangeNothing := by
  intro i s t p hi hinit hhost hp hun hnext hans hres
  subst hp
  have hhw : s.env.issuer ≠ .hw := by rcases hhost with h | h | h <;> simp [h]
  rw [← answer_eq _ _ rfl]
  exact errorIsNoChange_exec hhw hi hinit hun t hnext hans hres

end Sys2Proof.Machine

/-! What a step does, said once (00_scope.md R14): `Effect` lists the next states of a running transition, `StepEffect`
those of a step. `exec_effect` and `step_effect` tie both to the model; the invariants below are proved by cases on
them. -/
namespace Sys2Proof.Machine

/-- From `s`, in which a transition runs, to the state it answers. -/
inductive Effect (s : State) : State → Prop where
  /-- An answer, and nothing else. -/
  | answer (res val : Word) : Effect s (s.answer res val)
  /-- A backend primitive, issued by the sequencer. -/
  | primitive (u : State) (val : Word) (hs : Sequences s) (hm : u.mem = s.mem) : Effect s (u.answer rcOk val)
  | init (bufs : List Word) (u : State) (hp : s.env.issuer = .fg) (hw : s.cfg.wf = true)
      (hd : drawPool s.cfg.dRx [] s = (true, bufs, u))
      (hc : ∀ b ∈ bufs, meetsDescriptors s.cfg b s.cfg.rxBufSize = false) :
      Effect s ((initialise bufs u).answer rcOk 0#32)
  /-- INIT with an empty draw. -/
  | initShort (bufs : List Word) (u : State) (hd : drawPool s.cfg.dRx [] s = (false, bufs, u)) :
      Effect s ((u.release bufs).answer rcOutOfMemory 0#32)
  | deinit (hp : s.env.issuer = .fg) (hl : isLive s.life) (hq : quiet (beginDeinit s) = true) :
      Effect s (finishDeinit (beginDeinit s))
  | deinitHolds (hp : s.env.issuer = .fg) (hl : isLive s.life) : Effect s ((beginDeinit s).hold .deinit)
  | enable (sp : Speed) (du : Duplex) (hp : s.env.issuer = .fg) (hl : isLive s.life) :
      Effect s ((openGate sp du s).answer rcOk 0#32)
  | disable (hp : s.env.issuer = .fg) (hl : s.life = .enabled) : Effect s (finishDisable (stopBoth (closeGate s)))
  | disableHolds (hp : s.env.issuer = .fg) (hl : s.life = .enabled) :
      Effect s ((stopBoth (closeGate s)).hold .disable)
  | txEnqueue (first last : Bool) (buf : Word) (len : Half) (hl : s.life = .enabled) (hfree : s.tx.free ≠ 0)
      (hc : meetsDescriptors s.cfg buf len.toNat = false) :
      Effect s ((enqueueSlot first last buf len s).answer rcOk 0#32)
  | txReclaim (val : Word) (hl : isLive s.life) : Effect s ((reclaim s).1.answer rcOk val)
  | rxPrime (buf : Word) (hl : isLive s.life) (hu : s.rx.unprimed ≠ 0)
      (hc : meetsDescriptors s.cfg buf s.cfg.rxBufSize = false) : Effect s ((primeSlot buf s).answer rcOk 0#32)
  | rxPoll (u : State) (n : Nat) (val : Word) (hl : isLive s.life) (hpoll : poll s = .ok (u, n)) :
      Effect s (u.answer rcOk val)
  | setOwnAddr (addr : Mac) (hl : isLive s.life) :
      Effect s ((writeUnicastAddress addr { s with mac := { s.mac with ucast := some addr } }).answer rcOk 0#32)
  | addMcast (addr : Mac) (hl : isLive s.life) (hn : s.mac.mcast.length ≠ s.cfg.mcastCap) :
      Effect s ((writeMulticastAddress (s.mac.mcast ++ [addr]).length (some addr)
        { s with mac := { s.mac with mcast := s.mac.mcast ++ [addr] } }).answer rcOk 0#32)
  | clearMcast (hl : isLive s.life) :
      Effect s (State.answer
        { clearMcastSlots s.mac.mcast.length s with
          mac := { (clearMcastSlots s.mac.mcast.length s).mac with mcast := [] } } rcOk 0#32)
  | setPam (v : Bool) (hl : isLive s.life) :
      Effect s ((recompute { s with mac := { s.mac with pam := v } }).answer rcOk 0#32)
  | setPromisc (v : Bool) (hl : isLive s.life) :
      Effect s ((recompute { s with mac := { s.mac with promisc := v } }).answer rcOk 0#32)
  /-- MDIO_READ and MDIO_WRITE begin. -/
  | mdioHolds (wr : Bool) (dev reg : BitVec 5) (val : Half) (k : Held) (hk : k = .mdioRead ∨ k = .mdioWrite) :
      Effect s (holdForMdio wr dev reg val k s)
  /-- ISR_DISPATCH on a bus error. -/
  | isrFatal (k : FatalKind) : Effect s (raiseFatal k s)
  /-- ISR_DISPATCH with its services. -/
  | isrServe (p : BitVec 10) (u : State) (val : Word) (hon : s.irq.globalOn = true) (hserve : serve p s = .ok u) :
      Effect s (u.answer rcOk val)
  | txdmaFetch (hp : s.env.issuer = .hw) (he : canTxFetch s = true) :
      Effect s { s with tx := { s.tx with inflight := some s.tx.hw } }
  | txdmaComplete (i : Nat) (hp : s.env.issuer = .hw) (hi : s.tx.inflight = some i) : Effect s (completeTx i s)
  | txdmaSuspend (hp : s.env.issuer = .hw) : Effect s { s with tx := { s.tx with dma := .idle } }
  | txdmaBusError (hp : s.env.issuer = .hw) :
      Effect s (State.raiseIrq { s with tx := { s.tx with dma := .stopped, inflight := none } } irqTxBusErr)
  | rxFrameArrive (f : Frame) (hp : s.env.issuer = .hw) : Effect s (frameArrives f (drawFrame s).2)
  | rxdmaWrite (f : RxFrame) (hp : s.env.issuer = .hw) (hf : s.rx.pending = some f) : Effect s (writeRx f s)
  | rxdmaSuspend (hp : s.env.issuer = .hw) : Effect s { s with rx := { s.rx with dma := .idle } }
  | rxdmaBusError (hp : s.env.issuer = .hw) :
      Effect s (State.raiseIrq { s with rx := { s.rx with dma := .stopped, pending := none } } irqRxBusErr)
  | statusEvent (m : BitVec 10) (hp : s.env.issuer = .hw) : Effect s (s.raiseIrq m)
  | mdioDone (hp : s.env.issuer = .hw) : Effect s (finishMdio s)

/-! The common part of the operations, as effects. -/

theorem isLive_of_colLive {l : Life} (h : colLive l = .run) : isLive l := by
  cases l <;> simp_all [colLive, isLive]

theorem enabled_of_colDisable {l : Life} (h : colDisable l = .run) : l = .enabled := by
  cases l <;> simp_all [colDisable]

theorem enabled_of_colEnqueue {l : Life} (h : colEnqueue l = .run) : l = .enabled := by
  cases l <;> simp_all [colEnqueue]

theorem isLive_ne_uninitialized {l : Life} (h : isLive l) : l ≠ .uninitialized := by
  rcases h with rfl | rfl | rfl <;> simp

theorem issuer_of_foregroundOnly {p : Issuer} (h : foregroundOnly p = true) : p = .fg := by
  cases p <;> simp_all [foregroundOnly]

/-- The checks of a host operation have the effect of an answer, so only its own lines are left. -/
theorem hostOp_effect {legal : Bool} {cell : Life → Cell} {s t : State} {body : Result}
    (h : hostOp legal cell s body = .next t)
    (hbody : legal = true → cell s.life = .run → body = .next t → Effect s t) : Effect s t := by
  rcases hostOp_next h with ⟨hl, -, hc, hb⟩ | ⟨-, -, -, rfl⟩ | ⟨-, -, -, rfl⟩ | ⟨-, rfl⟩
  · exact hbody hl hc hb
  all_goals exact .answer _ _

/-- A live operation of the foreground. -/
theorem foregroundOp_effect {s t : State} {body : Result}
    (h : hostOp (foregroundOnly s.env.issuer) colLive s body = .next t)
    (hbody : s.env.issuer = .fg → isLive s.life → body = .next t → Effect s t) : Effect s t :=
  hostOp_effect h fun hl hc => hbody (issuer_of_foregroundOnly hl) (isLive_of_colLive hc)

theorem primitive_effect {s t eff : State} {inRange pre : Bool} {val : Word}
    (h : primitive s inRange pre eff val = .next t) (hm : eff.mem = s.mem) : Effect s t := by
  rcases primitive_next h with ⟨hs, -, -, rfl⟩ | ⟨-, rfl⟩
  · exact .primitive eff val hs hm
  · exact .answer _ _

theorem agentStep_effect {s t : State} {enabled : Bool} {body : Result} (h : agentStep s enabled body = .next t)
    (hbody : s.env.issuer = .hw → enabled = true → body = .next t → Effect s t) : Effect s t := by
  rcases agentStep_next h with ⟨hp, -, he, hb⟩ | ⟨-, rfl⟩
  · exact hbody hp he hb
  · exact .answer _ _

/-! The operations with branches of their own. -/

section
variable {s t : State}

theorem execInit_effect (h : execInit s = .next t) : Effect s t :=
  hostOp_effect h fun hl _ hb => by
    split at hb
    · rename_i hw
      rcases runInit_cases s with ⟨bufs, u, hd, hc, hr⟩ | ⟨bufs, u, hd, hc, hr⟩ | ⟨bufs, u, hd, hr⟩ <;> rw [hr] at hb
      · cases hb
        exact .init bufs u (issuer_of_foregroundOnly hl) hw hd hc
      · cases hb
      · cases hb
        exact .initShort bufs u hd
    · cases hb

theorem execDeinit_effect (h : execDeinit s = .next t) : Effect s t :=
  foregroundOp_effect h fun hp hl hb => by
    dsimp only at hb
    split at hb <;> cases hb
    · exact .deinit hp hl ‹_›
    · exact .deinitHolds hp hl

theorem execEnable_effect {sp du : BitVec 2} (h : execEnable sp du s = .next t) : Effect s t :=
  foregroundOp_effect h fun hp hl hb => by
    split at hb
    · cases hb
      exact .answer _ _
    · split_ifs at hb
      cases hb
      exact .enable _ _ hp hl

theorem execDisable_effect (h : execDisable s = .next t) : Effect s t :=
  hostOp_effect h fun hl hc hb => by
    have hp := issuer_of_foregroundOnly hl
    have he := enabled_of_colDisable hc
    dsimp only at hb
    split at hb <;> cases hb
    · exact .disable hp he
    · exact .disableHolds hp he

theorem execTxEnqueue_effect {first last : Bool} {buf : Word} {len : Half}
    (h : execTxEnqueue first last buf len s = .next t) : Effect s t :=
  hostOp_effect h fun _ hc hb => by
    split_ifs at hb with _ _ _ _ hfree hm <;> cases hb
    · exact .answer _ _
    · exact .txEnqueue _ _ _ _ (enabled_of_colEnqueue hc) hfree (by simpa using hm)

theorem execRxPrime_effect {buf : Word} (h : execRxPrime buf s = .next t) : Effect s t :=
  hostOp_effect h fun _ hc hb => by
    split_ifs at hb with hu _ hm
    cases hb
    exact .rxPrime buf (isLive_of_colLive hc) hu (by simpa using hm)

theorem execRxPoll_effect (h : execRxPoll s = .next t) : Effect s t :=
  hostOp_effect h fun _ hc hb => by
    split at hb <;> cases hb
    exact .rxPoll _ _ _ (isLive_of_colLive hc) ‹_›

theorem execSetOwnAddr_effect {addr : Mac} (h : execSetOwnAddr addr s = .next t) : Effect s t :=
  foregroundOp_effect h fun _ hl hb => by
    split at hb <;> cases hb
    exact .setOwnAddr addr hl

theorem execAddMcast_effect {addr : Mac} (h : execAddMcast addr s = .next t) : Effect s t :=
  foregroundOp_effect h fun _ hl hb => by
    split at hb <;> cases hb
    · exact .answer _ _
    · exact .addMcast addr hl ‹_›

theorem execMdioRead_effect {dev reg : BitVec 5} (h : execMdioRead dev reg s = .next t) : Effect s t :=
  hostOp_effect h fun _ _ hb => by
    split at hb <;> cases hb
    exact .mdioHolds _ _ _ _ _ (.inl rfl)

theorem execMdioWrite_effect {dev reg : BitVec 5} {val : Half} (h : execMdioWrite dev reg val s = .next t) :
    Effect s t :=
  hostOp_effect h fun _ _ hb => by
    split at hb <;> cases hb
    exact .mdioHolds _ _ _ _ _ (.inr rfl)

theorem execIsrDispatch_effect {line : Bool} (h : execIsrDispatch line s = .next t) : Effect s t :=
  hostOp_effect h fun _ _ hb => by
    dsimp only at hb
    split_ifs at hb with hon
    · cases hb
      exact .answer _ _
    · cases hb
      exact .isrFatal _
    · cases hb
      exact .isrFatal _
    · split at hb <;> cases hb
      exact .isrServe _ _ _ (by simpa using hon) ‹_›

theorem execTxdmaComplete_effect (h : execTxdmaComplete s = .next t) : Effect s t :=
  agentStep_effect h fun hp he hb => by
    obtain ⟨i, hi⟩ := Option.isSome_iff_exists.1 he
    simp only [hi, Option.getD_some] at hb
    split at hb <;> cases hb
    exact .txdmaComplete i hp hi

theorem execRxFrameArrive_effect (h : execRxFrameArrive s = .next t) : Effect s t :=
  agentStep_effect h fun hp _ hb => by
    split at hb <;> cases hb
    exact .rxFrameArrive _ hp

theorem execRxdmaWrite_effect (h : execRxdmaWrite s = .next t) : Effect s t :=
  agentStep_effect h fun hp _ hb => by
    split at hb
    · cases hb
    · split at hb <;> cases hb
      exact .rxdmaWrite _ hp ‹_›

end

/-- Everything the meaning of an instruction can do. -/
theorem exec_effect {i : Instr} {s t : State} (h : exec i s = .next t) : Effect s t := by
  cases i with
  | init => exact execInit_effect h
  | deinit => exact execDeinit_effect h
  | enable sp du => exact execEnable_effect h
  | disable => exact execDisable_effect h
  | txEnqueue first last buf len => exact execTxEnqueue_effect h
  | txReclaim => exact hostOp_effect h fun _ hc hb => by cases hb; exact .txReclaim _ (isLive_of_colLive hc)
  | rxPrime buf => exact execRxPrime_effect h
  | rxPoll => exact execRxPoll_effect h
  | setOwnAddr addr => exact execSetOwnAddr_effect h
  | addMcast addr => exact execAddMcast_effect h
  | clearMcast => exact foregroundOp_effect h fun _ hl hb => by cases hb; exact .clearMcast hl
  | setPam v => exact foregroundOp_effect h fun _ hl hb => by cases hb; exact .setPam v hl
  | setPromisc v => exact foregroundOp_effect h fun _ hl hb => by cases hb; exact .setPromisc v hl
  | mdioRead dev reg => exact execMdioRead_effect h
  | mdioWrite dev reg val => exact execMdioWrite_effect h
  | isrDispatch line => exact execIsrDispatch_effect h
  | startDma ring => cases ring <;> exact primitive_effect h rfl
  | stopDma ring => cases ring <;> exact primitive_effect h rfl
  | setLinkConfig en sp du => exact primitive_effect h (by split <;> rfl)
  | isSlotOwnedByDma | writeTxDesc | writeRxDesc | isFirstFragment | isLastFragment | isErrorFragment
  | totalFrameLength | isBufferDmaReadable | writeUnicastAddr | writeMcastAddr | mdioTransaction | writeFilterFlags =>
    exact primitive_effect h rfl
  | txdmaFetch => exact agentStep_effect h fun hp he hb => by cases hb; exact .txdmaFetch hp he
  | txdmaComplete => exact execTxdmaComplete_effect h
  | txdmaSuspend => exact agentStep_effect h fun hp _ hb => by cases hb; exact .txdmaSuspend hp
  | txdmaBusError => exact agentStep_effect h fun hp _ hb => by cases hb; exact .txdmaBusError hp
  | rxFrameArrive => exact execRxFrameArrive_effect h
  | rxdmaWrite => exact execRxdmaWrite_effect h
  | rxdmaSuspend => exact agentStep_effect h fun hp _ hb => by cases hb; exact .rxdmaSuspend hp
  | rxdmaBusError => exact agentStep_effect h fun hp _ hb => by cases hb; exact .rxdmaBusError hp
  | statusEvent kind => exact agentStep_effect h fun hp _ hb => by cases hb; exact .statusEvent _ hp
  | mdioDone => exact agentStep_effect h fun hp _ hb => by cases hb; exact .mdioDone hp

/-- From `s` to the state after a step. -/
inductive StepEffect (s : State) : State → Prop where
  /-- Nothing is asked. -/
  | idle : StepEffect s s
  /-- A tuple or a tag runs, on a port that does not hold. -/
  | runs (p : Issuer) (w : OpTuple) (t : State) (hh : isHeld (s.port p) = false)
      (he : Effect (s.dropInput.latch p w) t) : StepEffect s t
  | disableEnds (p : Issuer) (u : State) (hk : (s.port p).phase = .held .disable)
      (hu : u = { s.dropInput with env := { s.dropInput.env with issuer := p } }) : StepEffect s (finishDisable u)
  | deinitEnds (p : Issuer) (u : State) (hk : (s.port p).phase = .held .deinit)
      (hu : u = { s.dropInput with env := { s.dropInput.env with issuer := p } }) (hq : quiet u = true) :
      StepEffect s (finishDeinit u)
  | mdioEnds (p : Issuer) (u : State) (ret : Word) (hk : (s.port p).phase = .held (.mdioOver ret))
      (hu : u = { s.dropInput with env := { s.dropInput.env with issuer := p } }) :
      StepEffect s (u.answer rcOk ret)
  /-- A `CsrRead` or a load. -/
  | reads (p : Issuer) (v : Word) : StepEffect s (s.dropInput.setRdata p v).drew
  /-- A byte store of the host. -/
  | stores (b : Bool) (a : Word) (v : Byte) : StepEffect s ((s.dropInput.drewIf b).storeBytes a [v])
  | powersOn : StepEffect s (powerOn s.dropInput)

theorem port_dropInput (s : State) (p : Issuer) : s.dropInput.port p = s.port p := port_congr rfl p

theorem completeHeld_effect {s t : State} {p : Issuer} (h : completeHeld p s.dropInput = .next t) : StepEffect s t := by
  obtain ⟨k, hk, -, hf⟩ := completeHeld_next h
  rw [port_dropInput] at hk
  rcases finishHeld_some hf with ⟨rfl, -, rfl⟩ | ⟨rfl, hq, rfl⟩ | ⟨ret, rfl, rfl⟩
  · exact .disableEnds p _ hk rfl
  · exact .deinitEnds p _ hk rfl hq
  · exact .mdioEnds p _ ret hk rfl

theorem hostStore_next {s t : State} {a : Word} {v : Byte} (h : hostStore a v s = .next t) :
    t = (s.drewIf (filledHolds s a)).storeBytes a [anyOf s 0 v (filledVals s a)] := by
  unfold hostStore at h
  split at h <;> cases h
  rfl

/-- Everything a step can do. -/
theorem step_effect {s t : State} (h : step s = .next t) : StepEffect s t := by
  rcases step_next h with ⟨-, rfl⟩ | ⟨x, rest, -, ⟨p, w, i, -, hh, -, he⟩ | ⟨p, w, -, hh, -, hi⟩ | ⟨p, -, hc⟩
    | ⟨p, n, -, hr⟩ | ⟨p, a, -, hr⟩ | ⟨p, a, -, hr⟩ | ⟨p, a, v, -, hs⟩ | ⟨-, rfl⟩⟩
  · exact .idle
  · exact .runs p w t hh (exec_effect he)
  · obtain ⟨rfl, -, -⟩ := illegal_next hi
    exact .runs p w _ hh (.answer _ _)
  · exact completeHeld_effect hc
  iterate 3 exact Host.Outcome.next.inj hr ▸ .reads p _
  · rw [hostStore_next hs]
    exact .stores _ a _
  · exact .powersOn

end Sys2Proof.Machine

/-! What the loops of the operations leave alone, field by field. -/
namespace Sys2Proof.Machine

@[simp] theorem reclaim_cfg (s : State) : (reclaim s).1.cfg = s.cfg := by rw [reclaim_frame s]
@[simp] theorem reclaim_life (s : State) : (reclaim s).1.life = s.life := by rw [reclaim_frame s]
@[simp] theorem reclaim_fatal (s : State) : (reclaim s).1.fatal = s.fatal := by rw [reclaim_frame s]
@[simp] theorem reclaim_rx (s : State) : (reclaim s).1.rx = s.rx := by rw [reclaim_frame s]
@[simp] theorem reclaim_mac (s : State) : (reclaim s).1.mac = s.mac := by rw [reclaim_frame s]
@[simp] theorem reclaim_irq (s : State) : (reclaim s).1.irq = s.irq := by rw [reclaim_frame s]
@[simp] theorem reclaim_mem (s : State) : (reclaim s).1.mem = s.mem := by rw [reclaim_frame s]
@[simp] theorem reclaim_ports (s : State) : (reclaim s).1.ports = s.ports := by rw [reclaim_frame s]

/-- What the services of a dispatch leave alone besides. -/
theorem serveTx_frame (p : BitVec 10) (s : State) :
    (serveTx p s).cfg = s.cfg ∧ (serveTx p s).life = s.life ∧ (serveTx p s).fatal = s.fatal
      ∧ (serveTx p s).rx = s.rx ∧ (serveTx p s).mac = s.mac ∧ (serveTx p s).irq = s.irq
      ∧ (serveTx p s).mem = s.mem ∧ (serveTx p s).ports = s.ports := by
  unfold serveTx
  split <;> simp

/-- The clearing of the multicast slots writes the address table only. -/
theorem clearMcastSlots_frame (n : Nat) (s : State) :
    clearMcastSlots n s = { s with mac := { s.mac with addrTab := (clearMcastSlots n s).mac.addrTab } } := by
  induction n with
  | zero => rfl
  | succ n ih =>
    simp only [clearMcastSlots]
    rw [ih]
    rfl

@[simp] theorem clearMcastSlots_cfg (n : Nat) (s : State) : (clearMcastSlots n s).cfg = s.cfg := by
  rw [clearMcastSlots_frame]
@[simp] theorem clearMcastSlots_life (n : Nat) (s : State) : (clearMcastSlots n s).life = s.life := by
  rw [clearMcastSlots_frame]
@[simp] theorem clearMcastSlots_fatal (n : Nat) (s : State) : (clearMcastSlots n s).fatal = s.fatal := by
  rw [clearMcastSlots_frame]
@[simp] theorem clearMcastSlots_tx (n : Nat) (s : State) : (clearMcastSlots n s).tx = s.tx := by
  rw [clearMcastSlots_frame]
@[simp] theorem clearMcastSlots_rx (n : Nat) (s : State) : (clearMcastSlots n s).rx = s.rx := by
  rw [clearMcastSlots_frame]
@[simp] theorem clearMcastSlots_irq (n : Nat) (s : State) : (clearMcastSlots n s).irq = s.irq := by
  rw [clearMcastSlots_frame]
@[simp] theorem clearMcastSlots_macEn (n : Nat) (s : State) : (clearMcastSlots n s).mac.macEn = s.mac.macEn := by
  rw [clearMcastSlots_frame]
@[simp] theorem clearMcastSlots_mem (n : Nat) (s : State) : (clearMcastSlots n s).mem = s.mem := by
  rw [clearMcastSlots_frame]
@[simp] theorem clearMcastSlots_ports (n : Nat) (s : State) : (clearMcastSlots n s).ports = s.ports := by
  rw [clearMcastSlots_frame]

@[simp] theorem frameArrives_irq_enable (f : Frame) (s : State) :
    (frameArrives f s).irq.enable = s.irq.enable := by unfold frameArrives; (repeat' split) <;> rfl
@[simp] theorem frameArrives_irq_globalOn (f : Frame) (s : State) :
    (frameArrives f s).irq.globalOn = s.irq.globalOn := by unfold frameArrives; (repeat' split) <;> rfl

/-- What INIT with a full pool leaves alone, and what it does to the control state. -/
theorem initialise_frame (bufs : List Word) (s : State) :
    (initialise bufs s).cfg = s.cfg ∧ (initialise bufs s).life = .initialized ∧ (initialise bufs s).fatal = s.fatal
      ∧ (initialise bufs s).tx = clearTx s.cfg ∧ (initialise bufs s).mac = clearMac s.cfg
      ∧ (initialise bufs s).irq = ⟨0#10, 0x3FF#10, true⟩ ∧ (initialise bufs s).mem = s.mem
      ∧ (initialise bufs s).ports = s.ports ∧ (initialise bufs s).env.issuer = s.env.issuer := by
  have h := primeAll_keeps (fun t => t.cfg = s.cfg ∧ t.fatal = s.fatal ∧ t.tx = clearTx s.cfg ∧ t.mac = clearMac s.cfg
      ∧ t.mem = s.mem ∧ t.ports = s.ports ∧ t.env.issuer = s.env.issuer) (by simp) bufs (resetPeripheral s) (by simp)
  obtain ⟨h1, h2, h3, h4, h5, h6, h7⟩ := h
  exact ⟨h1, rfl, h2, h3, h4, rfl, h5, h6, h7⟩

/-- The draws of INIT leave everything but the environment alone. -/
theorem drawPool_frame {n : Nat} {bufs taken : List Word} {s u : State} {full : Bool}
    (h : drawPool n bufs s = (full, taken, u)) : u = { s with env := u.env } := by
  have := drawPool_env n bufs s
  rw [h] at this
  exact this

/-- The draws of INIT do not change who makes the transition. -/
theorem drawPool_issuer {n : Nat} {bufs taken : List Word} {s u : State} {full : Bool}
    (h : drawPool n bufs s = (full, taken, u)) : u.env.issuer = s.env.issuer := by
  have hraw : ∀ v : State, (drawAllocRaw v).2.env.issuer = v.env.issuer := fun v => by
    unfold drawAllocRaw
    split <;> rfl
  induction n generalizing bufs s with
  | zero => cases h; rfl
  | succ n ih =>
    unfold drawPool at h
    dsimp only at h
    split at h
    · exact (ih h).trans (hraw s)
    · cases h
      exact hraw s

/-- What a dispatch with services leaves alone. -/
theorem serve_frame {p : BitVec 10} {s t : State} (h : serve p s = .ok t) :
    t.cfg = s.cfg ∧ t.life = s.life ∧ t.fatal = s.fatal ∧ t.mac = s.mac ∧ t.irq.enable = s.irq.enable
      ∧ t.irq.globalOn = s.irq.globalOn ∧ t.mem = s.mem ∧ t.ports = s.ports := by
  obtain ⟨u, hu, rfl⟩ := serve_ok h
  obtain ⟨h1, h2, h3, -, h5, h6, h7, h8⟩ := serveTx_frame p (acknowledge p s)
  rcases serveRx_ok hu with ⟨-, n, hpoll⟩ | ⟨-, rfl⟩
  · obtain ⟨g1, g2, g3, -, g5, -, g7, g8, g9, -⟩ := poll_frame hpoll
    simp_all
  · simp_all

end Sys2Proof.Machine

/-! The control invariants (43_engine.md R204, 60_exceptions.md R301; O55). In the middle of a transition the port that
makes it may be half done, and nothing else: `MidControl`. Every effect brings `ControlInv` back, and they fall into
four kinds: an answer or a hold that leaves the control state alone, a lifecycle operation of the foreground, the step
of an agent, and the fatal latch. -/
namespace Sys2Proof.Machine

theorem sequencing_false_iff (s : State) :
    sequencing s = false ↔ ∀ q, isHostPort q → (s.port q).phase ≠ .unanswered := by
  have h : ∀ r : PortRegs, isUnanswered r = false ↔ r.phase ≠ .unanswered := fun r => by
    unfold isUnanswered
    split <;> simp_all
  simp [sequencing, h, State.port, isHostPort, and_assoc]

/-- The control invariants, by port: the form in which the ports of a transition are looked up. -/
theorem controlInv_iff (s : State) :
    ControlInv s ↔ s.cfg.wf = true
      ∧ ((s.port .fg).phase = .held .disable → s.life = .enabled)
      ∧ ((s.port .fg).phase = .held .deinit → isLive s.life)
      ∧ (∀ q, q ≠ .fg → (s.port q).phase ≠ .held .disable ∧ (s.port q).phase ≠ .held .deinit)
      ∧ (s.irq.globalOn = true ↔ isLive s.life ∧ (s.port .fg).phase ≠ .held .deinit)
      ∧ s.irq.enable = (if s.irq.globalOn then 0x3FF#10 else 0#10)
      ∧ (s.mac.macEn = true ↔
          s.life = .enabled ∧ (s.port .fg).phase ≠ .held .disable ∧ (s.port .fg).phase ≠ .held .deinit)
      ∧ (s.fatal = none → ∀ q, isHostPort q → (s.port q).phase ≠ .unanswered) := by
  rw [← sequencing_false_iff]
  constructor
  · rintro ⟨hw, ⟨h1, h2, h3, h4, h5⟩, ⟨h6, h7⟩, h8, h9⟩
    refine ⟨hw, h1, h2, fun q hq => ?_, h6, h7, h8, h9⟩
    cases q with
    | fg => exact absurd rfl hq
    | txi => exact h3
    | rxi => exact h4
    | be => exact h5
    | hw => exact ⟨nofun, nofun⟩
  · rintro ⟨hw, h1, h2, h3, h6, h7, h8, h9⟩
    exact ⟨hw, ⟨h1, h2, h3 .txi nofun, h3 .rxi nofun, h3 .be nofun⟩, ⟨h6, h7⟩, h8, h9⟩

/-- The parts of the control state outside the ports, unchanged. -/
@[simp] abbrev ControlKept (s t : State) : Prop :=
  t.cfg = s.cfg ∧ t.life = s.life ∧ t.fatal = s.fatal ∧ t.irq.enable = s.irq.enable
    ∧ t.irq.globalOn = s.irq.globalOn ∧ t.mac.macEn = s.mac.macEn

/-- A port may go from phase `b` to phase `a` with no change of the control state. -/
@[simp] abbrev ControlPhaseKept (a b : Phase) : Prop :=
  (a = .held .disable ↔ b = .held .disable) ∧ (a = .held .deinit ↔ b = .held .deinit)
    ∧ (a = .unanswered → b = .unanswered)

theorem controlPhaseKept_of_ports {s t : State} (h : t.ports = s.ports) (q : Issuer) :
    ControlPhaseKept (t.port q).phase (s.port q).phase := by
  simp [port_congr h]

/-- Nothing the control invariants look at changes. -/
theorem controlInv_of_kept {s t : State} (h : ControlInv s) (hk : ControlKept s t)
    (hports : ∀ q, ControlPhaseKept (t.port q).phase (s.port q).phase) : ControlInv t := by
  rw [controlInv_iff] at h ⊢
  obtain ⟨k1, k2, k3, k4, k5, k6⟩ := hk
  have hdis := fun q => (hports q).1
  have hdei := fun q => (hports q).2.1
  have hun := fun q => (hports q).2.2
  simp only [k1, k2, k3, k4, k5, k6, ne_eq, hdis, hdei] at h ⊢
  obtain ⟨hw, h1, h2, h3, h4, h5, h6, hidle⟩ := h
  exact ⟨hw, h1, h2, h3, h4, h5, h6, fun hf q hq hq' => hidle hf q hq (hun q hq')⟩

/-- A lifecycle operation of the foreground: of the other ports nothing changes, the rest is to be shown afresh. -/
theorem controlInv_of_foreground {s t : State} (h : ControlInv s) (hcfg : t.cfg = s.cfg) (hfatal : t.fatal = s.fatal)
    (hports : ∀ q, q ≠ .fg → t.port q = s.port q) (hun : (t.port .fg).phase ≠ .unanswered)
    (hdis : (t.port .fg).phase = .held .disable → t.life = .enabled)
    (hdei : (t.port .fg).phase = .held .deinit → isLive t.life)
    (hirq : t.irq.globalOn = true ↔ isLive t.life ∧ (t.port .fg).phase ≠ .held .deinit)
    (hen : t.irq.enable = (if t.irq.globalOn then 0x3FF#10 else 0#10))
    (hgate : t.mac.macEn = true ↔
      t.life = .enabled ∧ (t.port .fg).phase ≠ .held .disable ∧ (t.port .fg).phase ≠ .held .deinit) :
    ControlInv t := by
  rw [controlInv_iff] at h ⊢
  obtain ⟨hw, -, -, hothers, -, -, -, hidle⟩ := h
  refine ⟨hcfg ▸ hw, hdis, hdei, fun q hq => hports q hq ▸ hothers q hq, hirq, hen, hgate, fun hf q hq => ?_⟩
  by_cases hqf : q = .fg
  · exact hqf ▸ hun
  · exact hports q hqf ▸ hidle (hfatal ▸ hf) q hq

/-- The control invariants while a transition runs: its port does not hold, and they would hold if it answered now. -/
def MidControl (s : State) : Prop :=
  ControlInv (s.answer rcOk 0#32) ∧ ∀ k, (s.port s.env.issuer).phase ≠ .held k

/-! The ports after an answer, a hold and a latch. -/

theorem setPort_port (s : State) (p q : Issuer) (r : PortRegs) :
    (s.setPort p r).port q = if q = p ∧ p ≠ .hw then r else s.port q := by
  cases p <;> cases q <;> rfl

theorem answer_port (s : State) (res val : Word) (q : Issuer) :
    (s.answer res val).port q
      = if q = s.env.issuer ∧ s.env.issuer ≠ .hw then
          { s.port q with result := res, ret0 := val, phase := .answered } else s.port q := by
  simp only [State.answer, setPort_port]
  split
  · rename_i h
    rw [h.1]
  · rfl

theorem hold_port (s : State) (k : Held) (q : Issuer) :
    (s.hold k).port q
      = if q = s.env.issuer ∧ s.env.issuer ≠ .hw then { s.port q with phase := .held k } else s.port q := by
  simp only [State.hold, setPort_port]
  split
  · rename_i h
    rw [h.1]
  · rfl

theorem latch_port (s : State) (p q : Issuer) (w : OpTuple) :
    (s.latch p w).port q
      = if q = p ∧ p ≠ .hw then
          { s.port q with opw := w.opw, arg0 := w.arg0, arg1 := w.arg1, arg2 := w.arg2, phase := .unanswered }
        else s.port q := by
  cases p <;> cases q <;> rfl

/-- A transition that begins on a port that does not hold finds the control invariants. -/
theorem midControl_latch {s : State} {p : Issuer} (w : OpTuple) (h : ControlInv s) (hh : isHeld (s.port p) = false) :
    MidControl (s.dropInput.latch p w) := by
  have hnot : ∀ k, (s.port p).phase ≠ .held k := fun k hk => by simp [isHeld, hk] at hh
  refine ⟨controlInv_of_kept h (by simp) fun q => ?_, fun k => ?_⟩
  · simp only [answer_port, latch_port, latch_env, port_dropInput]
    by_cases hq : q = p ∧ p ≠ .hw
    · simp [hq, hnot]
    · simp [hq]
  · simp only [latch_port, latch_env, port_dropInput]
    by_cases hq : p = .hw <;> simp [hq, State.port, PortRegs.clear]

section
variable {s u : State} (h : MidControl s)
include h

/-- No primitive runs: the sequencer is on `be`, and no host operation is half done (log 10). -/
theorem not_sequences_of_midControl : ¬ Sequences s := by
  rintro ⟨⟨hp, hf⟩, hseq⟩
  obtain ⟨-, -, -, -, -, -, -, hidle⟩ := (controlInv_iff _).1 h.1
  have : sequencing s = false := (sequencing_false_iff s).2 fun q hq => by
    have := hidle (by simpa using hf) q hq
    rwa [answer_port, if_neg (by rcases hq with rfl | rfl | rfl <;> simp [hp])] at this
  simp [this] at hseq

/-- An answer of an operation that leaves the control state alone. -/
theorem controlInv_answer (res val : Word) (hk : ControlKept s u) (hports : u.ports = s.ports)
    (hp : u.env.issuer = s.env.issuer) : ControlInv (u.answer res val) := by
  refine controlInv_of_kept h.1 (by simpa using hk) fun q => ?_
  simp only [answer_port, hp, port_congr hports]
  split <;> simp

/-- The step of an agent that leaves the control state alone. -/
theorem controlInv_agent (hp : s.env.issuer = .hw) (hk : ControlKept s u)
    (hports : ∀ q, ControlPhaseKept (u.port q).phase (s.port q).phase) : ControlInv u := by
  refine controlInv_of_kept h.1 (by simpa using hk) fun q => ?_
  rw [answer_port, if_neg (by simp [hp])]
  exact hports q

/-- An MDIO operation begins to hold. -/
theorem controlInv_mdioHolds (wr : Bool) (dev reg : BitVec 5) (val : Half) {k : Held}
    (hk : k = .mdioRead ∨ k = .mdioWrite) : ControlInv (holdForMdio wr dev reg val k s) := by
  refine controlInv_of_kept h.1 (by simp) fun q => ?_
  rw [port_congr (holdForMdio_ports wr dev reg val k s), hold_port, answer_port]
  rcases hk with rfl | rfl <;> split <;> simp

/-- The fatal latch leaves the operation without an answer, which the control invariants allow from then on. -/
theorem controlInv_raiseFatal (k : FatalKind) : ControlInv (raiseFatal k s) := by
  have hphase : ∀ q k, ((s.answer rcOk 0#32).port q).phase = .held k ↔ (s.port q).phase = .held k := fun q k => by
    rw [answer_port]
    split
    · rename_i hq
      simp [hq.1, h.2 k]
    · rfl
  have hc := (controlInv_iff _).1 h.1
  simp only [ne_eq, hphase, answer_cfg, answer_life, answer_irq, answer_mac] at hc
  obtain ⟨hw, h1, h2, h3, h4, h5, h6, -⟩ := hc
  refine (controlInv_iff _).2 ?_
  simp only [ne_eq, port_congr (raiseFatal_ports k s)]
  exact ⟨hw, h1, h2, h3, h4, h5, h6, nofun⟩

end

theorem mdioPhase_kept (d : Half) (a : Phase) : ControlPhaseKept (mdioPhase d a) a := by
  unfold mdioPhase
  split <;> simp

end Sys2Proof.Machine

namespace Sys2Proof.Machine

/-! The lifecycle operations of the foreground, at their beginning. -/

@[simp] theorem not_isLive_deinitialized : ¬ isLive .deinitialized := by decide
@[simp] theorem isLive_initialized : isLive .initialized := by decide
@[simp] theorem isLive_enabled : isLive .enabled := by decide
@[simp] theorem isLive_disabled : isLive .disabled := by decide

/-- What the control invariants say of a transition of the foreground. -/
theorem midControl_foreground {s : State} (h : MidControl s) (hp : s.env.issuer = .fg) :
    (s.irq.globalOn = true ↔ isLive s.life) ∧ s.irq.enable = (if s.irq.globalOn then 0x3FF#10 else 0#10)
      ∧ (s.mac.macEn = true ↔ s.life = .enabled) := by
  obtain ⟨-, -, -, -, h4, h5, h6, -⟩ := (controlInv_iff _).1 h.1
  simp only [answer_port, hp, answer_life, answer_irq, answer_mac] at h4 h5 h6
  exact ⟨by simpa using h4, h5, by simpa using h6⟩

/-- The answer of a lifecycle operation of the foreground, on the port of a transition or at the end of a hold. -/
theorem controlInv_of_foreground_answer {s u : State} (h : ControlInv s) (res val : Word)
    (hcfg : u.cfg = s.cfg) (hfatal : u.fatal = s.fatal) (hports : ∀ q, q ≠ .fg → u.port q = s.port q)
    (hissuer : u.env.issuer = .fg) (hirq : u.irq.globalOn = true ↔ isLive u.life)
    (hen : u.irq.enable = (if u.irq.globalOn then 0x3FF#10 else 0#10))
    (hgate : u.mac.macEn = true ↔ u.life = .enabled) : ControlInv (u.answer res val) := by
  refine controlInv_of_foreground h (by simpa) (by simpa) (fun q hq => ?_) ?_ ?_ ?_ ?_ (by simpa) ?_ <;>
    simp_all [answer_port]

/-- The answer of a lifecycle operation of the foreground in its own transition. -/
theorem controlInv_foreground_answer {s u : State} (h : MidControl s) (hp : s.env.issuer = .fg) (res val : Word)
    (hcfg : u.cfg = s.cfg) (hfatal : u.fatal = s.fatal) (hports : u.ports = s.ports) (hissuer : u.env.issuer = .fg)
    (hirq : u.irq.globalOn = true ↔ isLive u.life)
    (hen : u.irq.enable = (if u.irq.globalOn then 0x3FF#10 else 0#10))
    (hgate : u.mac.macEn = true ↔ u.life = .enabled) : ControlInv (u.answer res val) :=
  controlInv_of_foreground_answer h.1 res val (by simpa) (by simpa)
    (fun q hq => by rw [answer_port, if_neg (by simp [hp, hq]), port_congr hports]) hissuer hirq hen hgate

/-- A hold of a lifecycle operation of the foreground. -/
theorem controlInv_foreground_hold {s u : State} (h : MidControl s) (hp : s.env.issuer = .fg) {k : Held}
    (hcfg : u.cfg = s.cfg) (hfatal : u.fatal = s.fatal) (hports : u.ports = s.ports) (hissuer : u.env.issuer = .fg)
    (hk : (k = .disable ∧ u.life = .enabled ∧ u.irq.globalOn = true)
      ∨ (k = .deinit ∧ isLive u.life ∧ u.irq.globalOn = false))
    (hen : u.irq.enable = (if u.irq.globalOn then 0x3FF#10 else 0#10)) (hgate : u.mac.macEn = false) :
    ControlInv (u.hold k) := by
  refine controlInv_of_foreground h.1 (by simpa) (by simpa) (fun q hq => ?_) ?_ ?_ ?_ ?_ (by simpa) ?_ <;>
    rcases hk with ⟨rfl, hl, hon⟩ | ⟨rfl, hl, hon⟩ <;> simp_all [hold_port, answer_port, port_congr hports]

/-- The gate is closed once DEINIT has begun. -/
theorem beginDeinit_macEn {s : State} (h : s.mac.macEn = true ↔ s.life = .enabled) :
    (beginDeinit s).mac.macEn = false := by
  unfold beginDeinit
  dsimp only
  split
  · simp
  · rename_i hl
    simpa [hl] using h

/-- Every effect brings the control invariants back, and changes no parameter. -/
theorem Effect.controlInv {s t : State} (he : Effect s t) (h : MidControl s) : ControlInv t ∧ t.cfg = s.cfg := by
  cases he with
  | primitive u val hs => exact absurd hs (not_sequences_of_midControl h)
  | init bufs u hp _ hd =>
    have hu := drawPool_frame hd
    obtain ⟨h1, h2, h3, -, h5, h6, -, h8, h9⟩ := initialise_frame bufs u
    refine ⟨controlInv_foreground_answer h hp _ _ ?_ ?_ ?_ ?_ ?_ ?_ ?_, ?_⟩
    · rw [h1, hu]
    · rw [h3, hu]
    · rw [h8, hu]
    · rw [h9, drawPool_issuer hd, hp]
    · simp [h2, h6]
    · simp [h6]
    · simp [h2, h5, clearMac]
    · rw [answer_cfg, h1, hu]
  | initShort bufs u hd =>
    have hu := drawPool_frame hd
    exact ⟨controlInv_answer h _ _ (by rw [hu]; simp) (by rw [hu]; rfl) (by simpa using drawPool_issuer hd),
      by rw [hu]; simp⟩
  | deinit hp hl hq =>
    obtain ⟨-, -, hgate⟩ := midControl_foreground h hp
    exact ⟨controlInv_foreground_answer h hp _ _ (by simp) (by simp) (by simp) (by simpa) (by simp) (by simp)
      (by simp [beginDeinit_macEn hgate]), by simp [finishDeinit]⟩
  | deinitHolds hp hl =>
    obtain ⟨-, -, hgate⟩ := midControl_foreground h hp
    exact ⟨controlInv_foreground_hold h hp (by simp) (by simp) (by simp) (by simpa) (by simpa using hl) (by simp)
      (beginDeinit_macEn hgate), by simp⟩
  | enable sp du hp hl =>
    obtain ⟨hon, hen, -⟩ := midControl_foreground h hp
    exact ⟨controlInv_foreground_answer h hp _ _ rfl rfl rfl hp (by simpa [hl] using hon) hen (by simp), by simp⟩
  | disable hp hl =>
    obtain ⟨hon, hen, -⟩ := midControl_foreground h hp
    exact ⟨controlInv_foreground_answer h hp _ _ rfl rfl rfl hp (by simpa [hl] using hon) hen (by simp),
      by simp⟩
  | disableHolds hp hl =>
    obtain ⟨hon, hen, -⟩ := midControl_foreground h hp
    exact ⟨controlInv_foreground_hold h hp rfl rfl rfl hp (by simpa [hl] using hon) hen rfl, by simp⟩
  | txReclaim val hl => exact ⟨controlInv_answer h _ _ (by simp) (by simp) (by simp), by simp⟩
  | rxPoll u n val hl hpoll =>
    obtain ⟨h1, h2, h3, -, h5, -, h7, -, h9, -⟩ := poll_frame hpoll
    exact ⟨controlInv_answer h _ _ (by simp [*]) h9 (poll_issuer hpoll), by simp [h1]⟩
  | mdioHolds wr dev reg val k hk => exact ⟨controlInv_mdioHolds h wr dev reg val hk, by simp⟩
  | isrFatal k => exact ⟨controlInv_raiseFatal h k, rfl⟩
  | isrServe p u val hon hserve =>
    obtain ⟨h1, h2, h3, h4, h5, h6, -, h8⟩ := serve_frame hserve
    exact ⟨controlInv_answer h _ _ (by simp [*]) h8 (serve_issuer hserve), by simp [h1]⟩
  | mdioDone hp =>
    refine ⟨controlInv_agent h hp (by simp) fun q => ?_, by simp⟩
    have hq : (endTransaction s).port q = s.port q := port_congr (by simp) q
    rw [finishMdio, endMdioHold_port, hq]
    split
    · exact mdioPhase_kept _ _
    · simp
  | txdmaFetch hp | txdmaComplete _ hp | txdmaSuspend hp | txdmaBusError hp | rxFrameArrive _ hp | rxdmaWrite _ hp
  | rxdmaSuspend hp | rxdmaBusError hp | statusEvent _ hp =>
    exact ⟨controlInv_agent h hp (by simp) (controlPhaseKept_of_ports (by simp)), by simp⟩
  | answer | txEnqueue | rxPrime | setOwnAddr | addMcast | clearMcast | setPam | setPromisc =>
    exact ⟨controlInv_answer h _ _ (by simp) (by simp) (by simp), by simp⟩

/-- DISABLE and DEINIT are held on the foreground only. -/
theorem eq_fg_of_held {s : State} {p : Issuer} (h : ControlInv s)
    (hk : (s.port p).phase = .held .disable ∨ (s.port p).phase = .held .deinit) : p = .fg := by
  obtain ⟨-, -, -, hothers, -⟩ := (controlInv_iff s).1 h
  by_contra hp
  exact hk.elim (hothers p hp).1 (hothers p hp).2

theorem life_of_held_disable {s : State} {p : Issuer} (h : ControlInv s) (hk : (s.port p).phase = .held .disable) :
    s.life = .enabled := by
  obtain rfl := eq_fg_of_held h (.inl hk)
  obtain ⟨-, hdis, -⟩ := (controlInv_iff s).1 h
  exact hdis hk

theorem isLive_of_held_deinit {s : State} {p : Issuer} (h : ControlInv s) (hk : (s.port p).phase = .held .deinit) :
    isLive s.life := by
  obtain rfl := eq_fg_of_held h (.inr hk)
  obtain ⟨-, -, hdei, -⟩ := (controlInv_iff s).1 h
  exact hdei hk

/-- The control invariants hold right after power-on, for parameters in range. -/
theorem controlInv_resetWith {c : Params} (hw : c.wf = true) : ControlInv (State.resetWith c) :=
  ⟨hw, by simp [HoldInv, State.resetWith, PortRegs.clear], by simp [IrqInv, State.resetWith],
    by simp [GateInv, State.resetWith], fun _ => rfl⟩

theorem controlInv_powerOn {s : State} (h : s.cfg.wf = true) : ControlInv (powerOn s) :=
  controlInv_of_kept (controlInv_resetWith h) (by simp [powerOn]) (controlPhaseKept_of_ports rfl)

/-- Settles O55: by the effect of the step. -/
theorem stepKeepsControl : Obligations.StepKeepsControl := by
  intro s t h hstep
  cases step_effect hstep with
  | idle => exact ⟨h, rfl⟩
  | runs p w t hh he => simpa using he.controlInv (midControl_latch w h hh)
  | disableEnds p u hk hu =>
    obtain rfl := eq_fg_of_held h (.inl hk)
    obtain ⟨-, hl, -, -, hon, hen, hgate, -⟩ := (controlInv_iff s).1 h
    simp only [hk, hl hk] at hon hgate
    subst hu
    exact ⟨controlInv_of_foreground_answer h _ _ rfl rfl (fun _ _ => port_congr rfl _) rfl (by simpa using hon) hen
      (by simpa using hgate), by simp⟩
  | deinitEnds p u hk hu hq =>
    obtain rfl := eq_fg_of_held h (.inr hk)
    obtain ⟨-, -, -, -, hon, hen, hgate, -⟩ := (controlInv_iff s).1 h
    simp only [hk] at hon hgate
    subst hu
    exact ⟨controlInv_of_foreground_answer h _ _ rfl rfl (fun _ _ => port_congr rfl _) rfl (by simpa using hon) hen
      (by simpa using hgate), by simp [finishDeinit]⟩
  | mdioEnds p u ret hk hu =>
    subst hu
    refine ⟨controlInv_of_kept h (by simp) fun q => ?_, by simp⟩
    rw [answer_port]
    split
    · rename_i hq
      obtain rfl : q = p := hq.1
      simp [hk]
    · simp [State.port]
  | reads p v =>
    refine ⟨controlInv_of_kept h (by simp) fun q => ?_, by simp⟩
    rw [port_congr (drew_ports _), State.setRdata, setPort_port]
    split
    · rename_i hq
      simp [hq.1, port_dropInput]
    · simp [port_dropInput]
  | stores b a v => exact ⟨controlInv_of_kept h (by simp) (controlPhaseKept_of_ports rfl), by simp⟩
  | powersOn => exact ⟨controlInv_powerOn (s := s.dropInput) h.1, rfl⟩

/-- What holds from INIT on, with the control invariants, if every effect and the end of a held DEINIT keep it, and it
looks at the parameters, the rings and the MAC state only. -/
theorem step_keeps_from_init {P : State → Prop}
    (hcongr : ∀ s t, P s → t.cfg = s.cfg → t.tx = s.tx → t.rx = s.rx → t.mac = s.mac → P t)
    (heffect : ∀ s t, Effect s t → ¬ Sequences s → s.cfg.wf = true → (s.life ≠ .uninitialized → P s) →
      t.life ≠ .uninitialized → P t)
    (hdeinit : ∀ s, P s → s.cfg.wf = true → quiet s = true → P (finishDeinit s)) (s t : State)
    (h : ControlInv s ∧ (s.life ≠ .uninitialized → P s)) (hstep : step s = .next t) :
    ControlInv t ∧ (t.life ≠ .uninitialized → P t) := by
  obtain ⟨hc, h⟩ := h
  refine ⟨(stepKeepsControl s t hc hstep).1, fun ht => ?_⟩
  cases step_effect hstep with
  | idle => exact h ht
  | runs p w t hh he =>
    exact heffect _ t he (not_sequences_of_midControl (midControl_latch w hc hh)) (by simpa using hc.1)
      (fun hl => hcongr s _ (h (by simpa using hl)) (by simp) (by simp) (by simp) (by simp)) ht
  | disableEnds p u hk hu =>
    subst hu
    exact hcongr s _ (h (by simp [life_of_held_disable hc hk])) (by simp) (by simp) (by simp) (by simp)
  | deinitEnds p u hk hu hq =>
    subst hu
    exact hdeinit _ (hcongr s _ (h (isLive_ne_uninitialized (isLive_of_held_deinit hc hk))) rfl rfl rfl rfl) hc.1 hq
  | mdioEnds p u ret hk hu =>
    subst hu
    exact hcongr s _ (h (by simpa using ht)) (by simp) (by simp) (by simp) (by simp)
  | reads p v => exact hcongr s _ (h (by simpa using ht)) (by simp) (by simp) (by simp) (by simp)
  | stores b a v => exact hcongr s _ (h ht) rfl rfl rfl rfl
  | powersOn => exact absurd rfl ht

end Sys2Proof.Machine

/-! Slots in ring order (10_state.md R27, R33). Both ring invariants say that from one index on, modulo the depth, the
slots are first of one class, then of a second, then of a third. Three moves keep that form: the first slot of the third
class joins the second, the first of the second joins the first, and the first slot of all goes to the end. -/
namespace Sys2Proof.Machine

/-- From `a` on, modulo `d`: `m` indices in `A`, up to the `n`-th in `B`, the rest in `C`. -/
structure RingRuns (d a m n : Nat) (A B C : Nat → Prop) : Prop where
  base_lt : a < d
  le_second : m ≤ n
  le_depth : n ≤ d
  first : ∀ j, j < m → A ((a + j) % d)
  second : ∀ j, m ≤ j → j < n → B ((a + j) % d)
  third : ∀ j, n ≤ j → j < d → C ((a + j) % d)

/-- The three runs as the ring invariants write them. -/
theorem ringRuns_iff {d a m n : Nat} {A B C : Nat → Prop} (ha : a < d) (hmn : m ≤ n) (hn : n ≤ d) :
    (∀ j, j < d → if j < m then A ((a + j) % d) else if j < n then B ((a + j) % d) else C ((a + j) % d))
      ↔ RingRuns d a m n A B C := by
  constructor
  · intro h
    refine ⟨ha, hmn, hn, fun j hj => ?_, fun j hm hj => ?_, fun j hn' hj => ?_⟩
    · simpa [hj] using h j (by omega)
    · simpa [hj, Nat.not_lt.2 hm] using h j (by omega)
    · simpa [Nat.not_lt.2 hn', Nat.not_lt.2 (hmn.trans hn')] using h j hj
  · intro h j hj
    split_ifs with h1 h2
    · exact h.first j h1
    · exact h.second j (by omega) h2
    · exact h.third j (by omega) hj

theorem add_mod_inj {d a i j : Nat} (hi : i < d) (hj : j < d) (h : (a + i) % d = (a + j) % d) : i = j := by
  have : i % d = j % d := Nat.ModEq.add_left_cancel' a h
  rwa [Nat.mod_eq_of_lt hi, Nat.mod_eq_of_lt hj] at this

theorem nextIdx_add_mod (d a i : Nat) : nextIdx d ((a + i) % d) = (a + (i + 1)) % d := by
  simp [nextIdx, Nat.add_assoc]

theorem nextIdx_mod_add (d a i : Nat) : (nextIdx d a + i) % d = (a + (i + 1)) % d := by
  simp [nextIdx, Nat.add_assoc, Nat.add_comm 1 i]

theorem nextIdx_lt {d a : Nat} (h : a < d) : nextIdx d a < d := Nat.mod_lt _ (by omega)

/-- Around the ring once. -/
theorem add_depth_mod {d a : Nat} (h : a < d) : (a + d) % d = a := by simp [Nat.mod_eq_of_lt h]

/-- Every index but `i` keeps its class. -/
abbrev KeptBut (i : Nat) (A B C A' B' C' : Nat → Prop) : Prop :=
  ∀ x, x ≠ i → (A x → A' x) ∧ (B x → B' x) ∧ (C x → C' x)

namespace RingRuns

variable {d a m n : Nat} {A B C A' B' C' : Nat → Prop} (h : RingRuns d a m n A B C)
include h

theorem first_base (hm : 0 < m) : A a := by simpa [Nat.mod_eq_of_lt h.base_lt] using h.first 0 hm

theorem second_base (hm : m = 0) (hn : 0 < n) : B a := by
  simpa [Nat.mod_eq_of_lt h.base_lt] using h.second 0 (by omega) hn

/-- Where the second class should begin, an index in neither other class is in the second. -/
theorem lt_second (hA : ¬ A ((a + m) % d)) (hC : ¬ C ((a + m) % d)) : m < n := by
  have ⟨ha, hmn, hn, _, _, hthird⟩ := h
  by_contra hlt
  by_cases hm : m = d
  · subst hm
    exact hA (by simpa [add_depth_mod ha] using h.first_base (by omega))
  · exact hC (hthird m (by omega) (by omega))

/-- Where the third class should begin, an index in neither other class is in the third. -/
theorem lt_third (hA : ¬ A ((a + n) % d)) (hB : ¬ B ((a + n) % d)) : n < d := by
  have ⟨ha, hmn, hn, _, _, _⟩ := h
  by_contra hlt
  obtain rfl : n = d := by omega
  rw [add_depth_mod ha] at hA hB
  by_cases hm : m = 0
  · exact hB (h.second_base hm (by omega))
  · exact hA (h.first_base (by omega))

/-- The first index of the third class joins the second. -/
theorem grow_second (hn : n < d) (hk : KeptBut ((a + n) % d) A B C A' B' C') (hB : B' ((a + n) % d)) :
    RingRuns d a m (n + 1) A' B' C' := by
  obtain ⟨ha, hmn, -, hfirst, hsecond, hthird⟩ := h
  have hkept := fun j (hj : j < d) (hjn : j ≠ n) => hk ((a + j) % d) fun e => hjn (add_mod_inj hj hn e)
  refine ⟨ha, by omega, by omega, fun j hj => ?_, fun j hm hj => ?_, fun j hn' hj => ?_⟩
  · obtain ⟨kA, -, -⟩ := hkept j (by omega) (by omega)
    exact kA (hfirst j hj)
  · by_cases hjn : j = n
    · exact hjn ▸ hB
    · obtain ⟨-, kB, -⟩ := hkept j (by omega) hjn
      exact kB (hsecond j hm (by omega))
  · obtain ⟨-, -, kC⟩ := hkept j hj (by omega)
    exact kC (hthird j (by omega) hj)

/-- The first index of the second class joins the first. -/
theorem grow_first (hmn : m < n) (hk : KeptBut ((a + m) % d) A B C A' B' C') (hA : A' ((a + m) % d)) :
    RingRuns d a (m + 1) n A' B' C' := by
  obtain ⟨ha, -, hn, hfirst, hsecond, hthird⟩ := h
  have hkept := fun j (hj : j < d) (hjm : j ≠ m) => hk ((a + j) % d) fun e => hjm (add_mod_inj hj (by omega) e)
  refine ⟨ha, hmn, hn, fun j hj => ?_, fun j hm hj => ?_, fun j hn' hj => ?_⟩
  · by_cases hjm : j = m
    · exact hjm ▸ hA
    · obtain ⟨kA, -, -⟩ := hkept j (by omega) hjm
      exact kA (hfirst j (by omega))
  · obtain ⟨-, kB, -⟩ := hkept j (by omega) (by omega)
    exact kB (hsecond j (by omega) hj)
  · obtain ⟨-, -, kC⟩ := hkept j hj (by omega)
    exact kC (hthird j hn' hj)

/-- The first index of all, of the first class, goes to the end. -/
theorem rotate (hm : 0 < m) (hk : KeptBut a A B C A' B' C') (hC : C' a) :
    RingRuns d (nextIdx d a) (m - 1) (n - 1) A' B' C' := by
  obtain ⟨ha, hmn, hn, hfirst, hsecond, hthird⟩ := h
  have hne : ∀ j, j + 1 < d → (a + (j + 1)) % d ≠ a := fun j hj e => by
    have := add_mod_inj (d := d) (a := a) (i := j + 1) (j := 0) hj (by omega) (by simpa [Nat.mod_eq_of_lt ha] using e)
    omega
  have hkept := fun j hj => hk ((a + (j + 1)) % d) (hne j hj)
  refine ⟨nextIdx_lt ha, by omega, by omega, fun j hj => ?_, fun j hm' hj => ?_, fun j hn' hj => ?_⟩ <;>
    rw [nextIdx_mod_add]
  · obtain ⟨kA, -, -⟩ := hkept j (by omega)
    exact kA (hfirst _ (by omega))
  · obtain ⟨-, kB, -⟩ := hkept j (by omega)
    exact kB (hsecond _ (by omega) (by omega))
  · by_cases hjd : j + 1 = d
    · rwa [hjd, add_depth_mod ha]
    · obtain ⟨-, -, kC⟩ := hkept j (by omega)
      exact kC (hthird _ (by omega) (by omega))

end RingRuns

end Sys2Proof.Machine

/-! The Tx ring invariant (10_state.md R33 T1 to T4; O56): every operation on the ring is one of the moves of
`RingRuns`, or leaves slots, book and indices alone. -/
namespace Sys2Proof.Machine

theorem getD_set {α : Type} (l : List α) (i j : Nat) (x y : α) :
    (l.set i x).getD j y = if i = j ∧ i < l.length then x else l.getD j y := by
  simp only [List.getD_eq_getElem?_getD, List.getElem?_set]
  by_cases hij : i = j
  · subst hij
    by_cases hi : i < l.length
    · simp [hi]
    · simp [hi]
  · simp [hij]

theorem getD_replicate {α : Type} (n i : Nat) (x : α) : (List.replicate n x).getD i x = x := by
  rw [List.getD_eq_getElem?_getD, List.getElem?_replicate]
  split <;> rfl

section
variable {s t : State} {i : Nat}

/-! A slot, or a book entry, after one of them is written. -/

theorem txSlot_of_set {x : Slot} (h : t.tx.slots = s.tx.slots.set i x) (hi : i < s.tx.slots.length) (j : Nat) :
    t.txSlot j = if i = j then x else s.txSlot j := by
  simp only [State.txSlot, h, getD_set, hi, and_true]

theorem txTok_of_set {x : Option Word} (h : t.tx.book = s.tx.book.set i x) (hi : i < s.tx.book.length) (j : Nat) :
    t.txTok j = if i = j then x else s.txTok j := by
  simp only [State.txTok, h, getD_set, hi, and_true]

theorem rxSlot_of_set {x : Slot} (h : t.rx.slots = s.rx.slots.set i x) (hi : i < s.rx.slots.length) (j : Nat) :
    t.rxSlot j = if i = j then x else s.rxSlot j := by
  simp only [State.rxSlot, h, getD_set, hi, and_true]

theorem rxTok_of_set {x : Option Word} (h : t.rx.book = s.rx.book.set i x) (hi : i < s.rx.book.length) (j : Nat) :
    t.rxTok j = if i = j then x else s.rxTok j := by
  simp only [State.rxTok, h, getD_set, hi, and_true]

end

/-- The Tx ring invariant, with no queued buffer on a descriptor array. -/
def TxGood (s : State) : Prop := TxInv s ∧ TxClear s

theorem txShape_iff (s : State) (k : Nat) :
    TxShape s k ↔ s.tx.slots.length = s.cfg.dTx ∧ s.tx.book.length = s.cfg.dTx ∧ s.tx.free ≤ s.cfg.dTx
      ∧ RingRuns s.cfg.dTx s.tx.cursor k (s.cfg.dTx - s.tx.free) (txIsCompleted s) (txIsQueued s) (txIsFree s)
      ∧ s.tx.head = (s.tx.cursor + (s.cfg.dTx - s.tx.free)) % s.cfg.dTx
      ∧ s.tx.hw = (s.tx.cursor + k) % s.cfg.dTx
      ∧ (s.tx.inflight = none ∨ (s.tx.inflight = some s.tx.hw ∧ txIsQueued s s.tx.hw)) := by
  constructor
  · rintro ⟨h1, h2, h3, h4, h5, h6, h7, h8, h9⟩
    exact ⟨h1, h2, h3, (ringRuns_iff h4 h6 (by omega)).1 h8, h5, h7, h9⟩
  · rintro ⟨h1, h2, h3, hr, h5, h7, h9⟩
    exact ⟨h1, h2, h3, hr.base_lt, h5, hr.le_second, h7,
      (ringRuns_iff hr.base_lt hr.le_second hr.le_depth).2 hr, h9⟩

/-- The engine's state, the frame being assembled and `txOpen` are no part of the invariant. -/
theorem txGood_congr {s t : State} (h : TxGood s) (hcfg : t.cfg = s.cfg)
    (htx : t.tx = { s.tx with dma := t.tx.dma, accum := t.tx.accum, openFrame := t.tx.openFrame }) : TxGood t := by
  cases s with | mk cfg life fatal tx =>
  cases t with | mk cfg' life' fatal' tx' =>
  simp only at hcfg htx
  subst hcfg
  rw [htx]
  exact h

/-- Nothing in flight is allowed always. -/
theorem txGood_drop {s t : State} (h : TxGood s) (hcfg : t.cfg = s.cfg)
    (htx : t.tx = { s.tx with dma := t.tx.dma, inflight := none }) : TxGood t := by
  obtain ⟨⟨k, h1, h2, h3, h4, h5, h6, h7, h8, -⟩, hc⟩ := h
  cases s with | mk cfg life fatal tx =>
  cases t with | mk cfg' life' fatal' tx' =>
  simp only at hcfg htx
  subst hcfg
  rw [htx]
  exact ⟨⟨k, h1, h2, h3, h4, h5, h6, h7, h8, .inl rfl⟩, hc⟩

/-- The ring INIT and DEINIT leave: every slot free. -/
theorem txGood_clear {t : State} (hd : 0 < t.cfg.dTx) (htx : t.tx = { clearTx t.cfg with dma := t.tx.dma }) :
    TxGood t := by
  have hslots : t.tx.slots = List.replicate t.cfg.dTx Slot.empty := by rw [htx]; rfl
  have hbook : t.tx.book = List.replicate t.cfg.dTx none := by rw [htx]; rfl
  have hfree : ∀ i, txIsFree t i := fun i => by
    simp only [txIsFree, State.txSlot, State.txTok, hslots, hbook, getD_replicate]
    simp [Slot.empty]
  refine ⟨⟨0, (txShape_iff t 0).2 ?_⟩, fun i _ hown => by simp [(hfree i).1] at hown⟩
  rw [hslots, hbook, htx]
  simp only [clearTx, List.length_replicate, Nat.sub_self, Nat.zero_add, Nat.zero_mod]
  exact ⟨trivial, trivial, le_rfl, ⟨hd, le_rfl, Nat.zero_le _, nofun, by omega, fun j _ _ => hfree _⟩, trivial,
    trivial, .inl trivial⟩

/-- TX_ENQUEUE: the first free slot is queued. -/
theorem txGood_enqueueSlot {s : State} (h : TxGood s) (first last : Bool) {buf : Word} {len : Half}
    (hfree : s.tx.free ≠ 0) (hclear : meetsDescriptors s.cfg buf len.toNat = false) :
    TxGood (enqueueSlot first last buf len s) := by
  obtain ⟨⟨k, hk⟩, hc⟩ := h
  obtain ⟨hs, hb, hf, hr, hhead, hhw, hin⟩ := (txShape_iff s k).1 hk
  set t := enqueueSlot first last buf len s with ht
  have hlt : s.tx.head < s.cfg.dTx := hhead ▸ Nat.mod_lt _ (by have := hr.base_lt; omega)
  have hslot : ∀ i, t.txSlot i = if s.tx.head = i then ⟨.dma, buf, len, first, last, false⟩ else s.txSlot i :=
    txSlot_of_set (by simp [ht]) (hs ▸ hlt)
  have htok : ∀ i, t.txTok i = if s.tx.head = i then some buf else s.txTok i :=
    txTok_of_set (by simp [ht]) (hb ▸ hlt)
  have hqueued : ∀ i, txIsQueued s i → txIsQueued t i := fun i hi => by
    simp only [txIsQueued, hslot, htok]
    split
    · simp
    · exact hi
  refine ⟨⟨k, (txShape_iff t k).2 ⟨by simp [ht, hs], by simp [ht, hb], ?_, ?_, ?_, by simpa [ht] using hhw, ?_⟩⟩, ?_⟩
  · simp only [ht, enqueueSlot_tx, enqueueSlot_cfg]
    omega
  · have hr' := hr.grow_second (A' := txIsCompleted t) (B' := txIsQueued t) (C' := txIsFree t) (by omega)
      (fun i hi => by
        rw [← hhead] at hi
        simp [txIsCompleted, txIsQueued, txIsFree, hslot, htok, Ne.symm hi])
      (by rw [← hhead]; simp [txIsQueued, hslot, htok])
    simpa [ht, show s.cfg.dTx - (s.tx.free - 1) = s.cfg.dTx - s.tx.free + 1 by omega] using hr'
  · simp only [ht, enqueueSlot_tx, enqueueSlot_cfg, hhead, nextIdx_add_mod]
    congr 2
    omega
  · simpa [ht] using hin.imp_right fun ⟨h1, h2⟩ => ⟨h1, hqueued _ h2⟩
  · intro i hi hown
    simp only [hslot] at hown ⊢
    simp only [ht, enqueueSlot_cfg] at hi ⊢
    split
    · exact hclear
    · rename_i hne
      exact hc i hi (by simpa [hne] using hown)

/-- TX_RECLAIM takes one turn: the first completed slot is freed. -/
theorem txGood_reclaimSlot {s : State} (h : TxGood s) (hfree : s.tx.free < s.cfg.dTx)
    (hown : ownedByDma s .tx s.tx.cursor = false) : TxGood (reclaimSlot s) := by
  obtain ⟨⟨k, hk⟩, hc⟩ := h
  obtain ⟨hs, hb, hf, hr, hhead, hhw, hin⟩ := (txShape_iff s k).1 hk
  set t := reclaimSlot s with ht
  have hlt := hr.base_lt
  have hsw : (s.txSlot s.tx.cursor).own = .software := by
    cases ho : (s.txSlot s.tx.cursor).own <;> simp_all [ownedByDma, State.slot]
  have hk0 : 0 < k := by
    by_contra h0
    have := (hr.second_base (by omega) (by omega)).1
    simp [hsw] at this
  have hslot : ∀ i, t.txSlot i = s.txSlot i := fun i => by simp [ht, State.txSlot]
  have htok : ∀ i, t.txTok i = if s.tx.cursor = i then none else s.txTok i :=
    txTok_of_set (by simp [ht]) (hb ▸ hlt)
  refine ⟨⟨k - 1, (txShape_iff t (k - 1)).2 ⟨by simp [ht, hs], by simp [ht, hb], by simpa [ht], ?_, ?_, ?_, ?_⟩⟩, ?_⟩
  · have hr' := hr.rotate (A' := txIsCompleted t) (B' := txIsQueued t) (C' := txIsFree t) hk0
      (fun i hi => by simp [txIsCompleted, txIsQueued, txIsFree, hslot, htok, Ne.symm hi])
      (by simp [txIsFree, hslot, htok, hsw])
    simpa [ht, Nat.sub_sub] using hr'
  · simp only [ht, reclaimSlot_tx, reclaimSlot_cfg, hhead, nextIdx_mod_add]
    congr 2
    omega
  · simp only [ht, reclaimSlot_tx, reclaimSlot_cfg, hhw, nextIdx_mod_add]
    congr 2
    omega
  · refine hin.imp (by simp [ht]) fun ⟨h1, h2⟩ => ⟨by simpa [ht], ?_⟩
    have hne : s.tx.cursor ≠ s.tx.hw := fun e => by simp [txIsQueued, ← e, hsw] at h2
    rw [show t.tx.hw = s.tx.hw by simp [ht]]
    simpa [txIsQueued, hslot, htok, hne] using h2
  · intro i hi ho
    rw [hslot] at ho ⊢
    rw [show t.cfg = s.cfg by simp [ht]] at hi ⊢
    exact hc i hi ho

/-- The slot of the engine, when the engine owns it, is queued. -/
theorem txIsQueued_hw {s : State} {k : Nat} (hk : TxShape s k) (hown : (s.txSlot s.tx.hw).own = .dma) :
    k < s.cfg.dTx - s.tx.free ∧ txIsQueued s s.tx.hw := by
  obtain ⟨-, -, -, hr, -, hhw, -⟩ := (txShape_iff s k).1 hk
  rw [hhw] at hown ⊢
  have hlt := hr.lt_second (by simp [txIsCompleted, hown]) (by simp [txIsFree, hown])
  exact ⟨hlt, hr.second k le_rfl hlt⟩

/-- TXDMA_FETCH: the slot taken is queued. -/
theorem txGood_fetch {s : State} (h : TxGood s) (hf : canTxFetch s = true) :
    TxGood { s with tx := { s.tx with inflight := some s.tx.hw } } := by
  obtain ⟨⟨k, hk⟩, hc⟩ := h
  have hown : (s.txSlot s.tx.hw).own = .dma := by simp_all [canTxFetch, ownedByDma, State.slot]
  have hq := (txIsQueued_hw hk hown).2
  obtain ⟨h1, h2, h3, h4, h5, h6, h7, h8, -⟩ := hk
  exact ⟨⟨k, h1, h2, h3, h4, h5, h6, h7, h8, .inr ⟨rfl, hq⟩⟩, hc⟩

/-- TXDMA_COMPLETE: the first queued slot is completed. -/
theorem txGood_complete {s : State} (h : TxGood s) {i : Nat} (hi : s.tx.inflight = some i) :
    TxGood (completeTx i s) := by
  obtain ⟨⟨k, hk⟩, hc⟩ := h
  obtain ⟨hs, hb, hf, hr, hhead, hhw, hin⟩ := (txShape_iff s k).1 hk
  obtain ⟨rfl, hq⟩ : i = s.tx.hw ∧ txIsQueued s s.tx.hw := by simpa [hi] using hin
  set t := completeTx s.tx.hw s with ht
  have hlt : s.tx.hw < s.cfg.dTx := hhw ▸ Nat.mod_lt _ (by have := hr.base_lt; omega)
  have hslot : ∀ j, t.txSlot j = if s.tx.hw = j then { s.txSlot s.tx.hw with own := .software } else s.txSlot j :=
    txSlot_of_set rfl (hs ▸ hlt)
  have htok : ∀ j, t.txTok j = s.txTok j := fun j => rfl
  refine ⟨⟨k + 1, (txShape_iff t (k + 1)).2 ⟨?_, hb, hf, ?_, hhead, ?_, .inl rfl⟩⟩, ?_⟩
  · simpa [ht, completeTx] using hs
  · exact hr.grow_first (txIsQueued_hw hk hq.1).1
      (fun j hj => by
        rw [← hhw] at hj
        simp [txIsCompleted, txIsQueued, txIsFree, hslot, htok, Ne.symm hj])
      (by
        rw [← hhw]
        simpa [txIsCompleted, hslot, htok] using hq.2)
  · show nextIdx s.cfg.dTx s.tx.hw = _
    rw [hhw, nextIdx_add_mod]
    rfl
  · intro j hj ho
    rw [hslot] at ho ⊢
    split at ho
    · cases ho
    · rename_i hne
      rw [if_neg hne]
      exact hc j hj ho

theorem txGood_reclaim {s : State} (h : TxGood s) : TxGood (reclaim s).1 :=
  reclaim_keeps TxGood (fun _ hs hfree hown => txGood_reclaimSlot hs hfree hown) s h

/-- The services of a dispatch: TX_RECLAIM's loop is the only one that writes the Tx ring. -/
theorem txGood_serve {s t : State} {p : BitVec 10} (h : TxGood s) (hs : serve p s = .ok t) : TxGood t := by
  have hack : TxGood (acknowledge p s) := txGood_congr h rfl rfl
  have hserve : TxGood (serveTx p (acknowledge p s)) := by
    unfold serveTx
    split
    · exact txGood_reclaim hack
    · exact hack
  obtain ⟨u, hu, rfl⟩ := serve_ok hs
  rcases serveRx_ok hu with ⟨-, n, hpoll⟩ | ⟨-, rfl⟩
  · obtain ⟨hcfg, -, -, htx, -⟩ := poll_frame hpoll
    exact txGood_congr hserve hcfg (by simp [htx])
  · exact txGood_congr hserve rfl rfl

theorem wf_depths {c : Params} (h : c.wf = true) : 0 < c.dTx ∧ 0 < c.dRx := by
  simp only [Params.wf, Bool.and_eq_true, decide_eq_true_eq] at h
  omega

@[simp] theorem finishDeinit_cfg (s : State) : (finishDeinit s).cfg = s.cfg := by simp [finishDeinit]

theorem finishDeinit_tx {s : State} (hq : quiet s = true) :
    (finishDeinit s).tx = { clearTx s.cfg with dma := s.tx.dma } := by
  have : s.tx.inflight = none := by simp_all [quiet]
  simp [finishDeinit, this, clearTx]

theorem txGood_finishDeinit {s : State} (hw : s.cfg.wf = true) (hq : quiet s = true) : TxGood (finishDeinit s) :=
  txGood_clear (by simpa using (wf_depths hw).1) (by simp [finishDeinit_tx hq])

/-- Every effect keeps the Tx ring invariant from INIT on. -/
theorem Effect.txGood {s t : State} (he : Effect s t) (hseq : ¬ Sequences s)
    (hw : s.cfg.wf = true) (h : s.life ≠ .uninitialized → TxGood s) (ht : t.life ≠ .uninitialized) : TxGood t := by
  have hlive : isLive s.life → TxGood s := fun hl => h (isLive_ne_uninitialized hl)
  cases he with
  | primitive u val hs => exact absurd hs hseq
  | init bufs u hp _ hd =>
    obtain ⟨h1, -, -, h4, -⟩ := initialise_frame bufs u
    have hcfg : u.cfg = s.cfg := by rw [drawPool_frame hd]
    exact txGood_clear (by simpa [h1, hcfg] using (wf_depths hw).1) (by simp [h1, h4, clearTx])
  | initShort bufs u hd =>
    have hu := drawPool_frame hd
    rw [hu] at ht ⊢
    exact txGood_congr (h (by simpa using ht)) (by simp) (by simp)
  | deinit hp hl hq => exact txGood_finishDeinit (by simpa using hw) hq
  | enable _ _ _ hl | deinitHolds _ hl | setOwnAddr _ hl | addMcast _ hl | clearMcast hl | setPam _ hl
  | setPromisc _ hl | rxPrime _ hl =>
    exact txGood_congr (hlive hl) (by simp) (by simp)
  | disable _ hl | disableHolds _ hl => exact txGood_congr (hlive (by simp [hl])) (by simp) (by simp)
  | txEnqueue first last buf len hl hfree hc =>
    exact txGood_congr (txGood_enqueueSlot (hlive (by simp [hl])) first last hfree hc) (by simp) (by simp)
  | txReclaim val hl => exact txGood_congr (txGood_reclaim (hlive hl)) (by simp) (by simp)
  | rxPoll u n val hl hpoll =>
    obtain ⟨hcfg, -, -, htx, -⟩ := poll_frame hpoll
    exact txGood_congr (hlive hl) (by simpa) (by simp [htx])
  | isrServe p u val hon hserve =>
    obtain ⟨-, hlife, -⟩ := serve_frame hserve
    exact txGood_congr (txGood_serve (h (by simpa [hlife] using ht)) hserve) (by simp) (by simp)
  | txdmaFetch hp he => exact txGood_fetch (h ht) he
  | txdmaComplete i hp hi => exact txGood_complete (h ht) hi
  | txdmaBusError hp => exact txGood_drop (h ht) rfl rfl
  | answer | mdioHolds | isrFatal | txdmaSuspend | rxFrameArrive | rxdmaWrite | rxdmaSuspend | rxdmaBusError
  | statusEvent | mdioDone =>
    exact txGood_congr (h (by simpa using ht)) (by simp) (by simp)

/-- Settles O56: by the effect of the step. -/
theorem stepKeepsTxRing : Obligations.StepKeepsTxRing :=
  step_keeps_from_init (P := TxGood) (fun s t h hcfg htx hrx _ => txGood_congr h hcfg (by rw [htx]))
    (fun s t he => he.txGood) (fun s _ hw hq => txGood_finishDeinit hw hq)

end Sys2Proof.Machine

/-! The Rx ring invariant (10_state.md R33 X1 to X3; O57). A poll consumes a run of filled slots and re-primes them one
by one; each turn is two moves of `RingRuns`, and that the run lies in the filled slots is what `scanRun` checks. -/
namespace Sys2Proof.Machine

/-- The Rx ring invariant, with no attached buffer on a descriptor array. -/
def RxGood (s : State) : Prop := RxInv s ∧ RxClear s

theorem rxShape_iff (s : State) (k : Nat) :
    RxShape s k ↔ s.rx.slots.length = s.cfg.dRx ∧ s.rx.book.length = s.cfg.dRx
      ∧ RingRuns s.cfg.dRx s.rx.prime s.rx.unprimed (s.rx.unprimed + k) (rxIsUnprimed s) (rxIsFilled s) (rxIsArmed s)
      ∧ s.rx.cursor = (s.rx.prime + s.rx.unprimed) % s.cfg.dRx
      ∧ s.rx.hw = (s.rx.prime + (s.rx.unprimed + k)) % s.cfg.dRx
      ∧ (s.rx.pending = none ∨ rxIsArmed s s.rx.hw) := by
  constructor
  · rintro ⟨h1, h2, h3, h4, h5, h6, h7, h8, h9⟩
    exact ⟨h1, h2, (ringRuns_iff h4 (by omega) (by omega)).1 h8, h5, by rw [h7, h5, Nat.mod_add_mod, Nat.add_assoc], h9⟩
  · rintro ⟨h1, h2, hr, h5, h7, h9⟩
    have hn := hr.le_depth
    exact ⟨h1, h2, by omega, hr.base_lt, h5, by omega, by rw [h7, h5, Nat.mod_add_mod, Nat.add_assoc],
      (ringRuns_iff hr.base_lt hr.le_second hr.le_depth).2 hr, h9⟩

/-- The engine's state is no part of the invariant. -/
theorem rxShape_congr {s t : State} {k : Nat} (h : RxShape s k) (hcfg : t.cfg = s.cfg)
    (hrx : t.rx = { s.rx with dma := t.rx.dma }) : RxShape t k := by
  cases s with | mk cfg life fatal tx rx =>
  cases t with | mk cfg' life' fatal' tx' rx' =>
  simp only at hcfg hrx
  subst hcfg
  rw [hrx]
  exact h

/-- Clearness looks at the slots and the book only. -/
theorem rxClear_congr {s t : State} (h : RxClear s) (hcfg : t.cfg = s.cfg) (hslots : t.rx.slots = s.rx.slots)
    (hbook : t.rx.book = s.rx.book) : RxClear t := by
  simp only [RxClear, State.rxSlot, hcfg, hslots, hbook] at h ⊢
  exact h

theorem rxGood_congr {s t : State} (h : RxGood s) (hcfg : t.cfg = s.cfg)
    (hrx : t.rx = { s.rx with dma := t.rx.dma }) : RxGood t := by
  obtain ⟨⟨k, hk⟩, hc⟩ := h
  exact ⟨⟨k, rxShape_congr hk hcfg hrx⟩, rxClear_congr hc hcfg (by rw [hrx]) (by rw [hrx])⟩

/-- No frame pending is allowed always. -/
theorem rxGood_drop {s t : State} (h : RxGood s) (hcfg : t.cfg = s.cfg)
    (hrx : t.rx = { s.rx with dma := t.rx.dma, pending := none }) : RxGood t := by
  obtain ⟨⟨k, h1, h2, h3, h4, h5, h6, h7, h8, -⟩, hc⟩ := h
  refine ⟨⟨k, ?_⟩, rxClear_congr hc hcfg (by rw [hrx]) (by rw [hrx])⟩
  cases s with | mk cfg life fatal tx rx =>
  cases t with | mk cfg' life' fatal' tx' rx' =>
  simp only at hcfg hrx
  subst hcfg
  rw [hrx]
  exact ⟨h1, h2, h3, h4, h5, h6, h7, h8, .inl rfl⟩

/-- The ring before anything is primed. -/
theorem rxShape_clear {t : State} (hd : 0 < t.cfg.dRx) (hrx : t.rx = { clearRx t.cfg with dma := t.rx.dma }) :
    RxShape t 0 ∧ RxClear t := by
  have hslots : t.rx.slots = List.replicate t.cfg.dRx Slot.empty := by rw [hrx]; rfl
  have hbook : t.rx.book = List.replicate t.cfg.dRx none := by rw [hrx]; rfl
  have hun : ∀ i, rxIsUnprimed t i := fun i => by
    simp only [rxIsUnprimed, State.rxSlot, State.rxTok, hslots, hbook, getD_replicate]
    simp [Slot.empty]
  refine ⟨(rxShape_iff t 0).2 ?_, fun i _ hown => by simp [(hun i).1] at hown, by simp [hbook]⟩
  rw [hslots, hbook, hrx]
  simp only [clearRx, List.length_replicate, Nat.add_zero, Nat.zero_add, Nat.mod_self]
  exact ⟨trivial, trivial, ⟨hd, le_rfl, le_rfl, fun _ _ => hun _, by omega, by omega⟩, trivial, trivial, .inl trivial⟩

/-! The prime procedure and the consumption of a slot. -/

/-- `PrimeSlot(b)`: the first unprimed slot is armed. -/
theorem rxShape_primeSlot {s : State} {k : Nat} (hk : RxShape s k) (b : Word) (hu : s.rx.unprimed ≠ 0) :
    RxShape (primeSlot b s) k := by
  obtain ⟨hs, hb, hr, hcur, hhw, hpend⟩ := (rxShape_iff s k).1 hk
  set t := primeSlot b s with ht
  have hslot : ∀ i, t.rxSlot i = if s.rx.prime = i then ⟨.dma, b, 0#16, false, false, false⟩ else s.rxSlot i :=
    rxSlot_of_set (by simp [ht]) (hs ▸ hr.base_lt)
  have htok : ∀ i, t.rxTok i = if s.rx.prime = i then some b else s.rxTok i :=
    rxTok_of_set (by simp [ht]) (hb ▸ hr.base_lt)
  refine (rxShape_iff t k).2 ⟨by simp [ht, hs], by simp [ht, hb], ?_, ?_, ?_, ?_⟩
  · have hr' := hr.rotate (A' := rxIsUnprimed t) (B' := rxIsFilled t) (C' := rxIsArmed t) (by omega)
      (fun i hi => by simp [rxIsUnprimed, rxIsFilled, rxIsArmed, hslot, htok, Ne.symm hi])
      (by simp [rxIsArmed, hslot, htok])
    simpa [ht, show s.rx.unprimed + k - 1 = s.rx.unprimed - 1 + k by omega] using hr'
  · simp only [ht, primeSlot_rx, primeSlot_cfg, hcur, nextIdx_mod_add]
    congr 2
    omega
  · simp only [ht, primeSlot_rx, primeSlot_cfg, hhw, nextIdx_mod_add]
    congr 2
    omega
  · rw [show t.rx.pending = s.rx.pending by simp [ht], show t.rx.hw = s.rx.hw by simp [ht]]
    refine hpend.imp_right fun h => ?_
    simp only [rxIsArmed, hslot, htok]
    split
    · simp
    · exact h

theorem rxClear_primeSlot {s : State} (h : RxClear s) {b : Word}
    (hb : meetsDescriptors s.cfg b s.cfg.rxBufSize = false) : RxClear (primeSlot b s) := by
  obtain ⟨h1, h2⟩ := h
  simp only [RxClear, State.rxSlot, primeSlot_cfg, primeSlot_rx, getD_set]
  refine ⟨fun i hi hown => ?_, fun p hp => ?_⟩
  · split_ifs at hown ⊢
    · exact hb
    · exact h1 i hi hown
  · rcases List.mem_or_eq_of_mem_set hp with hp | hp
    · exact h2 p hp
    · cases hp
      exact hb

theorem rx_cursor_lt {s : State} {k : Nat} (hk : RxShape s k) : s.rx.cursor < s.cfg.dRx := by
  obtain ⟨-, -, hr, hcur, -, -⟩ := (rxShape_iff s k).1 hk
  exact hcur ▸ Nat.mod_lt _ (by have := hr.base_lt; omega)

/-- A filled slot at the cursor is taken out of the ring. -/
theorem rxShape_consumeSlot {s : State} {k : Nat} (hk : RxShape s (k + 1)) : RxShape (consumeSlot s.rx.cursor s) k := by
  obtain ⟨hs, hb, hr, hcur, hhw, hpend⟩ := (rxShape_iff s (k + 1)).1 hk
  set t := consumeSlot s.rx.cursor s with ht
  have hlt := rx_cursor_lt hk
  have hslot : ∀ i, t.rxSlot i = s.rxSlot i := fun i => rfl
  have htok : ∀ i, t.rxTok i = if s.rx.cursor = i then none else s.rxTok i := rxTok_of_set rfl (hb ▸ hlt)
  have hfilled : rxIsFilled s s.rx.cursor := hcur ▸ hr.second _ le_rfl (by omega)
  refine (rxShape_iff t k).2 ⟨hs, by simp [ht, hb], ?_, ?_, ?_, ?_⟩
  · have hr' := hr.grow_first (A' := rxIsUnprimed t) (B' := rxIsFilled t) (C' := rxIsArmed t) (by omega)
      (fun i hi => by
        rw [← hcur] at hi
        simp [rxIsUnprimed, rxIsFilled, rxIsArmed, hslot, htok, Ne.symm hi])
      (by
        rw [← hcur]
        simp [rxIsUnprimed, hslot, htok, hfilled.1])
    simpa [ht, Nat.add_assoc, Nat.add_comm 1 k] using hr'
  · simp only [ht, consumeSlot_rx, consumeSlot_cfg]
    rw [hcur, nextIdx_add_mod]
  · simp only [ht, consumeSlot_rx, consumeSlot_cfg, hhw]
    congr 2
    omega
  · refine hpend.imp_right fun h => ?_
    have hne : s.rx.cursor ≠ s.rx.hw := fun e => by simp [rxIsArmed, ← e, hfilled.1] at h
    show rxIsArmed t s.rx.hw
    simpa [rxIsArmed, hslot, htok, hne] using h

theorem rxClear_consumeSlot {s : State} (h : RxClear s) (i : Nat) : RxClear (consumeSlot i s) :=
  ⟨h.1, fun p hp => (List.mem_or_eq_of_mem_set hp).elim (h.2 p) nofun⟩

/-! A run of filled slots. -/

theorem ringSlots_succ (d a n : Nat) : ringSlots d a (n + 1) = a % d :: ringSlots d (nextIdx d a) n := by
  simp [ringSlots, List.range_succ_eq_map, nextIdx_mod_add]

/-- One turn of consuming a run: the slot is consumed, the pool perhaps asked, a clear buffer perhaps primed. -/
theorem consumeRun_cons {bad : Bool} {i : Nat} {p : Word} {rest : List (Nat × Word)} {s t : State}
    (hp : meetsDescriptors s.cfg p s.cfg.rxBufSize = false) (h : consumeRun bad ((i, p) :: rest) s = .ok t) :
    ∃ (u : State) (e : Env), consumeRun bad rest u = .ok t
      ∧ (u = { consumeSlot i s with env := e }
        ∨ ∃ b, meetsDescriptors s.cfg b s.cfg.rxBufSize = false
          ∧ u = primeSlot b { consumeSlot i s with env := e }) := by
  unfold consumeRun at h
  dsimp only at h
  split at h
  · exact ⟨_, s.env, h, .inr ⟨p, hp, rfl⟩⟩
  · have hdraw := (drawAlloc_spec (consumeSlot i s)).1
    split at h <;> rename_i hd <;> rw [hd] at hdraw
    · split at h
      · cases h
      · rename_i hb
        exact ⟨_, _, h, .inr ⟨_, by simpa using hb, congrArg _ hdraw⟩⟩
    · exact ⟨_, _, h, .inl hdraw⟩

/-- Consuming slots from the cursor on, all filled, and re-priming them with clear buffers. -/
theorem rxGood_consumeRun {bad : Bool} (m : Nat) (bufs : List Word) {s t : State} {k : Nat} (hk : RxShape s k)
    (hc : RxClear s) (hm : m ≤ k) (hbufs : ∀ p ∈ bufs, meetsDescriptors s.cfg p s.cfg.rxBufSize = false)
    (h : consumeRun bad ((ringSlots s.cfg.dRx s.rx.cursor m).zip bufs) s = .ok t) : RxGood t := by
  induction m generalizing bufs s k with
  | zero =>
    cases h
    exact ⟨⟨k, hk⟩, hc⟩
  | succ m ih =>
    cases bufs with
    | nil =>
      rw [List.zip_nil_right] at h
      cases h
      exact ⟨⟨k, hk⟩, hc⟩
    | cons p rest =>
      obtain ⟨hp, hrest⟩ := List.forall_mem_cons.1 hbufs
      obtain ⟨k, rfl⟩ : ∃ j, k = j + 1 := ⟨k - 1, by omega⟩
      rw [ringSlots_succ, Nat.mod_eq_of_lt (rx_cursor_lt hk), List.zip_cons_cons] at h
      obtain ⟨u, e, hu, hcases⟩ := consumeRun_cons hp h
      have hk1 : RxShape { consumeSlot s.rx.cursor s with env := e } k := rxShape_consumeSlot hk
      have hc1 : RxClear { consumeSlot s.rx.cursor s with env := e } := rxClear_consumeSlot hc s.rx.cursor
      rcases hcases with rfl | ⟨b, hb, rfl⟩
      · exact ih rest hk1 hc1 (by omega) hrest hu
      · exact ih rest (rxShape_primeSlot hk1 b (Nat.succ_ne_zero _)) (rxClear_primeSlot hc1 hb) (by omega)
          (by simpa using hrest) (by simpa using hu)

/-- What the search for the end of a run has looked at: no slot of the run after the first is the engine's. -/
theorem scanRun_complete {s : State} {fuel j c k : Nat} (h : scanRun s fuel j c = .complete k) :
    c ≤ k ∧ k ≤ c + fuel ∧ ∀ i, 1 ≤ i → i ≤ k - c → ownedByDma s .rx ((j + i) % s.cfg.dRx) = false := by
  induction fuel generalizing j c with
  | zero =>
    unfold scanRun at h
    split at h <;> cases h
    exact ⟨le_rfl, le_rfl, by omega⟩
  | succ fuel ih =>
    unfold scanRun at h
    dsimp only at h
    split at h
    · cases h
      exact ⟨le_rfl, by omega, by omega⟩
    · split_ifs at h with hown
      obtain ⟨h1, h2, h3⟩ := ih h
      refine ⟨by omega, by omega, fun i hi hik => ?_⟩
      by_cases hi1 : i = 1
      · subst hi1
        simpa [nextIdx] using hown
      · have := h3 (i - 1) (by omega) (by omega)
        rwa [nextIdx_mod_add, Nat.sub_add_cancel hi] at this

/-- The run a poll finds lies in the filled slots. -/
theorem run_le_filled {s : State} {k m : Nat} (hk : RxShape s k) (hu : s.rx.unprimed ≠ s.cfg.dRx)
    (hown : ownedByDma s .rx s.rx.cursor = false)
    (h : scanRun s (s.cfg.dRx - s.rx.unprimed - 1) s.rx.cursor 1 = .complete m) : m ≤ k := by
  obtain ⟨-, -, hr, hcur, -, -⟩ := (rxShape_iff s k).1 hk
  obtain ⟨h1, h2, h3⟩ := scanRun_complete h
  have hle := hr.le_depth
  by_contra hlt
  have harmed := (hr.third (s.rx.unprimed + (m - 1)) (by omega) (by omega)).1
  rw [← Nat.add_assoc, ← Nat.mod_add_mod, ← hcur] at harmed
  by_cases hm : m = 1
  · simp only [hm, Nat.sub_self, Nat.add_zero, Nat.mod_eq_of_lt (rx_cursor_lt hk)] at harmed
    simp [ownedByDma, State.slot, harmed] at hown
  · have := h3 (m - 1) (by omega) (by omega)
    simp [ownedByDma, State.slot, harmed] at this

theorem mem_book_of_rxTok {s : State} {i : Nat} {p : Word} (h : s.rxTok i = some p) : some p ∈ s.rx.book := by
  rw [State.rxTok, List.getD_eq_getElem?_getD] at h
  cases hi : s.rx.book[i]? with
  | none => simp [hi] at h
  | some o =>
    simp only [hi, Option.getD_some] at h
    exact h ▸ List.mem_of_getElem? hi

/-- The buffers of a run are in the book. -/
theorem runBuffers_mem {s : State} {run : List Nat} {bufs : List Word} (h : runBuffers s run = some bufs) :
    ∀ p ∈ bufs, some p ∈ s.rx.book := by
  induction run generalizing bufs with
  | nil =>
    cases h
    nofun
  | cons i rest ih =>
    unfold runBuffers at h
    split at h <;> cases h
    rename_i p ps hp hps
    intro q hq
    rcases List.mem_cons.1 hq with rfl | hq
    · exact mem_book_of_rxTok hp
    · exact ih hps q hq

/-- `Poll()` keeps the Rx ring invariant. -/
theorem rxGood_poll {s t : State} {n : Nat} (h : RxGood s) (hp : poll s = .ok (t, n)) : RxGood t := by
  refine pollLoop_keeps RxGood (fun s m bufs total hs hu hown _ hscan hbufs u hq => ?_) _ s t 0 n h hp
  obtain ⟨⟨k, hk⟩, hc⟩ := hs
  obtain ⟨v, hv, rfl⟩ := finishRun_ok hq
  have hgood := rxGood_consumeRun m bufs hk hc (run_le_filled hk hu hown hscan)
    (fun p hp => hc.2 p (runBuffers_mem hbufs p hp)) hv
  unfold reportRun
  split <;> exact rxGood_congr hgood rfl rfl

/-- The primes of INIT. -/
theorem rxGood_primeAll {bufs : List Word} {s : State} {k : Nat} (hk : RxShape s k) (hc : RxClear s)
    (hlen : bufs.length ≤ s.rx.unprimed)
    (hbufs : ∀ p ∈ bufs, meetsDescriptors s.cfg p s.cfg.rxBufSize = false) : RxGood (primeAll bufs s) := by
  induction bufs generalizing s with
  | nil => exact ⟨⟨k, hk⟩, hc⟩
  | cons b rest ih =>
    simp only [List.length_cons] at hlen
    exact ih (rxShape_primeSlot hk b (by omega)) (rxClear_primeSlot hc (hbufs b List.mem_cons_self))
      (by simp only [primeSlot_rx]; omega) (by simpa using fun p hp => hbufs p (List.mem_cons_of_mem _ hp))

/-! Steps of the Rx engine. -/

/-- The slot of the engine, when the engine owns it, is armed. -/
theorem rxIsArmed_hw {s : State} {k : Nat} (hk : RxShape s k) (hown : (s.rxSlot s.rx.hw).own = .dma) :
    s.rx.unprimed + k < s.cfg.dRx ∧ rxIsArmed s s.rx.hw := by
  obtain ⟨-, -, hr, -, hhw, -⟩ := (rxShape_iff s k).1 hk
  rw [hhw] at hown ⊢
  have hlt := hr.lt_third (by simp [rxIsUnprimed, hown]) (by simp [rxIsFilled, hown])
  exact ⟨hlt, hr.third _ le_rfl hlt⟩

/-- RX_FRAME_ARRIVE: a frame goes into flight only on an armed slot. -/
theorem rxGood_frameArrives {s : State} (h : RxGood s) (f : Frame) : RxGood (frameArrives f s) := by
  rcases frameArrives_cases f s with ⟨-, he⟩ | ⟨-, -, he⟩ | ⟨-, -, -, he⟩ | ⟨-, -, hown, he⟩ <;> rw [he]
  iterate 3 · exact rxGood_congr h rfl rfl
  · obtain ⟨⟨k, hk⟩, hc⟩ := h
    have harmed := (rxIsArmed_hw hk (by simpa [ownedByDma, State.slot] using hown)).2
    obtain ⟨h1, h2, h3, h4, h5, h6, h7, h8, -⟩ := hk
    exact ⟨⟨k, h1, h2, h3, h4, h5, h6, h7, h8, .inr harmed⟩, hc⟩

theorem nextIdx_ne {d a : Nat} (ha : a < d) (hd : 1 < d) : nextIdx d a ≠ a := fun e => by
  have := add_mod_inj (d := d) (a := a) (i := 1) (j := 0) hd (by omega)
    (by simpa [nextIdx, Nat.mod_eq_of_lt ha] using e)
  omega

/-- The frame goes on in the next slot only if that one is the engine's. -/
theorem nextSlotArmed_of_goesOn {f : RxFrame} {s : State} (h : writeCase f s = .goesOn) : nextSlotArmed s = true := by
  rcases writeCase_cases f s with ⟨hw, -⟩ | ⟨-, -, -, ha⟩ | ⟨hw, -⟩
  · simp [hw] at h
  · exact ha
  · simp [hw] at h

/-- RXDMA_WRITE: the first armed slot is filled, and a frame goes on only in an armed slot. -/
theorem rxGood_write {s : State} (h : RxGood s) {f : RxFrame} (hf : s.rx.pending = some f) : RxGood (writeRx f s) := by
  obtain ⟨⟨k, hk⟩, hc⟩ := h
  obtain ⟨hs, hb, hr, hcur, hhw, hpend⟩ := (rxShape_iff s k).1 hk
  have harmed : rxIsArmed s s.rx.hw := by simpa [hf] using hpend
  have hn := (rxIsArmed_hw hk harmed.1).1
  set t := writeRx f s with ht
  have hlt : s.rx.hw < s.cfg.dRx := hhw ▸ Nat.mod_lt _ (by omega)
  have hslot : ∀ i, ∃ x : Slot, x.own = .software ∧ t.rxSlot i = if s.rx.hw = i then x else s.rxSlot i :=
    fun i => ⟨_, rfl, rxSlot_of_set rfl (hs ▸ hlt) i⟩
  have hother : ∀ i, i ≠ s.rx.hw → t.rxSlot i = s.rxSlot i := fun i hi => by
    obtain ⟨x, -, hx⟩ := hslot i
    rw [hx, if_neg (Ne.symm hi)]
  have hself : (t.rxSlot s.rx.hw).own = .software := by
    obtain ⟨x, hsw, hx⟩ := hslot s.rx.hw
    rw [hx, if_pos rfl, hsw]
  have htok : ∀ i, t.rxTok i = s.rxTok i := fun i => rfl
  have hring : RingRuns s.cfg.dRx s.rx.prime s.rx.unprimed (s.rx.unprimed + (k + 1)) (rxIsUnprimed t) (rxIsFilled t)
      (rxIsArmed t) := hr.grow_second hn
    (fun i hi => by
      rw [← hhw] at hi
      simp [rxIsUnprimed, rxIsFilled, rxIsArmed, hother i hi, htok])
    (by
      rw [← hhw]
      exact ⟨hself, harmed.2⟩)
  have hhw' : t.rx.hw = (s.rx.prime + (s.rx.unprimed + (k + 1))) % s.cfg.dRx := by
    show nextIdx s.cfg.dRx s.rx.hw = _
    rw [hhw, nextIdx_add_mod, Nat.add_assoc]
  refine ⟨⟨k + 1, (rxShape_iff t (k + 1)).2 ⟨?_, hb, hring, hcur, hhw', ?_⟩⟩, ?_, hc.2⟩
  · exact List.length_set.trans hs
  · by_cases hgo : writeCase f s = .goesOn
    · have hnext := nextSlotArmed_of_goesOn hgo
      simp only [nextSlotArmed, Bool.and_eq_true, decide_eq_true_eq, ownedByDma, State.slot, beq_iff_eq] at hnext
      have hown : (t.rxSlot t.rx.hw).own = .dma := by
        show (t.rxSlot (nextIdx s.cfg.dRx s.rx.hw)).own = .dma
        rw [hother _ (nextIdx_ne hlt hnext.1), hnext.2]
      rw [hhw'] at hown ⊢
      exact .inr (hring.third _ le_rfl (hring.lt_third (by simp [rxIsUnprimed, hown]) (by simp [rxIsFilled, hown])))
    · refine .inl ?_
      show (if writeCase f s == .goesOn then _ else none) = none
      simp [hgo]
  · intro i hi hown
    by_cases hih : i = s.rx.hw
    · subst hih
      simp [hself] at hown
    · rw [hother i hih] at hown ⊢
      exact hc.1 i hi hown

/-- The services of a dispatch: the poll is the only one that writes the Rx ring. -/
theorem rxGood_serve {s t : State} {p : BitVec 10} (h : RxGood s) (hs : serve p s = .ok t) : RxGood t := by
  obtain ⟨hcfg, -, -, hrx, -⟩ := serveTx_frame p (acknowledge p s)
  have hserve : RxGood (serveTx p (acknowledge p s)) := rxGood_congr h (by simp [hcfg]) (by simp [hrx])
  obtain ⟨u, hu, rfl⟩ := serve_ok hs
  rcases serveRx_ok hu with ⟨-, n, hpoll⟩ | ⟨-, rfl⟩
  · exact rxGood_congr (rxGood_poll hserve hpoll) rfl rfl
  · exact rxGood_congr hserve rfl rfl

theorem finishDeinit_rx {s : State} (hq : quiet s = true) :
    (finishDeinit s).rx = { clearRx s.cfg with dma := s.rx.dma } := by
  have : s.rx.pending = none := by simp_all [quiet]
  simp [finishDeinit, this, clearRx]

theorem rxGood_finishDeinit {s : State} (hw : s.cfg.wf = true) (hq : quiet s = true) : RxGood (finishDeinit s) := by
  obtain ⟨hk, hc⟩ := rxShape_clear (t := finishDeinit s) (by simpa using (wf_depths hw).2)
    (by simp [finishDeinit_rx hq])
  exact ⟨⟨0, hk⟩, hc⟩

/-- INIT with a full pool arms every slot. -/
theorem rxGood_initialise {s u : State} {bufs : List Word} (hw : s.cfg.wf = true)
    (hd : drawPool s.cfg.dRx [] s = (true, bufs, u))
    (hc : ∀ b ∈ bufs, meetsDescriptors s.cfg b s.cfg.rxBufSize = false) : RxGood (initialise bufs u) := by
  have hcfg : u.cfg = s.cfg := by rw [drawPool_frame hd]
  have hlen := (drawPool_full _ _ _ _ _ List.nodup_nil hd).1
  obtain ⟨hk, hclear⟩ := rxShape_clear (t := resetPeripheral u) (by simpa [hcfg] using (wf_depths hw).2) rfl
  have := rxGood_primeAll (bufs := bufs) hk hclear (by simp [hlen, clearRx, hcfg]) (by simpa [hcfg] using hc)
  exact rxGood_congr this rfl rfl

/-- Every effect keeps the Rx ring invariant from INIT on. -/
theorem Effect.rxGood {s t : State} (he : Effect s t) (hseq : ¬ Sequences s)
    (hw : s.cfg.wf = true) (h : s.life ≠ .uninitialized → RxGood s) (ht : t.life ≠ .uninitialized) : RxGood t := by
  have hlive : isLive s.life → RxGood s := fun hl => h (isLive_ne_uninitialized hl)
  cases he with
  | primitive u val hs => exact absurd hs hseq
  | init bufs u hp _ hd hc => exact rxGood_congr (rxGood_initialise hw hd hc) (by simp) (by simp)
  | initShort bufs u hd =>
    have hu := drawPool_frame hd
    rw [hu] at ht ⊢
    exact rxGood_congr (h (by simpa using ht)) (by simp) (by simp)
  | deinit hp hl hq => exact rxGood_finishDeinit (by simpa using hw) hq
  | enable _ _ _ hl | deinitHolds _ hl | setOwnAddr _ hl | addMcast _ hl | clearMcast hl | setPam _ hl
  | setPromisc _ hl | txReclaim _ hl =>
    exact rxGood_congr (hlive hl) (by simp) (by simp)
  | disable _ hl | disableHolds _ hl | txEnqueue _ _ _ _ hl =>
    exact rxGood_congr (hlive (by simp [hl])) (by simp) (by simp)
  | rxPrime buf hl hu hc =>
    obtain ⟨⟨k, hk⟩, hclear⟩ := hlive hl
    exact rxGood_congr ⟨⟨k, rxShape_primeSlot hk buf hu⟩, rxClear_primeSlot hclear hc⟩ (by simp) (by simp)
  | rxPoll u n val hl hpoll => exact rxGood_congr (rxGood_poll (hlive hl) hpoll) (by simp) (by simp)
  | isrServe p u val hon hserve =>
    obtain ⟨-, hlife, -⟩ := serve_frame hserve
    exact rxGood_congr (rxGood_serve (h (by simpa [hlife] using ht)) hserve) (by simp) (by simp)
  | rxFrameArrive f hp =>
    have hdrawn : RxGood (drawFrame s).2 := rxGood_congr (h (by simpa using ht)) (by simp) (by simp)
    exact rxGood_frameArrives hdrawn f
  | rxdmaWrite f hp hf => exact rxGood_write (h ht) hf
  | rxdmaBusError hp => exact rxGood_drop (h ht) rfl rfl
  | answer | mdioHolds | isrFatal | txdmaFetch | txdmaComplete | txdmaSuspend | txdmaBusError | rxdmaSuspend
  | statusEvent | mdioDone =>
    exact rxGood_congr (h (by simpa using ht)) (by simp) (by simp)

/-- Settles O57: by the effect of the step. -/
theorem stepKeepsRxRing : Obligations.StepKeepsRxRing :=
  step_keeps_from_init (P := RxGood) (fun s t h hcfg htx hrx _ => rxGood_congr h hcfg (by rw [hrx]))
    (fun s t he => he.rxGood) (fun s _ hw hq => rxGood_finishDeinit hw hq)

end Sys2Proof.Machine

/-! The filter (10_state.md R40, R41, R44, R45; O58, O29, O28). The MAC state is written by the five filter operations,
by INIT, and by what opens or closes the gate; `Effect.mac_cases` says so once. -/
namespace Sys2Proof.Machine

/-- DEINIT closes the gate and changes nothing else of the MAC state. -/
theorem beginDeinit_mac (s : State) :
    (beginDeinit s).mac = { s.mac with
      macEn := (beginDeinit s).mac.macEn, speed := (beginDeinit s).mac.speed
      duplex := (beginDeinit s).mac.duplex } := by
  unfold beginDeinit
  dsimp only
  split <;> rfl

/-- Everything an effect can do to the MAC state: the gate, speed and duplex, INIT, or one of the filter operations. -/
theorem Effect.mac_cases {s t : State} (he : Effect s t) (hseq : ¬ Sequences s) :
    t.cfg = s.cfg ∧
      (((t.life ≠ .uninitialized → s.life ≠ .uninitialized)
          ∧ t.mac = { s.mac with macEn := t.mac.macEn, speed := t.mac.speed, duplex := t.mac.duplex })
        ∨ t.mac = clearMac s.cfg
        ∨ s.life ≠ .uninitialized ∧
          ((∃ a, t.mac = { s.mac with ucast := some a, addrTab := s.mac.addrTab.set 0 (some a) })
            ∨ (∃ a, s.mac.mcast.length ≠ s.cfg.mcastCap ∧ t.mac = { s.mac with
                mcast := s.mac.mcast ++ [a]
                addrTab := s.mac.addrTab.set (s.mac.mcast.length + 1) (some a) })
            ∨ t.mac = { s.mac with
                mcast := [], addrTab := (clearMcastSlots s.mac.mcast.length s).mac.addrTab }
            ∨ (∃ v, t.mac = { s.mac with
                pam := v, effPam := v || s.mac.promisc, effPau := s.mac.promisc })
            ∨ ∃ v, t.mac = { s.mac with promisc := v, effPam := s.mac.pam || v, effPau := v })) := by
  have hlive : isLive s.life → s.life ≠ .uninitialized := isLive_ne_uninitialized
  cases he with
  | primitive u val hs => exact absurd hs hseq
  | init bufs u hp _ hd =>
    obtain ⟨h1, -, -, -, h5, -⟩ := initialise_frame bufs u
    have hcfg : u.cfg = s.cfg := by rw [drawPool_frame hd]
    exact ⟨by simp [h1, hcfg], .inr (.inl (by simp [h5, hcfg]))⟩
  | initShort bufs u hd =>
    rw [drawPool_frame hd]
    exact ⟨by simp, .inl ⟨by simp, by simp⟩⟩
  | setOwnAddr a hl => exact ⟨by simp, .inr (.inr ⟨hlive hl, .inl ⟨a, by simp⟩⟩)⟩
  | addMcast a hl hn => exact ⟨by simp, .inr (.inr ⟨hlive hl, .inr (.inl ⟨a, hn, by simp⟩)⟩)⟩
  | clearMcast hl =>
    refine ⟨by simp, .inr (.inr ⟨hlive hl, .inr (.inr (.inl ?_))⟩)⟩
    rw [answer_mac, clearMcastSlots_frame]
  | setPam v hl => exact ⟨by simp, .inr (.inr ⟨hlive hl, .inr (.inr (.inr (.inl ⟨v, by simp⟩)))⟩)⟩
  | setPromisc v hl => exact ⟨by simp, .inr (.inr ⟨hlive hl, .inr (.inr (.inr (.inr ⟨v, by simp⟩)))⟩)⟩
  | rxPoll u n val hl hpoll =>
    obtain ⟨hcfg, -, -, -, hmac, -⟩ := poll_frame hpoll
    exact ⟨by simpa, .inl ⟨fun _ => hlive hl, by simp [hmac]⟩⟩
  | isrServe p u val hon hserve =>
    obtain ⟨hcfg, hlife, -, hmac, -⟩ := serve_frame hserve
    exact ⟨by simpa, .inl ⟨by simp [hlife], by simp [hmac]⟩⟩
  | deinit _ hl | deinitHolds _ hl =>
    exact ⟨by simp, .inl ⟨fun _ => hlive hl, by simpa [finishDeinit] using beginDeinit_mac s⟩⟩
  | enable _ _ _ hl => exact ⟨by simp, .inl ⟨fun _ => hlive hl, by simp⟩⟩
  | disable _ hl | disableHolds _ hl => exact ⟨by simp, .inl ⟨by simp [hl], by simp⟩⟩
  | answer | txEnqueue | txReclaim | rxPrime | mdioHolds | isrFatal | txdmaFetch | txdmaComplete | txdmaSuspend
  | txdmaBusError | rxFrameArrive | rxdmaWrite | rxdmaSuspend | rxdmaBusError | statusEvent | mdioDone =>
    exact ⟨by simp, .inl ⟨by simp, by simp⟩⟩

/-! The two filter invariants. -/

/-- The gate, speed and duplex are no part of them. -/
theorem filterInv_congr {s t : State} (h : FilterInv s)
    (hmac : t.mac = { s.mac with macEn := t.mac.macEn, speed := t.mac.speed, duplex := t.mac.duplex }) :
    FilterInv t := by
  rw [FilterInv, hmac]
  exact h

theorem addrTabInv_congr {s t : State} (h : AddrTabInv s) (hcfg : t.cfg = s.cfg)
    (hmac : t.mac = { s.mac with macEn := t.mac.macEn, speed := t.mac.speed, duplex := t.mac.duplex }) :
    AddrTabInv t := by
  rw [AddrTabInv, hmac, hcfg]
  exact h

/-- Every effect keeps the combination rule of the filter flags from INIT on. -/
theorem Effect.filterInv {s t : State} (he : Effect s t) (hseq : ¬ Sequences s)
    (h : s.life ≠ .uninitialized → FilterInv s) (ht : t.life ≠ .uninitialized) : FilterInv t := by
  obtain ⟨-, ⟨hl, hmac⟩ | hmac | ⟨hl, ⟨a, hmac⟩ | ⟨a, -, hmac⟩ | hmac | ⟨v, hmac⟩ | ⟨v, hmac⟩⟩⟩ := he.mac_cases hseq
  · exact filterInv_congr (h (hl ht)) hmac
  · rw [FilterInv, hmac]
    exact ⟨rfl, rfl⟩
  iterate 3
    rw [FilterInv, hmac]
    exact h hl
  iterate 2
    rw [FilterInv, hmac]
    exact ⟨rfl, rfl⟩

theorem finishDeinit_mac (s : State) : (finishDeinit s).mac = s.mac := by simp [finishDeinit]

/-- Clearing the slots of a table's multicast addresses. -/
theorem clearMcastSlots_addrTab (l : List (Option Mac)) (s : State) (u : Option Mac) (r : List (Option Mac))
    (h : s.mac.addrTab = u :: (l ++ r)) :
    (clearMcastSlots l.length s).mac.addrTab = u :: (List.replicate l.length none ++ r) := by
  induction l using List.reverseRecOn generalizing r with
  | nil => exact h
  | append_singleton l x ih =>
    have := ih (x :: r) (by simpa using h)
    simp only [List.length_append, List.length_singleton, clearMcastSlots, writeMulticastAddress_mac, this]
    rw [List.set_cons_succ, List.set_append_right _ _ (by simp)]
    simp [List.replicate_succ']

/-- The table with one more multicast address. -/
theorem addrTab_set_next {n : Nat} (u : Option Mac) (l : List Mac) (a : Mac) (h : l.length < n) :
    (u :: (l.map some ++ List.replicate (n - l.length) none)).set (l.length + 1) (some a)
      = u :: ((l ++ [a]).map some ++ List.replicate (n - (l ++ [a]).length) none) := by
  obtain ⟨k, hk⟩ : ∃ k, n - l.length = k + 1 := ⟨n - l.length - 1, by omega⟩
  rw [List.set_cons_succ, List.set_append_right _ _ (by simp), hk]
  simp [List.replicate_succ, show n - (l.length + 1) = k by omega]

/-- Every effect keeps the address table equal to its software copies from INIT on. -/
theorem Effect.addrTabInv {s t : State} (he : Effect s t) (hseq : ¬ Sequences s)
    (h : s.life ≠ .uninitialized → AddrTabInv s) (ht : t.life ≠ .uninitialized) : AddrTabInv t := by
  obtain ⟨hcfg, ⟨hl, hmac⟩ | hmac | ⟨hl, hops⟩⟩ := he.mac_cases hseq
  · exact addrTabInv_congr (h (hl ht)) hcfg hmac
  · rw [AddrTabInv, hmac, hcfg]
    exact ⟨Nat.zero_le _, rfl⟩
  · obtain ⟨hlen, htab⟩ := h hl
    rcases hops with ⟨a, hmac⟩ | ⟨a, hn, hmac⟩ | hmac | ⟨v, hmac⟩ | ⟨v, hmac⟩ <;> rw [AddrTabInv, hmac, hcfg]
    · exact ⟨hlen, by simp [htab]⟩
    · exact ⟨by simp; omega, by rw [htab]; exact addrTab_set_next _ _ a (by omega)⟩
    · have := clearMcastSlots_addrTab (s.mac.mcast.map some) s _ _ htab
      rw [List.length_map] at this
      refine ⟨Nat.zero_le _, ?_⟩
      rw [this, List.replicate_append_replicate, Nat.add_sub_cancel' hlen]
      rfl
    iterate 2 exact ⟨hlen, htab⟩

/-- Settles O58: by the effect of the step. -/
theorem stepKeepsFilter : Obligations.StepKeepsFilter :=
  step_keeps_from_init (P := fun s => FilterInv s ∧ AddrTabInv s)
    (fun s t h hcfg _ _ hmac => ⟨filterInv_congr h.1 (by rw [hmac]), addrTabInv_congr h.2 hcfg (by rw [hmac])⟩)
    (fun s t he hseq _ h ht =>
      ⟨he.filterInv hseq (fun hl => (h hl).1) ht, he.addrTabInv hseq (fun hl => (h hl).2) ht⟩)
    (fun s h _ _ => ⟨filterInv_congr h.1 (by rw [finishDeinit_mac]),
      addrTabInv_congr h.2 (by simp) (by rw [finishDeinit_mac])⟩)

/-! SET_PAM, SET_PROMISC, and the filter's reading. -/

theorem exec_setPam {s : State} (v : Bool) (hr : Runs s .fg) (hl : isLive s.life) :
    exec (.setPam v) s = .next (State.answeredOn
      { s with
        mac := { s.mac with pam := v, effPam := v || s.mac.promisc, effPau := s.mac.promisc } } .fg 0#32 0#32) := by
  obtain ⟨hp, hf⟩ := hr
  exact (hostOp_run _ (by simp [hp, foregroundOnly]) hf (colLive_of_isLive hl)).trans
    (congrArg _ (answer_eq (s := recompute _) _ _ hp))

theorem exec_setPromisc {s : State} (v : Bool) (hr : Runs s .fg) (hl : isLive s.life) :
    exec (.setPromisc v) s = .next (State.answeredOn
      { s with
        mac := { s.mac with promisc := v, effPam := s.mac.pam || v, effPau := v } } .fg 0#32 0#32) := by
  obtain ⟨hp, hf⟩ := hr
  exact (hostOp_run _ (by simp [hp, foregroundOnly]) hf (colLive_of_isLive hl)).trans
    (congrArg _ (answer_eq (s := recompute _) _ _ hp))

/-- Settles O28: the equations of the two operations. -/
theorem filterFlagsComplete : Obligations.FilterFlagsComplete :=
  fun _ v hr hl => ⟨exec_setPam v hr hl, exec_setPromisc v hr hl⟩

/-- Settles O29: the first part by the effect of the step; the filter's dependence on each effective bit by a frame to a
multicast and one to a unicast address that the empty table of the reset state does not hold. -/
theorem effectiveFilterBits : Obligations.EffectiveFilterBits := by
  refine ⟨fun s t hc h hstep => ?_, fun s v hr hl => ⟨⟨_, exec_setPam v hr hl, rfl, rfl⟩,
    _, exec_setPromisc v hr hl, rfl, rfl⟩, fun s v w data => rfl, ?_, ?_⟩
  · exact (step_keeps_from_init (P := FilterInv) (fun _ _ h _ _ _ hmac => filterInv_congr h (by rw [hmac]))
      (fun _ _ he hseq _ => he.filterInv hseq) (fun s h _ _ => filterInv_congr h (by rw [finishDeinit_mac]))
      s t ⟨hc, h⟩ hstep).2
  · exact ⟨State.reset, [1#8, 0#8, 0#8, 0#8, 0#8, 0#8], by decide⟩
  · exact ⟨State.reset, [2#8, 0#8, 0#8, 0#8, 0#8, 0#8], by decide⟩

end Sys2Proof.Machine

/-! INIT with a full pool (43_engine.md R203, 10_state.md R64; O11): the draws take the pointers in order, and the
primes arm the slots one after another, which `primedRing` follows. -/
namespace Sys2Proof.Machine

/-- The slot the prime procedure leaves for a buffer (41_rx_ring.md R152). -/
def armedSlot (b : Word) : Slot := ⟨.dma, b, 0#16, false, false, false⟩

/-- The Rx ring of INIT once the buffers `pre` are primed, with `n` slots still to go. -/
def primedRing (pre : List Word) (n : Nat) : RxRing where
  slots := pre.map armedSlot ++ List.replicate n Slot.empty
  book := pre.map some ++ List.replicate n none
  cursor := 0
  prime := pre.length % (pre.length + n)
  unprimed := n
  hw := 0
  dma := .stopped
  pending := none

theorem clearRx_eq_primedRing (c : Params) : clearRx c = primedRing [] c.dRx := by
  simp [clearRx, primedRing]

/-- The prime procedure with a stopped engine. -/
theorem primeSlot_of_stopped {s : State} (b : Word) (h : s.rx.dma = .stopped) :
    primeSlot b s = { s with rx := { s.rx with
      slots := s.rx.slots.set s.rx.prime (armedSlot b), book := s.rx.book.set s.rx.prime (some b)
      prime := nextIdx s.cfg.dRx s.rx.prime, unprimed := s.rx.unprimed - 1 } } := by
  unfold primeSlot
  exact if_neg (by simp [h])

theorem primeSlot_primedRing {s : State} (b : Word) {pre : List Word} {n : Nat} (hd : s.cfg.dRx = pre.length + (n + 1))
    (hrx : s.rx = primedRing pre (n + 1)) : primeSlot b s = { s with rx := primedRing (pre ++ [b]) n } := by
  have hprime : pre.length % (pre.length + (n + 1)) = pre.length := Nat.mod_eq_of_lt (by omega)
  rw [primeSlot_of_stopped b (by rw [hrx]; rfl), hrx, hd]
  simp [primedRing, nextIdx, hprime, List.replicate_succ, show pre.length + 1 + n = pre.length + (n + 1) by omega]

/-- The primes of INIT arm every slot. -/
theorem primeAll_primedRing (bufs : List Word) {s : State} {pre : List Word}
    (hd : s.cfg.dRx = pre.length + bufs.length) (hrx : s.rx = primedRing pre bufs.length) :
    primeAll bufs s = { s with rx := primedRing (pre ++ bufs) 0 } := by
  induction bufs generalizing s pre with
  | nil =>
    rw [List.append_nil, ← List.length_nil (α := Word), ← hrx]
    rfl
  | cons b rest ih =>
    rw [primeAll, primeSlot_primedRing b hd hrx,
      ih (pre := pre ++ [b]) (by simpa [Nat.add_assoc, Nat.add_comm 1] using hd) rfl]
    simp

/-- INIT lines 11 to 14 with a buffer for every slot. -/
theorem initialise_of_length {bufs : List Word} {s : State} (hlen : bufs.length = s.cfg.dRx) :
    initialise bufs s = { s with
      life := .initialized, irq := ⟨0#10, 0x3FF#10, true⟩, tx := clearTx s.cfg
      rx := ⟨bufs.map armedSlot, bufs.map some, 0, 0, 0, 0, .stopped, none⟩
      mac := clearMac s.cfg, mdio := ⟨false, s.mdio.req, 0#16⟩, cnt := ⟨0#32, 0#32, 0#32, 0#32, 0#32, 0#32, 0#32⟩
      env := { s.env with races := [], mdioFor := none } } := by
  have hprimed : primedRing bufs 0 = ⟨bufs.map armedSlot, bufs.map some, 0, 0, 0, 0, .stopped, none⟩ := by
    simp [primedRing]
  have hall : primeAll bufs (resetPeripheral s) = { resetPeripheral s with rx := primedRing bufs 0 } :=
    primeAll_primedRing (pre := []) bufs (by simp [hlen]) (by simp [clearRx_eq_primedRing, hlen])
  rw [initialise, hall, hprimed]
  rfl

/-- The draws of INIT from a pool that holds enough pointers, none twice. -/
theorem drawPool_of_alloc (bufs taken : List Word) {s : State} {rest : List (Option Word)}
    (halloc : s.env.alloc = bufs.map some ++ rest) (hnd : (taken ++ bufs).Nodup) :
    drawPool bufs.length taken s = (true, taken ++ bufs, { s with env := { s.env with alloc := rest } }) := by
  induction bufs generalizing s taken with
  | nil =>
    simp only [List.map_nil, List.nil_append] at halloc
    simp [drawPool, ← halloc]
  | cons b bufs ih =>
    have hb : taken.contains b = false := by
      obtain ⟨-, -, hdisj⟩ := List.nodup_append.1 hnd
      simp only [List.contains_eq_mem, decide_eq_false_iff_not]
      exact fun hm => hdisj b hm b List.mem_cons_self rfl
    have hraw : drawAllocRaw s = (some b, { s with env := { s.env with alloc := bufs.map some ++ rest } }) := by
      simp [drawAllocRaw, halloc]
    simp only [List.length_cons, drawPool, hraw, unlessAttached, hb]
    exact (ih (taken ++ [b]) rfl (by simpa using hnd)).trans (by simp)

/-- Settles O11: the draws, the primes, and the answer. -/
theorem initCompletes : Obligations.InitCompletes := by
  rintro s bufs rest ⟨hp, hf⟩ hl hw hlen hnd halloc hclear
  have hcell : colInit s.life = .run := by rcases hl with h | h <;> simp [h, colInit]
  have hpool := drawPool_of_alloc bufs [] halloc (by simpa using hnd)
  rw [hlen, List.nil_append] at hpool
  have hany : (bufs.any fun b => meetsDescriptors s.cfg b s.cfg.rxBufSize) = false := by simpa using hclear
  have hrun : runInit s = .next
      ((initialise bufs { s with env := { s.env with alloc := rest } }).answer rcOk 0#32) := by
    simp only [runInit, hpool, hany, Bool.false_eq_true, if_false]
  have hexec : exec .init s = runInit s := by
    refine (hostOp_run _ (by simp [hp, foregroundOnly]) hf hcell).trans ?_
    rw [if_pos hw]
  rw [hexec, hrun, initialise_of_length (by exact hlen)]
  exact ⟨s.mdio.req, congrArg _ (answer_eq _ _ hp)⟩

end Sys2Proof.Machine

/-! Accesses of the host (10_state.md R50, 20_memory.md R70, R89): what a step does with one asked, the canonical form
of memory (O54), and that a read changes nothing of the block (O51). -/
namespace Sys2Proof.Machine

section
variable {s : State} {p : Issuer} {rest : List Stim}

theorem step_store {a : Word} {v : Byte} (h : s.env.inputs = .store p a v :: rest) :
    step s = hostStore a v s.dropInput := by
  simp [step, fetch, h, fetchStim]

theorem step_csrRead {n : Nat} (h : s.env.inputs = .csrRead p n :: rest) : step s = readCsr p n s.dropInput := by
  simp [step, fetch, h, fetchStim]

theorem step_load {a : Word} (h : s.env.inputs = .load p a :: rest) : step s = hostLoad p a s.dropInput := by
  simp [step, fetch, h, fetchStim]

theorem step_loadWord {a : Word} (h : s.env.inputs = .loadWord p a :: rest) :
    step s = hostLoadWord p a s.dropInput := by
  simp [step, fetch, h, fetchStim]

theorem step_powerOn (h : s.env.inputs = .powerOn :: rest) : step s = .next (powerOn s.dropInput) := by
  simp [step, fetch, h, fetchStim]

end

/-! The canonical form of memory. -/

/-- Of all effects only RXDMA_WRITE writes memory. -/
theorem Effect.memory_wf {s t : State} (he : Effect s t) (h : Memory.wf s.mem) : Memory.wf t.mem := by
  cases he with
  | primitive u val _ hm =>
    rw [answer_mem, hm]
    exact h
  | init bufs u hp _ hd =>
    obtain ⟨-, -, -, -, -, -, hmem, -⟩ := initialise_frame bufs u
    rw [answer_mem, hmem, drawPool_frame hd]
    exact h
  | initShort bufs u hd =>
    rw [answer_mem, release_mem, drawPool_frame hd]
    exact h
  | rxPoll u n val hl hpoll =>
    obtain ⟨-, -, -, -, -, -, -, hmem, -⟩ := poll_frame hpoll
    rwa [answer_mem, hmem]
  | isrServe p u val hon hserve =>
    obtain ⟨-, -, -, -, -, -, hmem, -⟩ := serve_frame hserve
    rwa [answer_mem, hmem]
  | rxdmaWrite f hp hf =>
    rw [writeRx_mem]
    exact writeBytes_wf _ _ _ h
  | deinit => simpa [finishDeinit] using h
  | answer | deinitHolds | enable | disable | disableHolds | txEnqueue | txReclaim | rxPrime | setOwnAddr | addMcast
  | clearMcast | setPam | setPromisc | mdioHolds | isrFatal | txdmaFetch | txdmaComplete | txdmaSuspend
  | txdmaBusError | rxFrameArrive | rxdmaSuspend | rxdmaBusError | statusEvent | mdioDone =>
    simpa using h

theorem step_memory_wf {s t : State} (h : Memory.wf s.mem) (hstep : step s = .next t) : Memory.wf t.mem := by
  cases step_effect hstep with
  | idle => exact h
  | runs p w t hh he => exact he.memory_wf (by simpa using h)
  | deinitEnds p u hk hu =>
    subst hu
    simpa [finishDeinit] using h
  | disableEnds p u _ hu | mdioEnds p u _ _ hu =>
    subst hu
    simpa using h
  | reads => simpa using h
  | stores b a v => exact writeBytes_wf _ a [v] h
  | powersOn => exact h

/-! A byte store to main memory. -/

theorem hostStore_memory {s : State} {a : Word} (v : Byte) (h : regionOf s.cfg a = .memory) :
    hostStore a v s = .next ((s.drewIf (filledHolds s a)).storeBytes a [anyOf s 0 v (filledVals s a)]) := by
  simp [hostStore, h]

/-- The races a store starts: one for each slot whose engine owns the byte. -/
theorem mem_racesAt {s : State} {a : Word} {v : Byte} {x : Race} :
    x ∈ racesAt s a v ↔
      (∃ i, i < s.cfg.dTx ∧ slotHolds s .tx i a = true ∧ x = ⟨.tx, i, a, memRead s.mem a.toNat⟩)
        ∨ ∃ i, i < s.cfg.dRx ∧ slotHolds s .rx i a = true ∧ x = ⟨.rx, i, a, v⟩ := by
  simp only [racesAt, List.mem_append, List.mem_map, List.mem_filter, List.mem_range, and_assoc, eq_comm (b := x)]

/-- Settles O54: memory by the effect of the step, the store by its own equation. -/
theorem stepKeepsMemory : Obligations.StepKeepsMemory := by
  refine ⟨fun s t => step_memory_wf, fun s p a v rest hwf hin hreg => ?_, fun s p a v rest hin hreg => ?_⟩
  · set w := anyOf s.dropInput 0 v (filledVals s.dropInput a) with hw
    have hmem : memRead (memWrite s.mem a.toNat w) a.toNat = w := memRead_memWrite_same s.mem a.toNat w hwf.1
    have hraces : ((s.dropInput.drewIf (filledHolds s a)).storeBytes a [w]).env.races
        = s.env.races ++ racesAt s a w := congrArg (s.env.races ++ ·) (List.append_nil (racesAt s a w))
    refine ⟨(s.dropInput.drewIf (filledHolds s a)).storeBytes a [w], (step_store hin).trans (hostStore_memory v hreg),
      ?_, fun hf => ⟨?_, ?_⟩, ?_, fun b hb => memRead_memWrite_other s.mem a.toNat b w hb, fun hnone => ?_,
      fun i hi hs => ?_, fun i hi hs => ?_⟩
    · simp [State.storeBytes, State.drewIf, State.dropInput, hin]
    · exact hmem.trans (anyOf_filledVals_quiet s.dropInput 0 a v hf)
    · simp [hf]
    · exact (anyOf_filledVals s.dropInput 0 a v).imp hmem.trans fun h => hmem.trans h.2
    · have : racesAt s a w = [] := List.eq_nil_iff_forall_not_mem.2 fun x hx => by
        rcases mem_racesAt.1 hx with ⟨i, -, hs, -⟩ | ⟨i, -, hs, -⟩ <;> simp [hnone] at hs
      rw [hraces, this, List.append_nil]
    · rw [hraces]
      exact List.mem_append_right _ (mem_racesAt.2 (.inl ⟨i, hi, hs, rfl⟩))
    · rw [hraces]
      exact List.mem_append_right _ (mem_racesAt.2 (.inr ⟨i, hi, hs, congrArg _ hmem⟩))
  · rw [step_store hin]
    unfold hostStore
    split
    · exact absurd ‹_› hreg
    all_goals rfl

/-! Reads. -/

/-- A read changes the words of its port, the inputs and the counter of draws only. -/
theorem read_frame {s : State} {x : Stim} {rest : List Stim} (p : Issuer) (v : Word) (h : s.env.inputs = x :: rest) :
    (s.dropInput.setRdata p v).drew
      = { s with
          env := { s.env with inputs := rest, drawn := s.env.drawn + 1 }
          ports := (s.dropInput.setRdata p v).drew.ports } := by
  cases p <;> simp [State.setRdata, State.setPort, State.dropInput, State.drew, h]

theorem read_port_other {s : State} {p q : Issuer} (v : Word) (hq : q ≠ p) :
    (s.dropInput.setRdata p v).drew.port q = s.port q := by
  rw [port_congr (drew_ports _), State.setRdata, setPort_port_other _ _ _ _ hq, port_dropInput]

theorem read_port_same {s : State} {p : Issuer} (v : Word) (hp : p ≠ .hw) :
    (s.dropInput.setRdata p v).drew.port p = { s.port p with rdata := v } := by
  rw [port_congr (drew_ports _), State.setRdata, setPort_port_same _ _ _ hp, port_dropInput]

/-- From INIT on a `CsrRead` draws nothing (10_state.md R62). -/
theorem csrValue_of_initialised {s : State} (n : Nat) (d : Word) (h : s.life ≠ .uninitialized) :
    csrValue s n d = csrView s n := by
  simp only [csrValue, csrDrawn, if_neg h, BitVec.not_zero, BitVec.and_allOnes, BitVec.and_zero, BitVec.or_zero]

/-- Before INIT only the unspecified bits are drawn. -/
theorem csrValue_of_uninitialised {s : State} (n : Nat) (d : Word) (h : s.life = .uninitialized) :
    csrValue s n d &&& ~~~(csrUnspecified s.cfg n) = csrView s n &&& ~~~(csrUnspecified s.cfg n) := by
  simp only [csrValue, csrDrawn, h, if_true]
  ext i hi
  simp only [BitVec.getElem_and, BitVec.getElem_or, BitVec.getElem_not]
  cases (csrUnspecified s.cfg n)[i] <;> simp

theorem csrUnspecified_table (c : Params) (n : Nat) :
    csrUnspecified c (n + 23) =
      if 32 ≤ n + 23 ∧ n + 23 < 34 + 2 * c.mcastCap then (if (n + 23) % 2 == 1 then 0x8000FFFF#32 else 0xFFFFFFFF#32)
      else 0#32 := rfl

/-- The unspecified bits, CSR by CSR. -/
theorem csrUnspecified_eq (c : Params) (n : Nat) :
    csrUnspecified c n =
      if n = 0 then 0x00040000#32
      else if n = 3 ∨ n = 4 ∨ n = 5 ∨ n = 10 ∨ n = 15 then 0#32
      else if n = 1 then 0x00000006#32
      else if n = 2 then 0x011F0303#32
      else if n ≤ 22 then 0xFFFFFFFF#32
      else if 32 ≤ n ∧ n < 34 + 2 * c.mcastCap then (if n % 2 = 1 then 0x8000FFFF#32 else 0xFFFFFFFF#32)
      else 0#32 := by
  by_cases hn : n ≤ 22
  · interval_cases n <;> rfl
  · obtain ⟨m, rfl⟩ : ∃ m, n = m + 23 := ⟨n - 23, by omega⟩
    simp [csrUnspecified_table]

/-- What every read does, whatever value it found. -/
theorem read_spec {s t : State} {x : Stim} {rest : List Stim} {p : Issuer} {v : Word} (hp : p ≠ .hw)
    (hin : s.env.inputs = x :: rest) (ht : t = (s.dropInput.setRdata p v).drew) :
    t = { s with env := { s.env with inputs := rest, drawn := t.env.drawn }, ports := t.ports }
      ∧ (∀ q, q ≠ p → t.port q = s.port q) ∧ t.port p = { s.port p with rdata := v } := by
  subst ht
  exact ⟨by simpa using read_frame p v hin, fun q hq => read_port_other v hq, read_port_same v hp⟩

/-- A zero-extended byte. -/
theorem zero_append_byte (b : Byte) : (0#24 ++ b : Word) = b.setWidth 32 := (BitVec.setWidth_eq_append (by omega)).symm

/-- Settles O51: each read by its equation, and what it finds. -/
theorem csrReadIsPure : Obligations.CsrReadIsPure := by
  intro s p x n a rest hp hin hx
  rcases hx with rfl | rfl | rfl
  · obtain ⟨hframe, hother, hself⟩ := read_spec (v := csrValue s n (Config.unspecifiedBits s.env.drawn)) hp hin rfl
    refine ⟨_, _, step_csrRead hin, hframe, hother, hself, fun _ hl => csrValue_of_initialised n _ hl, fun _ hl => ?_,
      nofun, nofun, nofun⟩
    dsimp only
    rw [← csrUnspecified_eq s.cfg n]
    exact ⟨csrValue_of_uninitialised n _ hl, _, rfl⟩
  · obtain ⟨hframe, hother, hself⟩ :=
      read_spec (v := 0#24 ++ busByte s a (Config.unspecifiedBits s.env.drawn)) hp hin rfl
    refine ⟨_, _, step_load hin, hframe, hother, hself, nofun, nofun, fun _ hreg hheld => ?_,
      fun _ => ⟨_, zero_append_byte _⟩, nofun⟩
    rw [zero_append_byte, busByte, hreg]
    simp [hheld]
  · obtain ⟨hframe, hother, hself⟩ := read_spec (v := busWord s a (Config.unspecifiedBits s.env.drawn)) hp hin rfl
    exact ⟨_, _, step_loadWord hin, hframe, hother, hself, nofun, nofun, nofun, nofun, fun _ => ⟨_, rfl⟩⟩

end Sys2Proof.Machine

/-! The fields of the CSRs (10_state.md R51 to R61; O52): a field put above what is there adds its value at its bit. -/
namespace Sys2Proof.Machine

theorem toNat_or_shiftLeft {x y : Word} {n k : Nat} (hx : x.toNat = n) (hn : n < 2 ^ k)
    (hy : y.toNat * 2 ^ k < 2 ^ 32) : (x ||| y <<< k).toNat = n + 2 ^ k * y.toNat := by
  rw [BitVec.toNat_or, BitVec.toNat_shiftLeft, Nat.shiftLeft_eq, Nat.mod_eq_of_lt hy, hx, Nat.or_comm, Nat.mul_comm,
    ← Nat.two_pow_add_eq_or_of_lt hn, Nat.add_comm]

theorem toNat_atBit (k : Nat) (b : Bool) (hk : k < 32) : (atBit k b).toNat = 2 ^ k * b.toNat := by
  have : 2 ^ k < 2 ^ 32 := Nat.pow_lt_pow_right (by omega) hk
  cases b with
  | false => rfl
  | true => simpa [atBit, Nat.shiftLeft_eq] using this

theorem toNat_or_atBit {x : Word} {n : Nat} (k : Nat) (b : Bool) (hx : x.toNat = n) (hn : n < 2 ^ k) (hk : k < 32) :
    (x ||| atBit k b).toNat = n + 2 ^ k * b.toNat := by
  rw [BitVec.toNat_or, toNat_atBit k b hk, hx, Nat.or_comm, ← Nat.two_pow_add_eq_or_of_lt hn, Nat.add_comm]

/-! The fields of the single CSRs. -/

theorem speedBit_eq (sp : Speed) : speedBit sp = (sp == .s100) := by cases sp <;> rfl
theorem duplexBit_eq (du : Duplex) : duplexBit du = (du == .full) := by cases du <;> rfl

theorem toNat_csrEngineState (s : State) :
    (csrEngineState s).toNat =
      (lifeCode s.life).toNat + 2 ^ 8 * s.fatal.isSome.toNat + 2 ^ 9 * (s.fatal == some .rxBusError).toNat
        + 2 ^ 16 * s.irq.globalOn.toNat + 2 ^ 17 * s.mdio.busy.toNat + 2 ^ 18 * s.tx.openFrame.toNat := by
  have hlife : (lifeCode s.life).toNat ≤ 4 := by cases s.life <;> decide
  have h1 := s.fatal.isSome.toNat_le
  have h2 := (s.fatal == some .rxBusError).toNat_le
  have h3 := s.irq.globalOn.toNat_le
  have h4 := s.mdio.busy.toNat_le
  exact toNat_or_atBit 18 _ (toNat_or_atBit 17 _ (toNat_or_atBit 16 _ (toNat_or_atBit 9 _ (toNat_or_atBit 8 _ rfl
    (by omega) (by omega)) (by omega) (by omega)) (by omega) (by omega)) (by omega) (by omega)) (by omega) (by omega)

theorem toNat_csrMacCfg (s : State) :
    (csrMacCfg s).toNat = s.mac.macEn.toNat + 2 * (s.mac.speed == .s100).toNat + 4 * (s.mac.duplex == .full).toNat := by
  have h1 := s.mac.macEn.toNat_le
  have h2 := (s.mac.speed == .s100).toNat_le
  have h0 : (atBit 0 s.mac.macEn).toNat = s.mac.macEn.toNat := by simp [toNat_atBit]
  rw [csrMacCfg, speedBit_eq, duplexBit_eq]
  exact toNat_or_atBit 2 _ (toNat_or_atBit 1 _ h0 (by omega) (by omega)) (by omega) (by omega)

theorem toNat_csrFilterCtl (s : State) (h : s.mac.mcast.length ≤ 31) :
    (csrFilterCtl s).toNat =
      s.mac.pam.toNat + 2 * s.mac.promisc.toNat + 2 ^ 8 * s.mac.effPam.toNat + 2 ^ 9 * s.mac.effPau.toNat
        + 2 ^ 16 * s.mac.mcast.length + 2 ^ 24 * s.mac.ucast.isSome.toNat := by
  have h1 := s.mac.pam.toNat_le
  have h2 := s.mac.promisc.toNat_le
  have h3 := s.mac.effPam.toNat_le
  have h4 := s.mac.effPau.toNat_le
  have h0 : (atBit 0 s.mac.pam).toNat = s.mac.pam.toNat := by simp [toNat_atBit]
  have hcount : ((BitVec.ofNat 5 s.mac.mcast.length).setWidth 32).toNat = s.mac.mcast.length := by
    simp only [BitVec.toNat_setWidth, BitVec.toNat_ofNat]
    omega
  have hflags := toNat_or_atBit 9 s.mac.effPau (toNat_or_atBit 8 s.mac.effPam (toNat_or_atBit 1 s.mac.promisc h0
    (by omega) (by omega)) (by omega) (by omega)) (by omega) (by omega)
  have hmcast := toNat_or_shiftLeft (y := (BitVec.ofNat 5 s.mac.mcast.length).setWidth 32) (k := 16) hflags (by omega)
    (by omega)
  rw [hcount] at hmcast
  exact toNat_or_atBit 24 _ hmcast (by omega) (by omega)

theorem dmaCode_le (d : DmaState) : (dmaCode d).toNat ≤ 2 := by cases d <;> decide

theorem toNat_csrTxDma (s : State) (h : ∀ k, s.tx.inflight = some k → k ≤ 65535) :
    (csrTxDma s).toNat =
      (dmaCode s.tx.dma).toNat + 2 ^ 8 * s.tx.inflight.isSome.toNat + 2 ^ 16 * s.tx.inflight.getD 0 := by
  have hd := dmaCode_le s.tx.dma
  have h1 := s.tx.inflight.isSome.toNat_le
  have hk : s.tx.inflight.getD 0 ≤ 65535 := by
    cases hi : s.tx.inflight with
    | none => simp
    | some k => exact h k hi
  have hidx : ((BitVec.ofNat 16 (s.tx.inflight.getD 0)).setWidth 32).toNat = s.tx.inflight.getD 0 := by
    simp only [BitVec.toNat_setWidth, BitVec.toNat_ofNat]
    omega
  have hflag := toNat_or_atBit (x := dmaCode s.tx.dma) 8 s.tx.inflight.isSome rfl (by omega) (by omega)
  have hfield := toNat_or_shiftLeft (y := (BitVec.ofNat 16 (s.tx.inflight.getD 0)).setWidth 32) (k := 16) hflag
    (by omega) (by omega)
  rwa [hidx] at hfield

theorem toNat_csrRxDma (s : State) :
    (csrRxDma s).toNat = (dmaCode s.rx.dma).toNat + 2 ^ 8 * s.rx.pending.isSome.toNat :=
  toNat_or_atBit 8 _ rfl (by have := dmaCode_le s.rx.dma; omega) (by omega)

theorem toNat_csrIndex {n : Nat} (h : n < 2 ^ 16) : (csrIndex n).toNat = n := by
  simp only [csrIndex, BitVec.toNat_ofNat]
  omega

/-! The address table. -/

/-- The CSRs from 23 on: the address table, and reserved numbers. -/
theorem csrView_of_ge {s : State} {n : Nat} (h : 23 ≤ n) :
    csrView s n =
      if 32 ≤ n ∧ n < 34 + 2 * s.cfg.mcastCap then csrAddr s ((n - 32) / 2) (n % 2 == 1) else 0#32 := by
  obtain ⟨m, rfl⟩ := Nat.exists_eq_add_of_le' h
  rfl

theorem csrView_addrLo {s : State} {k : Nat} (hk : k ≤ s.cfg.mcastCap) :
    csrView s (32 + 2 * k) = csrAddr s k false := by
  rw [csrView_of_ge (by omega), if_pos (by omega)]
  congr 1
  · omega
  · simp

theorem csrView_addrHi {s : State} {k : Nat} (hk : k ≤ s.cfg.mcastCap) :
    csrView s (33 + 2 * k) = csrAddr s k true := by
  rw [csrView_of_ge (by omega), if_pos (by omega)]
  congr 1
  · omega
  · simp

theorem csrAddr_of_some {s : State} {k : Nat} {a : Mac} (hi : Bool) (h : s.mac.addrTab[k]? = some (some a)) :
    csrAddr s k hi = if hi then 1#1 ++ 0#15 ++ macHi a else macLo a := by
  simp [csrAddr, List.getD_eq_getElem?_getD, h]

theorem csrAddr_of_none {s : State} {k : Nat} (hi : Bool) (h : s.mac.addrTab[k]? = some none) :
    csrAddr s k hi = 0#32 := by
  simp [csrAddr, List.getD_eq_getElem?_getD, h]

theorem toNat_macLo (a : Mac) : (macLo a).toNat = a.toNat % 2 ^ 32 := by
  simp [macLo, BitVec.extractLsb'_toNat]

/-- The high address word: 16 bits of the address, and bit 31 (R60). -/
theorem toNat_addrHiWord (a : Mac) : (1#1 ++ 0#15 ++ macHi a : Word).toNat = a.toNat / 2 ^ 32 + 2 ^ 31 := by
  have ha := a.isLt
  have hhi : (macHi a).toNat = a.toNat / 2 ^ 32 := by
    simp only [macHi, BitVec.extractLsb'_toNat, Nat.shiftRight_eq_div_pow]
    omega
  rw [BitVec.toNat_append, hhi, Nat.shiftLeft_eq, Nat.mul_comm, ← Nat.two_pow_add_eq_or_of_lt (by omega), Nat.add_comm]
  rfl

theorem csrView_reserved {s : State} {n : Nat} (h : n = 15 ∨ (23 ≤ n ∧ n ≤ 31) ∨ 34 + 2 * s.cfg.mcastCap ≤ n) :
    csrView s n = 0#32 := by
  rcases h with rfl | h
  · rfl
  · rw [csrView_of_ge (by omega), if_neg (by omega)]

/-- Settles O52: CSR by CSR. -/
theorem csrFields : Obligations.CsrFields := by
  intro s
  refine ⟨?_, toNat_csrMacCfg s, toNat_csrFilterCtl s, fun h => ?_, ?_, rfl, rfl, toNat_csrIndex, toNat_csrIndex,
    toNat_csrIndex, toNat_csrIndex, toNat_csrIndex, toNat_csrIndex, toNat_csrIndex, toNat_csrIndex, rfl, rfl, rfl, rfl,
    rfl, rfl, rfl, fun k a hk ha => ?_, fun k hk hn => ?_, fun n => csrView_reserved⟩
  · rw [csrView, toNat_csrEngineState]
    cases s.life <;> rfl
  · rw [csrView, toNat_csrTxDma s h]
    cases s.tx.dma <;> rfl
  · rw [csrView, toNat_csrRxDma]
    cases s.rx.dma <;> rfl
  · rw [csrView_addrLo hk, csrView_addrHi hk, csrAddr_of_some _ ha, csrAddr_of_some _ ha]
    exact ⟨toNat_macLo a, toNat_addrHiWord a⟩
  · rw [csrView_addrLo hk, csrView_addrHi hk]
    exact ⟨csrAddr_of_none _ hn, csrAddr_of_none _ hn⟩

end Sys2Proof.Machine

/-! Power-on (10_state.md R63, 70_reset_and_hazards.md R330; O10, O59). -/
namespace Sys2Proof.Machine

/-- Settles O10: both states are `State.resetWith` but for memory and the environment. -/
theorem powerOnValues : Obligations.PowerOnValues := by
  rintro u (rfl | ⟨s, rest, hin, hstep⟩)
  · exact ⟨rfl, rfl, rfl, rfl, rfl, rfl, rfl, rfl, rfl, rfl, rfl⟩
  · rw [step_powerOn hin] at hstep
    cases hstep
    exact ⟨rfl, rfl, rfl, rfl, rfl, rfl, rfl, rfl, rfl, rfl, rfl⟩

/-- Settles O59: the ring and filter invariants are claimed from INIT on only. -/
theorem resetInvariants : Obligations.ResetInvariants := by
  have hc : ControlInv State.reset := controlInv_resetWith (by decide)
  exact ⟨reset_memory_wf _, hc, ⟨hc, fun h => absurd rfl h⟩, ⟨hc, fun h => absurd rfl h⟩, hc, fun h => absurd rfl h⟩

end Sys2Proof.Machine

/-! The images in the address map (20_memory.md R73, R75, R78, R80, R84; O53). Each address of a slot array or of the
mapped CSRs lies in its own range and in none that the map tries before; a word is its four bytes. -/
namespace Sys2Proof.Machine

/-! Bytes of a word. -/

theorem toNat_wordByte (w : Word) (j : Nat) : (wordByte w j).toNat = w.toNat / 2 ^ (8 * j) % 256 := by
  rw [wordByte, BitVec.extractLsb'_toNat, Nat.shiftRight_eq_div_pow]

/-- A word is its four bytes, the lowest first (R75). -/
theorem append_wordByte (w : Word) : wordByte w 3 ++ wordByte w 2 ++ wordByte w 1 ++ wordByte w 0 = w := by
  have join (k n : Nat) : w.extractLsb' (k + 8) n ++ w.extractLsb' k 8 = w.extractLsb' k (n + 8) :=
    BitVec.extractLsb'_append_extractLsb'_eq_extractLsb' rfl
  calc (wordByte w 3 ++ wordByte w 2 ++ wordByte w 1 ++ wordByte w 0 : Word)
    _ = w.extractLsb' 16 16 ++ wordByte w 1 ++ wordByte w 0 := congrArg (· ++ _ ++ _) (join 16 8)
    _ = w.extractLsb' 8 24 ++ wordByte w 0 := congrArg (· ++ _) (join 8 16)
    _ = w.extractLsb' 0 32 := join 0 24
    _ = w := BitVec.extractLsb'_eq_self

/-- A load of four bytes that are those of a word is the word (R80). -/
theorem busWord_of_bytes {s : State} {a d w : Word}
    (h : ∀ j < 4, busByte s (a + BitVec.ofNat 32 j) d = wordByte w j) : busWord s a d = w := by
  have h0 : busByte s a d = wordByte w 0 := by simpa using h 0 (by omega)
  rw [busWord, h0, h 1 (by omega), h 2 (by omega), h 3 (by omega), append_wordByte]

/-! Words of a slot. -/

theorem toNat_zero_append (h : Half) : (0#16 ++ h : Word).toNat = h.toNat := by
  rw [BitVec.toNat_append]
  simp

theorem toNat_slotFlags (o f l e : Bool) :
    (atBit 31 o ||| atBit 30 f ||| atBit 29 l ||| atBit 28 e).toNat
      = 2 ^ 31 * o.toNat + 2 ^ 30 * f.toNat + 2 ^ 29 * l.toNat + 2 ^ 28 * e.toNat := by
  decide +revert

theorem imageByte_slot (s : State) (r : Ring) (i : Nat) {k : Nat} (hk : k < 16) :
    imageByte s r (16 * i + k) = wordByte (slotWord (s.slot r i) (k / 4)) (k % 4) := by
  rw [imageByte, show (16 * i + k) / 16 = i by omega, show (16 * i + k) % 16 = k by omega,
    show (16 * i + k) % 4 = k % 4 by omega]

/-! Addresses. -/

/-- The base of a ring's slot array (R73). -/
def descBase (c : Params) : Ring → Word
  | .tx => c.txDescBase
  | .rx => c.rxDescBase

theorem rangesMeet_comm (a : Word) (n : Nat) (b : Word) (m : Nat) : rangesMeet a n b m = rangesMeet b m a n := by
  simp only [rangesMeet, Bool.or_comm, Bool.and_comm]

theorem offsetIn_same (base : Word) {n j : Nat} (hj : j < n) (hn : n ≤ 2 ^ 32) :
    offsetIn base n (base + BitVec.ofNat 32 j) = some j := by
  have : (base + BitVec.ofNat 32 j - base).toNat = j := by bv_omega
  rw [offsetIn, this, if_pos hj]

/-- Ranges that do not meet share no address. -/
theorem offsetIn_apart {a b : Word} {n m j : Nat} (h : rangesMeet a n b m = false) (hj : j < m) (hm : m ≤ 2 ^ 32) :
    offsetIn a n (b + BitVec.ofNat 32 j) = none := by
  refine if_neg fun hlt => ?_
  have hclear : n ≤ (b - a).toNat ∧ m ≤ (a - b).toNat := by
    simpa [rangesMeet, show 0 < n by omega, show 0 < m by omega] using h
  bv_omega

/-- The depths, and the placement of the arrays clear of each other (R5, R78). -/
theorem wf_arrays {c : Params} (h : c.wf = true) :
    c.dTx ≤ 65535 ∧ c.dRx ≤ 65535 ∧ rangesMeet c.txDescBase (16 * c.dTx) c.rxDescBase (16 * c.dRx) = false := by
  simp only [Params.wf, Bool.and_eq_true, decide_eq_true_eq, Bool.not_eq_true'] at h
  obtain ⟨hranges, hapart⟩ := h
  exact ⟨by omega, by omega, hapart⟩

theorem regionOf_tx {c : Params} {j : Nat} (hwf : c.wf = true) (hj : j < 16 * c.dTx) :
    regionOf c (c.txDescBase + BitVec.ofNat 32 j) = .txImage j := by
  obtain ⟨htx, -, -⟩ := wf_arrays hwf
  rw [regionOf, offsetIn_same _ hj (by omega)]

theorem regionOf_rx {c : Params} {j : Nat} (hwf : c.wf = true) (hj : j < 16 * c.dRx) :
    regionOf c (c.rxDescBase + BitVec.ofNat 32 j) = .rxImage j := by
  obtain ⟨-, hrx, hapart⟩ := wf_arrays hwf
  rw [regionOf, offsetIn_apart hapart hj (by omega), offsetIn_same _ hj (by omega)]

theorem regionOf_csr {c : Params} {b : Word} {j : Nat} (hbase : c.csrBase = some b)
    (hclear : meetsDescriptors c b 384 = false) (hj : j < 384) : regionOf c (b + BitVec.ofNat 32 j) = .csr j := by
  obtain ⟨htx, hrx⟩ := Bool.or_eq_false_iff.1 hclear
  rw [rangesMeet_comm] at htx hrx
  rw [regionOf, offsetIn_apart htx hj (by omega), offsetIn_apart hrx hj (by omega), hbase, Option.bind_some,
    offsetIn_same _ hj (by omega)]

/-! Loads. -/

theorem busByte_image {s : State} {r : Ring} {j : Nat} (d : Word) (hwf : s.cfg.wf = true)
    (hl : s.life ≠ .uninitialized) (hj : j < 16 * depth s.cfg r) :
    busByte s (descBase s.cfg r + BitVec.ofNat 32 j) d = imageByte s r j := by
  cases r with
  | tx => rw [busByte, descBase, regionOf_tx hwf hj]; exact if_neg hl
  | rx => rw [busByte, descBase, regionOf_rx hwf hj]; exact if_neg hl

theorem busByte_slot {s : State} {r : Ring} {i k : Nat} (d : Word) (hwf : s.cfg.wf = true)
    (hl : s.life ≠ .uninitialized) (hi : i < depth s.cfg r) (hk : k < 16) :
    busByte s (descBase s.cfg r + BitVec.ofNat 32 (16 * i + k)) d
      = wordByte (slotWord (s.slot r i) (k / 4)) (k % 4) := by
  rw [busByte_image d hwf hl (by omega), imageByte_slot s r i hk]

/-- A 32-bit load at a word of a slot reads that word whole. -/
theorem busWord_slot {s : State} {r : Ring} {i k : Nat} (d : Word) (hwf : s.cfg.wf = true)
    (hl : s.life ≠ .uninitialized) (hi : i < depth s.cfg r) (hk : k < 16) (hword : k % 4 = 0) :
    busWord s (descBase s.cfg r + BitVec.ofNat 32 (16 * i + k)) d = slotWord (s.slot r i) (k / 4) :=
  busWord_of_bytes fun j hj => by
    rw [BitVec.add_assoc, ← BitVec.ofNat_add, Nat.add_assoc, busByte_slot d hwf hl hi (by omega),
      show (k + j) / 4 = k / 4 by omega, show (k + j) % 4 = j by omega]

theorem busWord_csr {s : State} {b : Word} {n : Nat} (d : Word) (hl : s.life ≠ .uninitialized)
    (hbase : s.cfg.csrBase = some b) (hclear : meetsDescriptors s.cfg b 384 = false) (hn : n < 96) :
    busWord s (b + BitVec.ofNat 32 (4 * n)) d = csrView s n :=
  busWord_of_bytes fun j hj => by
    rw [BitVec.add_assoc, ← BitVec.ofNat_add, busByte, regionOf_csr hbase hclear (by omega)]
    dsimp only
    rw [csrValue_of_initialised _ d hl, show (4 * n + j) / 4 = n by omega, show (4 * n + j) % 4 = j by omega]

/-- Settles O53: the bytes and words of a slot by its words, whose numbers are the fields' sums; a CSR by its word. -/
theorem slotImage : Obligations.SlotImage := by
  refine ⟨fun s r i k d hwf hl hi hk => ?_, fun s b n d _ hl hbase hclear hn => busWord_csr d hl hbase hclear hn⟩
  intro x base word
  have hbase : base = descBase s.cfg r := by cases r <;> rfl
  have hword : word = (slotWord x (k / 4)).toNat := by
    dsimp only [word]
    match k / 4 with
    | 0 => exact (toNat_slotFlags (x.own == .dma) x.first x.last x.err).symm
    | 1 => rfl
    | 2 => exact (toNat_zero_append x.len).symm
    | _ + 3 => rfl
  rw [hbase, hword, busByte_slot d hwf hl hi hk, toNat_wordByte]
  exact ⟨rfl, fun hk4 => congrArg _ (busWord_slot d hwf hl hi hk hk4)⟩

end Sys2Proof.Machine

/-! The decoder and the encoder (30_encoding.md; O1, O2). Each format is a bijection between the words with its reserved
bits clear and their fields: `eq_format…` says so for one format, and serves both directions of `decode_eq_some_iff`, of
which O1 and O2 are the two halves. -/
namespace Sys2Proof.Machine

/-! Words by their fields (00_scope.md R9, 30_encoding.md R102). -/

theorem eq_append_iff {n m : Nat} (x : BitVec (n + m)) (a : BitVec n) (b : BitVec m) :
    x = a ++ b ↔ x.extractLsb' m n = a ∧ x.extractLsb' 0 m = b := by
  constructor
  · rintro rfl
    exact ⟨BitVec.extractLsb'_append_eq_left, BitVec.extractLsb'_append_eq_right⟩
  · rintro ⟨rfl, rfl⟩
    rw [BitVec.extractLsb'_append_extractLsb'_eq_extractLsb' (by omega), BitVec.extractLsb'_eq_self]

/-- A range of bits is a concatenation exactly when its two parts are. -/
theorem extract_eq_append {w : Nat} (x : BitVec w) (lo : Nat) {n m : Nat} (a : BitVec n) (b : BitVec m) :
    x.extractLsb' lo (n + m) = a ++ b ↔ x.extractLsb' (lo + m) n = a ∧ x.extractLsb' lo m = b := by
  rw [← BitVec.extractLsb'_append_extractLsb'_eq_extractLsb' rfl, eq_append_iff, BitVec.extractLsb'_append_eq_left,
    BitVec.extractLsb'_append_eq_right]

theorem bit_eq_flag (w : Word) (k : Nat) (v : Bool) : w.extractLsb' k 1 = flag v ↔ bitAt w k = v := by
  have hbit : w.extractLsb' k 1 = BitVec.ofBool (bitAt w k) := by
    ext i hi
    obtain rfl : i = 0 := by omega
    simp [bitAt]
  rw [hbit]
  cases bitAt w k <;> cases v <;> decide

/-! The formats (R104 to R116). -/

section
variable (w : Word) (opc : BitVec 8)

theorem eq_formatZ : w = 0#24 ++ opc ↔ fmtZ w = true ∧ bits w 0 8 = opc :=
  (eq_append_iff w 0#24 opc).trans (by rw [fmtZ, beq_iff_eq])

theorem eq_formatE (kind : BitVec 8) :
    w = 0#16 ++ kind ++ opc ↔ fmtE w = true ∧ bits w 8 8 = kind ∧ bits w 0 8 = opc := by
  refine (eq_append_iff w (0#16 ++ kind) opc).trans ?_
  rw [extract_eq_append, fmtE, beq_iff_eq, and_assoc]

theorem eq_formatF (v : Bool) :
    w = 0#23 ++ flag v ++ opc ↔ fmtF w = true ∧ bitAt w 8 = v ∧ bits w 0 8 = opc := by
  refine (eq_append_iff w (0#23 ++ flag v) opc).trans ?_
  rw [extract_eq_append, bit_eq_flag, fmtF, beq_iff_eq, and_assoc]

theorem eq_formatQ (b9 b8 : Bool) :
    w = encQ opc b9 b8 ↔ fmtQ w = true ∧ bitAt w 9 = b9 ∧ bitAt w 8 = b8 ∧ bits w 0 8 = opc := by
  refine (eq_append_iff w (0#22 ++ flag b9 ++ flag b8) opc).trans ?_
  simp only [extract_eq_append, bit_eq_flag, fmtQ, beq_iff_eq, and_assoc]

theorem eq_formatL (duplex speed : BitVec 2) :
    w = 0#20 ++ duplex ++ speed ++ opc
      ↔ fmtL w = true ∧ bits w 10 2 = duplex ∧ bits w 8 2 = speed ∧ bits w 0 8 = opc := by
  refine (eq_append_iff w (0#20 ++ duplex ++ speed) opc).trans ?_
  simp only [extract_eq_append, fmtL, beq_iff_eq, and_assoc]

theorem eq_formatG (en : Bool) (duplex speed : BitVec 2) :
    w = 0#19 ++ flag en ++ duplex ++ speed ++ opc
      ↔ fmtG w = true ∧ bitAt w 12 = en ∧ bits w 10 2 = duplex ∧ bits w 8 2 = speed ∧ bits w 0 8 = opc := by
  refine (eq_append_iff w (0#19 ++ flag en ++ duplex ++ speed) opc).trans ?_
  simp only [extract_eq_append, bit_eq_flag, fmtG, beq_iff_eq, and_assoc]

theorem eq_formatT (slot : BitVec 5) (valid : Bool) :
    w = 0#11 ++ slot ++ 0#7 ++ flag valid ++ opc
      ↔ fmtT w = true ∧ bits w 16 5 = slot ∧ bitAt w 8 = valid ∧ bits w 0 8 = opc := by
  refine (eq_append_iff w (0#11 ++ slot ++ 0#7 ++ flag valid) opc).trans ?_
  simp only [extract_eq_append, bit_eq_flag, fmtT, Bool.and_eq_true, beq_iff_eq]
  tauto

/-- Format M with its bit 24, which MDIO_TRANSACTION calls `WR`. -/
theorem eq_formatM (wr : Bool) (dev reg : BitVec 5) :
    w = encM opc wr dev reg
      ↔ fmtMT w = true ∧ bitAt w 24 = wr ∧ bits w 16 5 = reg ∧ bits w 8 5 = dev ∧ bits w 0 8 = opc := by
  refine (eq_append_iff w (0#7 ++ flag wr ++ 0#3 ++ reg ++ 0#3 ++ dev) opc).trans ?_
  simp only [extract_eq_append, bit_eq_flag, fmtMT, Bool.and_eq_true, beq_iff_eq]
  tauto

/-- On the host's MDIO operations bit 24 is reserved as well. -/
theorem fmtM_iff : fmtM w = true ↔ fmtMT w = true ∧ bitAt w 24 = false := by
  have hhigh : bits w 21 11 = 0#7 ++ flag false ++ 0#3
      ↔ (bits w 25 7 = 0#7 ∧ bitAt w 24 = false) ∧ bits w 21 3 = 0#3 := by
    refine (extract_eq_append w 21 (0#7 ++ flag false) 0#3).trans ?_
    rw [extract_eq_append, bit_eq_flag]
  simp only [fmtM, fmtMT, Bool.and_eq_true, beq_iff_eq]
  rw [show (0#11 : BitVec 11) = 0#7 ++ flag false ++ 0#3 by decide, hhigh]
  tauto

end

/-! Argument words (R117, R122 c). -/

theorem eq_halfArg (w : Word) (h : Half) : w = halfArg h ↔ highZero w = true ∧ lowHalf w = h :=
  (eq_append_iff w 0#16 h).trans (by rw [highZero, beq_iff_eq, lowHalf])

theorem macOf_eq (lo : Word) (hi : Half) (a : Mac) : macOf lo hi = a ↔ lo = macLo a ∧ hi = macHi a := by
  rw [eq_comm, macOf]
  refine (eq_append_iff a hi lo).trans ?_
  rw [macLo, macHi, and_comm, eq_comm, eq_comm (a := hi)]

/-- The two argument words of format A hold an address. -/
theorem eq_macArgs (a0 a1 : Word) (a : Mac) :
    (a0 = macLo a ∧ a1 = halfArg (macHi a)) ↔ highZero a1 = true ∧ macOf a0 (lowHalf a1) = a := by
  rw [eq_halfArg, macOf_eq, and_left_comm]

theorem ringOf_eq (b : Bool) (r : Ring) : ringOf b = r ↔ b = ringBit r := by
  cases b <;> cases r <;> decide

/-! Rows and opcodes (R119, R120, R121). -/

theorem tableRow (i : Instr) : Laws.TableRow.Statement i := by
  cases i with
  | init => exact Laws.TableRow.init
  | deinit => exact Laws.TableRow.deinit
  | enable speed duplex => exact Laws.TableRow.enable speed duplex
  | disable => exact Laws.TableRow.disable
  | txEnqueue first last buf len => exact Laws.TableRow.txEnqueue first last buf len
  | txReclaim => exact Laws.TableRow.txReclaim
  | rxPrime buf => exact Laws.TableRow.rxPrime buf
  | rxPoll => exact Laws.TableRow.rxPoll
  | setOwnAddr addr => exact Laws.TableRow.setOwnAddr addr
  | addMcast addr => exact Laws.TableRow.addMcast addr
  | clearMcast => exact Laws.TableRow.clearMcast
  | setPam v => exact Laws.TableRow.setPam v
  | setPromisc v => exact Laws.TableRow.setPromisc v
  | mdioRead dev reg => exact Laws.TableRow.mdioRead dev reg
  | mdioWrite dev reg val => exact Laws.TableRow.mdioWrite dev reg val
  | isrDispatch line => exact Laws.TableRow.isrDispatch line
  | startDma ring => exact Laws.TableRow.startDma ring
  | stopDma ring => exact Laws.TableRow.stopDma ring
  | isSlotOwnedByDma ring idx => exact Laws.TableRow.isSlotOwnedByDma ring idx
  | writeTxDesc first last idx buf len => exact Laws.TableRow.writeTxDesc first last idx buf len
  | writeRxDesc idx buf => exact Laws.TableRow.writeRxDesc idx buf
  | isFirstFragment ring idx => exact Laws.TableRow.isFirstFragment ring idx
  | isLastFragment ring idx => exact Laws.TableRow.isLastFragment ring idx
  | isErrorFragment ring idx => exact Laws.TableRow.isErrorFragment ring idx
  | totalFrameLength ring idx idx2 => exact Laws.TableRow.totalFrameLength ring idx idx2
  | isBufferDmaReadable ptr len => exact Laws.TableRow.isBufferDmaReadable ptr len
  | writeUnicastAddr addr => exact Laws.TableRow.writeUnicastAddr addr
  | writeMcastAddr slot valid addr => exact Laws.TableRow.writeMcastAddr slot valid addr
  | setLinkConfig en speed duplex => exact Laws.TableRow.setLinkConfig en speed duplex
  | mdioTransaction wr dev reg val => exact Laws.TableRow.mdioTransaction wr dev reg val
  | writeFilterFlags effPam effPau => exact Laws.TableRow.writeFilterFlags effPam effPau
  | txdmaFetch => exact Laws.TableRow.txdmaFetch
  | txdmaComplete => exact Laws.TableRow.txdmaComplete
  | txdmaSuspend => exact Laws.TableRow.txdmaSuspend
  | txdmaBusError => exact Laws.TableRow.txdmaBusError
  | rxFrameArrive => exact Laws.TableRow.rxFrameArrive
  | rxdmaWrite => exact Laws.TableRow.rxdmaWrite
  | rxdmaSuspend => exact Laws.TableRow.rxdmaSuspend
  | rxdmaBusError => exact Laws.TableRow.rxdmaBusError
  | statusEvent kind => exact Laws.TableRow.statusEvent kind
  | mdioDone => exact Laws.TableRow.mdioDone

/-- The opcode of an instruction's row (R102). -/
def opcodeOf (i : Instr) : BitVec 8 := bits i.row.pattern 0 8

theorem mask_covers_opcode (i : Instr) : i.row.mask.extractLsb' 0 8 = BitVec.allOnes 8 := by
  cases i <;> simp only [Instr.row] <;> rfl

theorem pattern_eq_opcodeOf (i : Instr) : i.row.pattern = 0#24 ++ opcodeOf i := by
  refine (eq_formatZ _ _).2 ⟨?_, rfl⟩
  cases i <;> simp only [Instr.row] <;> rfl

theorem opcode_of_wordsOf {t : OpTuple} {i : Instr} (h : wordsOf t i) : bits t.opw 0 8 = opcodeOf i := by
  obtain ⟨hopw, -⟩ := h
  rw [opcodeOf, ← (tableRow i).1, hopw, bits, bits, BitVec.extractLsb'_and, mask_covers_opcode, BitVec.and_allOnes]

theorem onlyIf_eq_some {ok : Bool} {i j : Instr} : onlyIf ok i = some j ↔ ok = true ∧ i = j := by
  simp [onlyIf]

theorem opcode_of_decode {t : OpTuple} {i : Instr} (h : decode t = some i) : bits t.opw 0 8 = opcodeOf i := by
  simp only [decode] at h
  apply BitVec.eq_of_toNat_eq
  split at h
  case h_42 => cases h
  all_goals
    rename_i hopc
    obtain ⟨-, rfl⟩ := onlyIf_eq_some.1 h
    exact hopc

/-- In a row whose mask is full only the opcode of the operation word is not reserved. -/
theorem eq_encode_of_fullMask {w : Word} {i : Instr} (hop : bits w 0 8 = opcodeOf i)
    (hmask : i.row.mask = BitVec.allOnes 32) : w = (encode i).opw ↔ fmtZ w = true := by
  have hrow := (tableRow i).1
  rw [hmask, BitVec.and_allOnes] at hrow
  rw [hrow, pattern_eq_opcodeOf, eq_formatZ]
  exact and_iff_left hop

/-- What the decoder itself checks of an instruction's operands: of `Instr.wellFormed`, the argument words that `VALID`
or `WR` makes reserved (R110, R113, R122 c). -/
def encodable : Instr → Bool
  | .writeMcastAddr _ valid addr => valid || addr == 0#48
  | .mdioTransaction wr _ _ val => mdioValOk wr val
  | _ => true

theorem encodable_of_wellFormed {i : Instr} (h : i.wellFormed = true) : encodable i = true := by
  cases i with
  | writeMcastAddr slot valid addr => exact (Bool.and_eq_true_iff.1 h).2
  | mdioTransaction wr dev reg val => exact h
  | _ => rfl

/-- The arm of the decoder that the opcode selects, format by format. -/
theorem decode_eq_some_iff_of_opcode {t : OpTuple} {i : Instr} (hop : bits t.opw 0 8 = opcodeOf i) :
    decode t = some i ↔ wordsOf t i ∧ encodable i = true := by
  rw [decode, hop]
  cases i
  all_goals refine onlyIf_eq_some.trans ?_
  case init | deinit | disable | txReclaim | rxPoll | clearMcast | txdmaFetch | txdmaComplete | txdmaSuspend
      | txdmaBusError | rxFrameArrive | rxdmaWrite | rxdmaSuspend | rxdmaBusError | mdioDone =>
    rw [wordsOf, eq_encode_of_fullMask hop rfl]
    simp [Instr.row, encodable]
  case rxPrime | writeRxDesc | setOwnAddr | addMcast | writeUnicastAddr =>
    rw [wordsOf, eq_encode_of_fullMask hop rfl]
    simp [encode, encA, eq_macArgs, Instr.row, encodable, and_assoc]
  case isBufferDmaReadable =>
    rw [wordsOf, eq_encode_of_fullMask hop rfl]
    simp [encode, eq_halfArg, Instr.row, encodable, and_assoc, and_left_comm]
  case setPam | setPromisc | isrDispatch | startDma | stopDma | isSlotOwnedByDma | isFirstFragment | isLastFragment
      | isErrorFragment | totalFrameLength =>
    simp [wordsOf, encode, encF, eq_formatF, ringOf_eq, hop, opcodeOf, bits, Instr.row, encodable, and_assoc]
  case txEnqueue | writeTxDesc | writeFilterFlags =>
    simp [wordsOf, encode, opw0, eq_formatQ, eq_halfArg, hop, opcodeOf, bits, Instr.row, encodable, and_assoc, and_comm,
      and_left_comm]
  case enable =>
    simp [wordsOf, encode, opw0, eq_formatL, hop, opcodeOf, bits, Instr.row, encodable, and_comm]
  case mdioRead | mdioWrite =>
    simp [wordsOf, encode, opw0, eq_formatM, fmtM_iff, eq_halfArg, hop, opcodeOf, bits, Instr.row, encodable, and_assoc,
      and_comm, and_left_comm]
  case setLinkConfig =>
    simp [wordsOf, encode, opw0, eq_formatG, hop, opcodeOf, bits, Instr.row, encodable, and_comm]
  case statusEvent =>
    simp [wordsOf, encode, opw0, eq_formatE, hop, opcodeOf, bits, Instr.row, encodable]
  case mdioTransaction wr dev reg val =>
    simp only [wordsOf, encode, eq_formatM, eq_halfArg, hop, opcodeOf, Instr.row, encodable]
    constructor
    · rintro ⟨hok, ⟨⟩⟩
      simp_all [bits]
    · rintro ⟨⟨⟨hfmt, rfl, rfl, rfl, -⟩, harg, -⟩, hval⟩
      obtain ⟨hhigh, rfl⟩ := harg le_rfl
      exact ⟨by rw [hfmt, hhigh, hval, Bool.and_self, Bool.and_self], rfl⟩
  case writeMcastAddr slot valid addr =>
    simp only [wordsOf, encode, eq_formatT, hop, opcodeOf, Instr.row, encodable]
    constructor
    · rintro ⟨hok, ⟨⟩⟩
      simp_all [bits, eq_halfArg, ← macOf_eq]
    · rintro ⟨⟨⟨hfmt, rfl, rfl, -⟩, hlo, hhi, -⟩, hval⟩
      obtain ⟨hhigh, rfl⟩ := (eq_macArgs _ _ _).1 ⟨hlo one_le_two, hhi le_rfl⟩
      exact ⟨by rw [hfmt, hhigh, hval, Bool.and_self, Bool.and_self], rfl⟩

/-- What a tuple decodes to: the instruction whose words it is, if there is one (R124). -/
theorem decode_eq_some_iff {t : OpTuple} {i : Instr} : decode t = some i ↔ wordsOf t i ∧ encodable i = true :=
  ⟨fun h => (decode_eq_some_iff_of_opcode (opcode_of_decode h)).1 h,
    fun h => (decode_eq_some_iff_of_opcode (opcode_of_wordsOf h.1)).2 h⟩

theorem wordsOf_encode (i : Instr) : wordsOf (encode i) i := ⟨rfl, fun _ => rfl, fun _ => rfl, fun _ => rfl⟩

/-- Settles O1: a well-formed instruction is what its own words decode to. -/
theorem decodeEncode : Obligations.DecodeEncode := fun i hwf =>
  decode_eq_some_iff.2 ⟨wordsOf_encode i, encodable_of_wellFormed hwf⟩

/-- Settles O2: the words by the decoder, the pattern by the row of the encoder's words. -/
theorem encodeDecode : Obligations.EncodeDecode := fun t i h => by
  obtain ⟨hwords, -⟩ := decode_eq_some_iff.1 h
  exact ⟨hwords, hwords.1 ▸ (tableRow i).1⟩

end Sys2Proof.Machine

/-! A tuple presented on a port (30_encoding.md R100, R122, R124; O4, O5): the latched state, and where `exec` finds the
instruction illegal. -/
namespace Sys2Proof.Machine

/-! The step. -/

section
variable {s : State} {p : Issuer} {w : OpTuple} {rest : List Stim} (hin : s.env.inputs = .present p w :: rest)
include hin

theorem step_present_held (hh : isHeld (s.port p) = true) : step s = .refused .portHeld := by
  simp [step, fetch, hin, fetchStim, present, port_dropInput, hh]

theorem step_present_decoded {i : Instr} (hh : isHeld (s.port p) = false) (hd : decode w = some i) :
    step s = exec i (s.dropInput.latch p w) := by
  simp [step, fetch, hin, fetchStim, present, port_dropInput, hh, hd]

theorem step_present_undecoded (hh : isHeld (s.port p) = false) (hd : decode w = none) :
    step s = illegal (s.dropInput.latch p w) := by
  simp [step, fetch, hin, fetchStim, present, port_dropInput, hh, hd]

/-- Of the latched state only the used-up input, the issuer and its port differ. -/
theorem latch_frame : s.dropInput.latch p w =
    { s with
      env := { s.env with inputs := rest, issuer := p }, ports := (s.dropInput.latch p w).ports } := by
  cases p <;> simp [State.latch, State.setPort, State.dropInput, hin]

end

theorem answer_frame (s : State) (res val : Word) :
    s.answer res val = { s with ports := (s.answer res val).ports } := by
  unfold State.answer State.setPort
  cases s.env.issuer <;> rfl

/-- Settles O4: the step by its equation, the latched state by its frame and its ports. -/
theorem stepRunsDecoded : Obligations.StepRunsDecoded := fun s p w rest i hin hd _ =>
  ⟨fun hh => ⟨s.dropInput.latch p w, step_present_decoded hin hh hd, latch_frame hin,
      fun q hq => by simp [latch_port, hq, port_dropInput], fun hp => by simp [latch_port, hp, port_dropInput]⟩,
    step_present_held hin⟩

/-! What a host port does not accept. -/

theorem illegal_hostPort {s : State} (hp : isHostPort s.env.issuer) :
    illegal s = .next (s.answer rcConfigError 0#32) := by
  rcases hp with h | h | h <;> simp [illegal, h]

theorem hostOp_illegal {legal : Bool} {cell : Life → Cell} {s : State} {body : Result} (hl : legal = false) :
    hostOp legal cell s body = illegal s := by
  simp [hostOp, hl]

theorem primitive_illegal {s eff : State} {inRange pre : Bool} {val : Word} (hp : isHostPort s.env.issuer) :
    primitive s inRange pre eff val = illegal s := by
  rcases hp with h | h | h <;> simp [primitive, h]

theorem agentStep_illegal {s : State} {enabled : Bool} {body : Result} (hp : isHostPort s.env.issuer) :
    agentStep s enabled body = illegal s := by
  rcases hp with h | h | h <;> simp [agentStep, h]

/-- On a host port every instruction is illegal but the host operations that port accepts (R122 d, e; R316). -/
theorem exec_illegal {i : Instr} {s : State} (hp : isHostPort s.env.issuer)
    (h : isHostOp i = true → portAccepts s.cfg s.env.issuer i = false) : exec i s = illegal s := by
  cases i
  case init | deinit | enable | disable | txEnqueue | txReclaim | rxPrime | rxPoll | setOwnAddr | addMcast | clearMcast
      | setPam | setPromisc | mdioRead | mdioWrite | isrDispatch => exact hostOp_illegal (h rfl)
  case txdmaFetch | txdmaComplete | txdmaSuspend | txdmaBusError | rxFrameArrive | rxdmaWrite | rxdmaSuspend
      | rxdmaBusError | statusEvent | mdioDone => exact agentStep_illegal hp
  all_goals exact primitive_illegal hp

theorem step_illegalTuple {s : State} {p : Issuer} {w : OpTuple} {rest : List Stim} (hp : isHostPort p)
    (hin : s.env.inputs = .present p w :: rest) (hh : isHeld (s.port p) = false) (hw : ¬LegalTuple s.cfg p w) :
    step s = .next ((s.dropInput.latch p w).answer rcConfigError 0#32) := by
  have hissuer : isHostPort (s.dropInput.latch p w).env.issuer := by simpa using hp
  rw [← illegal_hostPort hissuer]
  cases hd : decode w with
  | none => exact step_present_undecoded hin hh hd
  | some i =>
    rw [step_present_decoded hin hh hd]
    refine exec_illegal hissuer fun hi => ?_
    rw [latch_cfg, latch_env]
    exact Bool.eq_false_iff.2 fun hacc => hw ⟨i, hi, hacc, (decode_eq_some_iff.1 hd).1⟩

/-- Settles O5: a tuple that decodes has the words of what it decodes to, so `exec` finds that instruction illegal. -/
theorem illegalTupleAnswered : Obligations.IllegalTupleAnswered := by
  intro s p w rest hp hin hh hw
  have hhw : p ≠ .hw := by rcases hp with rfl | rfl | rfl <;> decide
  refine ⟨_, step_illegalTuple hp hin hh hw, ?_, fun q hq => ?_, ?_⟩
  · exact (answer_frame _ _ _).trans
      (congrArg (fun u : State => { u with ports := ((s.dropInput.latch p w).answer rcConfigError 0#32).ports })
        (latch_frame hin))
  · simp [answer_port, latch_port, hq, port_dropInput]
  · simp [answer_port, latch_port, hhw, port_dropInput]

end Sys2Proof.Machine

/-! Reclaiming the completed slots (40_tx_ring.md R132; O18). The loop takes one turn for each completed slot, and
`reclaimed k s` is the state after `k` turns. -/
namespace Sys2Proof.Machine

/-! Tokens in ring order. -/

theorem booked_add (book : List (Option Word)) (d a m n : Nat) :
    booked book d a (m + n) = booked book d a m ++ booked book d ((a + m) % d) n := by
  simp [booked, ringSlots, List.range_add, Nat.add_assoc, Function.comp_def]

theorem booked_one (book : List (Option Word)) (d a : Nat) : booked book d a 1 = (book.getD (a % d) none).toList := by
  simp only [booked, ringSlots, List.range_one, List.map_cons, List.map_nil, Nat.add_zero, List.filterMap_cons]
  cases book.getD (a % d) none <;> rfl

theorem booked_congr {book book' : List (Option Word)} {d a n : Nat}
    (h : ∀ j, j < n → book'.getD ((a + j) % d) none = book.getD ((a + j) % d) none) :
    booked book' d a n = booked book d a n := by
  refine List.filterMap_congr fun i hi => ?_
  obtain ⟨j, hj, rfl⟩ := List.mem_map.1 hi
  exact h j (List.mem_range.1 hj)

/-- The slots of a ring are all different. -/
theorem not_mem_ringSlots {d a k j : Nat} (hkj : k ≤ j) (hj : j < d) : (a + j) % d ∉ ringSlots d a k := by
  intro hmem
  obtain ⟨i, hi, he⟩ := List.mem_map.1 hmem
  have := List.mem_range.1 hi
  have := add_mod_inj (by omega) hj he
  omega

/-! The state after `k` turns. -/

/-- `s` with the `k` slots from the cursor reclaimed, and their tokens notified. -/
def reclaimed (k : Nat) (s : State) : State :=
  { s with
    tx :=
      { s.tx with
        book := (List.range s.cfg.dTx).map fun i =>
          if i ∈ ringSlots s.cfg.dTx s.tx.cursor k then none else s.txTok i
        cursor := (s.tx.cursor + k) % s.cfg.dTx
        free := s.tx.free + k }
    out :=
      { s.out with
        notify := s.out.notify
          ++ (booked s.tx.book s.cfg.dTx s.tx.cursor k).map Notification.frameTransmitted } }

theorem reclaimed_zero {s : State} (hb : s.tx.book.length = s.cfg.dTx) (hc : s.tx.cursor < s.cfg.dTx) :
    reclaimed 0 s = s := by
  have hbook : (List.range s.cfg.dTx).map s.txTok = s.tx.book := by
    refine List.ext_getElem (by simp [hb]) fun i _ hi => ?_
    simp [State.txTok, hi]
  simp [reclaimed, ringSlots, booked, Nat.mod_eq_of_lt hc, hbook]

theorem reclaimSlot_frame (s : State) :
    reclaimSlot s = { s with tx := (reclaimSlot s).tx, out := (reclaimSlot s).out } := by
  unfold reclaimSlot
  dsimp only
  split <;> rfl

/-- Only the tokens of the slots reclaimed are gone. -/
theorem txTok_reclaimed {s : State} (k : Nat) {i : Nat} (hi : i < s.cfg.dTx) :
    (reclaimed k s).txTok i = if i ∈ ringSlots s.cfg.dTx s.tx.cursor k then none else s.txTok i := by
  simp [State.txTok, reclaimed, hi]

/-- One more turn. -/
theorem reclaimSlot_reclaimed {s : State} {k : Nat} (hk : k < s.cfg.dTx) :
    reclaimSlot (reclaimed k s) = reclaimed (k + 1) s := by
  have hlt : (s.tx.cursor + k) % s.cfg.dTx < s.cfg.dTx := Nat.mod_lt _ (by omega)
  have hslots : ringSlots s.cfg.dTx s.tx.cursor (k + 1)
      = ringSlots s.cfg.dTx s.tx.cursor k ++ [(s.tx.cursor + k) % s.cfg.dTx] := by simp [ringSlots, List.range_succ]
  have hbooked : booked s.tx.book s.cfg.dTx s.tx.cursor (k + 1) = booked s.tx.book s.cfg.dTx s.tx.cursor k
      ++ (s.txTok ((s.tx.cursor + k) % s.cfg.dTx)).toList := by
    rw [booked_add, booked_one, Nat.mod_mod]
    rfl
  have htok : (reclaimed k s).txTok (reclaimed k s).tx.cursor = s.txTok ((s.tx.cursor + k) % s.cfg.dTx) :=
    (txTok_reclaimed k hlt).trans (if_neg (not_mem_ringSlots le_rfl hk))
  have hbook : (reclaimed k s).tx.book.set ((s.tx.cursor + k) % s.cfg.dTx) none = (reclaimed (k + 1) s).tx.book := by
    refine List.ext_getElem (by simp [reclaimed]) fun i _ _ => ?_
    simp only [reclaimed, List.getElem_set, List.getElem_map, List.getElem_range, hslots, List.mem_append,
      List.mem_singleton]
    by_cases hi : (s.tx.cursor + k) % s.cfg.dTx = i
    · simp [hi]
    · simp [hi, Ne.symm hi]
  rw [reclaimSlot_frame, reclaimSlot_tx, reclaimSlot_out, htok]
  simp only [reclaimed] at hbook ⊢
  rw [hbook, hbooked]
  simp [nextIdx, Nat.add_assoc]

/-! The loop. -/

/-- With `n` completed slots the loop goes on while fewer than `n` are reclaimed. -/
theorem reclaimed_goesOn {s : State} {k n : Nat} (h : TxShape s n) (hk : k ≤ n) :
    (decide ((reclaimed k s).tx.free < (reclaimed k s).cfg.dTx)
      && !ownedByDma (reclaimed k s) .tx (reclaimed k s).tx.cursor) = decide (k < n) := by
  obtain ⟨-, -, hf, hr, -⟩ := (txShape_iff s n).1 h
  show (decide (s.tx.free + k < s.cfg.dTx) && !((s.txSlot ((s.tx.cursor + k) % s.cfg.dTx)).own == .dma)) = _
  have hn := hr.le_second
  by_cases hkn : k < n
  · simp [hkn, (hr.first k hkn).1, show s.tx.free + k < s.cfg.dTx by omega]
  · by_cases hused : k < s.cfg.dTx - s.tx.free
    · simp [hkn, (hr.second k (by omega) hused).1]
    · simp [hkn, show s.cfg.dTx ≤ s.tx.free + k by omega]

/-- What is left of the loop after `k` turns, with `n` completed slots to begin with. -/
theorem reclaimLoop_reclaimed {s : State} {n : Nat} (h : TxShape s n) (r : Nat) {k fuel : Nat} (count : Nat)
    (hkr : k + r = n) (hfuel : r ≤ fuel) :
    reclaimLoop fuel (reclaimed k s) count = (reclaimed n s, count + r) := by
  have hgo := reclaimed_goesOn h (k := k) (by omega)
  induction r generalizing k fuel count with
  | zero =>
    obtain rfl : k = n := hkr
    cases fuel with
    | zero => rfl
    | succ fuel => simp [reclaimLoop, hgo]
  | succ r ih =>
    obtain ⟨fuel, rfl⟩ : ∃ f, fuel = f + 1 := ⟨fuel - 1, by omega⟩
    have ⟨_, _, _, _, _, hn, _⟩ := h
    rw [reclaimLoop, hgo, if_pos (decide_eq_true (by omega)), reclaimSlot_reclaimed (by omega),
      ih (k := k + 1) (count + 1) (by omega) (by omega) (reclaimed_goesOn h (by omega)), Nat.add_right_comm]
    rfl

theorem reclaim_of_shape {s : State} {k : Nat} (h : TxShape s k) : reclaim s = (reclaimed k s, k) := by
  have ⟨_, hb, _, hc, _, hk, _⟩ := h
  have := reclaimLoop_reclaimed h k (k := 0) 0 (by omega) hk
  rwa [reclaimed_zero hb hc, Nat.zero_add] at this

/-- Settles O18: the loop's answer written out. -/
theorem txReclaimCompletes : Obligations.TxReclaimCompletes := by
  rintro s p k ⟨hp, hf⟩ hport hl hk
  have hlegal : reclaimPorts s.env.issuer = true := by rcases hport with rfl | rfl <;> rw [hp] <;> rfl
  refine (hostOp_run _ hlegal hf (colLive_of_isLive hl)).trans ?_
  rw [reclaim_of_shape hk]
  exact congrArg _ (answer_eq (s := reclaimed k s) _ _ hp)

end Sys2Proof.Machine

/-! TX_ENQUEUE (40_tx_ring.md R131; O16, O17). -/
namespace Sys2Proof.Machine

theorem enqueueSlot_frame (first last : Bool) (buf : Word) (len : Half) (s : State) :
    enqueueSlot first last buf len s = { s with tx := (enqueueSlot first last buf len s).tx } := by
  unfold enqueueSlot
  dsimp only
  split <;> rfl

/-- While enabled, TX_ENQUEUE of the foreground runs its own lines. -/
theorem hostOp_enqueue {s : State} (hr : Runs s .fg) (he : s.life = .enabled) (body : Result) :
    hostOp (foregroundOnly s.env.issuer) colEnqueue s body = body :=
  hostOp_run body (by rw [hr.1]; rfl) hr.2 (by rw [he]; rfl)

/-- A whole frame, or any fragment on a chained backend, passes line 5. -/
theorem fragment_allowed {s : State} {first last : Bool} (h : s.cfg.chained = true ∨ (first && last) = true) :
    ¬ (!s.cfg.chained && !(first && last)) = true := by
  rcases h with h | h <;> simp [h]

/-- Settles O16: past every check the slot at the head is filled. -/
theorem txEnqueueCompletes : Obligations.TxEnqueueCompletes := by
  intro s first last buf len hr he hlen hchain hseq hread hfree hclear
  have hchain' : s.cfg.chained = true ∨ (first && last) = true := by simpa using hchain
  refine (hostOp_enqueue hr he _).trans ?_
  rw [if_neg hlen, if_neg (fragment_allowed hchain'), if_neg (by simp [hseq]), if_neg (by simp [hread]),
    if_neg hfree.ne', if_neg (by simp [hclear]), answer_eq _ _ (by rw [enqueueSlot_env, hr.1]), enqueueSlot_frame,
    enqueueSlot_tx]
  rfl

/-- Settles O17: the checks in their order. -/
theorem txEnqueueTurnsAway : Obligations.TxEnqueueTurnsAway := by
  intro s first last buf len hr he
  have hrun : exec (.txEnqueue first last buf len) s = _ := hostOp_enqueue hr he _
  rw [hrun]
  refine ⟨fun hlen => ?_, fun hlen hc hf => ?_, fun hlen hc hf => ?_, fun hlen hc hf hread => ?_,
    fun hlen hc hf hread hfree => ?_, fun hlen hc hf hread hfree hm => ?_⟩
  · rw [if_pos hlen]
  · rw [if_neg hlen, if_pos (by simp [hc, hf])]
  · rw [if_neg hlen, if_neg (fragment_allowed hc), if_pos hf]
  · rw [if_neg hlen, if_neg (fragment_allowed hc), if_neg hf, if_pos (by simp [hread])]
  · rw [if_neg hlen, if_neg (fragment_allowed hc), if_neg hf, if_neg (by simp [hread]), if_pos hfree,
      answer_eq _ _ hr.1, rcOutOfMemory_eq]
  · rw [if_neg hlen, if_neg (fragment_allowed hc), if_neg hf, if_neg (by simp [hread]), if_neg hfree, if_pos hm]

end Sys2Proof.Machine

/-! The order of the Tx buffers (40_tx_ring.md R133; O19). `txOrder` is what has been reported followed by what is in
the ring. A reclaim moves buffers from the second part to the first, an enqueue adds one at the end, and every other
instruction of a live engine leaves both parts alone. -/
namespace Sys2Proof.Machine

/-- The buffers reported transmitted, and after them those in the ring, oldest first. -/
def txOrder (s : State) : List Word := transmitted s ++ inTxRing s

/-- From `s` to `t` no buffer joins the ring, and the order is as before. -/
def OrderKept (s t : State) : Prop := txOrder t = txOrder s ∧ s.tx.free ≤ t.tx.free

theorem OrderKept.trans {s t u : State} (h : OrderKept s t) (g : OrderKept t u) : OrderKept s u :=
  ⟨g.1.trans h.1, h.2.trans g.2⟩

/-- What the order is made of does not change. -/
theorem orderKept_of_same {s t : State} (hd : t.cfg.dTx = s.cfg.dTx) (hbook : t.tx.book = s.tx.book)
    (hcursor : t.tx.cursor = s.tx.cursor) (hfree : t.tx.free = s.tx.free) (hsent : transmitted t = transmitted s) :
    OrderKept s t := by
  simp [OrderKept, txOrder, inTxRing, hd, hbook, hcursor, hfree, hsent]

theorem transmitted_congr {s t : State} (h : t.out.notify = s.out.notify) : transmitted t = transmitted s := by
  simp [transmitted, h]

/-! The two operations that move buffers. -/

theorem transmitted_reclaimed (k : Nat) (s : State) :
    transmitted (reclaimed k s) = transmitted s ++ booked s.tx.book s.cfg.dTx s.tx.cursor k := by
  simp [transmitted, reclaimed, List.filterMap_append, List.filterMap_map]

theorem txOrder_reclaimed {s : State} {k : Nat} (h : TxShape s k) : txOrder (reclaimed k s) = txOrder s := by
  have ⟨_, _, hf, _, _, hk, _⟩ := h
  obtain ⟨m, hm⟩ : ∃ m, s.cfg.dTx - s.tx.free = k + m := ⟨_, (Nat.add_sub_cancel' hk).symm⟩
  have hm' : s.cfg.dTx - (s.tx.free + k) = m := by omega
  have hring : inTxRing (reclaimed k s) = booked s.tx.book s.cfg.dTx ((s.tx.cursor + k) % s.cfg.dTx) m := by
    show booked (reclaimed k s).tx.book s.cfg.dTx ((s.tx.cursor + k) % s.cfg.dTx) (s.cfg.dTx - (s.tx.free + k)) = _
    rw [hm']
    refine booked_congr fun j hj => ?_
    rw [Nat.mod_add_mod, Nat.add_assoc]
    exact (txTok_reclaimed k (Nat.mod_lt _ (by omega))).trans (if_neg (not_mem_ringSlots (by omega) (by omega)))
  rw [txOrder, transmitted_reclaimed, hring, List.append_assoc, ← booked_add, ← hm]
  rfl

theorem orderKept_reclaim {s : State} (h : TxInv s) : OrderKept s (reclaim s).1 := by
  obtain ⟨k, hk⟩ := h
  rw [reclaim_of_shape hk]
  exact ⟨txOrder_reclaimed hk, Nat.le_add_right _ _⟩

/-- TX_ENQUEUE puts the buffer behind those in the ring. -/
theorem txOrder_enqueueSlot {s : State} (h : TxInv s) (first last : Bool) (buf : Word) (len : Half)
    (hfree : s.tx.free ≠ 0) : txOrder (enqueueSlot first last buf len s) = txOrder s ++ [buf] := by
  obtain ⟨k, -, hb, hf, hc, hhead, -⟩ := h
  have hlt : s.tx.head < s.tx.book.length := hb ▸ hhead ▸ Nat.mod_lt _ (by omega)
  have hbook : ∀ i, (s.tx.book.set s.tx.head (some buf)).getD i none
      = if s.tx.head = i then some buf else s.tx.book.getD i none := fun i => by
    simp only [getD_set, hlt, and_true]
  have hring : inTxRing (enqueueSlot first last buf len s) = inTxRing s ++ [buf] := by
    simp only [inTxRing, enqueueSlot_tx, enqueueSlot_cfg]
    rw [show s.cfg.dTx - (s.tx.free - 1) = (s.cfg.dTx - s.tx.free) + 1 by omega, booked_add, booked_one, Nat.mod_mod,
      ← hhead, hbook, if_pos rfl]
    refine congrArg (· ++ [buf]) (booked_congr fun j hj => ?_)
    rw [hbook, if_neg]
    intro he
    have := add_mod_inj (by omega) (by omega) (hhead.symm.trans he)
    omega
  have hsent : transmitted (enqueueSlot first last buf len s) = transmitted s := transmitted_congr (by simp)
  rw [txOrder, hring, hsent, ← List.append_assoc]
  rfl

/-! The Rx ring reports no buffer as transmitted. -/

theorem transmitted_reportRun (bad : Bool) (bufs : List Word) (total : Nat) (s : State) :
    transmitted (reportRun bad bufs total s) = transmitted s := by
  unfold reportRun
  split <;> simp [transmitted]

theorem orderKept_poll {s t : State} {n : Nat} (h : poll s = .ok (t, n)) : OrderKept s t := by
  obtain ⟨hcfg, -, -, htx, -⟩ := poll_frame h
  refine orderKept_of_same (by rw [hcfg]) (by rw [htx]) (by rw [htx]) (by rw [htx]) ?_
  refine pollLoop_keeps (fun u => transmitted u = transmitted s) (fun u _ _ _ hu _ _ _ _ _ v hv => ?_) _ s t 0 n rfl h
  obtain ⟨w, hw, rfl⟩ := finishRun_ok hv
  obtain ⟨-, -, -, -, -, -, -, -, hout, -⟩ := consumeRun_frame hw
  exact (transmitted_reportRun _ _ _ _).trans ((transmitted_congr (by rw [hout])).trans hu)

theorem orderKept_serve {s t : State} {p : BitVec 10} (h : TxInv s) (hs : serve p s = .ok t) : OrderKept s t := by
  have hack : OrderKept s (acknowledge p s) := orderKept_of_same rfl rfl rfl rfl rfl
  have htx : OrderKept s (serveTx p (acknowledge p s)) := by
    unfold serveTx
    split
    · exact hack.trans (orderKept_reclaim (s := acknowledge p s) h)
    · exact hack
  obtain ⟨u, hu, rfl⟩ := serve_ok hs
  have hcount : OrderKept u (countStatistics p u) := orderKept_of_same rfl rfl rfl rfl rfl
  rcases serveRx_ok hu with ⟨-, n, hpoll⟩ | ⟨-, rfl⟩
  · exact (htx.trans (orderKept_poll hpoll)).trans hcount
  · exact htx.trans hcount

/-! Outcomes that keep the order. -/

/-- What an outcome of a transition from `s` must satisfy: a live engine after it has the order of `s`. -/
def KeepsOrder (s : State) (r : Result) : Prop := ∀ t, r = .next t → isLive t.life → OrderKept s t

section
variable {s u : State}

@[simp] theorem keepsOrder_refused (e : Refusal) : KeepsOrder s (.refused e) :=
  fun _ h => by cases h

@[simp] theorem keepsOrder_fault (f : Fault) : KeepsOrder s (.fault f) :=
  fun _ h => by cases h

theorem keepsOrder_next (h : OrderKept s u) : KeepsOrder s (.next u) := fun t ht _ => by
  cases ht
  exact h

theorem orderKept_answer (h : OrderKept s u) (res val : Word) : OrderKept s (u.answer res val) :=
  h.trans (orderKept_of_same (by simp) (by simp) (by simp) (by simp) (transmitted_congr (by simp)))

theorem keepsOrder_answer (res val : Word) : KeepsOrder s (.next (s.answer res val)) :=
  keepsOrder_next (orderKept_answer ⟨rfl, le_rfl⟩ res val)

/-- The common case: the state answered has the books and the notifications of `s`. -/
theorem keepsOrder_same (h : u.cfg = s.cfg ∧ u.tx.book = s.tx.book ∧ u.tx.cursor = s.tx.cursor
    ∧ u.tx.free = s.tx.free ∧ u.out.notify = s.out.notify) : KeepsOrder s (.next u) := by
  obtain ⟨hcfg, hbook, hcursor, hfree, hout⟩ := h
  exact keepsOrder_next (orderKept_of_same (by rw [hcfg]) hbook hcursor hfree (transmitted_congr hout))

/-- A check that refuses, and then `r`. -/
theorem keepsOrder_unless {c : Prop} [Decidable c] {e : Refusal} {r : Result} (h : KeepsOrder s r) :
    KeepsOrder s (if c then .refused e else r) := by
  split
  · simp
  · exact h

theorem keepsOrder_hostOp {legal : Bool} {cell : Life → Cell} {body : Result}
    (h : cell s.life = .run → KeepsOrder s body) : KeepsOrder s (hostOp legal cell s body) := by
  intro t ht hl
  rcases hostOp_next ht with ⟨-, -, hc, hb⟩ | ⟨-, -, -, rfl⟩ | ⟨-, -, -, rfl⟩ | ⟨-, rfl⟩
  · exact h hc t hb hl
  all_goals exact keepsOrder_answer _ _ _ rfl hl

theorem keepsOrder_primitive {inRange pre : Bool} {val : Word} (h : KeepsOrder s (.next u)) :
    KeepsOrder s (primitive s inRange pre u val) := by
  intro t ht hl
  rcases primitive_next ht with ⟨-, -, -, rfl⟩ | ⟨-, rfl⟩
  · exact orderKept_answer (h u rfl (by simpa using hl)) _ _
  · exact keepsOrder_answer _ _ _ rfl hl

theorem keepsOrder_agentStep {enabled : Bool} {body : Result} (h : KeepsOrder s body) :
    KeepsOrder s (agentStep s enabled body) := by
  intro t ht hl
  rcases agentStep_next ht with ⟨-, -, -, hb⟩ | ⟨-, rfl⟩
  · exact h t hb hl
  · exact keepsOrder_answer _ _ _ rfl hl

end

/-! The instructions. -/

section
variable {s : State}

theorem keepsOrder_init (hl : isLive s.life) : KeepsOrder s (execInit s) :=
  keepsOrder_hostOp fun hc => by rcases hl with h | h | h <;> simp [h, colInit] at hc

/-- DEINIT, when it ends at once, leaves no live engine. -/
theorem keepsOrder_deinit : KeepsOrder s (execDeinit s) := by
  refine keepsOrder_hostOp fun _ => ?_
  dsimp only
  split
  · intro t ht hl
    cases ht
    simp [finishDeinit] at hl
  · exact keepsOrder_same (by simp)

theorem keepsOrder_enable (sp du : BitVec 2) : KeepsOrder s (execEnable sp du s) := by
  refine keepsOrder_hostOp fun _ => ?_
  split
  · exact keepsOrder_answer _ _
  · split_ifs
    · simp
    · simp
    · exact keepsOrder_same (by simp)

theorem keepsOrder_disable : KeepsOrder s (execDisable s) := by
  refine keepsOrder_hostOp fun _ => ?_
  dsimp only
  split <;> exact keepsOrder_same (by simp)

theorem keepsOrder_rxPrime (buf : Word) : KeepsOrder s (execRxPrime buf s) := by
  refine keepsOrder_hostOp fun _ => ?_
  split_ifs
  iterate 3 · simp
  · exact keepsOrder_same (by simp)

theorem keepsOrder_rxPoll : KeepsOrder s (execRxPoll s) := by
  refine keepsOrder_hostOp fun _ => ?_
  split
  · exact keepsOrder_next (orderKept_answer (orderKept_poll ‹_›) _ _)
  · simp

theorem keepsOrder_addMcast (addr : Mac) : KeepsOrder s (execAddMcast addr s) := by
  refine keepsOrder_hostOp fun _ => ?_
  split
  · exact keepsOrder_answer _ _
  · exact keepsOrder_same (by simp)

theorem keepsOrder_isrDispatch (h : TxInv s) (line : Bool) : KeepsOrder s (execIsrDispatch line s) := by
  have hfatal : ∀ k, KeepsOrder s (.next (raiseFatal k s)) := fun k =>
    keepsOrder_next (orderKept_of_same rfl rfl rfl rfl (by simp [transmitted]))
  refine keepsOrder_hostOp fun _ => ?_
  dsimp only
  split_ifs
  · simp
  · exact keepsOrder_answer _ _
  · exact hfatal _
  · exact hfatal _
  · split
    · exact keepsOrder_next (orderKept_answer (orderKept_serve h ‹_›) _ _)
    · simp

theorem keepsOrder_rxdmaWrite : KeepsOrder s (execRxdmaWrite s) := by
  refine keepsOrder_agentStep (keepsOrder_unless ?_)
  split
  · exact keepsOrder_same (by simp)
  · simp

theorem clearMcastSlots_out (n : Nat) (s : State) : (clearMcastSlots n s).out = s.out := by
  rw [clearMcastSlots_frame]

theorem endTransaction_notify (s : State) : (endTransaction s).out.notify = s.out.notify := by
  unfold endTransaction
  dsimp only
  split <;> simp

/-- Every instruction but TX_ENQUEUE keeps the order of a live engine. -/
theorem keepsOrder_exec (h : TxInv s) (hl : isLive s.life) {i : Instr}
    (hi : ∀ first last buf len, i ≠ .txEnqueue first last buf len) : KeepsOrder s (exec i s) := by
  cases i with
  | init => exact keepsOrder_init hl
  | deinit => exact keepsOrder_deinit
  | enable sp du => exact keepsOrder_enable sp du
  | disable => exact keepsOrder_disable
  | txEnqueue first last buf len => exact absurd rfl (hi first last buf len)
  | txReclaim => exact keepsOrder_hostOp fun _ => keepsOrder_next (orderKept_answer (orderKept_reclaim h) _ _)
  | rxPrime buf => exact keepsOrder_rxPrime buf
  | rxPoll => exact keepsOrder_rxPoll
  | addMcast addr => exact keepsOrder_addMcast addr
  | setOwnAddr | mdioRead | mdioWrite => exact keepsOrder_hostOp fun _ => keepsOrder_unless (keepsOrder_same (by simp))
  | clearMcast => exact keepsOrder_hostOp fun _ => keepsOrder_same (by simp [clearMcastSlots_out])
  | setPam | setPromisc => exact keepsOrder_hostOp fun _ => keepsOrder_same (by simp)
  | isrDispatch line => exact keepsOrder_isrDispatch h line
  | startDma ring | stopDma ring => cases ring <;> exact keepsOrder_primitive (keepsOrder_same (by simp))
  | setLinkConfig en sp du => exact keepsOrder_primitive (by split <;> exact keepsOrder_same (by simp))
  | isSlotOwnedByDma | writeTxDesc | writeRxDesc | isFirstFragment | isLastFragment | isErrorFragment
  | totalFrameLength | isBufferDmaReadable | writeUnicastAddr | writeMcastAddr | mdioTransaction | writeFilterFlags =>
    exact keepsOrder_primitive (keepsOrder_same (by simp))
  | txdmaComplete =>
    exact keepsOrder_agentStep (keepsOrder_unless (keepsOrder_same ⟨rfl, rfl, rfl, rfl, rfl⟩))
  | rxFrameArrive => exact keepsOrder_agentStep (keepsOrder_unless (keepsOrder_same (by simp)))
  | rxdmaWrite => exact keepsOrder_rxdmaWrite
  | mdioDone => exact keepsOrder_agentStep (keepsOrder_same (by simp [endTransaction_notify]))
  | txdmaFetch | txdmaSuspend | txdmaBusError | rxdmaSuspend | rxdmaBusError | statusEvent =>
    exact keepsOrder_agentStep (keepsOrder_same (by simp))

end

/-! The step. -/

/-- The order at the start of a transition is the order before the step. -/
theorem orderKept_latch (s : State) (p : Issuer) (w : OpTuple) : OrderKept s (s.dropInput.latch p w) :=
  orderKept_of_same (by simp) (by simp) (by simp) (by simp) (transmitted_congr (by simp))

/-- With no fewer free slots nothing was queued. -/
theorem newlyQueued_of_free_le {s t : State} (h : s.tx.free ≤ t.tx.free) : newlyQueued s t = [] := by
  unfold newlyQueued
  split
  · exact if_neg (by omega)
  · rfl

theorem inOrder_of_orderKept {s t : State} (h : OrderKept s t) : txOrder t = txOrder s ++ newlyQueued s t := by
  rw [newlyQueued_of_free_le h.2, List.append_nil, h.1]

theorem runsNext_present {s : State} {p : Issuer} {w : OpTuple} {rest : List Stim} {i : Instr}
    (hin : s.env.inputs = .present p w :: rest) (hh : isHeld (s.port p) = false) (hd : decode w = some i) :
    runsNext s = some i := by
  simp [runsNext, fetch, hin, fetchStim, present, port_dropInput, hh, hd]

/-- TX_ENQUEUE answers with nothing queued, or queues its buffer. -/
theorem execTxEnqueue_next {first last : Bool} {buf : Word} {len : Half} {s t : State}
    (h : execTxEnqueue first last buf len s = .next t) :
    OrderKept s t ∨ s.tx.free ≠ 0 ∧ t = (enqueueSlot first last buf len s).answer rcOk 0#32 := by
  have hanswer : ∀ res val, OrderKept s (s.answer res val) := orderKept_answer ⟨rfl, le_rfl⟩
  rcases hostOp_next h with ⟨-, -, -, hb⟩ | ⟨-, -, -, rfl⟩ | ⟨-, -, -, rfl⟩ | ⟨-, rfl⟩
  · split_ifs at hb with _ _ _ _ hfree <;> cases hb
    · exact .inl (hanswer _ _)
    · exact .inr ⟨hfree, rfl⟩
  all_goals exact .inl (hanswer _ _)

theorem inOrder_enqueue {s t : State} {p : Issuer} {w : OpTuple} {first last : Bool} {buf : Word} {len : Half}
    (h : TxInv (s.dropInput.latch p w)) (hnext : runsNext s = some (.txEnqueue first last buf len))
    (ht : execTxEnqueue first last buf len (s.dropInput.latch p w) = .next t) :
    txOrder t = txOrder s ++ newlyQueued s t := by
  have hlatch := orderKept_latch s p w
  rcases execTxEnqueue_next ht with hkept | ⟨hfree, rfl⟩
  · exact inOrder_of_orderKept (hlatch.trans hkept)
  · have hqueued :
        newlyQueued s ((enqueueSlot first last buf len (s.dropInput.latch p w)).answer rcOk 0#32) = [buf] := by
      rw [latch_tx, dropInput_tx] at hfree
      simp only [newlyQueued, hnext]
      exact if_pos (by simp; omega)
    rw [hqueued, (orderKept_answer ⟨rfl, le_rfl⟩ _ _).1, txOrder_enqueueSlot h _ _ _ _ hfree, hlatch.1]

/-- The end of a hold: DISABLE's and an MDIO operation's keep the order, DEINIT's leaves no live engine. -/
theorem keepsOrder_completeHeld (p : Issuer) (s : State) : KeepsOrder s (completeHeld p s) := by
  intro t ht hl
  obtain ⟨k, -, -, hf⟩ := completeHeld_next ht
  rcases finishHeld_some hf with ⟨-, -, rfl⟩ | ⟨-, -, rfl⟩ | ⟨ret, -, rfl⟩
  · exact keepsOrder_same (by simp) _ rfl hl
  · simp [finishDeinit] at hl
  · exact keepsOrder_same (by simp) _ rfl hl

theorem txInv_latch {s : State} (p : Issuer) (w : OpTuple) (h : TxGood s) : TxInv (s.dropInput.latch p w) :=
  (txGood_congr h (by simp) (by simp)).1

/-- Settles O19: by what the step does; of the instructions only TX_ENQUEUE adds to the order. -/
theorem transmittedInOrder : Obligations.TransmittedInOrder := by
  intro s t hsafe hl hstep ht
  have hgood : TxGood s := hsafe.2 (isLive_ne_uninitialized hl)
  have hsame : ∀ r, KeepsOrder s.dropInput r → r = .next t → txOrder t = txOrder s ++ newlyQueued s t :=
    fun r hr hrt => inOrder_of_orderKept (hr t hrt ht)
  show txOrder t = txOrder s ++ newlyQueued s t
  rcases step_next hstep with ⟨-, rfl⟩ | ⟨x, rest, hin, ⟨p, w, i, rfl, hh, hd, he⟩ | ⟨p, w, -, -, -, hi⟩ | ⟨p, -, hc⟩
    | ⟨p, n, -, hr⟩ | ⟨p, a, -, hr⟩ | ⟨p, a, -, hr⟩ | ⟨p, a, v, -, hs⟩ | ⟨-, rfl⟩⟩
  · exact inOrder_of_orderKept ⟨rfl, le_rfl⟩
  · have hinv := txInv_latch p w hgood
    by_cases henq : ∃ first last buf len, i = .txEnqueue first last buf len
    · obtain ⟨first, last, buf, len, rfl⟩ := henq
      exact inOrder_enqueue hinv (runsNext_present hin hh hd) he
    · have hkept := keepsOrder_exec hinv (by simpa using hl) (fun _ _ _ _ e => henq ⟨_, _, _, _, e⟩) t he ht
      exact inOrder_of_orderKept ((orderKept_latch s p w).trans hkept)
  · obtain ⟨rfl, -, -⟩ := illegal_next hi
    exact inOrder_of_orderKept ((orderKept_latch s p w).trans (orderKept_answer ⟨rfl, le_rfl⟩ _ _))
  · exact hsame _ (keepsOrder_completeHeld p _) hc
  iterate 3 exact hsame _ (keepsOrder_same (by simp)) hr
  · rw [hostStore_next hs]
    exact inOrder_of_orderKept ⟨rfl, le_rfl⟩
  · exact absurd rfl (isLive_ne_uninitialized ht)

end Sys2Proof.Machine

/-! RX_PRIME (41_rx_ring.md R151, R152; O20). -/
namespace Sys2Proof.Machine

theorem primeSlot_frame (b : Word) (s : State) : primeSlot b s = { s with rx := (primeSlot b s).rx } := by
  unfold primeSlot
  dsimp only
  split <;> rfl

/-- In a live engine the operations of the Rx ring run their own lines. -/
theorem hostOp_rxRing {s : State} {p : Issuer} (hr : Runs s p) (hport : rxRingPorts s.cfg p = true) (hl : isLive s.life)
    (body : Result) : hostOp (rxRingPorts s.cfg s.env.issuer) colLive s body = body :=
  hostOp_run body (by rwa [hr.1]) hr.2 (colLive_of_isLive hl)

/-- Settles O20: the checks in their order, then the prime procedure. -/
theorem rxPrimeCompletes : Obligations.RxPrimeCompletes := by
  intro s p buf hr hport hl
  have hrun : exec (.rxPrime buf) s = _ := hostOp_rxRing hr hport hl _
  simp only [List.contains_eq_mem, decide_eq_true_eq] at hrun
  rw [hrun]
  refine ⟨fun hu hb hm => ?_, fun hu => ?_, fun hu hb => ?_, fun hu hb hm => ?_⟩
  · rw [if_neg hu.ne', if_neg hb, if_neg (by simp [hm]), answer_eq _ _ (by rw [primeSlot_env, hr.1]), primeSlot_frame,
      primeSlot_rx]
    rfl
  · rw [if_pos hu]
  · rw [if_neg hu.ne', if_pos hb]
  · rw [if_neg hu.ne', if_neg hb, if_pos hm]

end Sys2Proof.Machine

/-! What `Poll()` looks at (41_rx_ring.md R153, R154; O23). The ring invariant says which slots from the cursor on are
filled and which are armed; with the flags of the filled ones that decides what the search for the end of a run finds. -/
namespace Sys2Proof.Machine

theorem scanRun_last {s : State} {j : Nat} (hl : isLast s .rx j = true) (fuel count : Nat) :
    scanRun s fuel j count = .complete count := by
  cases fuel <;> simp [scanRun, hl]

section
variable {s : State} {n : Nat} (hn : RxShape s n)
include hn

theorem rxIsFilled_from_cursor {j : Nat} (hj : j < n) : rxIsFilled s ((s.rx.cursor + j) % s.cfg.dRx) := by
  obtain ⟨-, -, hr, hcur, -, -⟩ := (rxShape_iff s n).1 hn
  rw [hcur, Nat.mod_add_mod, Nat.add_assoc]
  exact hr.second _ (by omega) (by omega)

theorem rxIsArmed_from_cursor {j : Nat} (hj : n ≤ j) (hd : s.rx.unprimed + j < s.cfg.dRx) :
    rxIsArmed s ((s.rx.cursor + j) % s.cfg.dRx) := by
  obtain ⟨-, -, hr, hcur, -, -⟩ := (rxShape_iff s n).1 hn
  rw [hcur, Nat.mod_add_mod, Nat.add_assoc]
  exact hr.third _ (by omega) hd

theorem not_owned_from_cursor {j : Nat} (hj : j < n) :
    ownedByDma s .rx ((s.rx.cursor + j) % s.cfg.dRx) = false := by
  simp [ownedByDma, State.slot, (rxIsFilled_from_cursor hn hj).1]

theorem owned_from_cursor {j : Nat} (hj : n ≤ j) (hd : s.rx.unprimed + j < s.cfg.dRx) :
    ownedByDma s .rx ((s.rx.cursor + j) % s.cfg.dRx) = true := by
  simp [ownedByDma, State.slot, (rxIsArmed_from_cursor hn hj hd).1]

theorem cursor_mod : s.rx.cursor % s.cfg.dRx = s.rx.cursor := Nat.mod_eq_of_lt (rx_cursor_lt hn)

theorem filled_le_depth : s.rx.unprimed + n ≤ s.cfg.dRx := by
  obtain ⟨-, -, hr, -⟩ := (rxShape_iff s n).1 hn
  exact hr.le_depth

/-- The search passes the filled slots that neither end the run nor begin another. -/
theorem scanRun_passes {m : Nat} (hm : m < n) (hfirst : ∀ j, j ≤ m → (rxRunSlot s j).first = (j == 0))
    (hlast : ∀ j, j < m → (rxRunSlot s j).last = false) (fuel : Nat) :
    scanRun s (fuel + m) s.rx.cursor 1 = scanRun s fuel ((s.rx.cursor + m) % s.cfg.dRx) (m + 1) := by
  induction m generalizing fuel with
  | zero => simp [cursor_mod hn]
  | succ m ih =>
    have hl : isLast s .rx ((s.rx.cursor + m) % s.cfg.dRx) = false := hlast m (by omega)
    have hf : isFirst s .rx ((s.rx.cursor + (m + 1)) % s.cfg.dRx) = false := hfirst (m + 1) le_rfl
    rw [← Nat.add_assoc, Nat.add_right_comm,
      ih (by omega) (fun j hj => hfirst j (by omega)) (fun j hj => hlast j (by omega)), scanRun]
    simp [hl, hf, nextIdx_add_mod, not_owned_from_cursor hn hm]

/-- The search of a poll gets as far as slot `m`, and there has the slots left that are neither unprimed nor passed. -/
theorem scanRun_reaches {m : Nat} (hm : m < n) (hfirst : ∀ j, j ≤ m → (rxRunSlot s j).first = (j == 0))
    (hlast : ∀ j, j < m → (rxRunSlot s j).last = false) :
    scanRun s (s.cfg.dRx - s.rx.unprimed - 1) s.rx.cursor 1
      = scanRun s (s.cfg.dRx - s.rx.unprimed - 1 - m) ((s.rx.cursor + m) % s.cfg.dRx) (m + 1) := by
  have hd := filled_le_depth hn
  rw [← scanRun_passes hn hm hfirst hlast, Nat.sub_add_cancel (by omega)]

theorem scanRun_oneRun {k : Nat} (hk : k ≤ n) (hrun : OneRun s k) :
    scanRun s (s.cfg.dRx - s.rx.unprimed - 1) s.rx.cursor 1 = .complete k := by
  obtain ⟨h1, hflags⟩ := hrun
  obtain ⟨k, rfl⟩ : ∃ m, k = m + 1 := ⟨k - 1, by omega⟩
  have hl : isLast s .rx ((s.rx.cursor + k) % s.cfg.dRx) = true := (hflags k (by omega)).2.trans (by simp)
  rw [scanRun_reaches hn (m := k) (by omega) (fun j hj => (hflags j (by omega)).1)
    (fun j hj => (hflags j (by omega)).2.trans (by simp [hj.ne])), scanRun_last hl]

/-- A run that has begun and has no last slot yet. -/
theorem scanRun_incomplete (h1 : 0 < n)
    (hflags : ∀ j, j < n → (rxRunSlot s j).first = (j == 0) ∧ (rxRunSlot s j).last = false) :
    scanRun s (s.cfg.dRx - s.rx.unprimed - 1) s.rx.cursor 1 = .incomplete := by
  obtain ⟨m, rfl⟩ : ∃ m, n = m + 1 := ⟨n - 1, by omega⟩
  have hl : isLast s .rx ((s.rx.cursor + m) % s.cfg.dRx) = false := (hflags m (by omega)).2
  rw [scanRun_reaches hn (m := m) (by omega) (fun j hj => (hflags j (by omega)).1)
    (fun j hj => (hflags j (by omega)).2)]
  cases hfuel : s.cfg.dRx - s.rx.unprimed - 1 - m with
  | zero => simp [scanRun, hl]
  | succ fuel => simp [scanRun, hl, nextIdx_add_mod, owned_from_cursor hn (j := m + 1) le_rfl (by omega)]

/-- A second first slot before a last one. -/
theorem scanRun_desync {m : Nat} (h1 : 0 < m) (hm : m < n)
    (hflags : ∀ j, j < m → (rxRunSlot s j).first = (j == 0) ∧ (rxRunSlot s j).last = false)
    (hagain : (rxRunSlot s m).first = true) :
    scanRun s (s.cfg.dRx - s.rx.unprimed - 1) s.rx.cursor 1 = .desync := by
  obtain ⟨m, rfl⟩ : ∃ j, m = j + 1 := ⟨m - 1, by omega⟩
  have hd := filled_le_depth hn
  have hl : isLast s .rx ((s.rx.cursor + m) % s.cfg.dRx) = false := (hflags m (by omega)).2
  have hf : isFirst s .rx ((s.rx.cursor + (m + 1)) % s.cfg.dRx) = true := hagain
  obtain ⟨fuel, hfuel⟩ : ∃ fuel, s.cfg.dRx - s.rx.unprimed - 1 - m = fuel + 1 :=
    ⟨s.cfg.dRx - s.rx.unprimed - 2 - m, by omega⟩
  rw [scanRun_reaches hn (m := m) (by omega) (fun j hj => (hflags j (by omega)).1)
    (fun j hj => (hflags j (by omega)).2), hfuel, scanRun]
  simp [hl, hf, nextIdx_add_mod, not_owned_from_cursor hn hm]

/-! One turn of the poll. -/

/-- With a filled slot at the cursor the poll goes past its first two checks. -/
theorem cursor_filled (h1 : 0 < n) : s.rx.unprimed ≠ s.cfg.dRx ∧ ownedByDma s .rx s.rx.cursor = false := by
  have hd := filled_le_depth hn
  exact ⟨by omega, by simpa [cursor_mod hn] using not_owned_from_cursor hn h1⟩

end

section
variable {s : State}

theorem isFirst_cursor {n : Nat} (hn : RxShape s n) : isFirst s .rx s.rx.cursor = (rxRunSlot s 0).first := by
  simp [isFirst, State.slot, rxRunSlot, cursor_mod hn]

theorem pollLoop_empty (hn : RxShape s 0) (fuel count : Nat) : pollLoop (fuel + 1) s count = .ok (s, count) := by
  unfold pollLoop
  by_cases hu : s.rx.unprimed = s.cfg.dRx
  · simp [hu]
  · have hd := filled_le_depth hn
    have hown : ownedByDma s .rx s.rx.cursor = true := by
      simpa [cursor_mod hn] using owned_from_cursor hn (j := 0) le_rfl (by omega)
    simp [hown]

theorem pollLoop_not_first {n : Nat} (hn : RxShape s n) (h1 : 0 < n) (hf : (rxRunSlot s 0).first = false)
    (fuel count : Nat) : pollLoop (fuel + 1) s count = .error .ringDesync := by
  obtain ⟨hu, hown⟩ := cursor_filled hn h1
  simp [pollLoop, hu, hown, isFirst_cursor hn, hf]

theorem pollLoop_incomplete {n : Nat} (hn : RxShape s n) (h1 : 0 < n)
    (hflags : ∀ j, j < n → (rxRunSlot s j).first = (j == 0) ∧ (rxRunSlot s j).last = false) (fuel count : Nat) :
    pollLoop (fuel + 1) s count = .ok (s, count) := by
  obtain ⟨hu, hown⟩ := cursor_filled hn h1
  simp [pollLoop, hu, hown, isFirst_cursor hn, (hflags 0 h1).1, scanRun_incomplete hn h1 hflags]

theorem pollLoop_desync {n m : Nat} (hn : RxShape s n) (h1 : 0 < m) (hm : m < n)
    (hflags : ∀ j, j < m → (rxRunSlot s j).first = (j == 0) ∧ (rxRunSlot s j).last = false)
    (hagain : (rxRunSlot s m).first = true) (fuel count : Nat) :
    pollLoop (fuel + 1) s count = .error .ringDesync := by
  obtain ⟨hu, hown⟩ := cursor_filled hn (by omega)
  simp [pollLoop, hu, hown, isFirst_cursor hn, (hflags 0 h1).1, scanRun_desync hn h1 hm hflags hagain]

end

/-! RX_POLL by what the poll finds. -/

section
variable {s : State} {p : Issuer} (hr : Runs s p) (hport : rxRingPorts s.cfg p = true) (hl : isLive s.life)
include hr hport hl

theorem rxPoll_ok {t : State} {count : Nat} (h : poll s = .ok (t, count)) :
    exec .rxPoll s = .next (t.answeredOn p 0#32 (BitVec.ofNat 32 count)) := by
  refine (hostOp_rxRing hr hport hl _).trans ?_
  rw [h]
  exact congrArg _ (answer_eq _ _ ((poll_issuer h).trans hr.1))

theorem rxPoll_error {e : Refusal} (h : poll s = .error e) : exec .rxPoll s = .refused e := by
  refine (hostOp_rxRing hr hport hl _).trans ?_
  rw [h]

end

/-- Settles O23: the poll's first turn ends it. -/
theorem rxPollLeavesIncomplete : Obligations.RxPollLeavesIncomplete := by
  intro s p k hr hport hl hk
  refine ⟨fun hflags => rxPoll_ok hr hport hl ?_,
    fun h1 hf => rxPoll_error hr hport hl (pollLoop_not_first hk h1 hf _ _),
    fun m h1 hm hflags hagain => rxPoll_error hr hport hl (pollLoop_desync hk h1 hm hflags hagain _ _)⟩
  cases k with
  | zero => exact pollLoop_empty hk _ _
  | succ k => exact pollLoop_incomplete hk k.succ_pos hflags _ _

end Sys2Proof.Machine

/-! Consuming a run (41_rx_ring.md R153, R155, R156; O21, O22). Each turn takes the slot at the cursor out of the ring
and primes a buffer, if it was given one: `takeRun` is the ring after the turns, and what RX_POLL does with a complete
run is `takeRun` with the answers of the pool, or with the run's own buffers. -/
namespace Sys2Proof.Machine

/-- The slot at the cursor is consumed, and the buffer given, if any, primed. -/
def takeSlot (s : State) : Option Word → State
  | none => consumeSlot s.rx.cursor s
  | some b => primeSlot b (consumeSlot s.rx.cursor s)

/-- As many slots consumed as `given` is long, from the cursor on, each with what it was given. -/
def takeRun (s : State) (given : List (Option Word)) : State := given.foldl takeSlot s

theorem takeRun_cons (s : State) (o : Option Word) (given : List (Option Word)) :
    takeRun s (o :: given) = takeRun (takeSlot s o) given := rfl

@[simp] theorem takeSlot_cfg (s : State) (o : Option Word) : (takeSlot s o).cfg = s.cfg := by
  cases o <;> simp [takeSlot]

@[simp] theorem takeSlot_tx (s : State) (o : Option Word) : (takeSlot s o).tx = s.tx := by
  cases o <;> simp [takeSlot]

@[simp] theorem takeSlot_cursor (s : State) (o : Option Word) :
    (takeSlot s o).rx.cursor = nextIdx s.cfg.dRx s.rx.cursor := by
  cases o <;> simp [takeSlot]

theorem takeSlot_frame (s : State) (o : Option Word) : takeSlot s o = { s with rx := (takeSlot s o).rx } := by
  cases o with
  | none => rfl
  | some b => exact primeSlot_frame _ _

theorem takeRun_frame (s : State) (given : List (Option Word)) :
    takeRun s given = { s with rx := (takeRun s given).rx } := by
  induction given generalizing s with
  | nil => rfl
  | cons o given ih =>
    rw [takeRun_cons, ih, takeSlot_frame]

/-- No turn reads the environment. -/
theorem takeSlot_withEnv (s : State) (e : Env) (o : Option Word) :
    takeSlot { s with env := e } o = { takeSlot s o with env := e } := by
  have hrx : (takeSlot { s with env := e } o).rx = (takeSlot s o).rx := by
    cases o with
    | none => rfl
    | some b =>
      simp only [takeSlot, primeSlot_rx]
      rfl
  rw [takeSlot_frame, hrx, takeSlot_frame s]

theorem takeRun_withEnv (s : State) (e : Env) (given : List (Option Word)) :
    takeRun { s with env := e } given = { takeRun s given with env := e } := by
  induction given generalizing s with
  | nil => rfl
  | cons o given ih => rw [takeRun_cons, takeSlot_withEnv, ih, takeRun_cons]

/-! The ring invariant. -/

theorem rxShape_takeSlot {s : State} {n : Nat} (hn : RxShape s (n + 1)) (o : Option Word) :
    RxShape (takeSlot s o) n := by
  cases o with
  | none => exact rxShape_consumeSlot hn
  | some b => exact rxShape_primeSlot (rxShape_consumeSlot hn) b (Nat.succ_ne_zero _)

theorem rxShape_takeRun {s : State} {n : Nat} (hn : RxShape s n) {given : List (Option Word)}
    (hlen : given.length ≤ n) : RxShape (takeRun s given) (n - given.length) := by
  induction given generalizing s n with
  | nil => exact hn
  | cons o given ih =>
    obtain ⟨n, rfl⟩ : ∃ m, n = m + 1 := ⟨n - 1, by simp at hlen; omega⟩
    simpa [takeRun_cons] using ih (rxShape_takeSlot hn o) (by simpa using hlen)

/-! The slots and the book, written out: `RunTaken` through the two halves of a turn. -/

theorem mem_ringSlots_succ {d a m i : Nat} :
    i ∈ ringSlots d a (m + 1) ↔ i ∈ ringSlots d a m ∨ i = (a + m) % d := by
  simp [ringSlots, List.range_succ]

section
variable {s u : State} {n m : Nat} {bufs : List Word} (hn : RxShape s n) (hcfg : u.cfg = s.cfg)
  (h : RunTaken s u m bufs)
include hn

theorem runTaken_refl : RunTaken s s 0 [] := by
  have ⟨hs, hb, _, hp, _⟩ := hn
  refine ⟨?_, hs, hb, by simp, fun i _ _ => ⟨rfl, by simp [ringSlots]⟩⟩
  simp [cursor_mod hn, Nat.mod_eq_of_lt hp]

theorem cursor_add_mod (j : Nat) :
    (s.rx.cursor + j) % s.cfg.dRx = (s.rx.prime + (s.rx.unprimed + j)) % s.cfg.dRx := by
  obtain ⟨-, -, -, hcur, -⟩ := (rxShape_iff s n).1 hn
  rw [hcur, Nat.mod_add_mod, Nat.add_assoc]

include hcfg h

/-- The next filled slot is consumed: it is none of those that were handed a buffer. -/
theorem runTaken_consume (hm : m < n) (hlen : bufs.length ≤ m) :
    RunTaken s (consumeSlot u.rx.cursor u) (m + 1) bufs := by
  obtain ⟨hrx, hs, hb, hgiven, hkept⟩ := h
  have hd := filled_le_depth hn
  have hcur : u.rx.cursor = (s.rx.cursor + m) % s.cfg.dRx := by rw [hrx]
  have htok : ∀ i, (consumeSlot u.rx.cursor u).rxTok i = if u.rx.cursor = i then none else u.rxTok i :=
    rxTok_of_set rfl (by rw [hb, hcur]; exact Nat.mod_lt _ (by omega))
  have hslot : ∀ i, (consumeSlot u.rx.cursor u).rxSlot i = u.rxSlot i := fun i => rfl
  refine ⟨?_, hs, by simp [hb], fun j b hj => ?_, fun i hi hne => ?_⟩
  · rw [consumeSlot_rx, hcur, hcfg, nextIdx_add_mod, hrx]
    simp only [RxRing.mk.injEq, true_and, and_true]
    omega
  · obtain ⟨hjlt, -⟩ := List.getElem?_eq_some_iff.1 hj
    have hother : u.rx.cursor ≠ (s.rx.prime + j) % s.cfg.dRx := fun e => by
      rw [hcur, cursor_add_mod hn] at e
      have := add_mod_inj (by omega) (by omega) e
      omega
    rw [hslot, htok, if_neg hother]
    exact hgiven j b hj
  · obtain ⟨hks, hkt⟩ := hkept i hi hne
    refine ⟨hks, ?_⟩
    rw [htok, hkt, hcur]
    by_cases hcase : (s.rx.cursor + m) % s.cfg.dRx = i
    · rw [if_pos hcase, if_pos (mem_ringSlots_succ.2 (.inr hcase.symm))]
    · simp only [hcase, Ne.symm hcase, mem_ringSlots_succ, if_false, or_false]

/-- The oldest unprimed slot is handed a buffer. -/
theorem runTaken_prime (hm : m ≤ n) (hlen : bufs.length < s.rx.unprimed + m) (b : Word) :
    RunTaken s (primeSlot b u) m (bufs ++ [b]) := by
  obtain ⟨hrx, hs, hb, hgiven, hkept⟩ := h
  have hd := filled_le_depth hn
  have hprime : u.rx.prime = (s.rx.prime + bufs.length) % s.cfg.dRx := by rw [hrx]
  have hlt : u.rx.prime < s.cfg.dRx := hprime ▸ Nat.mod_lt _ (by omega)
  have hslot : ∀ i, (primeSlot b u).rxSlot i
      = if u.rx.prime = i then ⟨.dma, b, 0#16, false, false, false⟩ else u.rxSlot i :=
    rxSlot_of_set (by simp) (hs ▸ hlt)
  have htok : ∀ i, (primeSlot b u).rxTok i = if u.rx.prime = i then some b else u.rxTok i :=
    rxTok_of_set (by simp) (hb ▸ hlt)
  refine ⟨?_, by simp [hs], by simp [hb], fun j b' hj => ?_, fun i hi hne => ?_⟩
  · rw [primeSlot_rx, hprime, hcfg, nextIdx_add_mod, hrx]
    simp only [RxRing.mk.injEq, true_and, and_true, List.length_append, List.length_singleton]
    refine ⟨by omega, ?_⟩
    by_cases hidle : s.rx.dma = .idle <;> by_cases hnil : bufs = [] <;> simp [hidle, hnil]
  · by_cases hjl : j = bufs.length
    · subst hjl
      obtain rfl : b = b' := by simpa using hj
      rw [hslot, htok, hprime, if_pos rfl, if_pos rfl]
      exact ⟨rfl, rfl⟩
    · obtain ⟨hjlt, -⟩ := List.getElem?_eq_some_iff.1 hj
      have hjb : j < bufs.length := by simp at hjlt; omega
      have hother : u.rx.prime ≠ (s.rx.prime + j) % s.cfg.dRx := fun e => by
        rw [hprime] at e
        exact hjl (add_mod_inj (by omega) (by omega) e).symm
      rw [hslot, htok, if_neg hother, if_neg hother]
      exact hgiven j b' (by rwa [List.getElem?_append_left hjb] at hj)
  · have hother : u.rx.prime ≠ i := fun e => hne bufs.length (by simp) (e ▸ hprime)
    rw [hslot, htok, if_neg hother, if_neg hother]
    exact hkept i hi fun j hj => hne j (by simp; omega)

/-- One turn. -/
theorem runTaken_takeSlot (hm : m < n) (hlen : bufs.length ≤ m) (o : Option Word) :
    RunTaken s (takeSlot u o) (m + 1) (bufs ++ o.toList) := by
  have hconsumed := runTaken_consume hn hcfg h hm hlen
  cases o with
  | none => simpa [takeSlot] using hconsumed
  | some b => exact runTaken_prime hn (by simpa using hcfg) hconsumed hm (by omega) b

theorem runTaken_takeRun_from {given : List (Option Word)} (hm : m + given.length ≤ n) (hlen : bufs.length ≤ m) :
    RunTaken s (takeRun u given) (m + given.length) (bufs ++ given.filterMap id) := by
  induction given generalizing u m bufs with
  | nil => simpa [takeRun] using h
  | cons o given ih =>
    simp only [List.length_cons] at hm
    have hturn := runTaken_takeSlot hn hcfg h (by omega) hlen o
    have hlen' : (bufs ++ o.toList).length ≤ m + 1 := by cases o <;> simp <;> omega
    have hrest := ih (by simpa using hcfg) hturn (by omega) hlen'
    have hlist : bufs ++ (o :: given).filterMap id = bufs ++ o.toList ++ given.filterMap id := by cases o <;> simp
    rw [takeRun_cons, hlist, List.length_cons, Nat.add_comm given.length, ← Nat.add_assoc]
    exact hrest

end

theorem runTaken_takeRun {s : State} {n : Nat} (hn : RxShape s n) {given : List (Option Word)}
    (hlen : given.length ≤ n) : RunTaken s (takeRun s given) given.length (given.filterMap id) := by
  simpa using runTaken_takeRun_from hn rfl (runTaken_refl hn) (given := given) (by omega) le_rfl


/-! `consumeRun` as `takeRun`. -/

theorem consumeRun_bad {s : State} {n k : Nat} (hn : RxShape s n) (hk : k ≤ n) {bufs : List Word}
    (hlen : bufs.length = k) :
    consumeRun true ((ringSlots s.cfg.dRx s.rx.cursor k).zip bufs) s = .ok (takeRun s (bufs.map some)) := by
  subst hlen
  induction bufs generalizing s n with
  | nil => rfl
  | cons b bufs ih =>
    obtain ⟨n, rfl⟩ : ∃ m, n = m + 1 := ⟨n - 1, by simp at hk; omega⟩
    have hrest := ih (rxShape_takeSlot hn (some b)) (by simpa using hk)
    rw [takeSlot_cfg, takeSlot_cursor] at hrest
    rw [List.length_cons, ringSlots_succ, cursor_mod hn, List.zip_cons_cons, List.map_cons, takeRun_cons]
    exact hrest

/-- The pool's next answer, when it is attached to no slot. -/
theorem drawAlloc_of_alloc {s : State} {o : Option Word} {rest : List (Option Word)} (halloc : s.env.alloc = o :: rest)
    (hfree : ∀ b, o = some b → attachedIn s b = false) :
    drawAlloc s = (o, { s with env := { s.env with alloc := rest } }) := by
  simp only [drawAlloc, drawAllocRaw, halloc]
  cases o with
  | none => rfl
  | some b => simp [unlessAttached, hfree b rfl]

/-- A turn of a run without error, with the pool's answer at the head of `env.alloc`. -/
theorem consumeRun_draw {s : State} {o : Option Word} {rest : List (Option Word)} (halloc : s.env.alloc = o :: rest)
    (hfresh : ∀ b, o = some b → some b ∉ s.rx.book ∧ some b ∉ s.tx.book
      ∧ meetsDescriptors s.cfg b s.cfg.rxBufSize = false) (p : Word) (run : List (Nat × Word)) :
    consumeRun false ((s.rx.cursor, p) :: run) s
      = consumeRun false run { takeSlot s o with env := { s.env with alloc := rest } } := by
  have hfree : ∀ b, o = some b → attachedIn (consumeSlot s.rx.cursor s) b = false := fun b hb => by
    obtain ⟨hrx, htx, -⟩ := hfresh b hb
    have hbook : some b ∉ s.rx.book.set s.rx.cursor none := fun hm => (List.mem_or_eq_of_mem_set hm).elim hrx nofun
    simp [attachedIn, hbook, htx]
  rw [← takeSlot_withEnv, consumeRun, if_neg Bool.false_ne_true,
    drawAlloc_of_alloc (s := consumeSlot s.rx.cursor s) halloc hfree]
  cases o with
  | none => rfl
  | some b =>
    obtain ⟨-, -, hclear⟩ := hfresh b rfl
    simp only [hclear]
    rfl

theorem mem_book_takeSlot {s : State} {o : Option Word} {b : Word} (h : some b ∈ (takeSlot s o).rx.book) :
    some b ∈ s.rx.book ∨ o = some b := by
  cases o with
  | none => exact .inl ((List.mem_or_eq_of_mem_set h).resolve_right nofun)
  | some c =>
    simp only [takeSlot, primeSlot_rx, consumeSlot_rx] at h
    rcases List.mem_or_eq_of_mem_set h with h | h
    · exact .inl ((List.mem_or_eq_of_mem_set h).resolve_right nofun)
    · exact .inr h.symm

theorem consumeRun_good {s : State} {n : Nat} (hn : RxShape s n) {draws rest : List (Option Word)} {bufs : List Word}
    (hbufs : bufs.length = draws.length) (hlen : draws.length ≤ n) (halloc : s.env.alloc = draws ++ rest)
    (hnd : (draws.filterMap id).Nodup)
    (hfresh : ∀ b, some b ∈ draws → some b ∉ s.rx.book ∧ some b ∉ s.tx.book
      ∧ meetsDescriptors s.cfg b s.cfg.rxBufSize = false) :
    consumeRun false ((ringSlots s.cfg.dRx s.rx.cursor draws.length).zip bufs) s
      = .ok { takeRun s draws with env := { s.env with alloc := rest } } := by
  induction draws generalizing s n bufs with
  | nil =>
    rw [List.nil_append] at halloc
    simp [ringSlots, consumeRun, takeRun, ← halloc]
  | cons o draws ih =>
    obtain ⟨n, rfl⟩ : ∃ m, n = m + 1 := ⟨n - 1, by simp at hlen; omega⟩
    obtain ⟨p, bufs, rfl⟩ : ∃ p ps, bufs = p :: ps := List.exists_cons_of_length_eq_add_one hbufs
    have hnd' : (∀ b, o = some b → some b ∉ draws) ∧ (draws.filterMap id).Nodup := by
      cases o with
      | none => exact ⟨nofun, hnd⟩
      | some c => simpa using hnd
    rw [List.length_cons, ringSlots_succ, cursor_mod hn, List.zip_cons_cons,
      consumeRun_draw (rest := draws ++ rest) halloc fun b hb => hfresh b (by simp [hb])]
    set t : State := { takeSlot s o with env := { s.env with alloc := draws ++ rest } } with ht
    have hrest := ih (s := t) (bufs := bufs) (rxShape_takeSlot hn o) (by simpa using hbufs) (by simpa using hlen) rfl
      hnd'.2 fun b hb => by
        obtain ⟨hrx, htx, hclear⟩ := hfresh b (List.mem_cons_of_mem _ hb)
        refine ⟨fun hm => ?_, by simpa [ht] using htx, by simpa [ht] using hclear⟩
        rcases mem_book_takeSlot hm with hm | ho
        · exact hrx hm
        · exact hnd'.1 b ho hb
    rw [show t.cfg = s.cfg from takeSlot_cfg s o, show t.rx.cursor = _ from takeSlot_cursor s o] at hrest
    refine hrest.trans ?_
    rw [ht, takeRun_withEnv]
    rfl

/-- One turn of consuming a run takes the slot at the cursor. -/
theorem consumeRun_cons_takes {bad : Bool} {p : Word} {rest : List (Nat × Word)} {s t : State}
    (h : consumeRun bad ((s.rx.cursor, p) :: rest) s = .ok t) :
    ∃ (o : Option Word) (e : Env), consumeRun bad rest { takeSlot s o with env := e } = .ok t := by
  cases bad with
  | true => exact ⟨some p, (takeSlot s (some p)).env, h⟩
  | false =>
    have hdraw := (drawAlloc_spec (consumeSlot s.rx.cursor s)).1
    rw [consumeRun, if_neg Bool.false_ne_true] at h
    cases hd : drawAlloc (consumeSlot s.rx.cursor s) with
    | mk o u =>
      rw [hd] at h hdraw
      have hu : consumeSlot s.rx.cursor { s with env := u.env } = u := hdraw.symm
      refine ⟨o, u.env, ?_⟩
      rw [← takeSlot_withEnv]
      cases o with
      | none =>
        rw [takeSlot, hu]
        exact h
      | some b =>
        rw [takeSlot, hu]
        dsimp only at h
        split_ifs at h
        exact h

/-- Whatever the pool answers, the slots consumed are filled no more. -/
theorem rxShape_consumeRun {bad : Bool} {s t : State} {n k : Nat} (hn : RxShape s n) (hk : k ≤ n) {bufs : List Word}
    (hlen : bufs.length = k) (h : consumeRun bad ((ringSlots s.cfg.dRx s.rx.cursor k).zip bufs) s = .ok t) :
    RxShape t (n - k) := by
  subst hlen
  induction bufs generalizing s n with
  | nil =>
    cases h
    exact hn
  | cons p bufs ih =>
    obtain ⟨n, rfl⟩ : ∃ m, n = m + 1 := ⟨n - 1, by simp at hk; omega⟩
    rw [List.length_cons, ringSlots_succ, cursor_mod hn, List.zip_cons_cons] at h
    obtain ⟨o, e, hrest⟩ := consumeRun_cons_takes h
    rw [List.length_cons, Nat.add_sub_add_right]
    refine ih (s := { takeSlot s o with env := e }) (rxShape_takeSlot hn o) (by simpa using hk) ?_
    simpa using hrest

/-! What the poll learns of a complete run. -/

/-- The bytes in the first `k` slots from the Rx cursor. -/
def runTotal (s : State) (k : Nat) : Nat := ((List.range k).map fun j => (rxRunSlot s j).len.toNat).sum

theorem runBuffers_of_booked {s : State} {run : List Nat} (h : ∀ i ∈ run, s.rxTok i ≠ none) :
    runBuffers s run = some (run.filterMap s.rxTok) ∧ (run.filterMap s.rxTok).length = run.length := by
  induction run with
  | nil => exact ⟨rfl, rfl⟩
  | cons i run ih =>
    obtain ⟨hi, hrest⟩ := List.forall_mem_cons.1 h
    obtain ⟨p, hp⟩ := Option.ne_none_iff_exists'.1 hi
    obtain ⟨hbufs, hlen⟩ := ih hrest
    simp [runBuffers, hp, hbufs, hlen]

/-- The slots from `c` to the `k`-th are `k`, as `totalFrameLength` counts them. -/
theorem count_to_last {d c k : Nat} (hc : c < d) (h1 : 0 < k) (hk : k ≤ d) :
    ((c + k - 1) % d + d - c) % d + 1 = k := by
  by_cases hwrap : c + k - 1 < d
  · rw [Nat.mod_eq_of_lt hwrap, show c + k - 1 + d - c = k - 1 + d by omega, Nat.add_mod_right,
      Nat.mod_eq_of_lt (by omega)]
    omega
  · have hlast : (c + k - 1) % d = c + k - 1 - d := by
      rw [Nat.mod_eq_sub_mod (by omega), Nat.mod_eq_of_lt (by omega)]
    rw [hlast, Nat.mod_eq_of_lt (by omega)]
    omega

section
variable {s : State} {n k : Nat} (hn : RxShape s n) (hk : k ≤ n)
include hn hk

theorem runBuffers_of_shape : runBuffers s (ringSlots s.cfg.dRx s.rx.cursor k) = some (rxRunBufs s k)
    ∧ (rxRunBufs s k).length = k := by
  have hbooked : ∀ i ∈ ringSlots s.cfg.dRx s.rx.cursor k, s.rxTok i ≠ none := fun i hi => by
    obtain ⟨j, hj, rfl⟩ := List.mem_map.1 hi
    exact (rxIsFilled_from_cursor hn (by have := List.mem_range.1 hj; omega)).2
  obtain ⟨hbufs, hlen⟩ := runBuffers_of_booked hbooked
  exact ⟨hbufs, hlen.trans (by simp [ringSlots])⟩

theorem totalLength_run (h1 : 0 < k) :
    totalLength s .rx s.rx.cursor ((s.rx.cursor + k - 1) % s.cfg.dRx)
      = runTotal s k := by
  have hd := filled_le_depth hn
  have hcount := count_to_last (rx_cursor_lt hn) h1 (show k ≤ s.cfg.dRx by omega)
  simp only [totalLength, depth, hcount, ringSlots, List.map_map]
  rfl

end

theorem any_isError_run (s : State) (k : Nat) :
    ((ringSlots s.cfg.dRx s.rx.cursor k).any fun i => isError s .rx i) = true
      ↔ ∃ j, j < k ∧ (rxRunSlot s j).err = true := by
  simp [ringSlots, isError, State.slot, rxRunSlot]

/-! Turns of the poll. -/

@[simp] theorem reportRun_cfg (bad : Bool) (bufs : List Word) (total : Nat) (s : State) :
    (reportRun bad bufs total s).cfg = s.cfg := by
  cases bad <;> rfl

theorem rxShape_reportRun {bad : Bool} {bufs : List Word} {total : Nat} {s : State} {n : Nat} (h : RxShape s n) :
    RxShape (reportRun bad bufs total s) n := by
  cases bad <;> exact h

theorem rxShape_finishRun {s u : State} {n k total : Nat} {bufs : List Word} (hn : RxShape s n) (hk : k ≤ n)
    (hlen : bufs.length = k) (h : finishRun (ringSlots s.cfg.dRx s.rx.cursor k) bufs total s = .ok u) :
    RxShape u (n - k) := by
  obtain ⟨t, ht, rfl⟩ := finishRun_ok h
  exact rxShape_reportRun (rxShape_consumeRun hn hk hlen ht)

/-- A turn that finds a complete run, with what consuming it leaves. -/
theorem pollLoop_complete {s t : State} {n k : Nat} (hn : RxShape s n) (hk : k ≤ n) (hrun : OneRun s k) {bad : Bool}
    (hbad : ((ringSlots s.cfg.dRx s.rx.cursor k).any fun i => isError s .rx i) = bad)
    (ht : consumeRun bad ((ringSlots s.cfg.dRx s.rx.cursor k).zip (rxRunBufs s k)) s = .ok t) (fuel count : Nat) :
    pollLoop (fuel + 1) s count
      = pollLoop fuel (reportRun bad (rxRunBufs s k) (runTotal s k) t)
        (if bad then count else count + 1) := by
  have h1 : 0 < k := hrun.1
  obtain ⟨hu, hown⟩ := cursor_filled hn (by omega)
  simp [pollLoop, finishRun, hu, hown, isFirst_cursor hn, (hrun.2 0 h1).1, scanRun_oneRun hn hk hrun,
    (runBuffers_of_shape hn hk).1, totalLength_run hn hk h1, hbad, ht]

/-- Everything a turn of the poll can do: refuse, end the poll, or consume a run; with fewer filled slots than it had,
the poll goes on. -/
theorem pollLoop_turn {s : State} {n : Nat} (hn : RxShape s n) :
    (∃ r, ∀ fuel count, pollLoop (fuel + 1) s count = .error r)
      ∨ (∀ fuel count, pollLoop (fuel + 1) s count = .ok (s, count))
      ∨ ∃ (u : State) (m more : Nat), m < n ∧ RxShape u m
        ∧ ∀ fuel count, pollLoop (fuel + 1) s count = pollLoop fuel u (count + more) := by
  simp only [pollLoop]
  split_ifs with hu hown hf
  · exact .inr (.inl fun _ _ => rfl)
  · exact .inr (.inl fun _ _ => rfl)
  · exact .inl ⟨_, fun _ _ => rfl⟩
  · have hown' : ownedByDma s .rx s.rx.cursor = false := by simpa using hown
    cases hscan : scanRun s (s.cfg.dRx - s.rx.unprimed - 1) s.rx.cursor 1 with
    | incomplete => exact .inr (.inl fun _ _ => rfl)
    | desync => exact .inl ⟨_, fun _ _ => rfl⟩
    | complete k =>
      have hk := run_le_filled hn hu hown' hscan
      obtain ⟨h1, -, -⟩ := scanRun_complete hscan
      obtain ⟨hbufs, hlen⟩ := runBuffers_of_shape hn hk
      simp only [hbufs]
      cases hfin : finishRun (ringSlots s.cfg.dRx s.rx.cursor k) (rxRunBufs s k)
          (totalLength s .rx s.rx.cursor ((s.rx.cursor + k - 1) % s.cfg.dRx)) s with
      | error r => exact .inl ⟨r, fun _ _ => rfl⟩
      | ok u =>
        refine .inr (.inr ⟨u, n - k, if (ringSlots s.cfg.dRx s.rx.cursor k).any (isError s .rx) then 0 else 1,
          by omega, rxShape_finishRun hn hk hlen hfin, fun fuel count => ?_⟩)
        split_ifs <;> rfl

/-! Fuel and count of the poll: the loop never runs out, and the count only adds up. -/

/-- With more turns than filled slots, how many does not matter. -/
theorem pollLoop_fuel {s : State} {n fuel fuel' : Nat} (hn : RxShape s n) (hf : n < fuel) (hf' : n < fuel')
    (count : Nat) : pollLoop fuel s count = pollLoop fuel' s count := by
  induction fuel generalizing s n fuel' count with
  | zero => omega
  | succ fuel ih =>
    obtain ⟨fuel', rfl⟩ : ∃ f, fuel' = f + 1 := ⟨fuel' - 1, by omega⟩
    rcases pollLoop_turn hn with ⟨r, h⟩ | h | ⟨u, m, more, hm, hu, h⟩
    · rw [h, h]
    · rw [h, h]
    · rw [h, h]
      exact ih hu (by omega) (by omega) _

/-- The frames delivered before are added to those the poll still delivers. -/
theorem pollLoop_count {s : State} {n fuel : Nat} (hn : RxShape s n) (count : Nat) :
    pollLoop fuel s count = (pollLoop fuel s 0).map (Prod.map id (count + ·)) := by
  induction fuel generalizing s n count with
  | zero => rfl
  | succ fuel ih =>
    rcases pollLoop_turn hn with ⟨r, h⟩ | h | ⟨u, m, more, -, hu, h⟩
    · rw [h, h]
      rfl
    · rw [h, h]
      rfl
    · rw [h, h, ih hu (count + more), ih hu (0 + more)]
      cases pollLoop fuel u 0 with
      | error r => rfl
      | ok x => simp [Except.map, Prod.map, Nat.add_assoc]

/-- A poll that begins with a complete run goes on with the state that run leaves, with the frame counted. -/
theorem poll_run {s t : State} {n k : Nat} (hn : RxShape s n) (hk : k ≤ n) (hrun : OneRun s k) {bad : Bool}
    (hbad : ((ringSlots s.cfg.dRx s.rx.cursor k).any fun i => isError s .rx i) = bad)
    (ht : consumeRun bad ((ringSlots s.cfg.dRx s.rx.cursor k).zip (rxRunBufs s k)) s = .ok t) :
    poll s = (poll (reportRun bad (rxRunBufs s k) (runTotal s k) t)).map
      (Prod.map id ((if bad then 0 else 1) + ·)) := by
  have h1 : 0 < k := hrun.1
  have hd := filled_le_depth hn
  obtain ⟨-, hlen⟩ := runBuffers_of_shape hn hk
  have hshape : RxShape (reportRun bad (rxRunBufs s k) (runTotal s k) t) (n - k) :=
    rxShape_reportRun (rxShape_consumeRun hn hk hlen ht)
  obtain ⟨hcfg, -⟩ := consumeRun_frame ht
  rw [poll, pollLoop_complete hn hk hrun hbad ht, pollLoop_count hshape, poll, reportRun_cfg, hcfg,
    pollLoop_fuel hshape (fuel := s.cfg.dRx) (fuel' := s.cfg.dRx + 1) (by omega) (by omega)]

/-! RX_POLL from the state a run leaves. -/

theorem answeredOn_answeredOn (s : State) (p : Issuer) (res val res' val' : Word) :
    (s.answeredOn p res val).answeredOn p res' val' = s.answeredOn p res' val' := by
  cases p <;> rfl

theorem answeredOn_ret0 (s : State) {p : Issuer} (hp : p ≠ .hw) (res val : Word) :
    ((s.answeredOn p res val).port p).ret0 = val := by
  cases p
  case hw => exact absurd rfl hp
  all_goals rfl

section
variable {s u : State} {p : Issuer} (hr : Runs s p) (hport : rxRingPorts s.cfg p = true) (hl : isLive s.life)
  (hru : Runs u p) (hcfg : u.cfg = s.cfg) (hlife : u.life = s.life)
include hr hport hl hru hcfg hlife

/-- Nothing delivered before what the poll does from `u` on. -/
theorem rxPoll_noMore (h : poll s = (poll u).map (Prod.map id (0 + ·))) : exec .rxPoll s = exec .rxPoll u := by
  cases hu : poll u with
  | ok x =>
    obtain ⟨v, count⟩ := x
    rw [rxPoll_ok hru (hcfg ▸ hport) (hlife ▸ hl) hu,
      rxPoll_ok hr hport hl (t := v) (count := 0 + count) (by rw [h, hu]; rfl), Nat.zero_add]
  | error r =>
    rw [rxPoll_error hru (hcfg ▸ hport) (hlife ▸ hl) hu, rxPoll_error hr hport hl (by rw [h, hu]; rfl)]

/-- One frame before what the poll delivers from `u` on. -/
theorem rxPoll_oneMore (h : poll s = (poll u).map (Prod.map id (1 + ·))) :
    (∀ t, exec .rxPoll u = .next t → exec .rxPoll s = .next (t.answeredOn p 0#32 ((t.port p).ret0 + 1#32)))
      ∧ ∀ r, exec .rxPoll u = .refused r → exec .rxPoll s = .refused r := by
  have hp : p ≠ .hw := by
    rintro rfl
    cases hport
  cases hu : poll u with
  | ok x =>
    obtain ⟨v, count⟩ := x
    rw [rxPoll_ok hru (hcfg ▸ hport) (hlife ▸ hl) hu,
      rxPoll_ok hr hport hl (t := v) (count := 1 + count) (by rw [h, hu]; rfl)]
    refine ⟨fun t ht => ?_, fun r hr => by cases hr⟩
    cases ht
    rw [answeredOn_answeredOn, answeredOn_ret0 v hp, Nat.add_comm, BitVec.ofNat_add]
  | error r =>
    rw [rxPoll_error hru (hcfg ▸ hport) (hlife ▸ hl) hu, rxPoll_error hr hport hl (by rw [h, hu]; rfl)]
    refine ⟨fun t ht => ?_, fun _ hr => hr⟩
    cases ht

end

/-- Settles O21: the run is consumed with the pool's answers, and the poll goes on. -/
theorem rxPollDelivers : Obligations.RxPollDelivers := by
  intro s p n k draws rest hr hport hl hn hk hrun herr halloc hlen hnd hfresh
  subst hlen
  have hbad : ((ringSlots s.cfg.dRx s.rx.cursor draws.length).any fun i => isError s .rx i) = false :=
    Bool.eq_false_iff.2 fun h => by
      obtain ⟨j, hj, he⟩ := (any_isError_run s _).1 h
      simp [herr j hj] at he
  obtain ⟨-, hlen⟩ := runBuffers_of_shape hn hk
  have ht := consumeRun_good hn hlen hk halloc hnd hfresh
  have hpoll := poll_run hn hk hrun hbad ht
  have hshape : RxShape (takeRun s draws) (n - draws.length) := rxShape_takeRun hn hk
  set u := reportRun false (rxRunBufs s draws.length) (runTotal s draws.length)
    { takeRun s draws with env := { s.env with alloc := rest } } with hu
  have hframe : u = { s with
      rx := u.rx
      env := { s.env with alloc := rest }
      out := { s.out with notify := s.out.notify
        ++ [.frameReceived (rxRunBufs s draws.length) (BitVec.ofNat 32 (runTotal s draws.length))] } } := by
    rw [hu, takeRun_frame]
    rfl
  have hru : Runs u p := by
    rw [hframe]
    exact hr
  refine ⟨u, runTaken_takeRun hn hk, hshape, hframe, fun hnk => ?_,
    rxPoll_oneMore hr hport hl hru (by rw [hframe]) (by rw [hframe]) hpoll⟩
  rw [← hnk, Nat.sub_self] at hshape
  have hempty : poll u = .ok (u, 0) := pollLoop_empty (s := u) hshape _ _
  exact rxPoll_ok hr hport hl (by rw [hpoll, hempty]; rfl)

/-- Settles O22: the run is consumed with its own buffers, and the poll goes on. -/
theorem rxPollDrops : Obligations.RxPollDrops := by
  intro s p n k hr hport hl hn hk hrun herr
  obtain ⟨-, hlen⟩ := runBuffers_of_shape hn hk
  have hgiven : ((rxRunBufs s k).map some).length = k := by simpa using hlen
  have hpoll := poll_run hn hk hrun ((any_isError_run s k).2 herr) (consumeRun_bad hn hk hlen)
  have hshape := rxShape_takeRun hn (hgiven.trans_le hk)
  have htaken := runTaken_takeRun hn (hgiven.trans_le hk)
  rw [hgiven] at hshape htaken
  rw [List.filterMap_map, Function.id_comp, List.filterMap_some] at htaken
  set u := reportRun true (rxRunBufs s k) (runTotal s k) (takeRun s ((rxRunBufs s k).map some)) with hu
  have hframe : u = { s with rx := u.rx, cnt := { s.cnt with rxError := s.cnt.rxError + 1#32 } } := by
    rw [hu, takeRun_frame]
    rfl
  have hru : Runs u p := by
    rw [hframe]
    exact hr
  have hsame : exec .rxPoll s = exec .rxPoll u :=
    rxPoll_noMore hr hport hl hru (by rw [hframe]) (by rw [hframe]) hpoll
  refine ⟨u, htaken, hlen, hshape, hframe, fun hnk => ?_, fun t h => hsame.trans h, fun r h => hsame.trans h⟩
  rw [hnk, Nat.sub_self] at hshape
  have hempty : poll u = .ok (u, 0) := pollLoop_empty (s := u) hshape _ _
  exact rxPoll_ok hr hport hl (by rw [hpoll, hempty]; rfl)

end Sys2Proof.Machine

/-! Worked words of the spec (30_encoding.md; O3). -/
namespace Sys2Proof.Machine

/-- Settles O3: each tuple is what the encoder writes for a well-formed instruction, and decodes to it (O1). -/
theorem workedWordsDecode : Obligations.WorkedWordsDecode :=
  ⟨decodeEncode (.setOwnAddr 0x563412000002#48) rfl, decodeEncode (.enable 1#2 1#2) rfl,
    decodeEncode (.mdioRead 1#5 2#5) rfl, decodeEncode (.writeTxDesc true true 0#32 0x20001000#32 64#16) rfl,
    decodeEncode (.totalFrameLength .rx 1#32 2#32) rfl,
    decodeEncode (.writeMcastAddr 1#5 true 0x0100005E0001#48) rfl,
    decodeEncode (.mdioTransaction true 1#5 0#5 0x8000#16) rfl, decodeEncode (.statusEvent 7#8) rfl⟩

end Sys2Proof.Machine

/-! The addresses of the filter (42_mac_driver.md R173 to R175; O24 to O27). -/
namespace Sys2Proof.Machine

/-- In a live engine the filter operations, ENABLE and DEINIT of the foreground run their own lines. -/
theorem hostOp_foreground {s : State} (hr : Runs s .fg) (hl : isLive s.life) (body : Result) :
    hostOp (foregroundOnly s.env.issuer) colLive s body = body :=
  hostOp_run body (by rw [hr.1]; rfl) hr.2 (colLive_of_isLive hl)

/-- Settles O24: the two branches of the operation. -/
theorem setOwnAddrCompletes : Obligations.SetOwnAddrCompletes := by
  intro s addr hr hl
  have hrun : exec (.setOwnAddr addr) s = _ := hostOp_foreground hr hl _
  rw [hrun]
  refine ⟨fun he => ?_, fun he => if_pos he⟩
  exact (if_neg he).trans (congrArg _ (answer_eq _ _ (by exact hr.1)))

/-- Settles O25: the two branches of the operation. -/
theorem addMcastCompletes : Obligations.AddMcastCompletes := by
  intro s addr hr hl
  have hrun : exec (.addMcast addr) s = _ := hostOp_foreground hr hl _
  simp only [List.length_append, List.length_singleton] at hrun
  rw [hrun]
  refine ⟨fun hroom => ?_, fun hfull => ?_⟩
  · exact (if_neg hroom).trans (congrArg _ (answer_eq _ _ (by exact hr.1)))
  · rw [if_pos hfull, answer_eq _ _ hr.1, rcOutOfMemory_eq]

/-- Settles O26, by induction on the addresses: each finds room, and the last leaves none. -/
theorem multicastTableBound : Obligations.MulticastTableBound := by
  intro s addrs extra hr hl hlen
  induction addrs generalizing s with
  | nil => exact ⟨s, rfl, (List.append_nil _).symm, (addMcastCompletes s extra hr hl).2 hlen⟩
  | cons a rest ih =>
    rw [List.length_cons] at hlen
    obtain ⟨t, hadd, hmcast, hfull⟩ := ih (State.answeredOn
      { s with mac := { s.mac with
          mcast := s.mac.mcast ++ [a], addrTab := s.mac.addrTab.set (s.mac.mcast.length + 1) (some a) } } .fg 0#32 0#32)
      hr hl (by simp [State.answeredOn]; omega)
    refine ⟨t, ?_, by simpa [State.answeredOn] using hmcast, hfull⟩
    rw [addEach, (addMcastCompletes s a hr hl).1 (by omega)]
    exact hadd

/-- Settles O27: the loop clears the slots of the addresses in the list, and those behind them hold none. -/
theorem clearMcastCompletes : Obligations.ClearMcastCompletes := by
  rintro s hr hl ⟨hlen, htab⟩
  have hclear := clearMcastSlots_addrTab (s.mac.mcast.map some) s _ _ htab
  rw [List.length_map, List.replicate_append_replicate, Nat.add_sub_cancel' hlen] at hclear
  refine (hostOp_foreground hr hl _).trans ?_
  dsimp only
  rw [clearMcastSlots_frame, hclear]
  exact congrArg _ (answer_eq _ _ (by exact hr.1))

end Sys2Proof.Machine

/-! ENABLE and DISABLE (42_mac_driver.md R178, R179; O14, O15). -/
namespace Sys2Proof.Machine

/-! The codes of ENABLE (30_encoding.md R109). -/

theorem speedOf_eq (code : BitVec 2) :
    speedOf code = if code.toNat < 2 then some (if code.toNat = 0 then .s10 else .s100) else none := by
  revert code
  decide

theorem duplexOf_eq (code : BitVec 2) :
    duplexOf code = if code.toNat < 2 then some (if code.toNat = 0 then .half else .full) else none := by
  revert code
  decide

theorem linkOf_valid {sp du : BitVec 2} (hsp : sp.toNat < 2) (hdu : du.toNat < 2) :
    linkOf sp du = some (if sp.toNat = 0 then .s10 else .s100, if du.toNat = 0 then .half else .full) := by
  rw [linkOf, speedOf_eq, duplexOf_eq, if_pos hsp, if_pos hdu]

theorem linkOf_invalid {sp du : BitVec 2} (h : 2 ≤ sp.toNat ∨ 2 ≤ du.toNat) : linkOf sp du = none := by
  rw [linkOf, speedOf_eq, duplexOf_eq]
  rcases h with h | h
  · rw [if_neg h.not_gt]
  · rw [if_neg h.not_gt]
    split
    · cases ‹none = some _›
    all_goals rfl

/-- Settles O14: the codes, then the two refusals, then the gate. -/
theorem enableCompletes : Obligations.EnableCompletes := by
  intro s sp du hr hl
  have hrun : exec (.enable sp du) s = _ := hostOp_foreground hr hl _
  rw [hrun]
  refine ⟨fun hsp hdu he haddr => ?_, fun hcode => ?_, fun hsp hdu he => ?_, fun hsp hdu he haddr => ?_⟩
  · simp only [linkOf_valid hsp hdu]
    rw [if_neg he, if_neg (by simpa using haddr), answer_eq _ _ (by simpa using hr.1)]
    rfl
  · simp only [linkOf_invalid hcode]
    rw [answer_eq _ _ hr.1, rcConfigError_eq]
  · simp only [linkOf_valid hsp hdu]
    rw [if_pos he]
  · simp only [linkOf_valid hsp hdu]
    rw [if_neg he, if_pos (by simp [haddr])]

/-! The condition both ends of DISABLE look at. -/

theorem quiet_eq_true {s : State} (htx : s.tx.inflight = none) (hrx : s.rx.pending = none) : quiet s = true := by
  simp [quiet, htx, hrx]

theorem quiet_eq_false {s : State} (h : s.tx.inflight ≠ none ∨ s.rx.pending ≠ none) : quiet s = false := by
  simpa [quiet, Option.ne_none_iff_isSome, imp_iff_not_or] using h

theorem exec_disable_enabled {s : State} (hr : Runs s .fg) (he : s.life = .enabled) :
    exec .disable s = .next (if quiet s then finishDisable (stopBoth (closeGate s))
      else (stopBoth (closeGate s)).hold .disable) :=
  hostOp_run _ (by rw [hr.1]; rfl) hr.2 (by rw [he]; rfl)

/-! The end of a hold as a step (00_scope.md R11 d). -/

theorem completeHeld_some {s t : State} {p : Issuer} {k : Held} (hk : (s.port p).phase = .held k) (hf : s.fatal = none)
    (hend : finishHeld k { s with env := { s.env with issuer := p } } = some t) : completeHeld p s = .next t := by
  rw [completeHeld, hk]
  dsimp only
  rw [if_neg (by simp [hf]), hend]

theorem completeHeld_none {s : State} {p : Issuer} {k : Held} (hk : (s.port p).phase = .held k) (hf : s.fatal = none)
    (hend : finishHeld k { s with env := { s.env with issuer := p } } = none) :
    completeHeld p s = .fault .stepNotEnabled := by
  rw [completeHeld, hk]
  dsimp only
  rw [if_neg (by simp [hf]), hend]

theorem dropInput_eq {s : State} {x : Stim} {rest : List Stim} (hin : s.env.inputs = x :: rest) :
    s.dropInput = { s with env := { s.env with inputs := rest } } := by
  rw [State.dropInput, hin, List.drop_one, List.tail_cons]

section
variable {s : State} {p : Issuer} {k : Held} {rest : List Stim} (hin : s.env.inputs = .complete p :: rest)
include hin

theorem step_complete : step s = completeHeld p s.dropInput := by
  simp [step, fetch, hin, fetchStim]

variable (hf : s.fatal = none) (hk : (s.port p).phase = .held k)
include hf hk

theorem step_complete_some {t : State}
    (hend : finishHeld k { s with env := { s.env with inputs := rest, issuer := p } } = some t) : step s = .next t := by
  rw [step_complete hin]
  exact completeHeld_some (by rwa [port_dropInput]) hf (by rwa [dropInput_eq hin])

theorem step_complete_none
    (hend : finishHeld k { s with env := { s.env with inputs := rest, issuer := p } } = none) :
    step s = .fault .stepNotEnabled := by
  rw [step_complete hin]
  exact completeHeld_none (by rwa [port_dropInput]) hf (by rwa [dropInput_eq hin])

end

/-- Settles O15: DISABLE by what is in flight, and its end by the same condition. -/
theorem disableCompletes : Obligations.DisableCompletes := by
  refine ⟨fun s hr => ⟨fun he => ?_, fun he htx hrx => ?_, fun he hbusy => ?_⟩, fun s rest hin hf hk htx hrx => ?_,
    fun s rest hin hf hk hbusy => ?_⟩
  · have hcol : colDisable s.life = .ok := by
      cases hl : s.life <;> simp_all [colDisable]
    refine (hostOp_ok _ (by rw [hr.1]; rfl) hr.2 hcol).trans ?_
    rw [answer_eq _ _ hr.1, rcOk_eq]
  · rw [exec_disable_enabled hr he, if_pos (quiet_eq_true htx hrx), finishDisable, answer_eq _ _ (by simpa using hr.1)]
    rfl
  · rw [exec_disable_enabled hr he, quiet_eq_false hbusy, if_neg nofun, hold_eq _ (by simpa using hr.1)]
    rfl
  · exact step_complete_some hin hf hk (if_pos (quiet_eq_true htx hrx))
  · exact step_complete_none hin hf hk (if_neg (Bool.eq_false_iff.1 (quiet_eq_false hbusy)))

end Sys2Proof.Machine

/-! The receive filter (42_mac_driver.md R171; O31). -/
namespace Sys2Proof.Machine

/-! The destination address. -/

theorem destination_short {data : List Byte} (h : data.length < 6) : destination data = none := by
  unfold destination
  split
  · simp at h
    omega
  · rfl

theorem toNat_append_byte {n : Nat} (x : BitVec n) (b : Byte) : (x ++ b).toNat = x.toNat * 2 ^ 8 + b.toNat := by
  rw [BitVec.toNat_append, ← Nat.shiftLeft_add_eq_or_of_lt b.isLt, Nat.shiftLeft_eq]

/-- The first six bytes as one number, the first one lowest. -/
theorem destination_eq (b0 b1 b2 b3 b4 b5 : Byte) (rest : List Byte) :
    destination (b0 :: b1 :: b2 :: b3 :: b4 :: b5 :: rest)
      = some (BitVec.ofNat 48 (b0.toNat + b1.toNat * 2 ^ 8 + b2.toNat * 2 ^ 16 + b3.toNat * 2 ^ 24
        + b4.toNat * 2 ^ 32 + b5.toNat * 2 ^ 40)) := by
  refine congrArg some (BitVec.eq_of_toNat_eq ?_)
  rw [BitVec.toNat_ofNat]
  refine (toNat_append_byte (b5 ++ b4 ++ b3 ++ b2 ++ b1) b0).trans ?_
  simp only [toNat_append_byte]
  omega

theorem isMulticast_ofNat (n : Nat) : isMulticast (BitVec.ofNat 48 n) = true ↔ n % 2 = 1 := by
  rw [isMulticast, BitVec.getLsbD_ofNat, Nat.testBit_zero]
  simp

theorem ofNat_eq_broadcast {n : Nat} (h : n < 2 ^ 48) : BitVec.ofNat 48 n = broadcast ↔ n = 2 ^ 48 - 1 := by
  rw [broadcast, ← BitVec.toNat_inj, BitVec.toNat_ofNat, Nat.mod_eq_of_lt h]
  rfl

/-- An address is in the table exactly when it is in one of the slots 0 to `MCAST_CAP`. -/
theorem addrTab_contains_iff {s : State} (h : s.mac.addrTab.length = s.cfg.mcastCap + 1) (a : Mac) :
    s.mac.addrTab.contains (some a) = true ↔ ∃ k, k ≤ s.cfg.mcastCap ∧ s.mac.addrTab[k]? = some (some a) := by
  rw [List.contains_iff_mem, List.mem_iff_getElem?]
  refine exists_congr fun k => ⟨fun hk => ⟨?_, hk⟩, And.right⟩
  have := (List.getElem?_eq_some_iff.1 hk).1
  omega

theorem filterAccept_iff {s : State} (h : s.mac.addrTab.length = s.cfg.mcastCap + 1) {n : Nat} (hn : n < 2 ^ 48) :
    filterAccept s (BitVec.ofNat 48 n) = true ↔
      (∃ k, k ≤ s.cfg.mcastCap ∧ s.mac.addrTab[k]? = some (some (BitVec.ofNat 48 n)))
        ∨ (n % 2 = 1 ∧ s.mac.effPam = true) ∨ (n % 2 = 0 ∧ s.mac.effPau = true)
        ∨ (n = 2 ^ 48 - 1 ∧ s.cfg.acceptBroadcast = true) := by
  have hunicast : (!isMulticast (BitVec.ofNat 48 n)) = true ↔ n % 2 = 0 := by
    rw [Bool.not_eq_true', Bool.eq_false_iff, ne_eq, isMulticast_ofNat]
    omega
  simp only [filterAccept, Bool.or_eq_true, Bool.and_eq_true, beq_iff_eq, addrTab_contains_iff h, isMulticast_ofNat,
    hunicast, ofNat_eq_broadcast hn, or_assoc]

/-! A frame on the wire. -/

theorem drawFrame_of_delivers {s : State} {f : Frame} {e : Env} (h : WireDelivers s f e) :
    drawFrame s = (f, { s with env := e }) := by
  obtain ⟨hlen, ⟨rest, hwire, rfl⟩ | ⟨hwire, rfl, rfl⟩⟩ := h
  all_goals
    rw [drawFrame, hwire]
    exact Prod.ext (if_pos hlen) rfl

/-- Past its checks RX_FRAME_ARRIVE does what the frame that the wire delivers does. -/
theorem exec_rxFrameArrive {s : State} {f : Frame} {e : Env} (hr : Runs s .hw) (hl : s.life ≠ .uninitialized)
    (hen : s.mac.macEn = true) (hp : s.rx.pending = none) (hw : WireDelivers s f e) :
    exec .rxFrameArrive s = .next (frameArrives f { s with env := e }) := by
  refine (agentStep_run _ hr.1 hr.2 (by simp [canRxArrive, hen, hp])).trans ?_
  rw [if_neg hl, drawFrame_of_delivers hw]

/-- Settles O31: the destination as a number, the filter on it, and the first branch of RX_FRAME_ARRIVE. -/
theorem receiveFilter : Obligations.ReceiveFilter := by
  refine ⟨fun s data h => ?_, fun s b0 b1 b2 b3 b4 b5 rest h => ?_, fun s f e hr hl hen hp hw hrej => ?_⟩
  · rw [frameAccepted, destination_short h]
  · rw [frameAccepted, destination_eq]
    exact filterAccept_iff h (by omega)
  · rw [exec_rxFrameArrive hr hl hen hp hw, frameArrives]
    exact congrArg _ (if_pos (by rw [Bool.not_eq_true']; exact hrej))

end Sys2Proof.Machine

/-! What the transitions do to the ports and to `env.mdioFor` (00_scope.md R11; O32, O30): an instruction other than
MDIO_DONE answers, holds or latches on the port that issued it, and touches no other. -/
namespace Sys2Proof.Machine

/-- From `s`, in which a transition runs, to `t`: only the port of the transition has changed, it is not left half done
but by the fatal latch, and no other port has come to wait for an MDIO transaction. -/
structure Settles (s t : State) : Prop where
  own : t.fatal = none → (t.port s.env.issuer).phase ≠ .unanswered
  others : ∀ q, q ≠ s.env.issuer → t.port q = s.port q
  waits : ∀ q, q ≠ s.env.issuer → t.env.mdioFor = some q → s.env.mdioFor = some q
  fatal : t.fatal = none → s.fatal = none

/-! The ways a transition ends. -/

section
variable {s u : State} (hports : u.ports = s.ports) (hp : u.env.issuer = s.env.issuer) (hf : u.fatal = s.fatal)
include hports hp hf

theorem settles_answer (res val : Word) (hw : u.env.mdioFor = s.env.mdioFor ∨ u.env.mdioFor = none) :
    Settles s (u.answer res val) where
  own _ := by
    rw [answer_port, hp]
    by_cases h : s.env.issuer = .hw <;> simp [h, State.port, PortRegs.clear]
  others q hq := by rw [answer_port, hp, if_neg (fun h => hq h.1), port_congr hports]
  waits q _ h := by rcases hw with hw | hw <;> simp_all
  fatal := by simp [hf]

theorem settles_hold (k : Held) (hw : u.env.mdioFor = s.env.mdioFor) : Settles s (u.hold k) where
  own _ := by
    rw [hold_port, hp]
    by_cases h : s.env.issuer = .hw <;> simp [h, State.port, PortRegs.clear]
  others q hq := by rw [hold_port, hp, if_neg (fun h => hq h.1), port_congr hports]
  waits q _ h := by simpa [hw] using h
  fatal := by simp [hf]

end

theorem settles_self_answer (s : State) (res val : Word) : Settles s (s.answer res val) :=
  settles_answer rfl rfl rfl res val (.inl rfl)

theorem settles_holdForMdio (wr : Bool) (dev reg : BitVec 5) (val : Half) (k : Held) (s : State) :
    Settles s (holdForMdio wr dev reg val k s) := by
  have hport : ∀ q, (holdForMdio wr dev reg val k s).port q = (s.hold k).port q := port_congr (by simp)
  have h := settles_hold (u := s) rfl rfl rfl k rfl
  refine ⟨fun hf => hport _ ▸ h.own (by simpa using hf), fun q hq => (hport q).trans (h.others q hq), fun q hq hw => ?_,
    by simp⟩
  rw [holdForMdio_env] at hw
  exact absurd (Option.some.inj hw).symm hq

/-- The fatal latch leaves the operation without an answer (60_exceptions.md R296). -/
theorem settles_raiseFatal (k : FatalKind) (s : State) : Settles s (raiseFatal k s) where
  own := nofun
  others q _ := port_congr (raiseFatal_ports k s) q
  waits _ _ h := h
  fatal := nofun

/-! Draws and services. -/

theorem drawPool_mdioFor {n : Nat} {bufs taken : List Word} {s u : State} {full : Bool}
    (h : drawPool n bufs s = (full, taken, u)) : u.env.mdioFor = s.env.mdioFor := by
  have hraw : ∀ v : State, (drawAllocRaw v).2.env.mdioFor = v.env.mdioFor := fun v => by
    unfold drawAllocRaw
    split <;> rfl
  induction n generalizing bufs s with
  | zero => cases h; rfl
  | succ n ih =>
    unfold drawPool at h
    dsimp only at h
    split at h
    · exact (ih h).trans (hraw s)
    · cases h
      exact hraw s

theorem initialise_mdioFor (bufs : List Word) (s : State) : (initialise bufs s).env.mdioFor = none :=
  primeAll_keeps (fun t => t.env.mdioFor = none) (by simp) bufs (resetPeripheral s) rfl

theorem poll_mdioFor {s t : State} {n : Nat} (h : poll s = .ok (t, n)) : t.env.mdioFor = s.env.mdioFor := by
  obtain ⟨-, -, -, -, -, -, -, -, -, -, -, henv⟩ := poll_frame h
  rw [henv]

theorem serve_mdioFor {p : BitVec 10} {s t : State} (h : serve p s = .ok t) : t.env.mdioFor = s.env.mdioFor := by
  obtain ⟨u, hu, rfl⟩ := serve_ok h
  have hback : (serveTx p (acknowledge p s)).env.mdioFor = s.env.mdioFor := by simp
  rcases serveRx_ok hu with ⟨-, n, hpoll⟩ | ⟨-, rfl⟩
  · simpa using (poll_mdioFor hpoll).trans hback
  · exact hback

/-! The instructions. -/

/-- On a host port every effect settles. -/
theorem Effect.settles {s t : State} (he : Effect s t) (hport : isHostPort s.env.issuer) : Settles s t := by
  have hhw : s.env.issuer ≠ .hw := by rcases hport with h | h | h <;> simp [h]
  cases he with
  | primitive u val hs => rcases hport with h | h | h <;> cases h.symm.trans hs.1.1
  | init bufs u _ _ hd =>
    obtain ⟨-, -, hfatal, -, -, -, -, hports, hissuer⟩ := initialise_frame bufs u
    have hu := drawPool_frame hd
    exact settles_answer (by rw [hports, hu]) (by rw [hissuer, drawPool_issuer hd]) (by rw [hfatal, hu]) _ _
      (.inr (initialise_mdioFor bufs u))
  | initShort bufs u hd =>
    have hu := drawPool_frame hd
    exact settles_answer (by rw [hu]; rfl) (by simpa using drawPool_issuer hd) (by rw [hu]; rfl) _ _
      (.inl (by simpa using drawPool_mdioFor hd))
  | rxPoll u n val hl hpoll =>
    obtain ⟨-, -, hfatal, -, -, -, -, -, hports, -⟩ := poll_frame hpoll
    exact settles_answer hports (poll_issuer hpoll) hfatal _ _ (.inl (poll_mdioFor hpoll))
  | isrServe p u val hon hserve =>
    obtain ⟨-, -, hfatal, -, -, -, -, hports⟩ := serve_frame hserve
    exact settles_answer hports (serve_issuer hserve) hfatal _ _ (.inl (serve_mdioFor hserve))
  | deinitHolds | disableHolds => exact settles_hold (by simp) (by simp) (by simp) _ (by simp)
  | mdioHolds => exact settles_holdForMdio _ _ _ _ _ _
  | isrFatal => exact settles_raiseFatal _ _
  | txdmaFetch hp | txdmaComplete _ hp | txdmaSuspend hp | txdmaBusError hp | rxFrameArrive _ hp | rxdmaWrite _ hp
  | rxdmaSuspend hp | rxdmaBusError hp | statusEvent _ hp | mdioDone hp => exact absurd hp hhw
  | answer | deinit | enable | disable | txEnqueue | txReclaim | rxPrime | setOwnAddr | addMcast | clearMcast | setPam
  | setPromisc => exact settles_answer (by simp) (by simp) (by simp) _ _ (.inl (by simp))

/-- A host operation has a next state on a host port only. -/
theorem hostPort_of_hostOp {i : Instr} {s t : State} (hi : isHostOp i = true) (h : exec i s = .next t) :
    isHostPort s.env.issuer := by
  by_contra hp
  have hout : s.env.issuer = .be ∨ s.env.issuer = .hw := by
    cases hq : s.env.issuer <;> simp_all
  have hill : exec i s = illegal s := by
    cases i
    case init | deinit | enable | disable | txEnqueue | txReclaim | rxPrime | rxPoll | setOwnAddr | addMcast
        | clearMcast | setPam | setPromisc | mdioRead | mdioWrite | isrDispatch =>
      exact hostOp_illegal (by rcases hout with h | h <;> rw [h] <;> rfl)
    all_goals cases hi
  obtain ⟨-, hbe, hhw⟩ := illegal_next (hill.symm.trans h)
  exact hout.elim hbe hhw

/-- A primitive that changes no port and nothing of the environment but for its answer. -/
theorem primitive_settles {s t u : State} {inRange pre : Bool} {val : Word}
    (h : primitive s inRange pre u val = .next t) (hports : u.ports = s.ports) (henv : u.env = s.env)
    (hfatal : u.fatal = s.fatal) : Settles s t ∧ (Sequences s ∨ t = s.answer rcConfigError 0#32) := by
  rcases primitive_next h with ⟨hs, -, -, rfl⟩ | ⟨-, rfl⟩
  · exact ⟨settles_answer hports (by rw [henv]) hfatal _ _ (.inl (by rw [henv])), .inl hs⟩
  · exact ⟨settles_self_answer _ _ _, .inr rfl⟩

/-- A primitive settles, and outside a host operation it is illegal. -/
theorem exec_primitive_settles {i : Instr} {s t : State} (hhost : isHostOp i = false) (hagent : isAgentStep i = false)
    (h : exec i s = .next t) : Settles s t ∧ (Sequences s ∨ t = s.answer rcConfigError 0#32) := by
  cases i
  case startDma ring | stopDma ring => cases ring <;> exact primitive_settles h rfl rfl rfl
  case setLinkConfig => exact primitive_settles h (by split <;> rfl) (by split <;> rfl) (by split <;> rfl)
  case isSlotOwnedByDma | writeTxDesc | writeRxDesc | isFirstFragment | isLastFragment | isErrorFragment
      | totalFrameLength | isBufferDmaReadable | writeUnicastAddr | writeMcastAddr | mdioTransaction
      | writeFilterFlags =>
    exact primitive_settles h rfl rfl rfl
  case txdmaFetch | txdmaComplete | txdmaSuspend | txdmaBusError | rxFrameArrive | rxdmaWrite | rxdmaSuspend
      | rxdmaBusError | statusEvent | mdioDone => cases hagent
  all_goals cases hhost

/-- An agent's step changes nothing of the MAC state, and but for MDIO_DONE it settles. -/
theorem agentStep_settles {s t : State} {enabled : Bool} {body : Result} (h : agentStep s enabled body = .next t)
    (hbody : body = .next t →
      t.ports = s.ports ∧ t.env.mdioFor = s.env.mdioFor ∧ t.fatal = s.fatal ∧ t.mac = s.mac) :
    Settles s t ∧ t.mac = s.mac := by
  rcases agentStep_next h with ⟨hp, -, -, hb⟩ | ⟨-, rfl⟩
  · obtain ⟨hports, hwait, hfatal, hmac⟩ := hbody hb
    refine ⟨⟨fun _ => ?_, fun q _ => port_congr hports q, fun q _ hq => hwait ▸ hq, fun hf => hfatal ▸ hf⟩, hmac⟩
    simp [hp, State.port, PortRegs.clear]
  · exact ⟨settles_self_answer _ _ _, by simp⟩

theorem drawFrame_mdioFor (s : State) : (drawFrame s).2.env.mdioFor = s.env.mdioFor := by
  unfold drawFrame
  dsimp only
  split <;> rfl

theorem exec_agentStep_settles {i : Instr} {s t : State} (hi : isAgentStep i = true) (hmdio : i ≠ .mdioDone)
    (h : exec i s = .next t) : Settles s t ∧ t.mac = s.mac := by
  cases i
  case mdioDone => exact absurd rfl hmdio
  case txdmaComplete =>
    refine agentStep_settles h fun hb => ?_
    dsimp only at hb
    split_ifs at hb
    cases hb
    exact ⟨rfl, rfl, rfl, rfl⟩
  case rxFrameArrive =>
    refine agentStep_settles h fun hb => ?_
    split_ifs at hb
    cases hb
    simp [drawFrame_mdioFor]
  case rxdmaWrite =>
    refine agentStep_settles h fun hb => ?_
    split at hb
    · cases hb
    · split at hb <;> cases hb
      exact ⟨rfl, rfl, rfl, rfl⟩
  case txdmaFetch | txdmaSuspend | txdmaBusError | rxdmaSuspend | rxdmaBusError | statusEvent =>
    refine agentStep_settles h fun hb => ?_
    cases hb
    exact ⟨rfl, rfl, rfl, rfl⟩
  all_goals cases hi

theorem exec_mdioDone_next {s t : State} (h : exec .mdioDone s = .next t) :
    t = s.answer rcConfigError 0#32 ∨ s.env.issuer = .hw ∧ t = finishMdio s := by
  rcases agentStep_next h with ⟨hp, -, -, hb⟩ | ⟨-, ht⟩
  · cases hb
    exact .inr ⟨hp, rfl⟩
  · exact .inl ht

/-- Every instruction but MDIO_DONE settles. -/
theorem exec_settles {i : Instr} {s t : State} (hi : i ≠ .mdioDone) (h : exec i s = .next t) : Settles s t := by
  cases hhost : isHostOp i with
  | true => exact (exec_effect h).settles (hostPort_of_hostOp hhost h)
  | false =>
    cases hagent : isAgentStep i with
    | true => exact (exec_agentStep_settles hagent hi h).1
    | false => exact (exec_primitive_settles hhost hagent h).1

/-! The step. -/

/-- What a step from `s` to `t` does to port `q`. -/
inductive PortStep (s t : State) (q : Issuer) : Prop where
  /-- Not the port of the transition. -/
  | kept (hphase : (t.port q).phase = (s.port q).phase) (hwait : t.env.mdioFor = some q → s.env.mdioFor = some q)
      (hf : t.fatal = none → s.fatal = none)
  /-- A tuple was presented on it. -/
  | began (hh : isHeld (s.port q) = false) (hun : t.fatal = none → (t.port q).phase ≠ .unanswered)
  /-- Its hold has ended. -/
  | ended (k : Held) (hk : (s.port q).phase = .held k) (hmdio : k ≠ .mdioRead ∧ k ≠ .mdioWrite)
      (hans : (t.port q).phase = .answered)
  /-- The MDIO_DONE its operation waits for has come. -/
  | mdioDone (data : Half) (hi : runsNext s = some .mdioDone) (hwait : s.env.mdioFor = some q)
      (hphase : (t.port q).phase = mdioPhase data (s.port q).phase) (hf : t.fatal = none → s.fatal = none)
  | poweredOn (hin : s.env.inputs.head? = some .powerOn) (hidle : (t.port q).phase = .idle)

/-- A transition that settles. -/
theorem portStep_of_settles {s t : State} {p : Issuer} {w : OpTuple} (hh : isHeld (s.port p) = false)
    (hs : Settles (s.dropInput.latch p w) t) (q : Issuer) : PortStep s t q := by
  have hissuer : (s.dropInput.latch p w).env.issuer = p := by simp
  by_cases hq : q = p
  · subst hq
    exact .began hh fun hf => hissuer ▸ hs.own hf
  · refine .kept ?_ (fun hw => ?_) (fun hf => by simpa using hs.fatal hf)
    · rw [hs.others q (by rwa [hissuer]), latch_port, if_neg (fun h => hq h.1), port_dropInput]
    · simpa using hs.waits q (by rwa [hissuer]) hw

theorem portStep_mdioDone {s : State} {w : OpTuple} (hi : runsNext s = some .mdioDone) (q : Issuer) :
    PortStep s (finishMdio (s.dropInput.latch .hw w)) q := by
  have hport : (endTransaction (s.dropInput.latch .hw w)).port q = s.port q :=
    (port_congr (by simp) q).trans ((latch_port s.dropInput .hw q w).trans (by simp [port_dropInput]))
  have hwait : (endTransaction (s.dropInput.latch .hw w)).env.mdioFor = s.env.mdioFor := by
    unfold endTransaction drawPhy
    dsimp only
    split
    · rfl
    · split <;> rfl
  have hphase := congrArg PortRegs.phase (endMdioHold_port (endTransaction (s.dropInput.latch .hw w)) q)
  rw [hport, hwait] at hphase
  by_cases hq : s.env.mdioFor = some q ∧ q ≠ .hw
  · rw [if_pos hq] at hphase
    exact .mdioDone _ hi hq.1 hphase (by simp)
  · rw [if_neg hq] at hphase
    exact .kept hphase (by simp) (by simp)

theorem portStep_completeHeld {s t : State} {p : Issuer} (h : completeHeld p s.dropInput = .next t) (q : Issuer) :
    PortStep s t q := by
  obtain ⟨k, hk, -, hend⟩ := completeHeld_next h
  rw [port_dropInput] at hk
  have hp : p ≠ .hw := by
    rintro rfl
    cases hk
  have hanswer : ∃ u res val, t = State.answer u res val ∧ u.ports = s.ports ∧ u.env.issuer = p
      ∧ u.env.mdioFor = s.env.mdioFor ∧ u.fatal = s.fatal ∧ k ≠ .mdioRead ∧ k ≠ .mdioWrite := by
    rcases finishHeld_some hend with ⟨rfl, -, rfl⟩ | ⟨rfl, -, rfl⟩ | ⟨ret, rfl, rfl⟩
    all_goals exact ⟨_, _, _, rfl, rfl, rfl, rfl, rfl, nofun, nofun⟩
  obtain ⟨u, res, val, rfl, hports, hissuer, hwait, hfatal, hmdio⟩ := hanswer
  have hport := congrArg PortRegs.phase (answer_port u res val q)
  rw [hissuer, port_congr hports] at hport
  by_cases hq : q = p
  · subst hq
    rw [if_pos ⟨rfl, hp⟩] at hport
    exact .ended k hk hmdio hport
  · rw [if_neg (fun h => hq h.1)] at hport
    exact .kept hport (by simp [hwait]) (by simp [hfatal])

theorem portStep_read (s : State) (p : Issuer) (v : Word) (q : Issuer) :
    PortStep s (s.dropInput.setRdata p v).drew q := by
  refine .kept ?_ (by simp) (by simp)
  rw [port_congr (drew_ports _), State.setRdata, setPort_port]
  split
  · rename_i hq
    rw [hq.1, port_dropInput]
  · rw [port_dropInput]

/-- Everything a step can do to a port. -/
theorem step_portStep {s t : State} (h : step s = .next t) (q : Issuer) : PortStep s t q := by
  rcases step_next h with ⟨-, rfl⟩ | ⟨x, rest, hin, ⟨p, w, i, rfl, hh, hd, he⟩ | ⟨p, w, -, hh, -, hi⟩ | ⟨p, -, hc⟩
    | ⟨p, n, -, hr⟩ | ⟨p, a, -, hr⟩ | ⟨p, a, -, hr⟩ | ⟨p, a, v, -, hs⟩ | ⟨rfl, rfl⟩⟩
  · exact .kept rfl id id
  · by_cases hmdio : i = .mdioDone
    · subst hmdio
      rcases exec_mdioDone_next he with rfl | ⟨hp, rfl⟩
      · exact portStep_of_settles hh (settles_self_answer _ _ _) q
      · obtain rfl : p = .hw := by simpa using hp
        exact portStep_mdioDone (runsNext_present hin hh hd) q
    · exact portStep_of_settles hh (exec_settles hmdio he) q
  · obtain ⟨rfl, -, -⟩ := illegal_next hi
    exact portStep_of_settles hh (settles_self_answer _ _ _) q
  · exact portStep_completeHeld hc q
  iterate 3 exact Host.Outcome.next.inj hr ▸ portStep_read s p _ q
  · rw [hostStore_next hs]
    exact .kept (congrArg _ (port_congr rfl q)) (by simp) (by simp)
  · exact .poweredOn (by rw [hin]; rfl) (by cases q <;> rfl)

end Sys2Proof.Machine

/-! MDIO_READ and MDIO_WRITE (42_mac_driver.md R180, R181, 70_reset_and_hazards.md R351; O32). -/
namespace Sys2Proof.Machine

/-- The transaction starts, and the operation waits for it on its port. -/
theorem holdForMdio_eq {s : State} {p : Issuer} (wr : Bool) (dev reg : BitVec 5) (val : Half) (k : Held)
    (hp : s.env.issuer = p) :
    holdForMdio wr dev reg val k s = State.heldOn
      { s with
        mdio := { s.mdio with busy := true, req := ⟨wr, dev, reg, val⟩ }
        env := { s.env with mdioFor := some p } } p k := by
  rw [holdForMdio, hold_eq (s := startMdio wr dev reg val s) k hp, hp]
  cases p <;> rfl

/-- In a live engine the MDIO operations run their own lines on every host port. -/
theorem hostOp_mdio {s : State} {p : Issuer} (hr : Runs s p) (hport : isHostPort p) (hl : isLive s.life)
    (body : Result) : hostOp (mdioPorts s.env.issuer) colLive s body = body :=
  hostOp_run body (by rw [hr.1]; rcases hport with rfl | rfl | rfl <;> rfl) hr.2 (colLive_of_isLive hl)

/-- The beginning of both operations. -/
theorem mdioOperations_begin {s : State} {p : Issuer} (hr : Runs s p) (hport : isHostPort p) (hl : isLive s.life)
    (dev reg : BitVec 5) (val : Half) :
    (s.mdio.busy = false →
      exec (.mdioRead dev reg) s = .next (holdForMdio false dev reg 0#16 .mdioRead s)
        ∧ exec (.mdioWrite dev reg val) s = .next (holdForMdio true dev reg val .mdioWrite s))
      ∧ (s.mdio.busy = true →
        exec (.mdioRead dev reg) s = .refused .mdioWhileBusy
          ∧ exec (.mdioWrite dev reg val) s = .refused .mdioWhileBusy) := by
  have hread : exec (.mdioRead dev reg) s = _ := hostOp_mdio hr hport hl _
  have hwrite : exec (.mdioWrite dev reg val) s = _ := hostOp_mdio hr hport hl _
  rw [hread, hwrite]
  exact ⟨fun hb => ⟨if_neg (by simp [hb]), if_neg (by simp [hb])⟩, fun hb => ⟨if_pos hb, if_pos hb⟩⟩

/-- No step but the MDIO_DONE it waits for, and power-on, changes what an MDIO operation holds or lets its port wait. -/
theorem mdioHold_kept {s t : State} {p : Issuer} (h : step s = .next t)
    (hk : (s.port p).phase = .held .mdioRead ∨ (s.port p).phase = .held .mdioWrite) :
    ((t.port p).phase = (s.port p).phase ∧ (s.env.mdioFor ≠ some p → t.env.mdioFor ≠ some p))
      ∨ (runsNext s = some .mdioDone ∧ s.env.mdioFor = some p) ∨ s.env.inputs.head? = some .powerOn := by
  cases step_portStep h p with
  | kept hphase hwait => exact .inl ⟨hphase, mt hwait⟩
  | began hh => rcases hk with hk | hk <;> simp [isHeld, hk] at hh
  | ended k hk' hmdio =>
    rw [hk'] at hk
    rcases hk with hk | hk
    · exact absurd (Phase.held.inj hk) hmdio.1
    · exact absurd (Phase.held.inj hk) hmdio.2
  | mdioDone _ hi hwait => exact .inr (.inl ⟨hi, hwait⟩)
  | poweredOn hin => exact .inr (.inr hin)

/-- Settles O32: the beginning, the end of the hold, and what a step does to the port that holds. -/
theorem mdioOperationsHoldThenAnswer : Obligations.MdioOperationsHoldThenAnswer := by
  refine ⟨fun s p dev reg val hr hport hl => ?_, fun s p rest hport hin hf => ⟨fun v hk => ?_, fun hk => ?_⟩,
    fun s t p h hk => mdioHold_kept h hk⟩
  · rw [← holdForMdio_eq _ _ _ _ _ hr.1, ← holdForMdio_eq _ _ _ _ _ hr.1]
    exact mdioOperations_begin hr hport hl dev reg val
  · exact step_complete_some hin hf hk (congrArg some (answer_eq _ _ rfl))
  · rcases hk with hk | hk <;> exact step_complete_none hin hf hk rfl

end Sys2Proof.Machine

/-! The flags of the filter along a run (42_mac_driver.md R182; O30). -/
namespace Sys2Proof.Machine

/-! Between two steps no host operation is half done. -/

/-- Every step keeps `SeqInv`, from any state. -/
theorem step_seqInv {s t : State} (hs : SeqInv s) (h : step s = .next t) : SeqInv t := by
  intro hf
  rw [sequencing_false_iff]
  intro q hq hun
  have hidle : s.fatal = none → (s.port q).phase ≠ .unanswered := fun hf => (sequencing_false_iff s).1 (hs hf) q hq
  cases step_portStep h q with
  | kept hphase _ hfatal => exact hidle (hfatal hf) (hphase ▸ hun)
  | began _ hown => exact hown hf hun
  | ended _ _ _ hans => simp [hans] at hun
  | mdioDone data _ _ hphase hfatal =>
    exact hidle (hfatal hf) ((mdioPhase_kept data _).2.2 (hphase ▸ hun))
  | poweredOn _ hidle => simp [hidle] at hun

/-- So no primitive runs. -/
theorem not_sequences_of_seqInv {s : State} (hs : SeqInv s) (p : Issuer) (w : OpTuple) :
    ¬ Sequences (s.dropInput.latch p w) := by
  rintro ⟨⟨hp, hf⟩, hseq⟩
  obtain rfl : p = .be := by simpa using hp
  have : sequencing s = false := hs (by simpa using hf)
  exact Bool.false_ne_true (this.symm.trans hseq)

/-! The instructions. -/

/-- The flags that SET_PROMISC 0 restores are as they were. -/
@[simp] abbrev FlagsKept (s t : State) : Prop :=
  t.mac.pam = s.mac.pam ∧ t.mac.effPam = s.mac.effPam ∧ t.mac.effPau = s.mac.effPau

theorem flagsKept_of_mac {s t : State} (h : t.mac = s.mac) : FlagsKept s t := by
  rw [FlagsKept, h]
  exact ⟨rfl, rfl, rfl⟩

theorem flagsKept_hostOp {legal : Bool} {cell : Life → Cell} {s t : State} {body : Result}
    (h : hostOp legal cell s body = .next t) (hbody : body = .next t → FlagsKept s t) : FlagsKept s t := by
  rcases hostOp_next h with ⟨-, -, -, hb⟩ | ⟨-, -, -, rfl⟩ | ⟨-, -, -, rfl⟩ | ⟨-, rfl⟩
  · exact hbody hb
  all_goals exact flagsKept_of_mac (by simp)

/-- Every host operation but INIT, SET_PAM and SET_PROMISC leaves the flags alone. -/
theorem exec_hostOp_flags {i : Instr} {s t : State} (hi : isHostOp i = true) (hinit : i ≠ .init)
    (hpam : ∀ v, i ≠ .setPam v) (hpromisc : ∀ v, i ≠ .setPromisc v) (h : exec i s = .next t) : FlagsKept s t := by
  cases i
  case init => exact absurd rfl hinit
  case setPam v => exact absurd rfl (hpam v)
  case setPromisc v => exact absurd rfl (hpromisc v)
  case deinit =>
    refine flagsKept_hostOp h fun hb => ?_
    dsimp only at hb
    have hbegin : FlagsKept s (beginDeinit s) := by
      rw [FlagsKept, beginDeinit_mac]
      exact ⟨rfl, rfl, rfl⟩
    split at hb <;> cases hb <;> simpa [finishDeinit_mac] using hbegin
  case enable =>
    refine flagsKept_hostOp h fun hb => ?_
    split at hb
    · cases hb
      simp
    · split_ifs at hb
      cases hb
      simp
  case disable =>
    refine flagsKept_hostOp h fun hb => ?_
    dsimp only at hb
    split at hb <;> cases hb <;> simp
  case txEnqueue | rxPrime | addMcast | setOwnAddr | mdioRead | mdioWrite =>
    refine flagsKept_hostOp h fun hb => ?_
    split_ifs at hb <;> cases hb <;> simp
  case txReclaim =>
    refine flagsKept_hostOp h fun hb => ?_
    cases hb
    simp
  case clearMcast =>
    refine flagsKept_hostOp h fun hb => ?_
    cases hb
    rw [FlagsKept, answer_mac, clearMcastSlots_frame]
    exact ⟨rfl, rfl, rfl⟩
  case rxPoll =>
    refine flagsKept_hostOp h fun hb => ?_
    split at hb <;> cases hb
    obtain ⟨-, -, -, -, hmac, -⟩ := poll_frame ‹_›
    exact flagsKept_of_mac (by simpa using hmac)
  case isrDispatch =>
    refine flagsKept_hostOp h fun hb => ?_
    dsimp only at hb
    split_ifs at hb
    iterate 3
      cases hb
      simp
    split at hb <;> cases hb
    obtain ⟨-, -, -, hmac, -⟩ := serve_frame ‹_›
    exact flagsKept_of_mac (by simpa using hmac)
  all_goals cases hi

/-- SET_PROMISC leaves `pam` alone (10_state.md R40). -/
theorem exec_setPromisc_pam {s t : State} {v : Bool} (h : exec (.setPromisc v) s = .next t) :
    t.mac.pam = s.mac.pam := by
  rcases hostOp_next h with ⟨-, -, -, hb⟩ | ⟨-, -, -, rfl⟩ | ⟨-, -, -, rfl⟩ | ⟨-, rfl⟩
  · cases hb
    simp
  all_goals simp

/-- What an instruction other than INIT and SET_PAM does to the flags. -/
theorem exec_flags {i : Instr} {s t : State} (hseq : ¬ Sequences s) (hinit : i ≠ .init) (hpam : ∀ v, i ≠ .setPam v)
    (h : exec i s = .next t) : FlagsKept s t ∨ (∃ v, i = .setPromisc v) ∧ t.mac.pam = s.mac.pam := by
  by_cases hpromisc : ∃ v, i = .setPromisc v
  · obtain ⟨v, rfl⟩ := hpromisc
    exact .inr ⟨⟨v, rfl⟩, exec_setPromisc_pam h⟩
  · refine .inl ?_
    cases hhost : isHostOp i with
    | true => exact exec_hostOp_flags hhost hinit hpam (not_exists.1 hpromisc) h
    | false =>
      refine flagsKept_of_mac ?_
      by_cases hmdio : i = .mdioDone
      · subst hmdio
        rcases exec_mdioDone_next h with rfl | ⟨-, rfl⟩ <;> simp
      · cases hagent : isAgentStep i with
        | true => exact (exec_agentStep_settles hagent hmdio h).2
        | false =>
          obtain rfl := (exec_primitive_settles hhost hagent h).2.resolve_left hseq
          simp

/-! The steps. -/

/-- The step of `s` is none of those that write `pam`: SET_PAM, INIT and power-on. -/
abbrev LeavesPam (s : State) : Prop :=
  s.env.inputs.head? ≠ some .powerOn ∧ runsNext s ≠ some .init ∧ ∀ v, runsNext s ≠ some (.setPam v)

/-- What a step that does not write `pam` does to the flags. -/
theorem step_flags {s t : State} (hs : SeqInv s) (hp : LeavesPam s) (h : step s = .next t) :
    FlagsKept s t ∨ (∃ v, runsNext s = some (.setPromisc v)) ∧ t.mac.pam = s.mac.pam := by
  obtain ⟨hpower, hinit, hpam⟩ := hp
  rcases step_next h with ⟨-, rfl⟩ | ⟨x, rest, hin, ⟨p, w, i, rfl, hh, hd, he⟩ | ⟨p, w, -, -, -, hi⟩ | ⟨p, -, hc⟩
    | ⟨p, n, -, hr⟩ | ⟨p, a, -, hr⟩ | ⟨p, a, -, hr⟩ | ⟨p, a, v, -, hstore⟩ | ⟨rfl, -⟩⟩
  · exact .inl ⟨rfl, rfl, rfl⟩
  · have hruns := runsNext_present hin hh hd
    simp only [hruns, Option.some.injEq, ne_eq] at hinit hpam ⊢
    simpa using exec_flags (not_sequences_of_seqInv hs p w) hinit hpam he
  · obtain ⟨rfl, -, -⟩ := illegal_next hi
    exact .inl (by simp)
  · obtain ⟨k, -, -, hend⟩ := completeHeld_next hc
    rcases finishHeld_some hend with ⟨-, -, rfl⟩ | ⟨-, -, rfl⟩ | ⟨ret, -, rfl⟩
    all_goals exact .inl (by simp [finishDeinit_mac])
  iterate 3 exact .inl (flagsKept_of_mac (by rw [← Host.Outcome.next.inj hr]; simp))
  · rw [hostStore_next hstore]
    exact .inl ⟨rfl, rfl, rfl⟩
  · exact absurd (by rw [hin]; rfl) hpower

/-! Runs. -/

/-- What every step from a state with `P` keeps, a run of such steps keeps. -/
theorem Steps.keeps {P Q : State → Prop} (hstep : ∀ s t, P s → Q s → step s = .next t → Q t) {s t : State}
    (h : Steps P s t) (hq : Q s) : Q t := by
  induction h with
  | refl s => exact hq
  | cons s t u hp hst _ ih => exact ih (hstep s t hp hq hst)

/-- A step that does not write `pam` keeps it. -/
theorem step_pam {s t : State} (hs : SeqInv s) (hp : LeavesPam s) (h : step s = .next t) : t.mac.pam = s.mac.pam :=
  (step_flags hs hp h).elim And.left And.right

theorem steps_pam {s t : State} (hs : SeqInv s) (h : Steps LeavesPam s t) : SeqInv t ∧ t.mac.pam = s.mac.pam :=
  h.keeps (Q := fun u => SeqInv u ∧ u.mac.pam = s.mac.pam)
    (fun _ _ hp hq hstep => ⟨step_seqInv hq.1 hstep, (step_pam hq.1 hp hstep).trans hq.2⟩) ⟨hs, rfl⟩

/-- SET_PROMISC presented on the foreground is what runs next. -/
theorem setPromisc_presented {s t : State} {v : Bool}
    (hin : s.env.inputs.head? = some (.present .fg (encode (.setPromisc v)))) (h : step s = .next t) :
    runsNext s = some (.setPromisc v)
      ∧ step s = exec (.setPromisc v) (s.dropInput.latch .fg (encode (.setPromisc v))) := by
  obtain ⟨rest, hin⟩ := List.head?_eq_some_iff.1 hin
  have hd := decodeEncode (.setPromisc v) rfl
  cases hh : isHeld (s.port .fg) with
  | true => cases (step_present_held hin hh).symm.trans h
  | false => exact ⟨runsNext_present hin hh hd, step_present_decoded hin hh hd⟩

theorem leavesPam_of_setPromisc {s t : State} {v : Bool}
    (hin : s.env.inputs.head? = some (.present .fg (encode (.setPromisc v)))) (h : step s = .next t) : LeavesPam s := by
  obtain ⟨hruns, -⟩ := setPromisc_presented hin h
  simp [LeavesPam, hin, hruns]

/-- SET_PROMISC in a live engine, as a step: the effective bits are recomputed. -/
theorem step_setPromisc {s t : State} {v : Bool} (hf : s.fatal = none) (hl : isLive s.life)
    (hin : s.env.inputs.head? = some (.present .fg (encode (.setPromisc v)))) (h : step s = .next t) :
    t.mac.effPam = (s.mac.pam || v) ∧ t.mac.effPau = v := by
  obtain ⟨-, hexec⟩ := setPromisc_presented hin h
  rw [exec_setPromisc v ⟨by simp, by simpa using hf⟩ (by simpa using hl)] at hexec
  cases hexec.symm.trans h
  simp [State.answeredOn]

/-- Settles O30: `pam` is kept all along; SET_PROMISC 0 makes `effPam` equal to it and clears `effPau`, and no step
after it writes them. -/
theorem promiscuousIndependence : Obligations.PromiscuousIndependence := by
  intro s0 s1 s2 s3 s4 t keepsPam hseq h01 hin1 h12 h23 hf hl hin3 h34 h4t
  obtain ⟨hseq1, hpam1⟩ := steps_pam hseq h01
  have hpam2 := step_pam hseq1 (leavesPam_of_setPromisc hin1 h12) h12
  obtain ⟨hseq3, hpam3⟩ := steps_pam (step_seqInv hseq1 h12) h23
  have hpam4 := step_pam hseq3 (leavesPam_of_setPromisc hin3 h34) h34
  obtain ⟨heffPam, heffPau⟩ := step_setPromisc hf hl hin3 h34
  obtain ⟨-, hpamt, heffPamt, heffPaut⟩ := h4t.keeps (Q := fun u => SeqInv u ∧ FlagsKept s4 u)
    (fun u v hp ⟨hsu, hu1, hu2, hu3⟩ hstep => by
      obtain ⟨hv1, hv2, hv3⟩ := (step_flags hsu hp.1 hstep).resolve_right fun h => h.1.elim hp.2
      exact ⟨step_seqInv hsu hstep, hv1.trans hu1, hv2.trans hu2, hv3.trans hu3⟩)
    ⟨step_seqInv hseq3 h34, rfl, rfl, rfl⟩
  have hpam : s3.mac.pam = s0.mac.pam := hpam3.trans (hpam2.trans hpam1)
  refine ⟨hpamt.trans (hpam4.trans hpam), heffPamt.trans (heffPam.trans ?_), heffPaut.trans heffPau⟩
  rw [Bool.or_false, hpam]

end Sys2Proof.Machine

/-! The checks of the host operations (43_engine.md R201, R202, R206; O6, O7). -/
namespace Sys2Proof.Machine

/-- The column of the table of admission a host operation is checked against; most have that of a live engine. -/
def hostColumn : Instr → Life → Cell
  | .init => colInit
  | .disable => colDisable
  | .txEnqueue _ _ _ _ => colEnqueue
  | .isrDispatch _ => colAny
  | _ => colLive

/-- Every host operation is its checks, with its port and its column, before its own lines. -/
theorem exec_eq_hostOp {i : Instr} (hi : isHostOp i = true) (s : State) :
    ∃ body, exec i s = hostOp (portAccepts s.cfg s.env.issuer i) (hostColumn i) s body := by
  cases i
  case init | deinit | enable | disable | txEnqueue | txReclaim | rxPrime | rxPoll | setOwnAddr | addMcast | clearMcast
      | setPam | setPromisc | mdioRead | mdioWrite | isrDispatch => exact ⟨_, rfl⟩
  all_goals cases hi

/-- Every other instruction that is no step of an agent is a primitive. -/
theorem exec_eq_primitive {i : Instr} (hi : isHostOp i = false) (ha : isAgentStep i = false) (s : State) :
    ∃ inRange pre eff val, exec i s = primitive s inRange pre eff val := by
  cases i
  case startDma | stopDma | isSlotOwnedByDma | writeTxDesc | writeRxDesc | isFirstFragment | isLastFragment
      | isErrorFragment | totalFrameLength | isBufferDmaReadable | writeUnicastAddr | writeMcastAddr | setLinkConfig
      | mdioTransaction | writeFilterFlags => exact ⟨_, _, _, _, rfl⟩
  case txdmaFetch | txdmaComplete | txdmaSuspend | txdmaBusError | rxFrameArrive | rxdmaWrite | rxdmaSuspend
      | rxdmaBusError | statusEvent | mdioDone => cases ha
  all_goals cases hi

theorem exec_eq_agentStep {i : Instr} (ha : isAgentStep i = true) (s : State) :
    ∃ body, exec i s = agentStep s (agentEnabled s i) body := by
  cases i
  case txdmaFetch | txdmaComplete | txdmaSuspend | txdmaBusError | rxFrameArrive | rxdmaWrite | rxdmaSuspend
      | rxdmaBusError | statusEvent | mdioDone => exact ⟨_, rfl⟩
  all_goals cases ha

/-- No agent takes a step once the fatal latch is set. -/
theorem agentStep_fatal {s : State} {enabled : Bool} (body : Result) (hp : s.env.issuer = .hw)
    (hf : s.fatal.isSome = true) : agentStep s enabled body = .fault .fatalLatched := by
  simp [agentStep, hp, hf]

/-- No hold ends once the fatal latch is set. -/
theorem completeHeld_fatal {s : State} {p : Issuer} {k : Held} (hk : (s.port p).phase = .held k)
    (hf : s.fatal.isSome = true) : completeHeld p s = .fault .fatalLatched := by
  simp [completeHeld, hk, hf]

/-- Settles O6: the latch is looked at before the lines of any operation. -/
theorem fatalGating : Obligations.FatalGating := by
  intro s hfatal
  have hf : s.fatal.isSome = true := Option.isSome_iff_ne_none.2 hfatal
  refine ⟨fun i hi hacc => ?_, fun i ha hp => ?_, fun i hi ha hp => ?_, fun p k hk => completeHeld_fatal hk hf,
    fun p n => ⟨_, rfl⟩⟩
  · obtain ⟨body, hexec⟩ := exec_eq_hostOp hi s
    exact hexec.trans (hostOp_fatal body hacc hf)
  · obtain ⟨body, hexec⟩ := exec_eq_agentStep ha s
    exact hexec.trans (agentStep_fatal body hp hf)
  · obtain ⟨inRange, pre, eff, val, hexec⟩ := exec_eq_primitive hi ha s
    exact hexec.trans (primitive_fatal eff val hp hf)

/-- The entries CE and OK of the table are those of the columns the checks look at. -/
theorem hostColumn_of_admission {i : Instr} {l : Life} (hi : isHostOp i = true) :
    (admission i l = .ce → hostColumn i l = .ce) ∧ (admission i l = .ok → hostColumn i l = .ok) := by
  cases i
  case init | deinit | enable | disable | txEnqueue | txReclaim | rxPrime | rxPoll | setOwnAddr | addMcast | clearMcast
      | setPam | setPromisc | mdioRead | mdioWrite | isrDispatch =>
    cases l <;> exact ⟨fun h => by cases h <;> rfl, fun h => by cases h <;> rfl⟩
  all_goals cases hi

/-- Settles O7: the entry of the table is the cell of the operation's column. -/
theorem admissionTable : Obligations.AdmissionTable := by
  rintro i s p hi ⟨rfl, hf⟩ hacc
  obtain ⟨body, hexec⟩ := exec_eq_hostOp hi s
  obtain ⟨hce, hok⟩ := hostColumn_of_admission (l := s.life) hi
  rw [hexec, ← answer_eq _ _ rfl, ← answer_eq _ _ rfl]
  exact ⟨fun h => hostOp_ce body hacc hf (hce h), fun h => hostOp_ok body hacc hf (hok h)⟩

end Sys2Proof.Machine

/-! INIT with an empty pool or on a bad platform, and DEINIT (43_engine.md R203, R204; O12, O13). -/
namespace Sys2Proof.Machine

/-- The draws of INIT go on after some that were not empty. -/
theorem drawPool_add {m : Nat} (n : Nat) {taken bufs : List Word} {s u : State}
    (h : drawPool m taken s = (true, bufs, u)) : drawPool (m + n) taken s = drawPool n bufs u := by
  induction m generalizing taken s with
  | zero =>
    cases h
    rw [Nat.zero_add]
  | succ m ih =>
    rw [Nat.succ_add]
    rw [drawPool] at h ⊢
    split at h
    · exact ih h
    · cases h

/-- The draws of INIT from a pool that is empty before there is a pointer for each of the `n` slots. -/
theorem drawPool_of_emptied {n : Nat} {bufs : List Word} {s : State} {rest : List (Option Word)}
    (hlen : bufs.length < n) (hnd : bufs.Nodup) (halloc : s.env.alloc = bufs.map some ++ none :: rest) :
    drawPool n [] s = (false, bufs, { s with env := { s.env with alloc := rest } }) := by
  obtain ⟨k, rfl⟩ := Nat.exists_eq_add_of_lt hlen
  rw [Nat.add_assoc, drawPool_add (k + 1) (drawPool_of_alloc bufs [] halloc (by simpa using hnd))]
  rfl

/-- INIT of the foreground before the engine is live is its own lines, for parameters in range. -/
theorem exec_init {s : State} (hr : Runs s .fg) (hl : s.life = .uninitialized ∨ s.life = .deinitialized) :
    exec .init s = if s.cfg.wf then runInit s else .refused .platformOutsideSpec :=
  hostOp_run _ (by rw [hr.1]; rfl) hr.2 (by rcases hl with h | h <;> rw [h] <;> rfl)

/-- Settles O12, by what the draws give. -/
theorem initOutOfMemory : Obligations.InitOutOfMemory := by
  intro s bufs rest hr hl
  rw [exec_init hr hl]
  refine ⟨fun hw hlen hnd halloc => ?_, fun hw => if_neg (by simp [hw]), fun hw hlen hnd halloc hmeets => ?_⟩
  · rw [if_pos hw, runInit, drawPool_of_emptied hlen hnd halloc]
    exact congrArg _ (answer_eq _ _ (by exact hr.1))
  · have hfull := drawPool_of_alloc bufs [] halloc (by simpa using hnd)
    rw [if_pos hw, runInit, ← hlen, hfull]
    exact if_pos (by simpa using hmeets)

/-- DEINIT lines 4 to 7 (43_engine.md R204). -/
theorem beginDeinit_eq (s : State) :
    beginDeinit s = { s with
      irq := ⟨s.irq.status, 0#10, false⟩
      tx := { s.tx with dma := .stopped }
      rx := { s.rx with dma := .stopped }
      mac := { s.mac with macEn := if s.life = .enabled then false else s.mac.macEn } } := by
  unfold beginDeinit
  dsimp only
  split <;> rfl

theorem exec_deinit {s : State} (hr : Runs s .fg) (hl : isLive s.life) :
    exec .deinit s = .next (if quiet (beginDeinit s) then finishDeinit (beginDeinit s)
      else (beginDeinit s).hold .deinit) :=
  hostOp_foreground hr hl _

/-- What DEINIT turns off does not change what is in flight. -/
@[simp] theorem quiet_beginDeinit (s : State) : quiet (beginDeinit s) = quiet s := by
  simp [quiet]

/-- DEINIT lines 9 to 19 (43_engine.md R204) once nothing is in flight, on the foreground. -/
theorem finishDeinit_eq {s : State} (hp : s.env.issuer = .fg) (htx : s.tx.inflight = none)
    (hrx : s.rx.pending = none) :
    finishDeinit s = State.answeredOn
      { s with
        life := .deinitialized
        irq := { s.irq with status := 0#10 }
        tx := { clearTx s.cfg with dma := s.tx.dma, inflight := none }
        rx := { clearRx s.cfg with dma := s.rx.dma, pending := none }
        env := { s.env with races := [] }
        out := { s.out with
          notify := s.out.notify
            ++ (booked s.tx.book s.cfg.dTx s.tx.cursor (s.cfg.dTx - s.tx.free)).map Notification.bufferReleased
            ++ (booked s.rx.book s.cfg.dRx s.rx.cursor (s.cfg.dRx - s.rx.unprimed)).map
                Notification.bufferReleased } } .fg 0#32 0#32 := by
  rw [finishDeinit, answer_eq _ _ (by exact hp), tearDown, htx, hrx]
  rfl

/-- Settles O13: DEINIT by what is in flight, and its end by the same condition. -/
theorem deinitCompletes : Obligations.DeinitCompletes := by
  refine ⟨fun s hr hl htx hrx => ?_, fun s hr hl hbusy => ?_, fun s rest hin hf hk htx hrx => ?_,
    fun s rest hin hf hk hbusy => ?_⟩
  · rw [exec_deinit hr hl, quiet_beginDeinit, if_pos (quiet_eq_true htx hrx),
      finishDeinit_eq (by simpa using hr.1) (by simpa using htx) (by simpa using hrx), beginDeinit_eq]
  · rw [exec_deinit hr hl, quiet_beginDeinit, quiet_eq_false hbusy, if_neg nofun,
      hold_eq _ (by simpa using hr.1), beginDeinit_eq]
  · have hend := finishDeinit_eq (s := { s with env := { s.env with inputs := rest, issuer := .fg } }) rfl htx hrx
    exact step_complete_some hin hf hk ((if_pos (quiet_eq_true htx hrx)).trans (congrArg some hend))
  · exact step_complete_none hin hf hk (if_neg (Bool.eq_false_iff.1 (quiet_eq_false hbusy)))

end Sys2Proof.Machine

/-! Which state each family writes (43_engine.md R205; O50). An instruction answers on its port, or does its work and
answers: the footprints allow the first of any state, and are shown of the work. -/
namespace Sys2Proof.Machine

/-- What holds of an answer on the unchanged state holds of a host operation, if it holds of its own lines. -/
theorem hostOp_keeps {P : State → Prop} {legal : Bool} {cell : Life → Cell} {s t : State} {body : Result}
    (hanswer : ∀ res val, P (s.answer res val)) (h : hostOp legal cell s body = .next t)
    (hbody : cell s.life = .run → body = .next t → P t) : P t := by
  rcases hostOp_next h with ⟨-, -, hc, hb⟩ | ⟨-, -, -, rfl⟩ | ⟨-, -, -, rfl⟩ | ⟨-, rfl⟩
  · exact hbody hc hb
  all_goals exact hanswer _ _

theorem agentStep_keeps {P : State → Prop} {enabled : Bool} {s t : State} {body : Result}
    (hanswer : ∀ res val, P (s.answer res val)) (h : agentStep s enabled body = .next t)
    (hbody : body = .next t → P t) : P t := by
  rcases agentStep_next h with ⟨-, -, -, hb⟩ | ⟨-, rfl⟩
  · exact hbody hb
  · exact hanswer _ _

/-- A footprint `F s t` is `s` with what may be written taken from `t`. One with the words of the ports in it allows an
answer. -/
theorem answer_within {F : State → State → State} {s u : State}
    (hF : ∀ u ports, F s { u with ports := ports } = { F s u with ports := ports }) (hu : u = F s u) (res val : Word) :
    u.answer res val = F s (u.answer res val) := by
  have hports := congrArg (fun v : State => { v with ports := (u.answer res val).ports }) hu
  rw [← hF] at hports
  rw [answer_frame u res val]
  exact hports

theorem state_ext {s t : State} (hcfg : s.cfg = t.cfg) (hlife : s.life = t.life) (hfatal : s.fatal = t.fatal)
    (htx : s.tx = t.tx) (hrx : s.rx = t.rx) (hmac : s.mac = t.mac) (hmdio : s.mdio = t.mdio) (hirq : s.irq = t.irq)
    (hcnt : s.cnt = t.cnt) (hout : s.out = t.out) (hmem : s.mem = t.mem) (hports : s.ports = t.ports)
    (henv : s.env = t.env) : s = t := by
  cases s
  cases t
  simp_all only

/-- Raising sources of a mask changes no bit outside it. -/
theorem raised_within {m mask : BitVec 10} (st : BitVec 10) (h : m &&& ~~~mask = 0#10) :
    ((st ||| m) ^^^ st) &&& ~~~mask = 0#10 := by
  have hraised : (st ||| m) ^^^ st = m &&& ~~~st := by
    ext k
    rw [BitVec.getElem_xor, BitVec.getElem_or, BitVec.getElem_and, BitVec.getElem_not]
    cases st[k] <;> simp
  rw [hraised, BitVec.and_assoc, BitVec.and_comm (~~~st), ← BitVec.and_assoc, h, BitVec.zero_and]

/-! The Tx family. -/

/-- `s` with what the Tx family may write taken from `t`. -/
def txWritten (s t : State) : State :=
  { s with
    tx := t.tx, irq := { s.irq with status := t.irq.status }, ports := t.ports
    out := { s.out with notify := t.out.notify, txWire := t.out.txWire }
    env := { s.env with races := t.env.races, drawn := t.env.drawn } }

/-- What R205 says of the instruction `i` of the Tx family. -/
def TxFootprint (i : Instr) (s t : State) : Prop :=
  t = txWritten s t ∧ (t.irq.status ^^^ s.irq.status) &&& ~~~0x005#10 = 0#10 ∧ (i ≠ .txdmaComplete → t.env = s.env)

theorem TxFootprint.answer {i : Instr} {s u : State} (h : TxFootprint i s u) (res val : Word) :
    TxFootprint i s (u.answer res val) := by
  obtain ⟨hu, hirq, henv⟩ := h
  exact ⟨answer_within (fun _ _ => rfl) hu res val, by simpa using hirq, by simpa using henv⟩

theorem txFootprint_self_answer (i : Instr) (s : State) (res val : Word) : TxFootprint i s (s.answer res val) :=
  TxFootprint.answer ⟨rfl, by simp, fun _ => rfl⟩ res val

theorem txFootprint_enqueueSlot (i : Instr) (first last : Bool) (buf : Word) (len : Half) (s : State) :
    TxFootprint i s (enqueueSlot first last buf len s) := by
  refine ⟨?_, by simp, fun _ => by simp⟩
  unfold enqueueSlot
  dsimp only
  split <;> rfl

theorem txFootprint_reclaim (i : Instr) (s : State) : TxFootprint i s (reclaim s).1 := by
  refine ⟨?_, by simp, fun _ => by simp⟩
  rw [reclaim_frame s]
  rfl

theorem exec_txFootprint {i : Instr} {s t : State}
    (hi : i = .txReclaim ∨ i = .txdmaFetch ∨ i = .txdmaComplete ∨ i = .txdmaSuspend ∨ i = .txdmaBusError
      ∨ ∃ first last buf len, i = .txEnqueue first last buf len) (h : exec i s = .next t) : TxFootprint i s t := by
  have hanswer := txFootprint_self_answer i s
  rcases hi with rfl | rfl | rfl | rfl | rfl | ⟨first, last, buf, len, rfl⟩
  · refine hostOp_keeps hanswer h fun _ hb => ?_
    cases hb
    exact (txFootprint_reclaim _ s).answer _ _
  · refine agentStep_keeps hanswer h fun hb => ?_
    cases hb
    exact ⟨rfl, by simp, fun _ => rfl⟩
  · refine agentStep_keeps hanswer h fun hb => ?_
    dsimp only at hb
    split_ifs at hb
    cases hb
    exact ⟨rfl, raised_within _ rfl, fun hne => absurd rfl hne⟩
  · refine agentStep_keeps hanswer h fun hb => ?_
    cases hb
    exact ⟨rfl, by simp, fun _ => rfl⟩
  · refine agentStep_keeps hanswer h fun hb => ?_
    cases hb
    exact ⟨rfl, raised_within _ rfl, fun _ => rfl⟩
  · refine hostOp_keeps hanswer h fun _ hb => ?_
    split_ifs at hb <;> cases hb
    · exact hanswer _ _
    · exact (txFootprint_enqueueSlot _ first last buf len s).answer _ _

/-! The Rx family. -/

/-- `s` with what the Rx family may write taken from `t`. -/
def rxWritten (s t : State) : State :=
  { s with
    rx := t.rx, irq := { s.irq with status := t.irq.status }, ports := t.ports, mem := t.mem
    cnt := { s.cnt with rxError := t.cnt.rxError }, out := { s.out with notify := t.out.notify }
    env := { s.env with
      alloc := t.env.alloc, wire := t.env.wire, races := t.env.races, drawn := t.env.drawn } }

/-- What R205 says of the instruction `i` of the Rx family. -/
def RxFootprint (i : Instr) (s t : State) : Prop :=
  t = rxWritten s t ∧ (t.irq.status ^^^ s.irq.status) &&& ~~~0x17A#10 = 0#10
    ∧ (i ≠ .rxdmaWrite → t.mem = s.mem ∧ t.env.races = s.env.races)
    ∧ ∀ a : Word, s.cfg.rxBufSize ≤ (a - (s.rxSlot s.rx.hw).buf).toNat → memRead t.mem a.toNat = memRead s.mem a.toNat

theorem RxFootprint.answer {i : Instr} {s u : State} (h : RxFootprint i s u) (res val : Word) :
    RxFootprint i s (u.answer res val) := by
  obtain ⟨hu, hirq, hkept, hmem⟩ := h
  exact ⟨answer_within (fun _ _ => rfl) hu res val, by simpa using hirq, by simpa using hkept, by simpa using hmem⟩

/-- The instructions but RXDMA_WRITE do not write memory at all. -/
theorem rxFootprint_of_mem {s t : State} (i : Instr) (ht : t = rxWritten s t)
    (hirq : (t.irq.status ^^^ s.irq.status) &&& ~~~0x17A#10 = 0#10) (hmem : t.mem = s.mem)
    (hraces : t.env.races = s.env.races) : RxFootprint i s t :=
  ⟨ht, hirq, fun _ => ⟨hmem, hraces⟩, fun _ _ => by rw [hmem]⟩

theorem rxFootprint_self_answer (i : Instr) (s : State) (res val : Word) : RxFootprint i s (s.answer res val) :=
  (rxFootprint_of_mem i rfl (by simp) rfl rfl).answer res val

theorem rxFootprint_primeSlot (i : Instr) (buf : Word) (s : State) : RxFootprint i s (primeSlot buf s) := by
  refine rxFootprint_of_mem i ?_ (by simp) (by simp) (by simp)
  unfold primeSlot
  dsimp only
  split <;> rfl

theorem rxFootprint_poll (i : Instr) {s u : State} {n : Nat} (h : poll s = .ok (u, n)) : RxFootprint i s u := by
  obtain ⟨hcfg, hlife, hfatal, htx, hmac, hmdio, hirq, hmem, hports, hcnt, hout, henv⟩ := poll_frame h
  have hwire : u.env.wire = s.env.wire := by rw [henv]
  have hraces : u.env.races = s.env.races := by rw [henv]
  refine rxFootprint_of_mem i ?_ (by simp [hirq]) hmem hraces
  exact state_ext hcfg hlife hfatal htx rfl hmac hmdio (by rw [rxWritten, hirq]) hcnt hout rfl rfl
    (henv.trans (by rw [rxWritten, hwire, hraces]))

/-- A draw from the wire. -/
theorem drawFrame_eq (s : State) : ∃ wire drawn,
    (drawFrame s).2 = { s with env := { s.env with wire := wire, drawn := drawn } } := by
  unfold drawFrame
  dsimp only
  split
  · exact ⟨_, _, rfl⟩
  · exact ⟨_, _, rfl⟩

theorem rxFootprint_frameArrives (i : Instr) (f : Frame) (s : State) :
    RxFootprint i s (frameArrives f (drawFrame s).2) := by
  obtain ⟨wire, drawn, hdraw⟩ := drawFrame_eq s
  rw [hdraw]
  rcases frameArrives_cases f { s with env := { s.env with wire := wire, drawn := drawn } } with
    ⟨-, h⟩ | ⟨-, -, h⟩ | ⟨-, -, -, h⟩ | ⟨-, -, -, h⟩ <;> rw [h]
  · exact rxFootprint_of_mem i rfl (by simp) rfl rfl
  · exact rxFootprint_of_mem i rfl (raised_within _ rfl) rfl rfl
  · exact rxFootprint_of_mem i rfl (raised_within _ rfl) rfl rfl
  · exact rxFootprint_of_mem i rfl (by simp) rfl rfl

/-- The sources RXDMA_WRITE raises are of the Rx family. -/
theorem writeIrq_within (f : RxFrame) (w : WriteCase) (c : Params) : writeIrq f w c &&& ~~~0x17A#10 = 0#10 := by
  unfold writeIrq
  generalize f.errs.crc = crc, f.errs.tooLong = tooLong, f.errs.align = align, c.chained = chained
  cases w <;> revert crc tooLong align chained <;> decide

theorem rxFootprint_writeRx (f : RxFrame) (s : State) : RxFootprint .rxdmaWrite s (writeRx f s) := by
  refine ⟨rfl, raised_within _ (writeIrq_within _ _ _), fun hne => absurd rfl hne, fun a ha => ?_⟩
  rw [writeRx_mem]
  refine memRead_writeBytes_other _ _ _ _ ?_
  rw [settledBytes_length, rxChunk_length]
  exact (Nat.min_le_left _ _).trans ha

theorem exec_rxFootprint {i : Instr} {s t : State}
    (hi : i = .rxPoll ∨ i = .rxFrameArrive ∨ i = .rxdmaWrite ∨ i = .rxdmaSuspend ∨ i = .rxdmaBusError
      ∨ ∃ buf, i = .rxPrime buf) (h : exec i s = .next t) : RxFootprint i s t := by
  have hanswer := rxFootprint_self_answer i s
  rcases hi with rfl | rfl | rfl | rfl | rfl | ⟨buf, rfl⟩
  · refine hostOp_keeps hanswer h fun _ hb => ?_
    split at hb <;> cases hb
    exact (rxFootprint_poll _ ‹_›).answer _ _
  · refine agentStep_keeps hanswer h fun hb => ?_
    split_ifs at hb
    cases hb
    exact rxFootprint_frameArrives _ _ s
  · refine agentStep_keeps hanswer h fun hb => ?_
    split_ifs at hb
    split at hb <;> cases hb
    exact rxFootprint_writeRx _ s
  · refine agentStep_keeps hanswer h fun hb => ?_
    cases hb
    exact rxFootprint_of_mem _ rfl (by simp) rfl rfl
  · refine agentStep_keeps hanswer h fun hb => ?_
    cases hb
    exact rxFootprint_of_mem _ rfl (raised_within _ rfl) rfl rfl
  · refine hostOp_keeps hanswer h fun _ hb => ?_
    split_ifs at hb
    cases hb
    exact (rxFootprint_primeSlot _ buf s).answer _ _

/-! The filter family. -/

/-- `s` with what the filter family may write taken from `t`. -/
def filterWritten (s t : State) : State :=
  { s with
    mac := { t.mac with macEn := s.mac.macEn, speed := s.mac.speed, duplex := s.mac.duplex }
    ports := t.ports }

theorem exec_filterFootprint {i : Instr} {s t : State}
    (hi : i = .clearMcast ∨ (∃ a, i = .setOwnAddr a) ∨ (∃ a, i = .addMcast a) ∨ (∃ v, i = .setPam v)
      ∨ ∃ v, i = .setPromisc v) (h : exec i s = .next t) : t = filterWritten s t := by
  have hanswer {u : State} (hu : u = filterWritten s u) := answer_within (F := filterWritten) (fun _ _ => rfl) hu
  rcases hi with rfl | ⟨a, rfl⟩ | ⟨a, rfl⟩ | ⟨v, rfl⟩ | ⟨v, rfl⟩ <;>
    refine hostOp_keeps (P := fun t => t = filterWritten s t) (hanswer rfl) h fun _ hb => ?_
  · cases hb
    refine hanswer ?_ _ _
    rw [clearMcastSlots_frame]
    rfl
  · split_ifs at hb
    cases hb
    exact hanswer rfl _ _
  · split_ifs at hb <;> cases hb
    · exact hanswer rfl _ _
    · exact hanswer rfl _ _
  · cases hb
    exact hanswer rfl _ _
  · cases hb
    exact hanswer rfl _ _

/-! The MDIO family. -/

/-- `s` with what the MDIO family may write taken from `t`. -/
def mdioWritten (s t : State) : State :=
  { s with
    mdio := t.mdio, ports := t.ports, out := { s.out with mdioOut := t.out.mdioOut }
    env := { s.env with phy := t.env.phy, drawn := t.env.drawn, mdioFor := t.env.mdioFor } }

theorem setPort_frame (s : State) (p : Issuer) (r : PortRegs) :
    s.setPort p r = { s with ports := (s.setPort p r).ports } := by
  cases p <;> rfl

theorem holdForMdio_written (wr : Bool) (dev reg : BitVec 5) (val : Half) (k : Held) (s : State) :
    holdForMdio wr dev reg val k s = mdioWritten s (holdForMdio wr dev reg val k s) := by
  rw [holdForMdio, State.hold, setPort_frame]
  rfl

theorem endTransaction_written (s : State) : endTransaction s = mdioWritten s (endTransaction s) := by
  unfold endTransaction drawPhy
  dsimp only
  split
  · rfl
  · split <;> rfl

/-- The end of the hold writes ports and `env.mdioFor` only. -/
theorem endMdioHold_frame (s : State) :
    s.endMdioHold = { s with ports := s.endMdioHold.ports, env := { s.env with mdioFor := none } } := by
  unfold State.endMdioHold
  dsimp only
  split
  · rw [setPort_frame]
  · rfl

theorem finishMdio_written (s : State) : finishMdio s = mdioWritten s (finishMdio s) := by
  rw [finishMdio, endMdioHold_frame, endTransaction_written]
  rfl

theorem exec_mdioFootprint {i : Instr} {s t : State}
    (hi : i = .mdioDone ∨ (∃ d r, i = .mdioRead d r) ∨ ∃ d r v, i = .mdioWrite d r v) (h : exec i s = .next t) :
    t = mdioWritten s t := by
  have hanswer : ∀ res val, s.answer res val = mdioWritten s (s.answer res val) :=
    answer_within (fun _ _ => rfl) rfl
  rcases hi with rfl | ⟨d, r, rfl⟩ | ⟨d, r, v, rfl⟩
  · rcases exec_mdioDone_next h with rfl | ⟨-, rfl⟩
    · exact hanswer _ _
    · exact finishMdio_written s
  all_goals
    refine hostOp_keeps (P := fun t => t = mdioWritten s t) hanswer h fun _ hb => ?_
    split_ifs at hb
    cases hb
    exact holdForMdio_written _ _ _ _ _ s

/-- Settles O50, family by family. -/
theorem familyFootprints : Obligations.FamilyFootprints := fun _ _ _ h =>
  ⟨fun hi => exec_txFootprint hi h, fun hi => exec_rxFootprint hi h, fun hi => exec_filterFootprint hi h,
    fun hi => exec_mdioFootprint hi h⟩

end Sys2Proof.Machine

/-! The arrows of the lifecycle (43_engine.md R200; O8). -/
namespace Sys2Proof.Machine

/-- The lifecycle stays, or moves along an arrow. -/
abbrev LifeKeepsArrows (s t : State) : Prop := t.life = s.life ∨ lifeArrow s.life t.life = true

theorem lifeKeepsArrows_answer (s : State) (res val : Word) : LifeKeepsArrows s (s.answer res val) :=
  .inl (by simp)

theorem lifeArrow_initialized {l : Life} (h : colInit l = .run) : lifeArrow l .initialized = true := by
  cases l <;> cases h <;> rfl

theorem lifeArrow_deinitialized {l : Life} (h : isLive l) : lifeArrow l .deinitialized = true := by
  rcases h with rfl | rfl | rfl <;> rfl

theorem lifeArrow_enabled {l : Life} (h : isLive l) (he : l ≠ .enabled) : lifeArrow l .enabled = true := by
  rcases h with rfl | rfl | rfl
  · rfl
  · exact absurd rfl he
  · rfl

theorem exec_init_life {s t : State} (h : exec .init s = .next t) : LifeKeepsArrows s t :=
  hostOp_keeps (lifeKeepsArrows_answer s) h fun hc hb => by
    split_ifs at hb
    rcases runInit_cases s with ⟨bufs, u, -, -, hr⟩ | ⟨bufs, u, -, -, hr⟩ | ⟨bufs, u, hd, hr⟩ <;>
      cases hr.symm.trans hb
    · exact .inr (by simpa [initialise] using lifeArrow_initialized hc)
    · exact .inl (by rw [drawPool_frame hd]; simp)

theorem exec_deinit_life {s t : State} (h : exec .deinit s = .next t) : LifeKeepsArrows s t :=
  hostOp_keeps (lifeKeepsArrows_answer s) h fun hc hb => by
    dsimp only at hb
    split_ifs at hb <;> cases hb
    · exact .inr (by simpa [finishDeinit] using lifeArrow_deinitialized (isLive_of_colLive hc))
    · exact .inl (by simp)

theorem exec_enable_life {sp du : BitVec 2} {s t : State} (h : exec (.enable sp du) s = .next t) :
    LifeKeepsArrows s t :=
  hostOp_keeps (lifeKeepsArrows_answer s) h fun hc hb => by
    split at hb
    · cases hb
      exact .inl (by simp)
    · split_ifs at hb with he
      cases hb
      exact .inr (by simpa using lifeArrow_enabled (isLive_of_colLive hc) he)

theorem exec_disable_life {s t : State} (h : exec .disable s = .next t) : LifeKeepsArrows s t :=
  hostOp_keeps (lifeKeepsArrows_answer s) h fun hc hb => by
    dsimp only at hb
    split_ifs at hb <;> cases hb
    · exact .inr (by simp [enabled_of_colDisable hc, lifeArrow])
    · exact .inl (by simp)

theorem exec_isrDispatch_life {line : Bool} {s t : State} (h : exec (.isrDispatch line) s = .next t) :
    t.life = s.life :=
  hostOp_keeps (P := fun t => t.life = s.life) (by simp) h fun _ hb => by
    dsimp only at hb
    split_ifs at hb
    iterate 3
      cases hb
      simp
    split at hb <;> cases hb
    obtain ⟨-, hlife, -⟩ := serve_frame ‹_›
    simpa using hlife

/-- A primitive whose effect leaves the lifecycle alone. -/
theorem primitive_life {s t eff : State} {inRange pre : Bool} {val : Word}
    (h : primitive s inRange pre eff val = .next t) (heff : eff.life = s.life) : t.life = s.life := by
  rcases primitive_next h with ⟨-, -, -, rfl⟩ | ⟨-, rfl⟩
  · simpa using heff
  · simp

/-- Every instruction moves the lifecycle along an arrow or not at all; the families of R205 do not write it. -/
theorem exec_life {i : Instr} {s t : State} (h : exec i s = .next t) : LifeKeepsArrows s t := by
  cases i
  case init => exact exec_init_life h
  case deinit => exact exec_deinit_life h
  case enable => exact exec_enable_life h
  case disable => exact exec_disable_life h
  case txEnqueue | txReclaim | txdmaFetch | txdmaComplete | txdmaSuspend | txdmaBusError =>
    exact .inl ((congrArg State.life (exec_txFootprint (by simp) h).1).trans rfl)
  case rxPrime | rxPoll | rxFrameArrive | rxdmaWrite | rxdmaSuspend | rxdmaBusError =>
    exact .inl ((congrArg State.life (exec_rxFootprint (by simp) h).1).trans rfl)
  case setOwnAddr | addMcast | clearMcast | setPam | setPromisc =>
    exact .inl ((congrArg State.life (exec_filterFootprint (by simp) h)).trans rfl)
  case mdioRead | mdioWrite | mdioDone => exact .inl ((congrArg State.life (exec_mdioFootprint (by simp) h)).trans rfl)
  case isrDispatch => exact .inl (exec_isrDispatch_life h)
  case statusEvent =>
    refine .inl (agentStep_keeps (P := fun t => t.life = s.life) (by simp) h fun hb => ?_)
    cases hb
    rfl
  case startDma ring | stopDma ring => cases ring <;> exact .inl (primitive_life h rfl)
  case setLinkConfig => exact .inl (primitive_life h (by split <;> rfl))
  all_goals exact .inl (primitive_life h rfl)

/-- What the hold invariant says of a port that holds a lifecycle operation. -/
theorem holdInv_port {s : State} (h : HoldInv s) (p : Issuer) :
    ((s.port p).phase = .held .disable → s.life = .enabled) ∧ ((s.port p).phase = .held .deinit → isLive s.life) := by
  obtain ⟨hdisable, hdeinit, htxi, hrxi, hbe⟩ := h
  cases p with
  | fg => exact ⟨hdisable, hdeinit⟩
  | txi => exact ⟨fun hk => absurd hk htxi.1, fun hk => absurd hk htxi.2⟩
  | rxi => exact ⟨fun hk => absurd hk hrxi.1, fun hk => absurd hk hrxi.2⟩
  | be => exact ⟨fun hk => absurd hk hbe.1, fun hk => absurd hk hbe.2⟩
  | hw => exact ⟨nofun, nofun⟩

theorem completeHeld_life {s t : State} {p : Issuer} (hinv : HoldInv s) (h : completeHeld p s = .next t) :
    LifeKeepsArrows s t := by
  obtain ⟨hdisable, hdeinit⟩ := holdInv_port hinv p
  obtain ⟨k, hk, -, hend⟩ := completeHeld_next h
  rcases finishHeld_some hend with ⟨rfl, -, rfl⟩ | ⟨rfl, -, rfl⟩ | ⟨ret, rfl, rfl⟩
  · exact .inr (by simp [hdisable hk, lifeArrow])
  · exact .inr (by simpa [finishDeinit] using lifeArrow_deinitialized (hdeinit hk))
  · exact .inl (by simp)

/-- Settles O8: a step that runs an instruction or ends a hold moves along an arrow, and no other but power-on moves. -/
theorem lifeMovesAlongArrows : Obligations.LifeMovesAlongArrows := by
  intro s t hinv hpower hstep
  rcases step_next hstep with ⟨-, rfl⟩ | ⟨x, rest, hin, ⟨p, w, i, -, -, -, he⟩ | ⟨p, w, -, -, -, hi⟩ | ⟨p, -, hc⟩
    | ⟨p, n, -, hr⟩ | ⟨p, a, -, hr⟩ | ⟨p, a, -, hr⟩ | ⟨p, a, v, -, hs⟩ | ⟨rfl, -⟩⟩
  · exact .inl rfl
  · simpa [LifeKeepsArrows] using exec_life he
  · obtain ⟨rfl, -, -⟩ := illegal_next hi
    exact .inl (by simp)
  · exact completeHeld_life (s := s.dropInput) hinv hc
  iterate 3 exact Host.Outcome.next.inj hr ▸ .inl (by simp)
  · rw [hostStore_next hs]
    exact .inl rfl
  · exact absurd (by rw [hin]; rfl) hpower

end Sys2Proof.Machine

/-! The ten steps of the hardware agents (44_dma_agents.md R230 to R240; O39 to O44): each runs its body exactly when it
is enabled. -/
namespace Sys2Proof.Machine

section
variable {s : State}

/-- The step of an agent whose precondition is false (R230). -/
theorem exec_not_enabled {i : Instr} (ha : isAgentStep i = true) (hr : Runs s .hw) (he : agentEnabled s i = false) :
    exec i s = .fault .stepNotEnabled := by
  obtain ⟨body, hexec⟩ := exec_eq_agentStep ha s
  obtain ⟨hp, hf⟩ := hr
  simp [hexec, agentStep, hp, hf, he]

/-- The step of an agent that is not enabled is none. -/
theorem exec_ne_next {i : Instr} (ha : isAgentStep i = true) (hr : Runs s .hw) (he : agentEnabled s i = false)
    (t : State) : exec i s ≠ .next t := by
  rw [exec_not_enabled ha hr he]
  exact nofun

/-- A step whose body is a next state is taken exactly under its precondition. -/
theorem exec_exactly_when {i : Instr} {t : State} {P : Prop} (ha : isAgentStep i = true) (hr : Runs s .hw)
    (hexec : exec i s = agentStep s (agentEnabled s i) (.next t)) (hP : agentEnabled s i = true ↔ P) :
    (P → exec i s = .next t) ∧ (¬P → ∀ u, exec i s ≠ .next u) :=
  ⟨fun h => hexec.trans (agentStep_run _ hr.1 hr.2 (hP.2 h)),
    fun h => exec_ne_next ha hr (Bool.eq_false_iff.2 (mt hP.1 h))⟩

/-! The steps whose body looks further. -/

/-- TXDMA_COMPLETE of the slot in flight (R232), unless its buffer is on a descriptor array (R78). -/
theorem exec_txdmaComplete {i : Nat} (hr : Runs s .hw) (hi : s.tx.inflight = some i) :
    exec .txdmaComplete s
      = if meetsDescriptors s.cfg (s.txSlot i).buf (s.txSlot i).len.toNat then .refused .platformOutsideSpec
        else .next (completeTx i s) := by
  refine (agentStep_run _ hr.1 hr.2 (by simp [hi])).trans ?_
  simp only [hi, Option.getD_some]

/-- RXDMA_WRITE of the frame in flight (R236), unless the buffer is on a descriptor array (R78). -/
theorem exec_rxdmaWrite {f : RxFrame} (hr : Runs s .hw) (hf : s.rx.pending = some f) :
    exec .rxdmaWrite s
      = if meetsDescriptors s.cfg (s.rxSlot s.rx.hw).buf s.cfg.rxBufSize then .refused .platformOutsideSpec
        else .next (writeRx f s) := by
  refine (agentStep_run _ hr.1 hr.2 (by simp [hf])).trans ?_
  simp only [hf]

/-- RX_FRAME_ARRIVE with whatever frame the wire draws (R235), unless INIT has not run (U1). -/
theorem exec_rxFrameArrive_drawn (hr : Runs s .hw) (he : canRxArrive s = true) :
    exec .rxFrameArrive s
      = if s.life = .uninitialized then .refused .unprimedRing
        else .next (frameArrives (drawFrame s).1 (drawFrame s).2) :=
  agentStep_run _ hr.1 hr.2 he

/-- MDIO_DONE of the transaction that runs (R240). -/
theorem exec_mdioDone (hr : Runs s .hw) (hb : s.mdio.busy = true) : exec .mdioDone s = .next (finishMdio s) :=
  agentStep_run _ hr.1 hr.2 hb

/-- An enabled step has a next state, with buffers clear of the descriptor arrays and the engine initialised. -/
theorem exec_next_of_enabled {i : Instr} (ha : isAgentStep i = true) (hr : Runs s .hw) (he : agentEnabled s i = true)
    (hlife : s.life ≠ .uninitialized)
    (htx : ∀ k, s.tx.inflight = some k →
      meetsDescriptors s.cfg (s.txSlot k).buf (s.txSlot k).len.toNat = false)
    (hrx : meetsDescriptors s.cfg (s.rxSlot s.rx.hw).buf s.cfg.rxBufSize = false) : ∃ t, exec i s = .next t := by
  cases i
  case txdmaFetch | txdmaSuspend | txdmaBusError | rxdmaSuspend | rxdmaBusError | statusEvent | mdioDone =>
    exact ⟨_, agentStep_run _ hr.1 hr.2 he⟩
  case txdmaComplete =>
    obtain ⟨k, hk⟩ := Option.isSome_iff_exists.1 he
    exact ⟨_, (exec_txdmaComplete hr hk).trans (if_neg (by simp [htx k hk]))⟩
  case rxdmaWrite =>
    obtain ⟨f, hf⟩ := Option.isSome_iff_exists.1 he
    exact ⟨_, (exec_rxdmaWrite hr hf).trans (if_neg (by simp [hrx]))⟩
  case rxFrameArrive => exact ⟨_, (exec_rxFrameArrive_drawn hr he).trans (if_neg hlife)⟩
  all_goals cases ha

end

/-- Settles O44: not enabled, enabled, and the three refusals of an enabled step. -/
theorem agentStepsWhenEnabled : Obligations.AgentStepsWhenEnabled := by
  refine ⟨fun i s ha hr => ⟨exec_not_enabled ha hr, exec_next_of_enabled ha hr⟩, fun s hr => ⟨?_, ?_, ?_⟩⟩
  · intro k hk hmeets
    exact (exec_txdmaComplete hr hk).trans (if_pos hmeets)
  · intro hpend hmeets
    obtain ⟨f, hf⟩ := Option.ne_none_iff_exists'.1 hpend
    exact (exec_rxdmaWrite hr hf).trans (if_pos hmeets)
  · intro hen hpend hlife
    exact (exec_rxFrameArrive_drawn hr (by simp [canRxArrive, hen, hpend])).trans (if_pos hlife)

/-! The preconditions, as claims write them (R231, R233, R234, R237, R238). -/

section
variable {s : State}

theorem canTxFetch_iff : canTxFetch s = true ↔
    s.tx.dma = .active ∧ s.mac.macEn = true ∧ s.tx.inflight = none ∧ (s.txSlot s.tx.hw).own = .dma := by
  simp [canTxFetch, ownedByDma, State.slot, and_assoc]

/-- A slot that is not the engine's is software's. -/
theorem own_ne_dma {o : Owner} : o ≠ .dma ↔ o = .software := by
  cases o <;> simp

theorem canTxSuspend_iff : canTxSuspend s = true ↔
    s.tx.dma = .active ∧ s.tx.inflight = none ∧ (s.txSlot s.tx.hw).own = .software := by
  simp [canTxSuspend, ownedByDma, State.slot, own_ne_dma, and_assoc]

theorem canRxSuspend_iff : canRxSuspend s = true ↔
    s.rx.dma = .active ∧ s.rx.pending = none ∧ (s.rxSlot s.rx.hw).own = .software := by
  simp [canRxSuspend, ownedByDma, State.slot, own_ne_dma, and_assoc]

theorem canTxBusError_iff : canTxBusError s = true ↔
    s.tx.inflight ≠ none ∨ (s.tx.dma = .active ∧ s.mac.macEn = true) := by
  simp [canTxBusError, Option.isSome_iff_ne_none]

theorem canRxBusError_iff : canRxBusError s = true ↔
    s.rx.pending ≠ none ∨ (s.rx.dma = .active ∧ s.mac.macEn = true) := by
  simp [canRxBusError, Option.isSome_iff_ne_none]

end

/-- Settles O40: five steps whose body is a next state. -/
theorem engineControlSteps : Obligations.EngineControlSteps := by
  intro s hr
  have hfetch := exec_exactly_when (i := .txdmaFetch) rfl hr rfl canTxFetch_iff
  have htxSuspend := exec_exactly_when (i := .txdmaSuspend) rfl hr rfl canTxSuspend_iff
  have hrxSuspend := exec_exactly_when (i := .rxdmaSuspend) rfl hr rfl canRxSuspend_iff
  have htxError := exec_exactly_when (i := .txdmaBusError) rfl hr rfl canTxBusError_iff
  have hrxError := exec_exactly_when (i := .rxdmaBusError) rfl hr rfl canRxBusError_iff
  exact ⟨hfetch.1, hfetch.2, htxSuspend.1, htxSuspend.2, hrxSuspend.1, hrxSuspend.2, htxError.1, htxError.2,
    hrxError.1, hrxError.2⟩

/-! The four branches of RX_FRAME_ARRIVE (R235). -/

section
variable {s : State} {f : Frame}

theorem canRxArrive_closed (h : s.mac.macEn = false ∨ s.rx.pending ≠ none) : canRxArrive s = false := by
  rcases h with h | h
  · simp [canRxArrive, h]
  · simp [canRxArrive, Option.isNone_eq_false_iff, Option.isSome_iff_ne_none, h]

theorem frameArrives_rejected (h : frameAccepted s f.data = false) : frameArrives f s = s := by
  simp [frameArrives, h]

theorem frameArrives_stopped (h : frameAccepted s f.data = true) (hd : s.rx.dma ≠ .active) :
    frameArrives f s = s.raiseIrq irqRxOverrun := by
  simp [frameArrives, h, hd]

theorem frameArrives_unowned (h : frameAccepted s f.data = true) (hd : s.rx.dma = .active)
    (hown : (s.rxSlot s.rx.hw).own = .software) :
    frameArrives f s = ({ s with rx := { s.rx with dma := .idle } }).raiseIrq irqRxOverrun := by
  simp [frameArrives, h, hd, ownedByDma, State.slot, hown]

theorem frameArrives_taken (h : frameAccepted s f.data = true) (hd : s.rx.dma = .active)
    (hown : (s.rxSlot s.rx.hw).own = .dma) :
    frameArrives f s = { s with rx := { s.rx with pending := some ⟨f.data, 0, f.errs, f.midErr⟩ } } := by
  simp [frameArrives, h, hd, ownedByDma, State.slot, hown]

end

/-- Settles O41 (the model has a `frameArrives` of its own): the precondition, then branch by branch; the draw touches
nothing the branches look at. -/
theorem rxFrameArrives : Obligations.FrameArrives := by
  intro s f e hr hlife hw
  refine ⟨fun hclosed => exec_ne_next rfl hr (canRxArrive_closed hclosed), fun hen hpend => ?_⟩
  · have hexec := exec_rxFrameArrive hr hlife hen hpend hw
    exact ⟨fun hacc => hexec.trans (congrArg _ (frameArrives_rejected hacc)),
      fun hacc hd => hexec.trans (congrArg _ (frameArrives_stopped hacc hd)),
      fun hacc hd hown => hexec.trans (congrArg _ (frameArrives_unowned hacc hd hown)),
      fun hacc hd hown => hexec.trans (congrArg _ (frameArrives_taken hacc hd hown))⟩

/-! The MDIO engine (R240). -/

section
variable {s : State}

/-- A write goes out. -/
theorem endTransaction_write (h : s.mdio.req.wr = true) :
    endTransaction s =
      { s with
        out := { s.out with mdioOut := s.out.mdioOut ++ [(s.mdio.req.dev, s.mdio.req.reg, s.mdio.req.val)] }
        mdio := { s.mdio with busy := false } } :=
  if_pos h

theorem drawPhy_of_answers {dev reg : BitVec 5} {v : Half} {e : Env} (h : PhyAnswers s dev reg v e) :
    drawPhy dev reg s = (v, { s with env := e }) := by
  rcases h with ⟨rest, hphy, rfl⟩ | ⟨hphy, rfl, rfl⟩
  all_goals rw [drawPhy, hphy]

/-- A read stores what the PHY answers. -/
theorem endTransaction_read {v : Half} {e : Env} (h : s.mdio.req.wr = false)
    (hv : PhyAnswers s s.mdio.req.dev s.mdio.req.reg v e) :
    endTransaction s = { s with env := e, mdio := { s.mdio with data := v, busy := false } } := by
  rw [endTransaction, drawPhy_of_answers hv]
  exact if_neg (by simp [h])

/-- What the PHY's draw leaves of the environment. -/
theorem mdioFor_of_answers {dev reg : BitVec 5} {v : Half} {e : Env} (h : PhyAnswers s dev reg v e) :
    e.mdioFor = s.env.mdioFor := by
  rcases h with ⟨rest, -, rfl⟩ | ⟨-, -, rfl⟩ <;> rfl

theorem mdioPhase_of_not_mdio {d : Half} {p : Phase} (h : p ≠ .held .mdioRead ∧ p ≠ .held .mdioWrite) :
    mdioPhase d p = p := by
  unfold mdioPhase
  split <;> simp_all

/-- The end of the hold, as claims write it. -/
theorem endsMdioHold_endMdioHold (s : State) : EndsMdioHold s s.endMdioHold s.mdio.data := by
  intro p
  rw [endMdioHold_port]
  refine ⟨fun hfor => ⟨fun hphase => ?_, fun hphase => ?_⟩, fun hother => ?_⟩
  · have hp : p ≠ .hw := by
      rintro rfl
      cases hphase
    rw [if_pos ⟨hfor, hp⟩, hphase]
    rfl
  · have hp : p ≠ .hw := by
      rintro rfl
      cases hphase
    rw [if_pos ⟨hfor, hp⟩, hphase]
    rfl
  · split_ifs with h
    · rw [mdioPhase_of_not_mdio (hother.resolve_left (not_not_intro h.1))]
    · rfl

/-- MDIO_DONE is the end of the transaction and then that of the hold. -/
theorem finishMdio_of_endTransaction {u : State} (hu : endTransaction s = u) (hfor : u.env.mdioFor = s.env.mdioFor) :
    finishMdio s = { u with ports := (finishMdio s).ports, env := { u.env with mdioFor := none } }
      ∧ EndsMdioHold s { s with ports := (finishMdio s).ports } u.mdio.data := by
  have hports : u.ports = s.ports := by simp [← hu]
  have hends := endsMdioHold_endMdioHold u
  simp only [EndsMdioHold, hfor, port_congr hports] at hends
  rw [finishMdio, hu]
  exact ⟨endMdioHold_frame u, hends⟩

end

/-- Settles O43: STATUS_EVENT by its precondition, MDIO_DONE by the transaction and then the hold. -/
theorem statusEventAndMdioDone : Obligations.StatusEventAndMdioDone := by
  intro s hr
  refine ⟨fun kind hlo hhi hen => ?_, fun kind t hen => ?_, fun hb hwr => ?_, fun v e hb hwr hv => ?_, fun hb => ?_⟩
  · exact agentStep_run _ hr.1 hr.2 (by simp [hen, statusKindOk, hlo, hhi])
  · exact exec_ne_next rfl hr (by simp [agentEnabled, hen]) t
  · obtain ⟨hnext, hends⟩ := finishMdio_of_endTransaction (endTransaction_write hwr) rfl
    exact ⟨_, (exec_mdioDone hr hb).trans (congrArg _ hnext), hends⟩
  · obtain ⟨hnext, hends⟩ := finishMdio_of_endTransaction (endTransaction_read hwr hv) (mdioFor_of_answers hv)
    exact ⟨_, (exec_mdioDone hr hb).trans (congrArg _ hnext), hends⟩
  · exact exec_ne_next (i := .mdioDone) rfl hr hb

/-- Settles O39: what is sent is the buffer as the engine reads it, byte by byte. -/
theorem txCompleteSendsBuffer : Obligations.TxCompleteSendsBuffer := by
  intro s i hr hi hclear x
  refine ⟨settledBytes s .tx i 0 x.buf (readBytes s.mem x.buf x.len.toNat), (s.endRaces .tx i).env.drawn, by simp,
    fun k hk => ?_, endRaces_drawn_quiet s .tx i, (exec_txdmaComplete hr hi).trans (if_neg (by simp [hclear]))⟩
  have hsent : k < (settledBytes s .tx i 0 x.buf (readBytes s.mem x.buf x.len.toNat)).length := by simpa using hk
  rw [List.getElem?_eq_getElem hsent, settledBytes_getElem, readBytes_getElem]
  rcases settled_cases s .tx i (0 + k) (x.buf + BitVec.ofNat 32 k)
    (memRead s.mem (x.buf + BitVec.ofNat 32 k).toNat) with h | ⟨r, hr, hring, hslot, haddr, h⟩ | ⟨h, -⟩
  · exact .inl (congrArg some h)
  · exact .inr ⟨r, hr, hring, hslot, haddr, congrArg some h⟩
  · cases h

/-! RXDMA_WRITE (R236). -/

section
variable {s : State} {f : RxFrame}

theorem rxChunk_getElem (c : Params) (k : Nat) (h : k < (rxChunk c f).length) :
    (rxChunk c f)[k] = f.data.getD (f.off + k) 0#8 := by
  have hk : f.off + k < f.data.length := by
    rw [rxChunk_length] at h
    omega
  rw [List.getD_eq_getElem _ _ hk]
  simp [rxChunk]

/-- A byte of the buffer after the write: what the engine settled on for that byte of the frame. -/
theorem memRead_writeRx {k : Nat} (hm : Memory.wf s.mem) (hsize : s.cfg.rxBufSize ≤ 65535)
    (hk : k < (rxChunk s.cfg f).length) :
    memRead (writeRx f s).mem ((s.rxSlot s.rx.hw).buf + BitVec.ofNat 32 k).toNat
      = settled s .rx s.rx.hw k ((s.rxSlot s.rx.hw).buf + BitVec.ofNat 32 k) (f.data.getD (f.off + k) 0#8) := by
  have hlen := rxChunk_length s.cfg f
  rw [writeRx_mem, memRead_writeBytes_same _ _ _ k hm (by rw [settledBytes_length]; omega) (by simpa using hk),
    settledBytes_getElem, rxChunk_getElem, Nat.zero_add]

/-- The Rx ring after the write. -/
theorem writeRx_rx : (writeRx f s).rx =
    { s.rx with
      slots := s.rx.slots.set s.rx.hw
        { s.rxSlot s.rx.hw with
          own := .software, len := BitVec.ofNat 16 (rxChunk s.cfg f).length, first := f.off == 0
          last := writeCase f s != .goesOn, err := writeErr f (writeCase f s) s.cfg }
      hw := (s.rx.hw + 1) % s.cfg.dRx
      pending :=
        if writeCase f s == .goesOn then some { f with off := f.off + (rxChunk s.cfg f).length } else none
      dma := if writeCase f s == .cut && s.cfg.chained && s.rx.dma == .active then .idle else s.rx.dma } :=
  rfl

/-- The slot the write fills is software's afterwards. -/
theorem writeRx_slot_own : ((writeRx f s).rxSlot s.rx.hw).own = .software := by
  rw [State.rxSlot, writeRx_rx, getD_set]
  split_ifs with h
  · rfl
  · rw [List.getD_eq_default _ _ (by simpa using h)]
    rfl

/-- The write leaves every other slot of the two rings alone. -/
theorem writeRx_slot_other {r : Ring} {i : Nat} (h : ¬(r = .rx ∧ i = s.rx.hw)) :
    (writeRx f s).slot r i = s.slot r i := by
  cases r with
  | tx => rfl
  | rx =>
    show (writeRx f s).rx.slots.getD i Slot.empty = _
    rw [writeRx_rx, getD_set, if_neg (fun e => h ⟨rfl, e.1.symm⟩)]
    rfl

/-- The bytes a slot holds depend on the slot and on the parameters. -/
theorem slotHolds_congr {u : State} {r : Ring} {i : Nat} (hcfg : u.cfg = s.cfg) (hslot : u.slot r i = s.slot r i)
    (a : Word) : slotHolds u r i a = slotHolds s r i a := by
  simp [slotHolds, hcfg, hslot]

/-- After the write the engine's slot holds no byte, so a byte is held only as before, by another slot. -/
theorem slotHolds_writeRx {a : Word}
    (h : ∀ (r : Ring) (i : Nat), ¬(r = .rx ∧ i = s.rx.hw) → slotHolds s r i a = false) (r : Ring) (i : Nat) :
    slotHolds (writeRx f s) r i a = false := by
  by_cases hri : r = .rx ∧ i = s.rx.hw
  · obtain ⟨rfl, rfl⟩ := hri
    simp [slotHolds, State.slot, writeRx_slot_own]
  · rw [slotHolds_congr (writeRx_cfg f s) (writeRx_slot_other hri)]
    exact h r i hri

/-- The races after the write: those of other slots, and those its own stores start once the slot is software's. -/
theorem writeRx_races : ∃ u : State, u.cfg = s.cfg ∧ (∀ r i, u.slot r i = (writeRx f s).slot r i) ∧
    (writeRx f s).env.races = (s.env.races.filter fun r => !(r.ring == .rx && r.slot == s.rx.hw))
      ++ racesAlong u (s.rxSlot s.rx.hw).buf
        (settledBytes s .rx s.rx.hw 0 (s.rxSlot s.rx.hw).buf (rxChunk s.cfg f)) := by
  refine ⟨_, ?_, fun r i => ?_, rfl⟩
  · rfl
  · cases r <;> rfl

/-- No slot but the engine's holds a byte of the buffer: the write starts no race. -/
theorem writeRx_races_quiet
    (h : ∀ k, k < (rxChunk s.cfg f).length → ∀ (r : Ring) (i : Nat), ¬(r = .rx ∧ i = s.rx.hw) →
      slotHolds s r i ((s.rxSlot s.rx.hw).buf + BitVec.ofNat 32 k) = false) :
    (writeRx f s).env.races = s.env.races.filter fun r => !(r.ring == .rx && r.slot == s.rx.hw) := by
  obtain ⟨u, hcfg, hslot, hraces⟩ := writeRx_races (s := s) (f := f)
  rw [hraces, racesAlong_quiet, List.append_nil]
  intro k hk r i
  rw [slotHolds_congr (s := writeRx f s) hcfg (hslot r i)]
  exact slotHolds_writeRx (h k (by simpa using hk)) r i

/-- No race on the slot, and no filled buffer that holds a byte of its buffer: no draw. -/
theorem writeRx_drawn_quiet (hr : ∀ r ∈ s.env.races, ¬(r.ring = .rx ∧ r.slot = s.rx.hw))
    (hf : ∀ k, k < (rxChunk s.cfg f).length → filledHolds s ((s.rxSlot s.rx.hw).buf + BitVec.ofNat 32 k) = false) :
    (writeRx f s).env.drawn = s.env.drawn := by
  rw [writeRx_drawn, drewIf_env, if_neg (by simpa using hf)]
  exact endRaces_drawn_quiet s .rx s.rx.hw hr

/-! The cases (a), (b), (c). -/

theorem writeCase_ends (h : f.data.length - f.off - (rxChunk s.cfg f).length = 0) : writeCase f s = .ends := if_pos h

theorem writeCase_goesOn (h : f.data.length - f.off - (rxChunk s.cfg f).length ≠ 0)
    (hgo : (s.cfg.chained && nextSlotArmed s) = true) : writeCase f s = .goesOn :=
  (if_neg h).trans (if_pos hgo)

theorem writeCase_cut (h : f.data.length - f.off - (rxChunk s.cfg f).length ≠ 0)
    (hgo : ¬(s.cfg.chained && nextSlotArmed s) = true) : writeCase f s = .cut :=
  (if_neg h).trans (if_neg hgo)

/-- The frame goes on, as claims write it. -/
theorem canGoOn_iff : (s.cfg.chained && nextSlotArmed s) = true ↔
    s.cfg.chained = true ∧ 1 < s.cfg.dRx ∧ (s.rxSlot ((s.rx.hw + 1) % s.cfg.dRx)).own = .dma := by
  simp [nextSlotArmed, ownedByDma, State.slot, nextIdx]

/-- With no race listed, and the draw even, the engine moves the byte of the frame. -/
theorem settled_of_even {i k : Nat} {a : Word} {b : Byte} (hr : s.env.races = [])
    (heven : Config.raceChoice s.env.drawn k % 2 = 0) : settled s .rx i k a b = b := by
  have hraces : raceVals s .rx i a = [] := by simp [raceVals, hr]
  cases hf : filledHolds s a with
  | false => simp [settled, otherVals, hraces, filledVals, hf, anyOf]
  | true => simp [settled, otherVals, hraces, filledVals, hf, anyOf, heven]

/-- With no race listed, on a byte a filled buffer holds, the engine moves the byte of the frame only if the draw is
even, or the byte is the same. -/
theorem even_of_settled {i k : Nat} {a : Word} {b : Byte} (hr : s.env.races = []) (hf : filledHolds s a = true)
    (hne : memRead s.mem a.toNat ≠ b) (h : settled s .rx i k a b = b) : Config.raceChoice s.env.drawn k % 2 = 0 := by
  have hraces : raceVals s .rx i a = [] := by simp [raceVals, hr]
  simp only [settled, otherVals, hraces, filledVals, hf, anyOf, if_true, List.nil_append] at h
  rcases Nat.mod_two_eq_zero_or_one (Config.raceChoice s.env.drawn k) with h0 | h1
  · exact h0
  · exact absurd (by simpa [h1] using h) hne

/-- A byte of the buffer after the write: the frame's, one of a race, or on a filled buffer the one there before. -/
theorem memRead_writeRx_cases {k : Nat} {a : Word} (hm : Memory.wf s.mem) (hsize : s.cfg.rxBufSize ≤ 65535)
    (hk : k < (rxChunk s.cfg f).length) (ha : a = (s.rxSlot s.rx.hw).buf + BitVec.ofNat 32 k) :
    memRead (writeRx f s).mem a.toNat = f.data.getD (f.off + k) 0#8
      ∨ (∃ r ∈ s.env.races, r.ring = .rx ∧ r.slot = s.rx.hw ∧ r.addr = a ∧ memRead (writeRx f s).mem a.toNat = r.val)
      ∨ (filledHolds s a = true ∧ memRead (writeRx f s).mem a.toNat = memRead s.mem a.toNat) := by
  subst ha
  rw [memRead_writeRx hm hsize hk]
  rcases settled_cases s .rx s.rx.hw k ((s.rxSlot s.rx.hw).buf + BitVec.ofNat 32 k) (f.data.getD (f.off + k) 0#8) with
    h | h | ⟨-, hfilled, h⟩
  · exact .inl h
  · exact .inr (.inl h)
  · exact .inr (.inr ⟨hfilled, h⟩)

/-- The sources of the end of a frame. -/
theorem or_writeIrq_ends (q : BitVec 10) (c : Params) :
    q ||| writeIrq f .ends c = q ||| 0x002#10 ||| (if f.errs.crc then 0x010#10 else 0#10)
      ||| (if f.errs.tooLong then 0x040#10 else 0#10) ||| (if f.errs.align then 0x100#10 else 0#10) := by
  simp only [writeIrq, irqIf, irqRxFrame, irqCrcErr, irqFrameTooLong, irqAlignErr, BitVec.or_assoc]

/-- A cut raises a source of its own, then those of the end of the frame. -/
theorem or_writeIrq_cut (q : BitVec 10) (c : Params) :
    q ||| writeIrq f .cut c = q ||| (if c.chained then 0x020#10 else 0x040#10) ||| writeIrq f .ends c :=
  (BitVec.or_assoc ..).symm

end

/-! What `Obligations.RxWriteFillsSlot` (O42) comes to. Every clause of it holds but the one on the bytes.
`memRead_writeRx_cases` lets a byte of another filled buffer stay whether or not a race is listed (R89); in the
statement that alternative stands under the quantifier over `env.races`. With no race listed the statement therefore
asks that the free choice of R89's mix, an opaque constant, is always that of the frame's byte; this is neither provable
nor refutable, and O42 is open. -/

/-- Each clause of O42, for a free choice that is always the frame's byte of two. -/
theorem rxWriteFillsSlot_of_even (heven : ∀ d k, k < 65535 → Config.raceChoice d k % 2 = 0) :
    Obligations.RxWriteFillsSlot := by
  intro s f hr hf hsize hmem hclear n x j mid ends goesOn
  have hn : (rxChunk s.cfg f).length = n := rxChunk_length s.cfg f
  refine ⟨writeRx f s, (exec_rxdmaWrite hr hf).trans (if_neg (by simp [hclear])), rfl, fun k hk => ?_,
    fun hraces hfilled => writeRx_drawn_quiet hraces (by rwa [hn]), fun hholds => writeRx_races_quiet (by rwa [hn]),
    fun a ha => ?_, fun hends => ?_, fun hgo => ?_, fun hends hgo => ?_⟩
  · have hcases := memRead_writeRx_cases hmem hsize (hn ▸ hk) rfl
    cases hraces : s.env.races with
    | nil =>
      have hk' : k < 65535 := by omega
      exact .inl ((memRead_writeRx hmem hsize (hn ▸ hk)).trans (settled_of_even hraces (heven _ _ hk')))
    | cons r rest =>
      rw [hraces] at hcases
      rcases hcases with h | ⟨r, hr, h⟩ | h
      · exact .inl h
      · exact .inr ⟨r, hr, .inl h⟩
      · exact .inr ⟨r, List.mem_cons_self, .inr h⟩
  · rw [writeRx_mem]
    exact memRead_writeBytes_other _ _ _ _ (by rwa [settledBytes_length, hn])
  · have hw : writeCase f s = .ends := writeCase_ends (by rwa [hn])
    rw [writeRx_irq, writeRx_rx, hw, hn]
    exact ⟨by simp [writeErr, bne, beq_eq_decide, mid, j, x], or_writeIrq_ends _ _⟩
  · have hw : writeCase f s = .goesOn := writeCase_goesOn (by rw [hn]; exact hgo.1) (canGoOn_iff.2 hgo.2)
    rw [writeRx_irq, writeRx_rx, hw, hn]
    exact ⟨by simp [writeErr, beq_eq_decide, mid, j, x], BitVec.or_zero⟩
  · have hw : writeCase f s = .cut := writeCase_cut (by rwa [hn]) fun h => hgo ⟨hends, canGoOn_iff.1 h⟩
    rw [writeRx_irq, writeRx_rx, hw, hn]
    exact ⟨by simp [writeErr, bne, beq_eq_decide, j, x], (or_writeIrq_cut _ _).trans (or_writeIrq_ends _ _)⟩

/-- Where no race is listed and a filled buffer holds a byte the write changes, the clause of O42 on the bytes leaves
the mix of R89 no choice. -/
theorem raceChoice_even_at (h : Obligations.RxWriteFillsSlot) {s : State} {f : RxFrame} {k : Nat} (hr : Runs s .hw)
    (hf : s.rx.pending = some f) (hsize : s.cfg.rxBufSize ≤ 65535) (hmem : Memory.wf s.mem)
    (hclear : meetsDescriptors s.cfg (s.rxSlot s.rx.hw).buf s.cfg.rxBufSize = false) (hraces : s.env.races = [])
    (hk : k < min s.cfg.rxBufSize (f.data.length - f.off))
    (hfilled : filledHolds s ((s.rxSlot s.rx.hw).buf + BitVec.ofNat 32 k) = true)
    (hne : memRead s.mem ((s.rxSlot s.rx.hw).buf + BitVec.ofNat 32 k).toNat ≠ f.data.getD (f.off + k) 0#8) :
    Config.raceChoice s.env.drawn k % 2 = 0 := by
  obtain ⟨t, ht, -, hbytes, -⟩ := h s f hr hf hsize hmem hclear
  rw [exec_rxdmaWrite hr hf, if_neg (by simp [hclear])] at ht
  obtain rfl : writeRx f s = t := Host.Outcome.next.inj ht
  have hframe := (hbytes k hk).resolve_right (by simp [hraces])
  rw [memRead_writeRx hmem hsize (by rwa [rxChunk_length])] at hframe
  exact even_of_settled hraces hfilled hne hframe

/-- The parameters of the test vectors with the longest buffers. -/
def longBuffers : Params := { Params.vectors with rxBufSize := 65535 }

/-- No race is listed, the slot at `rxHw` is armed on a buffer that the filled slot behind it holds too, and `d` draws
have been made. -/
def filledTwice (d : Nat) (f : RxFrame) : State :=
  let s := State.resetWith longBuffers
  { s with
    rx := { s.rx with slots := [⟨.dma, 0#32, 0#16, false, false, false⟩], book := [none, some 0#32], pending := some f }
    env := { s.env with drawn := d } }

theorem filledHolds_filledTwice (d : Nat) (f : RxFrame) {k : Nat} (hk : k < 65535) :
    filledHolds (filledTwice d f) (0#32 + BitVec.ofNat 32 k) = true := by
  refine List.any_eq_true.2 ⟨1, List.mem_range.2 (show 1 < 4 by omega), ?_⟩
  show decide ((0#32 + BitVec.ofNat 32 k - 0#32).toNat < 65535) = true
  simp
  omega

/-- The clause of O42 on the bytes speaks of an opaque constant, the free choice of R89's mix: the statement holds
exactly of one that is always even, the frame's byte of two. -/
theorem rxWriteFillsSlot_iff_even :
    Obligations.RxWriteFillsSlot ↔ ∀ d k, k < 65535 → Config.raceChoice d k % 2 = 0 := by
  refine ⟨fun h d k hk => ?_, rxWriteFillsSlot_of_even⟩
  let f : RxFrame := ⟨List.replicate (k + 1) 1#8, 0, default, none⟩
  have hclear : meetsDescriptors longBuffers 0#32 65535 = false := by decide
  refine raceChoice_even_at h (s := filledTwice d f) (f := f) ⟨rfl, rfl⟩ rfl (le_refl 65535)
    (reset_memory_wf longBuffers) hclear rfl ?_ (filledHolds_filledTwice d f hk) ?_
  · show k < min 65535 ((List.replicate (k + 1) 1#8).length - 0)
    rw [List.length_replicate]
    omega
  · show (0#8 : Byte) ≠ (List.replicate (k + 1) 1#8).getD (0 + k) 0#8
    rw [List.getD_eq_getElem _ _ (by simp), List.getElem_replicate]
    decide

end Sys2Proof.Machine

/-! The backend primitives (45_backend_primitives.md R260 to R276; O45 to O49). Inside a host operation a primitive is
refused for its range, refused for its precondition, or takes effect and answers on `be`; each row below says which. -/
namespace Sys2Proof.Machine

section
variable {s : State} {inRange pre : Bool}

/-- A primitive that takes effect answers `OK` on `be`, with its effect and nothing else (R260). -/
theorem primitive_answers {eff : State} {val : Word} (hs : Sequences s) (hr : inRange = true) (hpre : pre = true)
    (henv : eff.env = s.env) : primitive s inRange pre eff val = .next (eff.answeredOn .be 0#32 val) := by
  rw [primitive_run eff val hs hr hpre, answer_eq _ _ (by rw [henv, hs.1.1]), rcOk_eq]

theorem primitive_outOfRange (eff : State) (val : Word) (hs : Sequences s) (hr : inRange = false) :
    primitive s inRange pre eff val = .refused .primitiveOutOfRange := by
  obtain ⟨⟨hbe, hfatal⟩, hseq⟩ := hs
  simp [primitive, hbe, hfatal, hseq, hr]

theorem primitive_precondition (eff : State) (val : Word) (hs : Sequences s) (hr : inRange = true)
    (hpre : pre = false) : primitive s inRange pre eff val = .refused .primitivePrecondition := by
  obtain ⟨⟨hbe, hfatal⟩, hseq⟩ := hs
  simp [primitive, hbe, hfatal, hseq, hr, hpre]

end

/-! What the rows test and answer. -/

theorem idxOk_eq_true {c : Params} {r : Ring} {idx : Word} (h : idx.toNat < depth c r) : idxOk c r idx = true :=
  decide_eq_true h

theorem idxOk_eq_false {c : Params} {r : Ring} {idx : Word} (h : depth c r ≤ idx.toNat) : idxOk c r idx = false :=
  decide_eq_false h.not_gt

theorem not_ownedByDma_eq_true {s : State} {r : Ring} {i : Nat} (h : (s.slot r i).own = .software) :
    (!ownedByDma s r i) = true := by
  simp [ownedByDma, h]

theorem not_ownedByDma_eq_false {s : State} {r : Ring} {i : Nat} (h : (s.slot r i).own = .dma) :
    (!ownedByDma s r i) = false := by
  simp [ownedByDma, h]

theorem boolWord_ownedByDma (s : State) (r : Ring) (i : Nat) :
    boolWord (ownedByDma s r i) = if (s.slot r i).own = .dma then 1#32 else 0#32 := by
  simp [boolWord, ownedByDma]

/-- The total of R269 as a sum over the distance from the first slot. -/
theorem totalLength_eq (s : State) (r : Ring) (i j : Nat) :
    totalLength s r i j = ((List.range ((j + depth s.cfg r - i) % depth s.cfg r + 1)).map fun k =>
      (s.slot r ((i + k) % depth s.cfg r)).len.toNat).sum := by
  simp only [totalLength, ringSlots, List.map_map, Function.comp_def]

/-- SET_LINK_CONFIG with codes that have a meaning (R273). -/
theorem exec_setLinkConfig {s : State} {en : Bool} {sp du : BitVec 2} (hs : Sequences s) (hsp : sp.toNat < 2)
    (hdu : du.toNat < 2) :
    exec (.setLinkConfig en sp du) s = .next ((writeLinkConfig en (if sp.toNat = 0 then .s10 else .s100)
      (if du.toNat = 0 then .half else .full) s).answeredOn .be 0#32 0#32) := by
  change execSetLinkConfig en sp du s = _
  simp only [execSetLinkConfig, linkOf_valid hsp hdu]
  exact primitive_answers hs rfl rfl (writeLinkConfig_env ..)

/-- The slots WRITE_MCAST_ADDR may write (R272). -/
theorem mcastSlotInRange_iff {slot : BitVec 5} {cap : Nat} :
    (1 ≤ slot.toNat && slot.toNat ≤ cap) = true ↔ 1 ≤ slot.toNat ∧ slot.toNat ≤ cap := by
  simp

/-- Settles O45: no range and no precondition, but for the codes of the link. -/
theorem controlPrimitives : Obligations.ControlPrimitives := fun _ hs =>
  ⟨primitive_answers hs rfl rfl (startDMA_tx_env _), primitive_answers hs rfl rfl (startDMA_rx_env _),
    primitive_answers hs rfl rfl (stopDMA_tx_env _), primitive_answers hs rfl rfl (stopDMA_rx_env _),
    fun _ _ _ hsp hdu => exec_setLinkConfig hs hsp hdu,
    fun _ _ => primitive_answers hs rfl rfl (writeEffFlags_env ..)⟩

/-- Settles O46: the index is in range and the slot is software's. -/
theorem descriptorPrimitives : Obligations.DescriptorPrimitives := fun s _ _ hs =>
  ⟨fun _ _ _ hidx hown => primitive_answers hs (idxOk_eq_true (r := .tx) hidx)
      (not_ownedByDma_eq_true (s := s) (r := .tx) hown) (writeTxDescriptor_env ..),
    fun hidx hown => primitive_answers hs (idxOk_eq_true (r := .rx) hidx)
      (not_ownedByDma_eq_true (s := s) (r := .rx) hown) (writeRxDescriptor_env ..)⟩

/-- Settles O47: the effect of a query is the state itself. -/
theorem queryPrimitives : Obligations.QueryPrimitives := by
  intro s r idx hs hidx
  have hok := idxOk_eq_true hidx
  refine ⟨?owned, primitive_answers hs hok rfl rfl, primitive_answers hs hok rfl rfl,
    primitive_answers hs hok rfl rfl, ?total, fun _ _ => primitive_answers hs rfl rfl rfl⟩
  case owned =>
    rw [← boolWord_ownedByDma]
    exact primitive_answers hs hok rfl rfl
  case total =>
    intro idx2 hidx2
    rw [← totalLength_eq]
    exact primitive_answers hs (by rw [hok, idxOk_eq_true hidx2]; rfl) rfl rfl

/-- Settles O48: the slot is in range, and no transaction runs. -/
theorem tablePrimitives : Obligations.TablePrimitives := by
  refine fun s addr hs => ⟨primitive_answers hs rfl rfl (writeUnicastAddress_env ..), fun slot hlow hhigh => ?mcast,
    fun hfree _ _ _ _ => primitive_answers hs rfl (by rw [hfree]; rfl) (startMdio_env ..)⟩
  have hslot := mcastSlotInRange_iff.2 ⟨hlow, hhigh⟩
  exact ⟨primitive_answers hs hslot rfl (writeMulticastAddress_env ..),
    primitive_answers hs hslot rfl (writeMulticastAddress_env ..)⟩

/-- Settles O49: outside a host operation, then the ranges and the preconditions, row by row. -/
theorem primitivesStop : Obligations.PrimitivesStop := by
  refine ⟨fun i s hhost hagent hbe hseq => ?alone, fun s r idx buf len b c dev reg hs =>
    ⟨fun hidx => ?queries, fun hidx => ?txRange, fun hidx => ?rxRange, fun hidx hown => ?txOwned,
      fun hidx hown => ?rxOwned, fun hbusy => ?mdio, fun slot addr hslot => ?mcast, fun sp du hcode => ?link⟩⟩
  case alone =>
    obtain ⟨_, _, eff, val, hexec⟩ := exec_eq_primitive hhost hagent s
    exact hexec.trans (primitive_alone eff val hbe hseq)
  case queries =>
    have hout := idxOk_eq_false hidx
    exact ⟨primitive_outOfRange _ _ hs hout, primitive_outOfRange _ _ hs hout, primitive_outOfRange _ _ hs hout,
      primitive_outOfRange _ _ hs hout, fun _ => ⟨primitive_outOfRange _ _ hs (by rw [hout, Bool.false_and]),
        primitive_outOfRange _ _ hs (by rw [hout, Bool.and_false])⟩⟩
  case txRange => exact primitive_outOfRange _ _ hs (idxOk_eq_false (r := .tx) hidx)
  case rxRange => exact primitive_outOfRange _ _ hs (idxOk_eq_false (r := .rx) hidx)
  case txOwned =>
    exact primitive_precondition _ _ hs (idxOk_eq_true (r := .tx) hidx)
      (not_ownedByDma_eq_false (s := s) (r := .tx) hown)
  case rxOwned =>
    exact primitive_precondition _ _ hs (idxOk_eq_true (r := .rx) hidx)
      (not_ownedByDma_eq_false (s := s) (r := .rx) hown)
  case mdio => exact primitive_precondition _ _ hs rfl (by rw [hbusy]; rfl)
  case mcast =>
    have hout : ¬(1 ≤ slot.toNat ∧ slot.toNat ≤ s.cfg.mcastCap) := by omega
    exact primitive_outOfRange _ _ hs (Bool.eq_false_iff.2 (mt mcastSlotInRange_iff.1 hout))
  case link => exact primitive_outOfRange _ _ hs (by rw [linkOf_invalid hcode]; rfl)

end Sys2Proof.Machine

/-! The interrupt sources and the lines (60_exceptions.md R300 to R304; O33). A mask of one source tests one bit. -/
namespace Sys2Proof.Machine

theorem hasIrq_twoPow (q : BitVec 10) {k : Nat} (hk : k < 10) : hasIrq q (BitVec.twoPow 10 k) = q.getLsbD k := by
  have hne : BitVec.twoPow 10 k ≠ 0#10 := fun h => by
    simpa [hk] using congrArg (BitVec.getLsbD · k) h
  rw [hasIrq, BitVec.and_twoPow]
  cases q.getLsbD k <;> simp [hne]

@[simp] theorem hasIrq_txComplete (q : BitVec 10) : hasIrq q irqTxComplete = q.getLsbD 0 :=
  hasIrq_twoPow q (k := 0) (by decide)
@[simp] theorem hasIrq_rxFrame (q : BitVec 10) : hasIrq q irqRxFrame = q.getLsbD 1 :=
  hasIrq_twoPow q (k := 1) (by decide)
@[simp] theorem hasIrq_txBusErr (q : BitVec 10) : hasIrq q irqTxBusErr = q.getLsbD 2 :=
  hasIrq_twoPow q (k := 2) (by decide)
@[simp] theorem hasIrq_rxBusErr (q : BitVec 10) : hasIrq q irqRxBusErr = q.getLsbD 3 :=
  hasIrq_twoPow q (k := 3) (by decide)
@[simp] theorem hasIrq_crcErr (q : BitVec 10) : hasIrq q irqCrcErr = q.getLsbD 4 :=
  hasIrq_twoPow q (k := 4) (by decide)
@[simp] theorem hasIrq_rxOverrun (q : BitVec 10) : hasIrq q irqRxOverrun = q.getLsbD 5 :=
  hasIrq_twoPow q (k := 5) (by decide)
@[simp] theorem hasIrq_frameTooLong (q : BitVec 10) : hasIrq q irqFrameTooLong = q.getLsbD 6 :=
  hasIrq_twoPow q (k := 6) (by decide)
@[simp] theorem hasIrq_lateCollision (q : BitVec 10) : hasIrq q irqLateCollision = q.getLsbD 7 :=
  hasIrq_twoPow q (k := 7) (by decide)
@[simp] theorem hasIrq_alignErr (q : BitVec 10) : hasIrq q irqAlignErr = q.getLsbD 8 :=
  hasIrq_twoPow q (k := 8) (by decide)
@[simp] theorem hasIrq_txUnderrun (q : BitVec 10) : hasIrq q irqTxUnderrun = q.getLsbD 9 :=
  hasIrq_twoPow q (k := 9) (by decide)

theorem ne_zero_iff_getLsbD {q : BitVec 10} : q ≠ 0#10 ↔ ∃ b, b < 10 ∧ q.getLsbD b = true := by
  refine ⟨fun hne => ?_, fun ⟨b, _, hbit⟩ hzero => by simp [hzero] at hbit⟩
  by_contra hnone
  push Not at hnone
  exact hne (BitVec.eq_of_getLsbD_eq fun b hb => by simpa using hnone b hb)

/-- The sources of a line (60_exceptions.md R303). -/
def lineSources : IrqLines → Bool → List Nat
  | .one, false => [0, 1, 2, 3, 4, 5, 6, 7, 8, 9]
  | .one, true => []
  | .perDirection, false => [0, 2, 7, 9]
  | .perDirection, true => [1, 3, 4, 5, 6, 8]

theorem getLsbD_lineMask (l : IrqLines) (k : Bool) {b : Nat} (hb : b < 10) :
    (lineMask l k).getLsbD b = true ↔ b ∈ lineSources l k := by
  revert b
  cases l <;> cases k <;> decide

theorem getLsbD_pendingOn (s : State) (k : Bool) {b : Nat} (hb : b < 10) :
    (pendingOn s k).getLsbD b = true ↔
      s.irq.status.getLsbD b = true ∧ s.irq.enable.getLsbD b = true ∧ b ∈ lineSources s.cfg.irqLines k := by
  simp [pendingOn, getLsbD_lineMask _ _ hb, and_assoc]

theorem lineAsserted_iff (s : State) (k : Bool) :
    lineAsserted s k = true ↔ s.irq.globalOn = true ∧ pendingOn s k ≠ 0#10 := by
  simp [lineAsserted]

/-- Settles O33: something is pending on the line, bit by bit. -/
theorem lineIsALevel : Obligations.LineIsALevel := by
  intro s k
  have hbits : (∃ b, b < 10 ∧ (pendingOn s k).getLsbD b = true) ↔
      ∃ b, b < 10 ∧ s.irq.status.getLsbD b = true ∧ s.irq.enable.getLsbD b = true
        ∧ b ∈ lineSources s.cfg.irqLines k :=
    exists_congr fun b => and_congr_right fun hb => getLsbD_pendingOn s k hb
  exact (lineAsserted_iff s k).trans (and_congr_right fun _ => ne_zero_iff_getLsbD.trans hbits)

end Sys2Proof.Machine

/-! ISR_DISPATCH by what is pending on its line (60_exceptions.md R308 to R311; O34, O35). -/
namespace Sys2Proof.Machine

/-- What a dispatch of the set `q` with no bus error in it ends in (R308 lines 8 to 17). -/
def served (q : BitVec 10) (s : State) : Result :=
  match serve q s with
  | .ok u => .next (u.answer rcOk (q.setWidth 32))
  | .error r => .refused r

theorem served_ok {q : BitVec 10} {s u : State} {p : Issuer} (hr : Runs s p) (h : serve q s = .ok u) :
    served q s = .next (u.answeredOn p 0#32 (q.setWidth 32)) := by
  rw [served, h]
  exact congrArg _ (answer_eq _ _ ((serve_issuer h).trans hr.1))

/-- A refused service refuses the dispatch (R315). -/
theorem served_error {q : BitVec 10} {s : State} {r : Refusal} (h : serve q s = .error r) :
    served q s = .refused r := by
  rw [served, h]

section
variable {s : State} {p : Issuer} {line : Bool} (hr : Runs s p) (hacc : isrPorts s.cfg line p = true)
include hr hacc

/-- A dispatch that its port accepts goes on to its own lines, whatever the lifecycle (R308). -/
theorem hostOp_isrDispatch (body : Result) : hostOp (isrPorts s.cfg line s.env.issuer) colAny s body = body :=
  hostOp_run body (by rwa [hr.1]) hr.2 (by cases s.life <;> rfl)

/-- No step while interrupts are off (R308 line 3). -/
theorem isrDispatch_off (hoff : s.irq.globalOn = false) : exec (.isrDispatch line) s = .fault .interruptsOff := by
  refine (hostOp_isrDispatch hr hacc _).trans ?_
  rw [hoff]
  rfl

variable (hon : s.irq.globalOn = true)
include hon

/-- The lines of a dispatch in their order, by the bits of what is pending. -/
theorem isrDispatch_on :
    exec (.isrDispatch line) s =
      if pendingOn s line = 0#10 then .next (s.answer rcOk 0#32)
      else if (pendingOn s line).getLsbD 2 then .next (raiseFatal .txBusError s)
      else if (pendingOn s line).getLsbD 3 then .next (raiseFatal .rxBusError s)
      else served (pendingOn s line) s := by
  refine (hostOp_isrDispatch hr hacc _).trans ?_
  rw [if_neg (by simp [hon])]
  dsimp only
  rw [hasIrq_txBusErr, hasIrq_rxBusErr]
  rfl

/-- Nothing is pending (R308 line 5). -/
theorem isrDispatch_spurious (hq : pendingOn s line = 0#10) :
    exec (.isrDispatch line) s = .next (s.answeredOn p 0#32 0#32) := by
  rw [isrDispatch_on hr hacc hon, if_pos hq, answer_eq _ _ hr.1, rcOk_eq]

/-- A bus error is pending (R311): that of Tx is looked at first. -/
theorem isrDispatch_busError (hq : (pendingOn s line).getLsbD 2 = true ∨ (pendingOn s line).getLsbD 3 = true) :
    exec (.isrDispatch line) s
      = .next (raiseFatal (if (pendingOn s line).getLsbD 2 = true then .txBusError else .rxBusError) s) := by
  have hne : pendingOn s line ≠ 0#10 :=
    ne_zero_iff_getLsbD.2 (hq.elim (fun h => ⟨2, by omega, h⟩) fun h => ⟨3, by omega, h⟩)
  rw [isrDispatch_on hr hacc hon, if_neg hne]
  by_cases htx : (pendingOn s line).getLsbD 2 = true
  · rw [if_pos htx, if_pos htx]
  · rw [if_neg htx, if_neg htx, if_pos (hq.resolve_left htx)]

/-- Something is pending and no bus error (R308 lines 8 to 17). -/
theorem isrDispatch_eq_served (hne : pendingOn s line ≠ 0#10) (htx : (pendingOn s line).getLsbD 2 = false)
    (hrx : (pendingOn s line).getLsbD 3 = false) :
    exec (.isrDispatch line) s = served (pendingOn s line) s := by
  rw [isrDispatch_on hr hacc hon, if_neg hne, htx, hrx]
  rfl

end

/-- Settles O34: the two cases in which a dispatch serves nothing. -/
theorem dispatchSpurious : Obligations.DispatchSpurious :=
  fun _ _ _ hr hacc => ⟨isrDispatch_spurious hr hacc, isrDispatch_off hr hacc⟩

/-! The latch in CSR 0 (10_state.md R51). -/

theorem getLsbD_atBit {k b : Nat} (v : Bool) (hk : k < 32) :
    (atBit k v).getLsbD b = (decide (b = k) && v) := by
  have hbit : (atBit k true).getLsbD b = decide (b = k) := by
    rw [atBit, if_pos rfl, ← BitVec.twoPow_eq, BitVec.getLsbD_twoPow]
    simp [hk, eq_comm]
  cases v with
  | true => rw [hbit, Bool.and_true]
  | false => simp [atBit]

theorem getLsbD_lifeCode (l : Life) {b : Nat} (hb : 3 ≤ b) : (lifeCode l).getLsbD b = false := by
  have hlt : (lifeCode l).toNat < 2 ^ 3 := by cases l <;> decide
  exact Nat.testBit_lt_two_pow (hlt.trans_le (Nat.pow_le_pow_right (by omega) hb))

theorem getLsbD_csrEngineState_fatal (s : State) : (csrEngineState s).getLsbD 8 = s.fatal.isSome := by
  simp (disch := omega) only [csrEngineState, BitVec.getLsbD_or, getLsbD_atBit, getLsbD_lifeCode]
  simp

theorem getLsbD_csrEngineState_kind (s : State) :
    (csrEngineState s).getLsbD 9 = (s.fatal == some .rxBusError) := by
  simp (disch := omega) only [csrEngineState, BitVec.getLsbD_or, getLsbD_atBit, getLsbD_lifeCode]
  simp

/-- Settles O35: the latch of the kind that is pending, and what CSR 0 shows of it. -/
theorem dispatchFatalPath : Obligations.DispatchFatalPath := fun _ _ _ hr hacc hon hq =>
  ⟨_, _, isrDispatch_busError hr hacc hon hq, rfl, rfl, rfl, getLsbD_csrEngineState_fatal _,
    getLsbD_csrEngineState_kind _⟩

end Sys2Proof.Machine

/-! The services of a dispatch (60_exceptions.md R306, R308 to R310, R315, R321; O36, O37): the Tx service is the body
of TX_RECLAIM, the Rx service that of RX_POLL, and the statistics sources are counted last. -/
namespace Sys2Proof.Machine

/-- The counters once the sources in `q` are served (R321). -/
def counted (q : BitVec 10) (c : Counters) : Counters :=
  { c with
    crcError := if q.getLsbD 4 then c.crcError + 1#32 else c.crcError
    rxOverrun := if q.getLsbD 5 then c.rxOverrun + 1#32 else c.rxOverrun
    frameTooLong := if q.getLsbD 6 then c.frameTooLong + 1#32 else c.frameTooLong
    lateCollision := if q.getLsbD 7 then c.lateCollision + 1#32 else c.lateCollision
    alignError := if q.getLsbD 8 then c.alignError + 1#32 else c.alignError
    txUnderrun := if q.getLsbD 9 then c.txUnderrun + 1#32 else c.txUnderrun }

theorem countStatistics_eq (q : BitVec 10) (s : State) : countStatistics q s = { s with cnt := counted q s.cnt } := by
  simp [countStatistics, countIf, counted]

/-! The services, by the bits that ask for them. -/

section
variable {q : BitVec 10} {s : State}

theorem serveTx_unasked (h : q.getLsbD 0 = false) : serveTx q s = s := by
  rw [serveTx, hasIrq_txComplete, h]
  rfl

theorem serveTx_of_shape {k : Nat} (h : q.getLsbD 0 = true) (hk : TxShape s k) : serveTx q s = reclaimed k s := by
  rw [serveTx, hasIrq_txComplete, if_pos h, reclaim_of_shape hk]

theorem serveRx_unasked (h : q.getLsbD 1 = false) : serveRx q s = .ok s := by
  rw [serveRx, hasIrq_rxFrame, h]
  rfl

theorem serveRx_asked (h : q.getLsbD 1 = true) : serveRx q s = (poll s).map Prod.fst := by
  rw [serveRx, hasIrq_rxFrame, if_pos h]
  cases poll s <;> rfl

theorem serve_eq : serve q s =
    (serveRx q (serveTx q (acknowledge q s))).map fun u => { u with cnt := counted q u.cnt } := by
  rw [serve]
  cases serveRx q (serveTx q (acknowledge q s)) with
  | ok u => exact congrArg _ (countStatistics_eq q u)
  | error r => rfl

/-- Without a poll the services are what the Tx service does, and the counting. -/
theorem serve_unpolled (h : q.getLsbD 1 = false) {u : State} (hu : serveTx q (acknowledge q s) = u) :
    serve q s = .ok { u with cnt := counted q u.cnt } := by
  rw [serve_eq, serveRx_unasked h, hu]
  rfl

/-- With a poll they are also what the poll does at the state that the Tx service leaves. -/
theorem serve_polled (h : q.getLsbD 1 = true) {u : State} (hu : serveTx q (acknowledge q s) = u) :
    serve q s = (poll u).map fun x => { x.1 with cnt := counted q x.1.cnt } := by
  rw [serve_eq, serveRx_asked h, hu]
  cases poll u <;> rfl

end

/-- Settles O36: neither ring service is asked for. -/
theorem dispatchCounts : Obligations.DispatchCounts := by
  intro s p line hr hacc hon q hne hlow
  exact (isrDispatch_eq_served hr hacc hon hne (hlow 2 (by omega)) (hlow 3 (by omega))).trans
    (served_ok hr (serve_unpolled (hlow 1 (by omega)) (serveTx_unasked (hlow 0 (by omega)))))

section
variable {s u : State} {p : Issuer} {line : Bool} (hr : Runs s p) (hacc : isrPorts s.cfg line p = true)
  (hon : s.irq.globalOn = true) (htx : (pendingOn s line).getLsbD 2 = false)
  (hrx : (pendingOn s line).getLsbD 3 = false) (hpoll : (pendingOn s line).getLsbD 1 = true)
  (hu : serveTx (pendingOn s line) (acknowledge (pendingOn s line) s) = u)
  (hru : Runs u p) (hport : rxRingPorts u.cfg p = true) (hl : isLive u.life)
include hr hacc hon htx hrx hpoll hu hru hport hl

/-- A dispatch with `RX_FRAME` does what RX_POLL does at the state `u` that the Tx service leaves, counts, and answers
the set; a refused poll refuses it (R310, R315). -/
theorem isrDispatch_polls :
    (∀ t, exec .rxPoll u = .next t →
      exec (.isrDispatch line) s = .next (State.answeredOn { t with cnt := counted (pendingOn s line) t.cnt } p 0#32
        ((pendingOn s line).setWidth 32)))
      ∧ ∀ r, exec .rxPoll u = .refused r → exec (.isrDispatch line) s = .refused r := by
  have hne : pendingOn s line ≠ 0#10 := ne_zero_iff_getLsbD.2 ⟨1, by omega, hpoll⟩
  have hserve := serve_polled hpoll hu
  rw [isrDispatch_eq_served hr hacc hon hne htx hrx]
  cases hx : poll u with
  | ok x =>
    obtain ⟨v, n⟩ := x
    rw [hx] at hserve
    rw [served_ok hr hserve, rxPoll_ok hru hport hl hx]
    refine ⟨fun t ht => ?_, fun r h => by cases h⟩
    cases ht
    cases p <;> rfl
  | error r =>
    rw [hx] at hserve
    rw [served_error hserve, rxPoll_error hru hport hl hx]
    refine ⟨fun t ht => ?_, fun _ h => h⟩
    cases ht

end

/-- Settles O37: the Tx service alone, the Rx service alone, and one after the other. -/
theorem dispatchRunsServices : Obligations.DispatchRunsServices := by
  intro s p line hr hacc hon q count htx hrx
  have hreclaim {k : Nat} (hq : q.getLsbD 0 = true) (hk : TxShape s k) :
      serveTx q (acknowledge q s) = reclaimed k (acknowledge q s) := serveTx_of_shape hq hk
  refine ⟨fun k hq hno hk => ?_, fun hno hq hl hport => ?_, fun k hq hq' hl hport hk => ?_⟩
  · exact (isrDispatch_eq_served hr hacc hon (ne_zero_iff_getLsbD.2 ⟨0, by omega, hq⟩) htx hrx).trans
      (served_ok hr (serve_unpolled hno (hreclaim hq hk)))
  · exact isrDispatch_polls hr hacc hon htx hrx hq (serveTx_unasked hno) hr hport hl
  · exact isrDispatch_polls hr hacc hon htx hrx hq' (hreclaim hq hk) hr hport hl

end Sys2Proof.Machine

/-! Who writes the interrupt unit and the counters (60_exceptions.md R301, R305, R321; O38). -/
namespace Sys2Proof.Machine

/-- No bit of `irqStatus` is set from `s` to `t` (R301). -/
abbrev RaisesNone (s t : State) : Prop := t.irq.status &&& ~~~s.irq.status = 0#10

theorem raisesNone_of_irq {s t : State} (h : t.irq = s.irq) : RaisesNone s t := by
  simp [RaisesNone, h]

theorem raisesNone_of_status_zero {s t : State} (h : t.irq.status = 0#10) : RaisesNone s t := by
  rw [RaisesNone, h, BitVec.zero_and]

/-- The services acknowledge the set and touch no other source (R308 line 8). -/
theorem serve_status {q : BitVec 10} {s t : State} (h : serve q s = .ok t) :
    t.irq.status = s.irq.status &&& ~~~q := by
  obtain ⟨u, hu, rfl⟩ := serve_ok h
  obtain ⟨-, -, -, -, -, htx, -⟩ := serveTx_frame q (acknowledge q s)
  rcases serveRx_ok hu with ⟨-, n, hpoll⟩ | ⟨-, rfl⟩
  · obtain ⟨-, -, -, -, -, -, hirq, -⟩ := poll_frame hpoll
    simp [hirq, htx]
  · simp [htx]

/-- On a host port no effect sets a source. -/
theorem Effect.raisesNone {s t : State} (he : Effect s t) (hport : isHostPort s.env.issuer) : RaisesNone s t := by
  have hhw : s.env.issuer ≠ .hw := by rcases hport with h | h | h <;> simp [h]
  cases he with
  | primitive u val hs => rcases hport with h | h | h <;> cases h.symm.trans hs.1.1
  | init bufs u => exact raisesNone_of_status_zero (by simp [initialise])
  | initShort bufs u hd => exact raisesNone_of_irq (by rw [drawPool_frame hd]; simp)
  | deinit => exact raisesNone_of_status_zero (by simp [finishDeinit])
  | deinitHolds => simp [RaisesNone]
  | rxPoll u n val hl hpoll =>
    obtain ⟨-, -, -, -, -, -, hirq, -⟩ := poll_frame hpoll
    exact raisesNone_of_irq (by simpa using hirq)
  | isrServe q u val hon hserve =>
    rw [RaisesNone, answer_irq, serve_status hserve, BitVec.and_assoc, BitVec.and_comm (~~~q), ← BitVec.and_assoc]
    simp
  | txdmaFetch hp | txdmaComplete _ hp | txdmaSuspend hp | txdmaBusError hp | rxFrameArrive _ hp | rxdmaWrite _ hp
  | rxdmaSuspend hp | rxdmaBusError hp | statusEvent _ hp | mdioDone hp => exact absurd hp hhw
  | answer | enable | disable | disableHolds | txEnqueue | txReclaim | rxPrime | setOwnAddr | addMcast | clearMcast
  | setPam | setPromisc | mdioHolds | isrFatal => exact raisesNone_of_irq (by simp)

/-- A primitive whose effect leaves the unit and the counters alone. -/
theorem primitive_irq_cnt {s t eff : State} {inRange pre : Bool} {val : Word}
    (h : primitive s inRange pre eff val = .next t) (hirq : eff.irq = s.irq) (hcnt : eff.cnt = s.cnt) :
    t.irq = s.irq ∧ t.cnt = s.cnt := by
  rcases primitive_next h with ⟨-, -, -, rfl⟩ | ⟨-, rfl⟩ <;> simp [hirq, hcnt]

/-- No primitive writes the unit or a counter. -/
theorem exec_primitive_irq_cnt {i : Instr} {s t : State} (hhost : isHostOp i = false) (hagent : isAgentStep i = false)
    (h : exec i s = .next t) : t.irq = s.irq ∧ t.cnt = s.cnt := by
  cases i
  case startDma ring | stopDma ring => cases ring <;> exact primitive_irq_cnt h rfl rfl
  case setLinkConfig => exact primitive_irq_cnt h (by split <;> rfl) (by split <;> rfl)
  case isSlotOwnedByDma | writeTxDesc | writeRxDesc | isFirstFragment | isLastFragment | isErrorFragment
      | totalFrameLength | isBufferDmaReadable | writeUnicastAddr | writeMcastAddr | mdioTransaction
      | writeFilterFlags =>
    exact primitive_irq_cnt h rfl rfl
  case txdmaFetch | txdmaComplete | txdmaSuspend | txdmaBusError | rxFrameArrive | rxdmaWrite | rxdmaSuspend
      | rxdmaBusError | statusEvent | mdioDone => cases hagent
  all_goals cases hhost

/-- Only the steps of the hardware agents set bits of `irqStatus` (R301). -/
theorem exec_raisesNone {i : Instr} {s t : State} (hagent : isAgentStep i = false) (h : exec i s = .next t) :
    RaisesNone s t := by
  cases hhost : isHostOp i with
  | true => exact (exec_effect h).raisesNone (hostPort_of_hostOp hhost h)
  | false => exact raisesNone_of_irq (exec_primitive_irq_cnt hhost hagent h).1

/-- From `s` to `t` neither `irqEnable` nor `irqGlobal` is written. -/
@[simp] abbrev GatesKept (s t : State) : Prop := t.irq.enable = s.irq.enable ∧ t.irq.globalOn = s.irq.globalOn

/-- From `s` to `t` no counter of a status source is written. -/
@[simp] abbrev CountersKept (s t : State) : Prop := t.cnt = { s.cnt with rxError := t.cnt.rxError }

theorem countersKept_of_cnt {s t : State} (h : t.cnt = s.cnt) : CountersKept s t := by
  rw [CountersKept, h]

/-- DEINIT writes the gates of the unit, but no counter (43_engine.md R204). -/
theorem exec_deinit_countersKept {s t : State} (h : exec .deinit s = .next t) : CountersKept s t :=
  hostOp_keeps (P := CountersKept s) (by simp) h fun _ hb => by
    dsimp only at hb
    split at hb <;> cases hb <;> exact countersKept_of_cnt (by simp [finishDeinit])

/-- ISR_DISPATCH writes counters, but not the gates of the unit (R308). -/
theorem exec_isrDispatch_gatesKept {line : Bool} {s t : State} (h : exec (.isrDispatch line) s = .next t) :
    GatesKept s t :=
  hostOp_keeps (P := GatesKept s) (by simp) h fun _ hb => by
    dsimp only at hb
    split_ifs at hb
    iterate 3
      cases hb
      simp
    split at hb <;> cases hb
    obtain ⟨-, -, -, -, henable, hglobal, -⟩ := serve_frame ‹_›
    simpa using And.intro henable hglobal

/-! The instructions that are in no family of R205 and are no primitives. -/

theorem exec_enable_unit {sp du : BitVec 2} {s t : State} (h : exec (.enable sp du) s = .next t) :
    GatesKept s t ∧ CountersKept s t :=
  hostOp_keeps (P := fun t => GatesKept s t ∧ CountersKept s t) (by simp) h fun _ hb => by
    split at hb
    · cases hb
      simp
    · split_ifs at hb
      cases hb
      simp

theorem exec_disable_unit {s t : State} (h : exec .disable s = .next t) : GatesKept s t ∧ CountersKept s t :=
  hostOp_keeps (P := fun t => GatesKept s t ∧ CountersKept s t) (by simp) h fun _ hb => by
    dsimp only at hb
    split at hb <;> cases hb <;> simp

theorem exec_statusEvent_unit {kind : BitVec 8} {s t : State} (h : exec (.statusEvent kind) s = .next t) :
    GatesKept s t ∧ CountersKept s t :=
  agentStep_keeps (P := fun t => GatesKept s t ∧ CountersKept s t) (by simp) h fun hb => by
    cases hb
    simp

/-- Every instruction but INIT, DEINIT and ISR_DISPATCH leaves the gates and the counters alone, by its family. -/
theorem exec_unit_kept {i : Instr} {s t : State} (hinit : i ≠ .init) (hdeinit : i ≠ .deinit)
    (hdispatch : ∀ line, i ≠ .isrDispatch line) (h : exec i s = .next t) : GatesKept s t ∧ CountersKept s t := by
  cases i
  case init => exact absurd rfl hinit
  case deinit => exact absurd rfl hdeinit
  case isrDispatch line => exact absurd rfl (hdispatch line)
  case txEnqueue | txReclaim | txdmaFetch | txdmaComplete | txdmaSuspend | txdmaBusError =>
    rw [(exec_txFootprint (by simp) h).1]
    exact ⟨⟨rfl, rfl⟩, rfl⟩
  case rxPrime | rxPoll | rxFrameArrive | rxdmaWrite | rxdmaSuspend | rxdmaBusError =>
    rw [(exec_rxFootprint (by simp) h).1]
    exact ⟨⟨rfl, rfl⟩, rfl⟩
  case setOwnAddr | addMcast | clearMcast | setPam | setPromisc =>
    rw [exec_filterFootprint (by simp) h]
    exact ⟨⟨rfl, rfl⟩, rfl⟩
  case mdioRead | mdioWrite | mdioDone =>
    rw [exec_mdioFootprint (by simp) h]
    exact ⟨⟨rfl, rfl⟩, rfl⟩
  case enable => exact exec_enable_unit h
  case disable => exact exec_disable_unit h
  case statusEvent => exact exec_statusEvent_unit h
  all_goals
    obtain ⟨hirq, hcnt⟩ := exec_primitive_irq_cnt rfl rfl h
    exact ⟨⟨by rw [hirq], by rw [hirq]⟩, countersKept_of_cnt hcnt⟩

/-- Settles O38: the sources, then the gates but for ISR_DISPATCH, then the counters but for DEINIT. -/
theorem interruptUnitWriters : Obligations.InterruptUnitWriters := by
  intro i s t h
  refine ⟨fun hagent => exec_raisesNone hagent h, fun hinit hdeinit => ?gates, fun hinit hdispatch => ?counters⟩
  case gates =>
    by_cases hi : ∃ line, i = .isrDispatch line
    · obtain ⟨line, rfl⟩ := hi
      exact exec_isrDispatch_gatesKept h
    · exact (exec_unit_kept hinit hdeinit (not_exists.1 hi) h).1
  case counters =>
    by_cases hi : i = .deinit
    · subst hi
      exact exec_deinit_countersKept h
    · exact (exec_unit_kept hinit hi hdispatch h).2

end Sys2Proof.Machine

/-! The end of an MDIO transaction (44_dma_agents.md R240, 70_reset_and_hazards.md R351, R353; O60): `mdioBusy` is
cleared by MDIO_DONE, INIT and power-on only, and a fair run comes to that MDIO_DONE. -/
namespace Sys2Proof.Machine

/-! What clears `mdioBusy`. -/

/-- A transaction that runs in `s` still runs in `t`. -/
abbrev KeepsBusy (s t : State) : Prop := s.mdio.busy = true → t.mdio.busy = true

theorem keepsBusy_of_mdio {s t : State} (h : t.mdio = s.mdio) : KeepsBusy s t := by
  rw [KeepsBusy, h]
  exact id

theorem keepsBusy_answer (s : State) (res val : Word) : KeepsBusy s (s.answer res val) :=
  keepsBusy_of_mdio (answer_mdio s res val)

@[simp] theorem serveTx_mdio (q : BitVec 10) (s : State) : (serveTx q s).mdio = s.mdio := by
  unfold serveTx
  split
  · rw [reclaim_frame]
  · rfl

theorem serve_mdio {q : BitVec 10} {s t : State} (h : serve q s = .ok t) : t.mdio = s.mdio := by
  obtain ⟨u, hu, rfl⟩ := serve_ok h
  rcases serveRx_ok hu with ⟨-, n, hpoll⟩ | ⟨-, rfl⟩
  · obtain ⟨-, -, -, -, -, hmdio, -⟩ := poll_frame hpoll
    simpa using hmdio
  · simp

theorem exec_deinit_mdio {s t : State} (h : exec .deinit s = .next t) : t.mdio = s.mdio :=
  hostOp_keeps (P := fun t => t.mdio = s.mdio) (by simp) h fun _ hb => by
    dsimp only at hb
    split at hb <;> cases hb <;> simp [finishDeinit]

theorem exec_enable_mdio {sp du : BitVec 2} {s t : State} (h : exec (.enable sp du) s = .next t) : t.mdio = s.mdio :=
  hostOp_keeps (P := fun t => t.mdio = s.mdio) (by simp) h fun _ hb => by
    split at hb
    · cases hb
      simp
    · split_ifs at hb
      cases hb
      simp

theorem exec_disable_mdio {s t : State} (h : exec .disable s = .next t) : t.mdio = s.mdio :=
  hostOp_keeps (P := fun t => t.mdio = s.mdio) (by simp) h fun _ hb => by
    dsimp only at hb
    split at hb <;> cases hb <;> simp

theorem exec_isrDispatch_mdio {line : Bool} {s t : State} (h : exec (.isrDispatch line) s = .next t) :
    t.mdio = s.mdio :=
  hostOp_keeps (P := fun t => t.mdio = s.mdio) (by simp) h fun _ hb => by
    dsimp only at hb
    split_ifs at hb
    iterate 3
      cases hb
      simp
    split at hb <;> cases hb
    simpa using serve_mdio ‹_›

/-- MDIO_READ and MDIO_WRITE are refused while a transaction runs (R180, R181). -/
theorem mdioOp_keepsBusy {legal : Bool} {cell : Life → Cell} {s t u : State}
    (h : hostOp legal cell s (if s.mdio.busy then .refused .mdioWhileBusy else .next u) = .next t) : KeepsBusy s t :=
  hostOp_keeps (keepsBusy_answer s) h fun _ hb => by
    split_ifs at hb with hbusy
    exact fun hrunning => absurd hrunning hbusy

theorem primitive_keepsBusy {s t eff : State} {inRange pre : Bool} {val : Word}
    (h : primitive s inRange pre eff val = .next t) (heff : KeepsBusy s eff) : KeepsBusy s t := by
  rcases primitive_next h with ⟨-, -, -, rfl⟩ | ⟨-, rfl⟩
  · simpa [KeepsBusy] using heff
  · exact keepsBusy_answer s _ _

/-- Every instruction but INIT and MDIO_DONE lets a transaction run on: the families but that of MDIO do not write the
engine's state, and no transaction begins while one runs (R180, R181, R274). -/
theorem exec_keepsBusy {i : Instr} {s t : State} (hinit : i ≠ .init) (hdone : i ≠ .mdioDone)
    (h : exec i s = .next t) : KeepsBusy s t := by
  cases i
  case init => exact absurd rfl hinit
  case mdioDone => exact absurd rfl hdone
  case txEnqueue | txReclaim | txdmaFetch | txdmaComplete | txdmaSuspend | txdmaBusError =>
    rw [(exec_txFootprint (by simp) h).1]
    exact id
  case rxPrime | rxPoll | rxFrameArrive | rxdmaWrite | rxdmaSuspend | rxdmaBusError =>
    rw [(exec_rxFootprint (by simp) h).1]
    exact id
  case setOwnAddr | addMcast | clearMcast | setPam | setPromisc =>
    rw [exec_filterFootprint (by simp) h]
    exact id
  case deinit => exact keepsBusy_of_mdio (exec_deinit_mdio h)
  case enable => exact keepsBusy_of_mdio (exec_enable_mdio h)
  case disable => exact keepsBusy_of_mdio (exec_disable_mdio h)
  case isrDispatch => exact keepsBusy_of_mdio (exec_isrDispatch_mdio h)
  case mdioRead | mdioWrite => exact mdioOp_keepsBusy h
  case statusEvent =>
    refine agentStep_keeps (keepsBusy_answer s) h fun hb => ?_
    cases hb
    exact id
  case startDma ring | stopDma ring => cases ring <;> exact primitive_keepsBusy h id
  case setLinkConfig => exact primitive_keepsBusy h (keepsBusy_of_mdio (by split <;> rfl))
  case mdioTransaction => exact primitive_keepsBusy h fun _ => rfl
  all_goals exact primitive_keepsBusy h id

theorem completeHeld_mdio {p : Issuer} {s t : State} (h : completeHeld p s = .next t) : t.mdio = s.mdio := by
  obtain ⟨k, -, -, hend⟩ := completeHeld_next h
  rcases finishHeld_some hend with ⟨-, -, rfl⟩ | ⟨-, -, rfl⟩ | ⟨ret, -, rfl⟩
  all_goals simp [finishDeinit]

/-- R240, R351: a step lets a transaction run on, unless it is MDIO_DONE, INIT or power-on. -/
theorem step_keepsBusy {s t : State} (hdone : runsNext s ≠ some .mdioDone) (hinit : runsNext s ≠ some .init)
    (hpower : s.env.inputs.head? ≠ some .powerOn) (h : step s = .next t) : KeepsBusy s t := by
  rcases step_next h with ⟨-, rfl⟩ | ⟨x, rest, hin, ⟨p, w, i, rfl, hh, hd, he⟩ | ⟨p, w, -, -, -, hi⟩ | ⟨p, -, hc⟩
    | ⟨p, n, -, hr⟩ | ⟨p, a, -, hr⟩ | ⟨p, a, -, hr⟩ | ⟨p, a, v, -, hs⟩ | ⟨rfl, -⟩⟩
  · exact id
  · rw [runsNext_present hin hh hd] at hdone hinit
    simpa [KeepsBusy] using exec_keepsBusy (fun e => hinit (e ▸ rfl)) (fun e => hdone (e ▸ rfl)) he
  · obtain ⟨rfl, -, -⟩ := illegal_next hi
    exact keepsBusy_of_mdio (by simp)
  · exact keepsBusy_of_mdio ((completeHeld_mdio hc).trans (dropInput_mdio s))
  iterate 3 exact keepsBusy_of_mdio (by rw [← Host.Outcome.next.inj hr]; simp)
  · rw [hostStore_next hs]
    exact id
  · exact absurd (by rw [hin]; rfl) hpower

/-! MDIO_DONE. -/

@[simp] theorem endTransaction_busy (s : State) : (endTransaction s).mdio.busy = false := by
  unfold endTransaction
  dsimp only
  split <;> rfl

/-- With a transaction running and the latch clear, MDIO_DONE has a step, and it ends the transaction (R240). -/
theorem step_mdioDone_ends {s : State} {w : OpTuple} {rest : List Stim} (hin : s.env.inputs = .present .hw w :: rest)
    (hd : decode w = some .mdioDone) (hf : s.fatal = none) (hb : s.mdio.busy = true) :
    ∃ t, step s = .next t ∧ t.mdio.busy = false := by
  refine ⟨finishMdio (s.dropInput.latch .hw w), ?_, by simp⟩
  rw [step_present_decoded hin rfl hd]
  exact exec_mdioDone ⟨by simp, by simpa using hf⟩ (by simpa using hb)

/-! Fair runs. -/

theorem eq_mdioDone_of_mnemonic {j : Instr} (h : j.row.mnemonic = Instr.mdioDone.row.mnemonic) : j = .mdioDone := by
  cases j
  case mdioDone => rfl
  all_goals exact absurd h (by simp [Instr.row])

/-- While a transaction runs its MDIO_DONE is enabled, so a fair run in which it never ended would take that step
(R353). -/
theorem fairRun_takes_mdioDone {run : Nat → State} {n : Nat} (hfair : FairRun run) (hcfg : (run 0).cfg.fair = true)
    (hf : ∀ m, (run m).fatal = none) (hb : ∀ m, n ≤ m → (run m).mdio.busy = true) :
    ∃ m, n ≤ m ∧ takesNext (run m) .mdioDone := by
  obtain ⟨m, j, hm, hj, htakes⟩ := hfair hcfg .mdioDone n rfl fun m hm => ⟨hf m, hb m hm⟩
  exact ⟨m, hm, eq_mdioDone_of_mnemonic hj ▸ htakes⟩

/-- In a run, a transaction is over once its MDIO_DONE is taken. -/
theorem isRun_mdioDone_ends {run : Nat → State} {m : Nat} (hrun : IsRun run) (htakes : takesNext (run m) .mdioDone)
    (hf : (run m).fatal = none) (hb : (run m).mdio.busy = true) : (run (m + 1)).mdio.busy = false := by
  obtain ⟨w, hhead, hd⟩ := htakes
  obtain ⟨rest, hin⟩ := List.head?_eq_some_iff.1 hhead
  obtain ⟨t, hstep, hover⟩ := step_mdioDone_ends hin hd hf hb
  obtain ⟨u, hnext, hchosen⟩ := hrun m
  cases hstep.symm.trans hnext
  rw [hchosen]
  exact hover

/-- Settles O60: MDIO_DONE's step, then what else clears `mdioBusy`, then the MDIO_DONE that fairness owes. -/
theorem mdioEndsUnderFairness : Obligations.MdioEndsUnderFairness := by
  refine ⟨fun s w rest => step_mdioDone_ends, fun s t hstep hb hover => ?_, fun run n hrun hcfg hfair hf _ => ?_⟩
  · by_contra hnone
    obtain ⟨hdone, hinit, hpower⟩ := not_or.1 hnone |>.imp_right not_or.1
    exact Bool.false_ne_true (hover.symm.trans (step_keepsBusy hdone hinit hpower hstep hb))
  · by_contra hnever
    have hbusy : ∀ m, n ≤ m → (run m).mdio.busy = true := by simpa using hnever
    obtain ⟨m, hm, htakes⟩ := fairRun_takes_mdioDone hfair hcfg hf hbusy
    exact hnever ⟨m + 1, by omega, isRun_mdioDone_ends hrun htakes (hf m) (hbusy m hm)⟩

end Sys2Proof.Machine
